-- ==== Sys2Proof/Word.lean ====
section
/-! DEFINITION. The machine's word types (spec 1.1: the memory port carries 16-bit words; the
exchange RAM is laid out in bytes).  Everything that could need mending (byte order, CRC, saturating
arithmetic) stands in Sys2Proof/Machine/Bytes.lean. -/

namespace Sys2Proof

/-- One byte of the exchange RAM or of a radio frame. -/
abbrev Byte := BitVec 8

/-- One word of the memory port, D[15:0]. -/
abbrev Word := BitVec 16

/-- The word address A[13:1]: one of the 8192 words of the exchange window (R1). -/
abbrev WordAddr := BitVec 13

/-- A request slot, a Message Box slot or a fare record slot, 0..15. -/
abbrev Slot := Fin 16

/-- A place of the Offer Table, 0..7. -/
abbrev Place := Fin 8

end Sys2Proof
end

