-- ==== Sys2Proof/Syntax.lean ====
section
/-! DEFINITION. The commands of the CX-412: one constructor per row of spec/opcode_table.json.

A row whose event comes from outside the part carries what the outside brings: the word address and
the word of a host write, the level or the sample of an input, the received bits and bytes.  A row by
which a block takes something another block has handed it (a routed frame, a report, an outcome, an
expired timer) carries nothing, or the place concerned: what is taken stands in `State`. -/

namespace Sys2Proof

/-- The four header bytes of a frame on air (spec 3.2), in the order received. -/
structure Header where
  kind   : Byte
  len    : Byte
  addrHi : Byte
  addrLo : Byte
  deriving DecidableEq, Repr

/-- The commands, in the order of the opcode table. -/
inductive Instr where
  /-- POWER_ON (R19): RESET_N rises; `vsup` is the first reading of VSUP_SENSE, in 0.1 V of cab
  supply before the clamp at 255 (R191). -/
  | powerOn (vsup : Nat)
  /-- LOGIC_SUPPLY_LOSS (R193): RESET_N falls. -/
  | logicSupplyLoss
  /-- HOST_SLOT_DATA_WRITE (R4): a host write of `v` at word address `a`, a slot's data word. -/
  | hostSlotDataWrite (a : WordAddr) (v : Word)
  /-- FIXED_BLOCK_WRITE (R2): a host write to a fixed block or an Offer Board slot. -/
  | fixedBlockWrite (a : WordAddr) (v : Word)
  /-- POSITION_BLOCK_WRITE (R9): a host write to the Position Block's change count. -/
  | positionBlockWrite (v : Word)
  /-- REQUEST_HANDOVER (R5): a host write to the hand word of a request slot. -/
  | requestHandover (slot : Slot) (v : Word)
  /-- MESSAGE_BOX_RETURN (R168): a host write to the hand word of a Message Box slot. -/
  | messageBoxReturn (slot : Slot) (v : Word)
  /-- RECORD_COLLECTION (R155): a host write to the hand word of a fare record slot. -/
  | recordCollection (slot : Slot) (v : Word)
  /-- ATTENTION_READ (R15). -/
  | attentionRead
  /-- ATTN_MASK_WRITE (R16). -/
  | attnMaskWrite (v : Word)
  /-- RUN (R24): a host write to CONTROL with bit 0 at 1. -/
  | run (v : Word)
  /-- SOFT_RESET (R28): a host write to CONTROL with bit 1 at 1. -/
  | softReset (v : Word)
  /-- REGISTER_WRITE (R14): a host write to IDENT, to ATTENTION or to an unused area. -/
  | registerWrite (a : WordAddr) (v : Word)
  /-- BAD_REQUEST (R11). -/
  | badRequest
  /-- DUTY_ON (R144). -/
  | dutyOn
  /-- DUTY_OFF (R145). -/
  | dutyOff
  /-- SET_ZONE (R119). -/
  | setZone
  /-- SEND_STATUS (R78). -/
  | sendStatus
  /-- METER_HIRE (R147). -/
  | meterHire
  /-- METER_STOP (R148). -/
  | meterStop
  /-- METER_RESUME (R148). -/
  | meterResume
  /-- METER_CLEAR (R149). -/
  | meterClear
  /-- SELECT_TARIFF (R136). -/
  | selectTariff
  /-- ADD_EXTRA (R137). -/
  | addExtra
  /-- ACCEPT_OFFER (R110). -/
  | acceptOffer
  /-- DECLINE_OFFER (R116). -/
  | declineOffer
  /-- RESUME_OFFERS (R109). -/
  | resumeOffers
  /-- SEND_MESSAGE (R171). -/
  | sendMessage
  /-- RAISE_EMERGENCY (R179). -/
  | raiseEmergency
  /-- REPLACE_SETTINGS (R26). -/
  | replaceSettings
  /-- CLEAR_LINK_LOG (R93). -/
  | clearLinkLog
  /-- HEADER_LENGTH_ERROR (R34): the fourth header byte is in, with L above 56. -/
  | headerLengthError (h : Header)
  /-- RECEIVE_OVERRUN (R40): received bits that end in a sync, with a frame still held. -/
  | receiveOverrun (bits : List Bool)
  /-- RECEIVE_FRAME_END (R35): the L payload bytes and the two CRC bytes, high byte first. -/
  | receiveFrameEnd (payload : List Byte) (crc : Word)
  /-- RECEIVE_CLOCK_LOSS (R41). -/
  | receiveClockLoss
  /-- BEACON (R51): the Cycle Tracker takes the held beacon. -/
  | beacon
  /-- BEACON_AT_LINK (R86): the Link Quality Unit takes the held beacon. -/
  | beaconAtLink
  /-- JOB_OFFER (R102). -/
  | jobOffer
  /-- JOB_AWARD (R113). -/
  | jobAward
  /-- JOB_WITHDRAW (R115). -/
  | jobWithdraw
  /-- BASE_MESSAGE (R163). -/
  | baseMessage
  /-- EMERGENCY_ACK (R180). -/
  | emergencyAck
  /-- EMERGENCY_CLEAR (R181). -/
  | emergencyClear
  /-- CAB_SUSPEND (R118). -/
  | cabSuspend
  /-- CAB_RESUME (R118). -/
  | cabResume
  /-- BEACON_MISSED (R52). -/
  | beaconMissed
  /-- SLOT_START (R62). -/
  | slotStart
  /-- KEYING_END (R45). -/
  | keyingEnd
  /-- FRAME_SENT (R45). -/
  | frameSent
  /-- SLOT_END (R45). -/
  | slotEnd
  /-- SEND_REPORT (R63). -/
  | sendReport
  /-- LINK_OUTCOME (R84). -/
  | linkOutcome
  /-- RECEIVE_ERROR (R85). -/
  | receiveError
  /-- BEACON_MISSED_REPORT (R87). -/
  | beaconMissedReport
  /-- SYNC_LOST_REPORT (R87). -/
  | syncLostReport
  /-- QUEUE_OUTCOME (R79). -/
  | queueOutcome
  /-- STATUS_TIMER_EXPIRY (R76). -/
  | statusTimerExpiry
  /-- ACCEPT_UNDELIVERED (R111). -/
  | acceptUndelivered
  /-- HELD_SEND_COMPLETION (R172). -/
  | heldSendCompletion
  /-- REPORT_DONE (R157). -/
  | reportDone
  /-- OFFER_DEADLINE_EXPIRY (R108): the deadline of the entry in `place`. -/
  | offerDeadlineExpiry (place : Place)
  /-- AWARD_WAIT_EXPIRY (R111): the award wait of the entry in `place`. -/
  | awardWaitExpiry (place : Place)
  /-- BASE_SUSPENSION_EXPIRY (R118). -/
  | baseSuspensionExpiry
  /-- CHIME_PULSE_END (R100). -/
  | chimePulseEnd
  /-- METER_TICK (R128). -/
  | meterTick
  /-- DISTANCE_PULSE (R134): a rising edge on DPULSE. -/
  | distancePulse
  /-- LIMITER_WINDOW_START (R133). -/
  | limiterWindowStart
  /-- MARK_EVENT (R139). -/
  | markEvent
  /-- SHIFT_TOTAL_ADDITION (R151). -/
  | shiftTotalAddition
  /-- REMINDER_EXPIRY (R170). -/
  | reminderExpiry
  /-- DEBOUNCED_FALLING_EDGE (R176): the low sample of EMG_N that completes the debounce period. -/
  | debouncedFallingEdge
  /-- EMERGENCY_STATE_CHANGE (R186). -/
  | emergencyStateChange
  /-- CALL_OUTCOME (R184). -/
  | callOutcome
  /-- TRACKING_TIMER_EXPIRY (R185). -/
  | trackingTimerExpiry
  /-- SUPPLY_SAMPLE (R192): `vsup` in 0.1 V of cab supply, before the clamp at 255 (R191). -/
  | supplySample (vsup : Nat)
  /-- TIME_BASE_TICK (R48). -/
  | timeBaseTick
  /-- EMERGENCY_INPUT_SAMPLE (R176): the level of EMG_N, `low` when the switch pulls it low. -/
  | emergencyInputSample (low : Bool)
  /-- SYNC_FOUND (R33): received bits that end in the 24-bit sync. -/
  | syncFound (bits : List Bool)
  /-- HEADER_COLLECTED (R34): the four header bytes, with L in 0..56. -/
  | headerCollected (h : Header)
  /-- SKIP_END (R40): the bytes counted through in SKIP. -/
  | skipEnd (bytes : List Byte)
  /-- BACKUP_SUPPLY_LOSS (R194). -/
  | backupSupplyLoss
  deriving DecidableEq, Repr

end Sys2Proof
end

