-- ==== Sys2Proof/Decode.lean ====
section
/-! DEFINITION. The reading of a command from a word.  The opcode table gives bits to none of its rows
(every row's list of fields is empty), so no word spells a command (log entry 3). -/

namespace Sys2Proof

/-- The command that a word spells by the table's bits: none, for any word of any length. -/
def decodeTableWord (nbits w : Nat) : Option Instr :=
  match nbits, w with
  | _, _ => none

end Sys2Proof
end

