-- ==== Sys2Proof/Config.lean ====
section
/-! DEFINITION. What the data book leaves open and the model does not choose: opaque constants
without a body, so that no proof can lean on a value of theirs.  Each is applied to the counter
`State.free`, which every use advances, so that every use may answer differently. -/

namespace Sys2Proof.Config

/-- R25, R29: the blocks carry out their parts of a RUN write and of a soft reset "in no order among
themselves".  Where the order changes the result, this free value picks it (log entry 9). -/
opaque freeOrder : Nat → Bool

/-- R61: whether the Link Quality Unit has taken the reports that wait for it before the Cycle Tracker's
choice (log entry 12). -/
opaque freeLink : Nat → Bool

/-- R186: the neighbours take a change of the emergency state "in no order among them": where more than
one of them has it still to take, this free value picks the one whose event comes next (log entry 15). -/
opaque freeNeighbour : Nat → Nat

/-- Whether VBAK, once lost, is still absent at a power-on: the data book has no event for its return
(log entry 26). -/
opaque freeVbak : Nat → Bool

/-- The level of an output pin while the logic supply is absent: the data book gives none
(log entry 10). -/
opaque freeLevel : Nat → Bool

/-- The word on D[15:0] while the logic supply is absent (log entry 10). -/
opaque freeWord : Nat → Word

end Sys2Proof.Config
end

