-- ==== Sys2Proof/Machine/Bytes.lean ====
section
/-! DEFINITION. Byte order, counts that hold or wrap, the clamp of text and the CRC (spec
introduction 7.4 to 7.6; R32, R42, R198, R199). -/

namespace Sys2Proof.Machine

/-- A count that adds 1 and holds at `top` (introduction 7.6). -/
def bump (top n : Nat) : Nat := min top (n + 1)

/-- An addition that saturates at `top` (introduction 7.6). -/
def satAdd (top a b : Nat) : Nat := min top (a + b)

/-- An identifier that rises by 1 and goes from `last` to `first` (introduction 7.6). -/
def wrapNext (last first n : Nat) : Nat := if n < last then n + 1 else first

/-- The `n` low bytes of a value, least significant first (R198: exchange memory). -/
def le : Nat → Nat → List Byte
  | 0, _ => []
  | n + 1, v => BitVec.ofNat 8 v :: le n (v / 256)

/-- The `n` low bytes of a value, most significant first (R199: radio frames). -/
def be (n v : Nat) : List Byte := (le n v).reverse

/-- The value of little-endian bytes. -/
def leNat : List Byte → Nat
  | [] => 0
  | b :: bs => b.toNat + 256 * leNat bs

/-- The value of big-endian bytes. -/
def beNat (bs : List Byte) : Nat := bs.foldl (fun a b => a * 256 + b.toNat) 0

/-- A byte from a value. -/
def byte (n : Nat) : Byte := BitVec.ofNat 8 n

/-- A value whose bit i is the i-th flag of the list. -/
def flagBits : List Bool → Nat
  | [] => 0
  | b :: bs => b.toNat + 2 * flagBits bs

/-- Bytes padded with 0 to `n`, or cut to `n`. -/
def padTo (n : Nat) (bs : List Byte) : List Byte := (bs ++ List.replicate n 0).take n

/-- R42: a text code outside 0x20..0x7E is replaced by 0x3F. -/
def clampChar (c : Byte) : Byte := if 0x20 ≤ c.toNat ∧ c.toNat ≤ 0x7E then c else 0x3F

/-- R42 over a text. -/
def clampText (t : List Byte) : List Byte := t.map clampChar

/-- R32: one bit into the check register. -/
def crcBit (r : Word) (b : Bool) : Word :=
  if xor r.msb b then (r <<< 1) ^^^ 0x1021#16 else r <<< 1

/-- The bits of a byte, most significant first (introduction 7.4). -/
def byteBits (b : Byte) : List Bool :=
  [b.getLsbD 7, b.getLsbD 6, b.getLsbD 5, b.getLsbD 4,
   b.getLsbD 3, b.getLsbD 2, b.getLsbD 1, b.getLsbD 0]

/-- R32 over a run of bytes, from a register that already holds the run before it. -/
def crcOver (r : Word) (bs : List Byte) : Word :=
  bs.foldl (fun r b => (byteBits b).foldl crcBit r) r

/-- R32: the check register starts at 0xFFFF. -/
def crcStart : Word := 0xFFFF#16

/-- R32: the CRC of a run of bytes. -/
def crc (bs : List Byte) : Word := crcOver crcStart bs

end Sys2Proof.Machine
end

