-- ==== Sys2Proof/Machine/Memory.lean ====
section
/-! DEFINITION. The exchange RAM (R1, R19) as a list of (byte offset, byte) pairs in one canonical
form: offsets strictly rising and no entry equal to what an unlisted offset reads as.  R19 zeroes the
RAM at power-on, so an unlisted offset reads 0. -/

namespace Sys2Proof.Machine

/-- The exchange RAM, byte offsets 0x0000..0x3FEF. -/
abbrev Memory := List Host.Cell

/-- What an unlisted offset reads as: the 0 that R19 writes everywhere at power-on. -/
def unlistedByte : Byte := 0

/-- The byte at an offset. -/
def Memory.get : Memory → Nat → Byte
  | [], _ => unlistedByte
  | (k, b) :: m, a => if k = a then b else Memory.get m a

/-- One byte written, keeping the canonical form. -/
def Memory.set : Memory → Nat → Byte → Memory
  | [], a, b => if b = unlistedByte then [] else [(a, b)]
  | (k, c) :: m, a, b =>
    if a < k then (if b = unlistedByte then (k, c) :: m else (a, b) :: (k, c) :: m)
    else if a = k then (if b = unlistedByte then m else (k, b) :: m)
    else (k, c) :: Memory.set m a b

/-- Consecutive bytes written from an offset upward. -/
def Memory.write : Memory → Nat → List Byte → Memory
  | m, _, [] => m
  | m, a, b :: bs => Memory.write (Memory.set m a b) (a + 1) bs

/-- `n` consecutive bytes read from an offset upward. -/
def Memory.read (m : Memory) : Nat → Nat → List Byte
  | _, 0 => []
  | a, n + 1 => Memory.get m a :: Memory.read m (a + 1) n

/-- A little-endian 16-bit word (R198). -/
@[irreducible] def Memory.readWord (m : Memory) (a : Nat) : Nat := leNat (Memory.read m a 2)

/-- A 16-bit word of the host written little-endian (introduction 7.4). -/
@[irreducible] def Memory.writeWord (m : Memory) (a : Nat) (v : Word) : Memory := Memory.write m a (le 2 v.toNat)

/-- Every offset of the list lies above `lo`, the offsets rise strictly, and no entry is the byte an
unlisted offset reads as. -/
def Memory.wfAbove : Nat → Memory → Bool
  | _, [] => true
  | lo, (k, b) :: m => decide (lo ≤ k) && decide (b ≠ unlistedByte) && Memory.wfAbove (k + 1) m

/-- The canonical form. -/
def Memory.wf (m : Memory) : Bool := Memory.wfAbove 0 m

/-- R8: one rewrite of a block with a change count.  The count, at `countAt`, rises by 2 (odd while
the fields are written, even after), and the block's bytes follow it. -/
@[irreducible] def rewriteBlock (countAt : Nat) (fields : List Byte) (m : Memory) : Memory :=
  Memory.write m countAt (le 2 (Memory.readWord m countAt + 2) ++ fields)

/-- The bytes a block shows now, after its change count. -/
def shownFields (countAt n : Nat) (m : Memory) : List Byte := Memory.read m (countAt + 2) n

end Sys2Proof.Machine
end

