-- ==== Sys2Proof/Machine/Blocks.lean ====
section
/-! DEFINITION. What each block of the CX-412 holds (spec introduction, section 3), as plain data, with
the value each item takes at power-on.  Counts and times are natural numbers in the manual's own units;
what the manual treats as bits is a bit vector. -/

namespace Sys2Proof.Machine

/-! ### Fixed lists and arrays -/

/-- The slots 0..15 in rising order. -/
def slots16 : List Slot := [0, 1, 2, 3, 4, 5, 6, 7, 8, 9, 10, 11, 12, 13, 14, 15]

/-- The places 0..7 of the Offer Table in rising order. -/
def places8 : List Place := [0, 1, 2, 3, 4, 5, 6, 7]

/-- The element at a place. -/
def pick {α : Type} {n : Nat} (v : Vector α n) (i : Fin n) : α := v[i.val]

/-- The array with one place replaced. -/
def put {α : Type} {n : Nat} (v : Vector α n) (i : Fin n) (x : α) : Vector α n := v.set i.val x

/-! ### Time -/

/-- A timestamp (introduction 7.3): seconds, centiseconds and the time-valid flag. -/
structure Stamp where
  secs   : Nat := 0
  centis : Nat := 0
  valid  : Bool := false
  deriving DecidableEq, Repr

/-- The time base (R48): the tick phase 0..99 and the 32-bit second count. -/
structure TimeBase where
  phase   : Nat := 0
  seconds : Nat := 0
  deriving DecidableEq, Repr

/-- A whole-second timer (R48). -/
structure Timer where
  running : Bool := false
  left    : Nat := 0
  deriving DecidableEq, Repr

/-! ### Exchange Port (chapter 1) -/

/-- A good copy of the Position Block with its position-written second (R9). -/
structure PositionCopy where
  lat    : Nat
  lon    : Nat
  fix    : Bool
  second : Nat
  deriving DecidableEq, Repr

/-- The Exchange Port: the two stored registers, the exchange fault fields, the Request Order list and
the Position Block's capture. -/
structure ExchangePort where
  attention  : Word := 0
  attnMask   : Word := 0
  faultCount : Nat := 0
  lastFault  : Nat := 0
  order      : List Slot := []
  /-- The position-written second; `none` while no position has been written since power-on (R9). -/
  posWritten : Option Nat := none
  /-- The last good copy (R9). -/
  posCopy    : Option PositionCopy := none
  deriving DecidableEq, Repr

/-! ### Settings Unit (chapter 2) -/

inductive PartState where
  | config | running
  deriving DecidableEq, Repr

inductive SettingsResult where
  | none | ok | failed
  deriving DecidableEq, Repr

/-- One tariff group (R21).  `mode` is kept as written: a disabled tariff's fields are not judged (R22). -/
structure Tariff where
  enabled  : Bool := false
  mode     : Nat := 0
  flagFall : Nat := 0
  d0       : Nat := 0
  t0       : Nat := 0
  amount   : Nat := 0
  ud       : Nat := 0
  ut       : Nat := 0
  deriving DecidableEq, Repr

/-- A working copy of the settings (R21). -/
structure Settings where
  cab        : Nat := 0
  fleet      : Nat := 0
  zone       : Nat := 0
  k          : Nat := 0
  vmax       : Nat := 0
  tariff1    : Tariff := {}
  tariff2    : Tariff := {}
  tariff3    : Tariff := {}
  tariff4    : Tariff := {}
  awardWait  : Nat := 15
  countOut   : Nat := 0
  reminder   : Nat := 0
  debounce   : Nat := 50
  tracking   : Nat := 30
  lampSignal : Bool := false
  status     : Nat := 0
  supplyCode : Nat := 0
  reports    : Bool := false
  deriving DecidableEq, Repr

structure SettingsUnit where
  part     : PartState := .config
  /-- No working copy exists before the first validation that passes (R23). -/
  working  : Option Settings := none
  result   : SettingsResult := .none
  failedAt : Nat := 0
  deriving DecidableEq, Repr

/-! ### Radio Port (chapter 3) -/

/-- The frame assembler's states (spec 3.3). -/
inductive Assembler where
  | hunt | header | body | skip
  deriving DecidableEq, Repr

/-- The receive errors the Radio Port reports (R34 to R41). -/
inductive RxError where
  | crc | length | kind | overrun
  deriving DecidableEq, Repr

/-- A downlink frame with its fields read (spec 3.4). -/
inductive Downlink where
  | beacon (fleet cycle secs interval slots : Nat) (acks : List Nat)
  | jobOffer (number zone deadline : Nat) (assigned account : Bool) (estimate : Nat) (text : List Byte)
  | jobAward (number cab : Nat)
  | jobWithdraw (number : Nat)
  | baseMessage (number : Nat) (receipt urgent : Bool) (sender : Nat) (text : List Byte)
  | emergencyAck
  | emergencyClear
  | cabSuspend (reason minutes : Nat)
  | cabResume
  deriving DecidableEq, Repr

/-- The good frame the routing holds (R39), and which of its blocks still have to take it. -/
structure HeldFrame where
  frame      : Downlink
  directed   : Bool
  /-- The arrival stamp (R35). -/
  stamp      : Stamp
  /-- The end instant, in ticks of the time base (R35). -/
  endInstant : Nat
  /-- Still to be taken by the Link Quality Unit (a beacon alone goes to two blocks). -/
  forLink    : Bool
  /-- Still to be taken by the kind's other block. -/
  forOwner   : Bool
  deriving DecidableEq, Repr

/-- The receive side. -/
structure Receiver where
  asm     : Assembler := .hunt
  /-- The latest received bits in HUNT, newest first, at most 24 (R33). -/
  shifter : List Bool := []
  /-- The frame buffer: header bytes, then payload (R34, R35). -/
  buffer  : List Byte := []
  /-- The running CRC (R33 to R35). -/
  crc     : Word := 0
  /-- The ticks of the time base that have passed in HEADER, BODY or SKIP since the latest bits were given,
  holding at 2 (R41). -/
  quiet   : Nat := 0
  /-- The frame the routing holds (R39). -/
  held    : Option HeldFrame := none
  deriving DecidableEq, Repr

/-- The transmit shifter's states (spec 3.6). -/
inductive Shifter where
  | idle | keying | sending
  deriving DecidableEq, Repr

/-- The cause of a cut sending (R46). -/
inductive CutCause where
  | supply | search | reset | slotEnd
  deriving DecidableEq, Repr

/-- The Radio Port's report of a sending's end (R45, R46). -/
inductive SendReport where
  | sent
  | cut (cause : CutCause)
  deriving DecidableEq, Repr

/-- The transmit side. -/
structure Transmitter where
  shifter : Shifter := .idle
  /-- The bits of the frame built at the send request, preamble first (R44). -/
  frame   : List Bool := []
  /-- Ticks since PTT was asserted (R45). -/
  keyed   : Nat := 0
  deriving DecidableEq, Repr

/-! ### Cycle Tracker (chapter 4) -/

/-- The beacon record (spec 4.2). -/
structure BeaconRecord where
  endInstant : Nat
  cycle      : Nat
  interval   : Nat
  slots      : Nat
  deriving DecidableEq, Repr

/-- The phases of the in-flight record (spec 4.6). -/
inductive Phase where
  | none | chosen | onAir | awaiting
  deriving DecidableEq, Repr

/-- Whose frame is in flight: a queue entry by its identity, or a call with its payload (spec 4.6). -/
inductive Owner where
  | queue (entry : Nat)
  | call (payload : List Byte)
  deriving DecidableEq, Repr

/-- The in-flight record. -/
structure InFlight where
  phase : Phase := .none
  owner : Owner := .queue 0
  slot  : Nat := 0
  deriving DecidableEq, Repr

/-- The cause of MISSED_UNJUDGED (spec 4.6). -/
inductive MissCause where
  | beacon | overlap | supply | slotEnd
  deriving DecidableEq, Repr

/-- The five outcomes of a frame (spec 4.6). -/
inductive FrameOutcome where
  | acknowledged
  | missed
  | missedUnjudged (cause : MissCause)
  | notSent
  | abandoned
  deriving DecidableEq, Repr

structure CycleTracker where
  /-- The synchronised flag: clear in SEARCH. -/
  synced    : Bool := false
  record    : Option BeaconRecord := none
  /-- The supervision deadline, an instant in ticks; `none` while it is stopped. -/
  deadline  : Option Nat := none
  missedRun : Nat := 0
  /-- Fleet time (R49). -/
  fleet     : Stamp := {}
  /-- The backoff generator (R55). -/
  lfsr      : Word := 0xACE1#16
  missRun   : Nat := 0
  skip      : Nat := 0
  spacing   : Nat := 3
  inFlight  : InFlight := {}
  deriving DecidableEq, Repr

/-! ### Transmit Queue (chapter 5) -/

/-- The uplink kinds (spec 3.7). -/
inductive Uplink where
  | cabStatus | jobAccept | jobDecline | msgDelivered | msgReceipt | driverMessage | tripReport
  | shiftReport | emergencyCall
  deriving DecidableEq, Repr

/-- The kind code on air (spec 3.7). -/
def Uplink.code : Uplink → Nat
  | .cabStatus => 0x21
  | .jobAccept => 0x22
  | .jobDecline => 0x23
  | .msgDelivered => 0x24
  | .msgReceipt => 0x25
  | .driverMessage => 0x26
  | .tripReport => 0x27
  | .shiftReport => 0x28
  | .emergencyCall => 0x29

/-- The transmission class (R70); the call goes in the priority slot and has none. -/
def Uplink.cls : Uplink → Nat
  | .cabStatus => 5
  | .jobAccept => 1
  | .jobDecline => 1
  | .msgDelivered => 2
  | .msgReceipt => 2
  | .driverMessage => 4
  | .tripReport => 3
  | .shiftReport => 3
  | .emergencyCall => 0

/-- A report entry is a TRIP_REPORT or a SHIFT_REPORT (R73). -/
def Uplink.isReport : Uplink → Bool
  | .tripReport => true
  | .shiftReport => true
  | _ => false

/-- One entry of the Transmit Queue (R70).  `id` is the entry's identity, by which the in-flight
record names it; class and key are read off the kind and the payload. -/
structure Entry where
  id       : Nat
  kind     : Uplink
  seq      : Nat
  payload  : List Byte
  attempts : Nat
  origin   : Option Slot
  created  : Stamp
  inFlight : Bool
  deriving DecidableEq, Repr

structure TransmitQueue where
  /-- The entries in the order of admission. -/
  entries : List Entry := []
  nextSeq : Nat := 0
  /-- The status-pending mark (R77). -/
  pending : Bool := false
  /-- The status timer (R76). -/
  timer   : Timer := {}
  /-- The identity the next entry gets (the model's own). -/
  nextId  : Nat := 0
  deriving DecidableEq, Repr

/-! ### Link Quality Unit (chapter 6) -/

inductive LinkState where
  | search | good | weak | degraded | withdrawn
  deriving DecidableEq, Repr

/-- The last link error code (spec 6.4). -/
inductive LinkError where
  | none | crc | length | kind | overrun | beaconMissed | noAck | syncLost | recoveryStep
  deriving DecidableEq, Repr

structure LinkUnit where
  ufc         : Nat := 0
  dfc         : Nat := 0
  searching   : Bool := true
  withdrawn   : Bool := false
  recovery    : Nat := 0
  log         : Nat := 0
  overflowed  : Bool := false
  lastError   : LinkError := .none
  state       : LinkState := .search
  deriving DecidableEq, Repr

/-! ### Offer Manager (chapter 7) -/

/-- The place states of the Offer Board (spec 13.3), open and closing. -/
inductive PlaceState where
  | empty | presented | accepting | awarded | declined | expired | lost | unanswered | withdrawn
  | dropped | cancelled | started
  deriving DecidableEq, Repr

/-- A place is free unless its state is one of the open states (R97). -/
def PlaceState.isOpen : PlaceState → Bool
  | .presented => true
  | .accepting => true
  | .awarded => true
  | _ => false

/-- The job is taken: ACCEPTING or AWARDED. -/
def PlaceState.isTaken : PlaceState → Bool
  | .accepting => true
  | .awarded => true
  | _ => false

/-- A place of the Offer Table with the entry it holds, or the last entry that left it (R97, R98). -/
structure OfferPlace where
  state    : PlaceState := .empty
  number   : Nat := 0
  /-- 0 while the place was never used, 1 DIRECTED, 2 ZONE (spec 13.3). -/
  origin   : Nat := 0
  zone     : Nat := 0
  assigned : Bool := false
  account  : Bool := false
  deadline : Nat := 0
  wait     : Nat := 0
  /-- 0 when absent. -/
  estimate : Nat := 0
  text     : List Byte := []
  arrival  : Stamp := {}
  closing  : Stamp := {}
  deriving DecidableEq, Repr

structure OfferManager where
  places        : Vector OfferPlace 8 := Vector.replicate 8 {}
  zone          : Nat := 0
  /-- The consecutive-expiry counter (R108). -/
  expiries      : Nat := 0
  /-- The local suspension latch; the LOCAL_SUSPEND gate is closed while it is set. -/
  latch         : Bool := false
  /-- The base suspension; the BASE_SUSPEND gate is closed while it is in force. -/
  baseSuspended : Bool := false
  /-- As last received (R99).  DESIGN CHOICE, unsafe (log entry 45): 0 until the first CAB_SUSPEND, for which
  the spec gives no value. -/
  baseReason    : Nat := 0
  baseTimer     : Timer := {}
  /-- The OFF_DUTY gate is closed. -/
  offDutyGate   : Bool := true
  /-- The EMERGENCY gate is closed. -/
  emergencyGate : Bool := false
  dropped       : Nat := 0
  /-- The note of the held acceptance (R110). -/
  heldAccept    : Option Slot := none
  deriving DecidableEq, Repr

/-! ### Fare Meter (chapters 8 and 9) -/

inductive Duty where
  | off | on
  deriving DecidableEq, Repr

inductive MeterState where
  | vacant | hired | stopped
  deriving DecidableEq, Repr

/-- The marks of a trip (R139). -/
structure Marks where
  saturated   : Bool := false
  clamped     : Bool := false
  dip         : Bool := false
  interrupted : Bool := false
  emergency   : Bool := false
  deriving DecidableEq, Repr

/-- One mark, as handed to the Fare Meter (R139). -/
inductive Mark where
  | supplyDip | supplyInterrupted | emergency
  deriving DecidableEq, Repr

structure Segment where
  tariff : Nat
  fare   : Nat
  start  : Stamp
  deriving DecidableEq, Repr

structure Extra where
  code   : Nat
  amount : Nat
  deriving DecidableEq, Repr

/-- The trip parameters (R123). -/
structure TripParams where
  number : Nat := 0
  tariff : Tariff := {}
  k      : Nat := 0
  vmax   : Nat := 0
  deriving DecidableEq, Repr

/-- The trip in progress (R125), all zero while no trip is open. -/
structure Trip where
  number      : Nat := 0
  job         : Nat := 0
  start       : Stamp := {}
  par         : TripParams := {}
  /-- The flag fall charged at the opening (R126; the tariff part of `par` may be switched). -/
  opening     : Nat := 0
  adist       : Nat := 0
  atime       : Nat := 0
  /-- The distance phase is RUNNING; in SINGLE mode both phases move together. -/
  distRunning : Bool := false
  /-- The time phase is RUNNING. -/
  timeRunning : Bool := false
  fare        : Nat := 0
  increments  : Nat := 0
  pulses      : Nat := 0
  ticks       : Nat := 0
  clamped     : Nat := 0
  segments    : List Segment := []
  extras      : List Extra := []
  extrasTotal : Nat := 0
  marks       : Marks := {}
  deriving DecidableEq, Repr

/-- A shift total with its saturated flag (R151). -/
structure Total where
  value : Nat := 0
  sat   : Bool := false
  deriving DecidableEq, Repr

/-- The nine shift totals (R151). -/
structure Totals where
  trips       : Total := {}
  fare        : Total := {}
  extras      : Total := {}
  hiredDist   : Total := {}
  hiredTime   : Total := {}
  totalDist   : Total := {}
  accepted    : Total := {}
  expired     : Total := {}
  emergencies : Total := {}
  deriving DecidableEq, Repr

/-- A count handed to the Fare Meter for the shift totals (R151). -/
inductive Addition where
  | offerAccepted | offerExpired | emergency
  deriving DecidableEq, Repr

/-- The Fare Meter's retained state (R194). -/
structure FareMeter where
  duty       : Duty := .off
  shiftNo    : Nat := 0
  shiftStart : Stamp := {}
  totals     : Totals := {}
  meter      : MeterState := .vacant
  trip       : Trip := {}
  /-- The tariff chosen for the next hire (R135); 0 before the first RUN after a cleared store. -/
  chosen     : Nat := 0
  nextTrip   : Nat := 1
  deriving DecidableEq, Repr

/-- The Fare Meter's state outside the Retained Store: the pulse limiter (R133) and the conversion
remainder (R152). -/
structure Limiter where
  window    : Nat := 0
  limit     : Nat := 0
  /-- DESIGN CHOICE, unsafe (log entry 47): 0 at power-on, for which chapter 9 gives no value. -/
  remainder : Nat := 0
  deriving DecidableEq, Repr

/-! ### Record Store (chapter 9) -/

/-- A TRIP record (R150). -/
structure TripRecord where
  number      : Nat
  job         : Nat
  start       : Stamp
  stop        : Stamp
  segments    : List Segment
  extras      : List Extra
  flagFall    : Nat
  increments  : Nat
  fare        : Nat
  extrasTotal : Nat
  dist        : Nat
  time        : Nat
  clamped     : Nat
  marks       : Marks
  deriving DecidableEq, Repr

/-- A SHIFT record (R150). -/
structure ShiftRecord where
  number : Nat
  start  : Stamp
  stop   : Stamp
  totals : Totals
  deriving DecidableEq, Repr

inductive FareRecord where
  | trip (r : TripRecord)
  | shift (r : ShiftRecord)
  deriving DecidableEq, Repr

/-- A record in a place, with its flags (spec 9.5). -/
structure HeldRecord where
  record    : FareRecord
  seq       : Nat
  collected : Bool
  reported  : Bool
  deriving DecidableEq, Repr

/-- The Record Store's retained state (R194). -/
structure RecordStore where
  places  : Vector (Option HeldRecord) 16 := Vector.replicate 16 none
  /-- The posting list, oldest first. -/
  posting : List Slot := []
  nextSeq : Nat := 0
  /-- The reports-required setting of the working copy last in force (R158, R194). -/
  reports : Bool := false
  deriving DecidableEq, Repr

/-! ### Message Manager (chapter 10) -/

/-- A box record (R162). -/
structure BoxRecord where
  held     : Bool := false
  number   : Nat := 0
  receipt  : Bool := false
  urgent   : Bool := false
  directed : Bool := false
  deriving DecidableEq, Repr

/-- A held send (R171). -/
structure HeldSend where
  slot : Slot
  seq  : Nat
  deriving DecidableEq, Repr

structure MessageManager where
  boxes       : Vector BoxRecord 16 := Vector.replicate 16 {}
  /-- The recent-number list, oldest first (R165). -/
  recent      : List Nat := []
  nextArrival : Nat := 1
  rnr         : Bool := false
  reminder    : Timer := {}
  dropped     : Nat := 0
  sends       : List HeldSend := []
  deriving DecidableEq, Repr

/-! ### Emergency Unit (chapter 11) -/

inductive EmergencyState where
  | idle | alerting | acknowledged
  deriving DecidableEq, Repr

inductive TriggerSource where
  | none | switch | host
  deriving DecidableEq, Repr

/-- The retained part of the Emergency Unit (R194). -/
structure EmergencyKept where
  state   : EmergencyState := .idle
  source  : TriggerSource := .none
  trigger : Stamp := {}
  deriving DecidableEq, Repr

inductive Pacing where
  | ready
  | spacing (left : Nat)
  | retry
  deriving DecidableEq, Repr

inductive CallResult where
  | none | acknowledged | missed | missedUnjudged | notSent | abandoned
  deriving DecidableEq, Repr

inductive Debounce where
  | released
  | timing (left : Nat)
  | held
  deriving DecidableEq, Repr

structure EmergencyUnit where
  kept      : EmergencyKept := {}
  callSeq   : Nat := 0
  /-- The acknowledgement timestamp, or none. -/
  ackStamp  : Option Stamp := none
  repeats   : Nat := 0
  pacing    : Pacing := .ready
  callDue   : Bool := false
  tracking  : Timer := {}
  callInHand : Bool := false
  lastCall  : CallResult := .none
  debounce  : Debounce := .held
  period    : Nat := 50
  deriving DecidableEq, Repr

/-! ### Supply Monitor and Retained Store (chapter 12) -/

inductive SupplyState where
  | ok | low
  deriving DecidableEq, Repr

structure SupplyMonitor where
  state     : SupplyState := .ok
  lowRun    : Nat := 0
  highRun   : Nat := 0
  runLowest : Nat := 255
  lowest    : Nat := 255
  deriving DecidableEq, Repr

inductive RetainedResult where
  | none | restored | lost
  deriving DecidableEq, Repr

/-- The retained state of the three owners (R194). -/
structure Kept where
  fare      : FareMeter := {}
  store     : RecordStore := {}
  emergency : EmergencyKept := {}
  deriving DecidableEq, Repr

/-- The Retained Store with its check word and backup-loss latch, and the result of the last
judgement (R194, R195). -/
structure RetainedStore where
  kept   : Kept := {}
  check  : Word := 0
  latch  : Bool := false
  result : RetainedResult := .none
  /-- VBAK is absent: the logic supply alone powers the backup domain (spec 12.3). -/
  vbakAbsent : Bool := false
  deriving DecidableEq, Repr

/-! ### Events handed between blocks and not yet taken -/

/-- A report or delivery of the Cycle Tracker to the Link Quality Unit (R66, R87). -/
inductive LinkReport where
  | beaconMissed
  | syncLost
  /-- A settled outcome; `ofQueue` when the owner is QUEUE. -/
  | outcome (ofQueue : Bool) (o : FrameOutcome)
  deriving DecidableEq, Repr

/-- The queue's notice for a DRIVER_MESSAGE (R80, R172). -/
structure SendNotice where
  slot : Slot
  seq  : Nat
  done : Bool
  deriving DecidableEq, Repr

/-- What one block has handed another and the other has not taken yet, oldest first in each list. -/
structure Mail where
  /-- Radio Port to Link Quality Unit (R85). -/
  rxErrors    : List RxError := []
  /-- Cycle Tracker to Link Quality Unit, in the order made (R87). -/
  linkReports : List LinkReport := []
  /-- Cycle Tracker to Transmit Queue: the entry and its outcome (R79). -/
  queueOuts   : List (Nat × FrameOutcome) := []
  /-- Cycle Tracker to Emergency Unit (R184). -/
  callOuts    : List FrameOutcome := []
  /-- Radio Port to Cycle Tracker (R63). -/
  sendReports : List SendReport := []
  /-- Transmit Queue to Offer Manager: the offer number of an UNDELIVERED JOB_ACCEPT (R111). -/
  undelivered : List Nat := []
  /-- Transmit Queue to Message Manager (R172). -/
  sendNotices : List SendNotice := []
  /-- Transmit Queue to Record Store: the record sequence of a report that is DONE (R157). -/
  reportsDone : List Nat := []
  /-- Supply Monitor and Emergency Unit to Fare Meter (R139). -/
  marks       : List Mark := []
  /-- Offer Manager and Emergency Unit to Fare Meter (R151). -/
  additions   : List Addition := []
  /-- Emergency Unit to Offer Manager: true on leaving IDLE (R186). -/
  gateChanges : List Bool := []
  /-- Emergency Unit to the lamp: true on leaving IDLE (R186). -/
  lampChanges : List Bool := []
  deriving DecidableEq, Repr

/-- R186: a neighbour of the Emergency Unit that takes a change of state as an event of its own. -/
inductive Neighbour where
  | offerManager | fareMeter | lamp
  deriving DecidableEq, Repr

/-- Events of the time base that have fallen due and are not taken yet. -/
structure Due where
  /-- Meter ticks at the Fare Meter (R48, R128). -/
  meterTicks     : Nat := 0
  /-- Window starts at the limiter (R133). -/
  windows        : Nat := 0
  /-- Samples of VSUP_SENSE (R191). -/
  supplySamples  : Nat := 0
  /-- Samples of EMG_N (R176). -/
  inputSamples   : Nat := 0
  deriving DecidableEq, Repr

/-! ### Outputs -/

/-- The chime pulse (R100): the level and the ticks of the pulse still to run. -/
structure Chime where
  high  : Bool := false
  ticks : Nat := 0
  deriving DecidableEq, Repr

/-- What stands on TX_DATA (R31, spec 3.6): a steady level, or the bits of the frame being sent. -/
inductive TxLine where
  | steady (level : Bool)
  | frameBits
  deriving DecidableEq, Repr

/-- The output pins: ATTN_N, PTT, TX_DATA, LAMP, CHIME, and the word a host read last drove on
D[15:0]. -/
structure Pins where
  /-- The level of ATTN_N: false is low, the asserted level. -/
  attnN  : Bool := true
  ptt    : Bool := false
  txData : TxLine := .steady true
  lamp   : Bool := false
  chime  : Bool := false
  data   : Word := 0
  deriving DecidableEq, Repr

end Sys2Proof.Machine
end

