-- ==== Sys2Proof/Machine/Layout.lean ====
section
/-! DEFINITION. Where every block, slot and field lies in the exchange window and how each value is coded
(R1, R198, chapter 13): byte offsets, state codes, the fields of each controller-written block in the
order of their offsets, and the RAM as power-on writes it (R19). -/

namespace Sys2Proof.Machine

/-! ### Offsets (spec 1.1) -/

def partBase : Nat := 0x0100
def linkBase : Nat := 0x0140
def meterBase : Nat := 0x0180
def shiftBase : Nat := 0x01C0
def positionBase : Nat := 0x0200
def emergencyBase : Nat := 0x0220

def requestBase (i : Slot) : Nat := 0x0400 + i.val * 64
def boardBase (i : Place) : Nat := 0x0800 + i.val * 96
def boxBase (i : Slot) : Nat := 0x0B00 + i.val * 96
def recordBase (i : Slot) : Nat := 0x1100 + i.val * 128

/-- The hand value APP (spec 1.2). -/
def handApp : Byte := 0x0A
/-- The hand value CTL (spec 1.2). -/
def handCtl : Byte := 0x0C

/-- R3: a hand word of the CX-412 carries the hand in the low byte and 0 in the high byte. -/
def handWord (h : Byte) : List Byte := [h, 0]

/-! ### State codes (spec 13.1) -/

def PartState.code : PartState → Nat
  | .config => 0
  | .running => 1

def SettingsResult.code : SettingsResult → Nat
  | .none => 0
  | .ok => 1
  | .failed => 2

def RetainedResult.code : RetainedResult → Nat
  | .none => 0
  | .restored => 1
  | .lost => 2

def SupplyState.code : SupplyState → Nat
  | .ok => 0
  | .low => 1

def LinkState.code : LinkState → Nat
  | .search => 0
  | .good => 1
  | .weak => 2
  | .degraded => 3
  | .withdrawn => 4

def LinkError.code : LinkError → Nat
  | .none => 0
  | .crc => 1
  | .length => 2
  | .kind => 3
  | .overrun => 4
  | .beaconMissed => 5
  | .noAck => 6
  | .syncLost => 7
  | .recoveryStep => 8

def Phase.code : Phase → Nat
  | .none => 0
  | .chosen => 1
  | .onAir => 2
  | .awaiting => 3

def MeterState.code : MeterState → Nat
  | .vacant => 0
  | .hired => 1
  | .stopped => 2

def Duty.code : Duty → Nat
  | .off => 0
  | .on => 1

def EmergencyState.code : EmergencyState → Nat
  | .idle => 0
  | .alerting => 1
  | .acknowledged => 2

def TriggerSource.code : TriggerSource → Nat
  | .none => 0
  | .switch => 1
  | .host => 2

def CallResult.code : CallResult → Nat
  | .none => 0
  | .acknowledged => 1
  | .missed => 2
  | .missedUnjudged => 3
  | .notSent => 4
  | .abandoned => 5

def PlaceState.code : PlaceState → Nat
  | .empty => 0
  | .presented => 1
  | .accepting => 2
  | .awarded => 3
  | .declined => 4
  | .expired => 5
  | .lost => 6
  | .unanswered => 7
  | .withdrawn => 8
  | .dropped => 9
  | .cancelled => 10
  | .started => 11

/-- The marks byte (spec 13.2). -/
def Marks.code (m : Marks) : Nat :=
  flagBits [m.saturated, m.clamped, m.dip, m.interrupted, m.emergency]

/-- A timestamp in the exchange memory, 6 bytes (spec 13.1). -/
def Stamp.bytes (s : Stamp) : List Byte := le 4 s.secs ++ [byte s.centis, byte s.valid.toNat]

/-! ### The computation's derived figures -/

/-- DOUBLE is mode code 1 (R21). -/
def Tariff.double (t : Tariff) : Bool := t.mode == 1

/-- R122: an initial period exists when D0 and T0 are both non-zero. -/
def Tariff.hasInitial (t : Tariff) : Bool := t.d0 != 0 && t.t0 != 0

/-- R124: the distance threshold in force, in thousandths of a pulse. -/
def Trip.distThreshold (t : Trip) : Nat :=
  if t.distRunning then t.par.tariff.ud * t.par.k else t.par.tariff.d0 * t.par.k

/-- R124: the time threshold in force, in meter ticks. -/
def Trip.timeThreshold (t : Trip) : Nat :=
  if t.timeRunning then t.par.tariff.ut * 10 else t.par.tariff.t0 * 10

/-- R138: hired distance in metres, with the trip's K. -/
def Trip.hiredDistance (t : Trip) : Nat := t.pulses * 1000 / t.par.k

/-- R138: hired time in seconds. -/
def Trip.hiredTime (t : Trip) : Nat := t.ticks / 10

/-- R123: the K in force: the trip's while a trip is open, else the working copy's. -/
def kInForce (f : FareMeter) (w : Option Settings) : Nat :=
  match f.meter with
  | .vacant => (w.map (·.k)).getD 0
  | _ => f.trip.par.k

/-- R123: the Vmax in force. -/
def vmaxInForce (f : FareMeter) (w : Option Settings) : Nat :=
  match f.meter with
  | .vacant => (w.map (·.vmax)).getD 0
  | _ => f.trip.par.vmax

/-- The saturated flags in the order of R151 (Shift Totals Block, SHIFT record slot). -/
def Totals.satFlags (t : Totals) : Nat :=
  flagBits [t.trips.sat, t.fare.sat, t.extras.sat, t.hiredDist.sat, t.hiredTime.sat, t.totalDist.sat,
    t.accepted.sat, t.expired.sat, t.emergencies.sat]

/-- The saturated flags in the SHIFT_REPORT's own order (R199). -/
def Totals.reportSatFlags (t : Totals) : Nat :=
  flagBits [t.trips.sat, t.fare.sat, t.extras.sat, t.hiredDist.sat, t.totalDist.sat, t.hiredTime.sat,
    t.accepted.sat, t.expired.sat, t.emergencies.sat]

/-- The places that hold a record satisfying a test. -/
def RecordStore.count (st : RecordStore) (p : HeldRecord → Bool) : Nat :=
  (slots16.filter (fun i => (pick st.places i).any p)).length

/-- R71: the head of the queue, the entry of the lowest class and among those the first admitted. -/
def headEntry : List Entry → Option Entry
  | [] => none
  | e :: es =>
    match headEntry es with
    | none => some e
    | some h => if e.kind.cls ≤ h.kind.cls then some e else some h

/-- R101: the gate flags as a byte: OFF_DUTY, LOCAL_SUSPEND, BASE_SUSPEND, EMERGENCY. -/
def OfferManager.gates (o : OfferManager) : Nat :=
  flagBits [o.offDutyGate, o.latch, o.baseSuspended, o.emergencyGate]

/-- R99: the base suspension remaining, 0 when no suspension timer runs. -/
def OfferManager.baseRemaining (o : OfferManager) : Nat :=
  if o.baseTimer.running then o.baseTimer.left else 0

/-! ### Fixed blocks: the bytes after the change count (spec 13.2) -/

/-- Part Status Block, from 0x02 (R18). -/
def partFields (u : SettingsUnit) (r : RetainedResult) (p : SupplyMonitor) (x : ExchangePort)
    (droppedOffers droppedMessages : Nat) : List Byte :=
  [byte u.part.code, byte u.result.code] ++ le 2 u.failedAt ++
  [byte r.code, byte p.state.code, byte p.lowest, byte x.faultCount] ++ le 2 x.lastFault ++
  [byte droppedOffers, byte droppedMessages]

/-- The head entry's fields, 0 throughout when the queue is empty (R94). -/
def headFields (q : TransmitQueue) : List Byte :=
  match headEntry q.entries with
  | none => List.replicate 10 0
  | some e => [byte e.kind.code, byte e.kind.cls, byte e.attempts, byte e.seq] ++ e.created.bytes

/-- The in-flight slot shown; 0 while the record holds no frame. -/
def InFlight.shownSlot (f : InFlight) : Nat := if f.phase = .none then 0 else f.slot

/-- Link Status Block, from 0x02 (R94). -/
def linkFields (l : LinkUnit) (c : CycleTracker) (q : TransmitQueue) : List Byte :=
  [byte l.state.code, byte l.ufc, byte l.dfc,
   byte (flagBits [l.withdrawn, l.searching, l.overflowed, c.synced, q.pending]),
   byte l.recovery, byte l.log, byte l.lastError.code,
   byte ((c.record.map (·.interval)).getD 0)] ++
  le 2 ((c.record.map (·.cycle)).getD 0) ++
  [byte ((c.record.map (·.slots)).getD 0), byte c.missedRun, byte c.missRun, byte c.skip,
   byte c.inFlight.phase.code, byte c.inFlight.shownSlot, byte q.entries.length, byte q.nextSeq] ++
  headFields q

/-- The charged fields before the limit L: 0x02 to 0x0D (R140). -/
def meterHead (f : FareMeter) (w : Option Settings) : List Byte :=
  [byte f.meter.code, byte f.duty.code] ++ le 2 f.trip.number ++ le 2 f.trip.job ++
  [byte f.chosen, byte f.trip.par.number,
   byte (flagBits [f.trip.par.tariff.double, f.trip.distRunning && f.trip.timeRunning,
     f.trip.distRunning, f.trip.timeRunning]),
   byte f.trip.marks.code] ++ le 2 (kInForce f w)

/-- Meter Live Block, from 0x02 (R140). -/
def meterFields (f : FareMeter) (lim : Limiter) (w : Option Settings) : List Byte :=
  meterHead f w ++ le 2 lim.limit ++
  (le 4 f.trip.fare ++ le 2 f.trip.opening ++
    [byte f.trip.extras.length, byte f.trip.segments.length] ++
    le 4 f.trip.increments ++ le 4 f.trip.extrasTotal) ++
  le 4 f.trip.adist ++ le 4 f.trip.distThreshold ++ le 2 f.trip.atime ++ le 2 f.trip.timeThreshold ++
  (le 4 f.trip.pulses ++ le 4 f.trip.hiredDistance ++ le 4 f.trip.ticks ++ le 4 f.trip.hiredTime ++
    le 4 f.trip.clamped)

/-- Of the Meter Live Block's bytes after the change count, those of the charged fields (R140): all but
L, Adist, Atime, P, the hired ticks, the two derived figures and the clamped pulse count. -/
def chargedPart (bs : List Byte) : List Byte :=
  bs.take 12 ++ (bs.drop 14).take 16 ++ (bs.drop 34).take 4 ++ (bs.drop 40).take 2

/-- Shift Totals Block, from 0x02 (R153). -/
def shiftFields (f : FareMeter) (st : RecordStore) : List Byte :=
  [byte f.duty.code, byte f.totals.emergencies.value] ++ le 2 f.shiftNo ++ f.shiftStart.bytes ++
  le 2 f.totals.trips.value ++ le 2 f.totals.satFlags ++
  le 4 f.totals.fare.value ++ le 4 f.totals.extras.value ++ le 4 f.totals.hiredDist.value ++
  le 4 f.totals.hiredTime.value ++ le 4 f.totals.totalDist.value ++
  le 2 f.totals.accepted.value ++ le 2 f.totals.expired.value ++
  [byte (st.count fun _ => true), byte (st.count fun r => !r.collected),
   byte (st.count fun r => st.reports && !r.reported), 0] ++ le 2 st.nextSeq

/-- Of the Shift Totals Block's bytes after the change count, all but the total distance (R153). -/
def promptPart (bs : List Byte) : List Byte := bs.take 30 ++ bs.drop 34

/-- Emergency Block, from 0x02 (R188). -/
def emergencyFields (e : EmergencyUnit) : List Byte :=
  [byte e.kept.state.code, byte e.kept.source.code] ++ e.kept.trigger.bytes ++ le 2 e.callSeq ++
  (e.ackStamp.getD {}).bytes ++ [byte e.repeats, byte e.lastCall.code]

/-! ### Slots (spec 13.3) -/

/-- Offer Board slot, from 0x04, after the hand word and the change count (R98, R99). -/
def boardFields (o : OfferManager) (i : Place) : List Byte :=
  let p := pick o.places i
  [byte p.state.code, byte p.origin] ++ le 2 p.number ++
  [byte p.zone, byte (flagBits [p.assigned, p.account]), byte p.deadline, byte p.wait] ++
  le 2 p.estimate ++ [byte p.text.length, byte o.gates] ++ p.arrival.bytes ++ p.closing.bytes ++
  [byte o.zone, byte o.expiries, byte o.baseReason, 0] ++ le 2 o.baseRemaining ++ padTo 40 p.text

/-- A segment of a TRIP record slot, 10 bytes. -/
def Segment.bytes (g : Segment) : List Byte := [byte g.tariff] ++ le 3 g.fare ++ g.start.bytes

/-- An extra of a TRIP record slot, 3 bytes. -/
def Extra.bytes (x : Extra) : List Byte := [byte x.code] ++ le 2 x.amount

/-- The marks byte of a record slot, 0 for SHIFT. -/
def FareRecord.marksCode : FareRecord → Nat
  | .trip r => r.marks.code
  | .shift _ => 0

/-- The kind byte of a record slot. -/
def FareRecord.kindCode : FareRecord → Nat
  | .trip _ => 1
  | .shift _ => 2

/-- The data words of a fare record slot, as runs of bytes at their offsets (R150): bytes that belong to
no field of the kind are not written. -/
def recordRuns (h : HeldRecord) : List (Nat × List Byte) :=
  (0x02, [byte h.record.kindCode, byte h.record.marksCode] ++ le 2 h.seq) ::
  match h.record with
  | .trip r =>
    [(0x06, le 2 r.number ++ le 2 r.job ++ [byte r.segments.length, byte r.extras.length] ++
        r.start.bytes ++ r.stop.bytes ++ le 2 r.flagFall),
     (0x1C, le 4 r.increments ++ le 4 r.fare ++ le 4 r.extrasTotal ++ le 4 r.dist ++ le 4 r.time ++
        le 4 r.clamped ++ padTo 40 (r.segments.flatMap Segment.bytes) ++
        padTo 24 (r.extras.flatMap Extra.bytes))]
  | .shift r =>
    [(0x06, le 2 r.number ++ le 2 r.totals.satFlags ++ [byte r.totals.emergencies.value]),
     (0x0C, r.start.bytes ++ r.stop.bytes ++ le 2 r.totals.trips.value ++
        le 2 r.totals.accepted.value ++ le 2 r.totals.expired.value),
     (0x20, le 4 r.totals.fare.value ++ le 4 r.totals.extras.value ++ le 4 r.totals.hiredDist.value ++
        le 4 r.totals.hiredTime.value ++ le 4 r.totals.totalDist.value)]

/-- Runs of bytes written at their offsets from a base. -/
def writeRuns (base : Nat) : List (Nat × List Byte) → Memory → Memory
  | [], m => m
  | (o, bs) :: rs, m => writeRuns base rs (Memory.write m (base + o) bs)

/-- R6, R154: the record's data words and then the hand 0x000A. -/
@[irreducible] def presentRecord (i : Slot) (h : HeldRecord) (m : Memory) : Memory :=
  Memory.write (writeRuns (recordBase i) (recordRuns h) m) (recordBase i) (handWord handApp)

/-! ### The RAM as power-on leaves it (R19) -/

/-- One hand word in each slot of a list. -/
def writeHands {α : Type} (base : α → Nat) (h : Byte) (is : List α) (m : Memory) : Memory :=
  is.foldl (fun m i => Memory.write m (base i) (handWord h)) m

/-- R19: the restored uncollected records re-presented, every other fare record slot at CTL. -/
def writeRecordSlots (st : RecordStore) (m : Memory) : Memory :=
  slots16.foldl (fun m i =>
    match pick st.places i with
    | some h =>
      if h.collected then Memory.write m (recordBase i) (handWord handCtl) else presentRecord i h m
    | none => Memory.write m (recordBase i) (handWord handCtl)) m

/-- R19: the zeroed RAM with the hand words and the restored records. -/
def handsAtPowerOn (st : RecordStore) : Memory :=
  writeRecordSlots st
    (writeHands boxBase handCtl slots16
      (writeHands boardBase handCtl places8
        (writeHands requestBase handApp slots16 [])))

/-- R18, R96, R141, R161, R190: the five blocks written once, each change count reading 2. -/
def blocksAtPowerOn (k : Kept) (r : RetainedResult) (p : SupplyMonitor) (m : Memory) : Memory :=
  rewriteBlock emergencyBase (emergencyFields { kept := k.emergency })
    (rewriteBlock shiftBase (shiftFields k.fare k.store)
      (rewriteBlock meterBase (meterFields k.fare {} none)
        (rewriteBlock linkBase (linkFields {} {} {})
          (rewriteBlock partBase (partFields {} r p {} 0 0) m))))

/-- The RAM after power-on. -/
@[irreducible] def ramAtPowerOn (k : Kept) (r : RetainedResult) (p : SupplyMonitor) : Memory :=
  blocksAtPowerOn k r p (handsAtPowerOn k.store)

end Sys2Proof.Machine
end

