-- ==== Sys2Proof/Machine/Retained.lean ====
section
/-! DEFINITION. The Retained Store's own operations (R194 to R197): the order in which the retained state
is run through the CRC, the check word, the judgement at power-on and the adjustments of a restore. -/

namespace Sys2Proof.Machine

/-! ### The retained state as a run of bytes (R194: "in a fixed order", log entry 26) -/

def Total.bytes (t : Total) : List Byte := le 4 t.value ++ [byte t.sat.toNat]

def Totals.bytes (t : Totals) : List Byte :=
  [t.trips, t.fare, t.extras, t.hiredDist, t.hiredTime, t.totalDist, t.accepted, t.expired,
   t.emergencies].flatMap Total.bytes

def Tariff.bytes (t : Tariff) : List Byte :=
  [byte t.enabled.toNat, byte t.mode] ++ le 2 t.flagFall ++ le 2 t.d0 ++ le 2 t.t0 ++ le 2 t.amount ++
  le 2 t.ud ++ le 2 t.ut

def Trip.bytes (t : Trip) : List Byte :=
  le 2 t.number ++ le 2 t.job ++ t.start.bytes ++ [byte t.par.number] ++ t.par.tariff.bytes ++
  le 2 t.par.k ++ le 2 t.par.vmax ++ le 2 t.opening ++ le 4 t.adist ++ le 2 t.atime ++
  [byte (flagBits [t.distRunning, t.timeRunning])] ++ le 4 t.fare ++ le 4 t.increments ++
  le 4 t.pulses ++ le 4 t.ticks ++ le 4 t.clamped ++ [byte t.segments.length] ++
  t.segments.flatMap Segment.bytes ++ [byte t.extras.length] ++ t.extras.flatMap Extra.bytes ++
  le 4 t.extrasTotal ++ [byte t.marks.code]

def FareMeter.bytes (f : FareMeter) : List Byte :=
  [byte f.duty.code] ++ le 2 f.shiftNo ++ f.shiftStart.bytes ++ f.totals.bytes ++
  [byte f.meter.code] ++ f.trip.bytes ++ [byte f.chosen] ++ le 2 f.nextTrip

def FareRecord.bytes : FareRecord → List Byte
  | .trip r =>
    [1] ++ le 2 r.number ++ le 2 r.job ++ r.start.bytes ++ r.stop.bytes ++ [byte r.segments.length] ++
    r.segments.flatMap Segment.bytes ++ [byte r.extras.length] ++ r.extras.flatMap Extra.bytes ++
    le 2 r.flagFall ++ le 4 r.increments ++ le 4 r.fare ++ le 4 r.extrasTotal ++ le 4 r.dist ++
    le 4 r.time ++ le 4 r.clamped ++ [byte r.marks.code]
  | .shift r => [2] ++ le 2 r.number ++ r.start.bytes ++ r.stop.bytes ++ r.totals.bytes

def placeBytes : Option HeldRecord → List Byte
  | none => [0]
  | some h => [1] ++ h.record.bytes ++ le 2 h.seq ++ [byte (flagBits [h.collected, h.reported])]

def RecordStore.bytes (st : RecordStore) : List Byte :=
  slots16.flatMap (fun i => placeBytes (pick st.places i)) ++ [byte st.posting.length] ++
  st.posting.map (fun i => byte i.val) ++ le 2 st.nextSeq ++ [byte st.reports.toNat]

def EmergencyKept.bytes (e : EmergencyKept) : List Byte :=
  [byte e.state.code, byte e.source.code] ++ e.trigger.bytes

def Kept.bytes (k : Kept) : List Byte := k.fare.bytes ++ k.store.bytes ++ k.emergency.bytes

/-- R194: the check word is the CRC of R32 over the whole of the retained state. -/
@[irreducible] def Kept.checkWord (k : Kept) : Word := crc k.bytes

/-! ### The judgement's range check (R195, case 3) -/

def Stamp.inRange (s : Stamp) : Bool := s.secs < 2 ^ 32 && s.centis ≤ 99

def Total.inRange (top : Nat) (t : Total) : Bool := t.value ≤ top

/-- R151: each total within its range. -/
def Totals.inRange (t : Totals) : Bool :=
  t.trips.inRange 65535 && t.fare.inRange 99999999 && t.extras.inRange 99999999 &&
  t.hiredDist.inRange 4294967295 && t.hiredTime.inRange 4294967295 &&
  t.totalDist.inRange 4294967295 && t.accepted.inRange 65535 && t.expired.inRange 65535 &&
  t.emergencies.inRange 255

/-- R21: the fields of an enabled tariff within their ranges. -/
def Tariff.inRange (t : Tariff) : Bool :=
  t.mode ≤ 1 && t.flagFall ≤ 9999 && t.d0 ≤ 10000 && t.t0 ≤ 3600 &&
  ((t.d0 == 0) == (t.t0 == 0)) &&
  1 ≤ t.amount && t.amount ≤ 9999 && 10 ≤ t.ud && t.ud ≤ 1000 && 1 ≤ t.ut && t.ut ≤ 600

def Segment.inRange (g : Segment) : Bool :=
  1 ≤ g.tariff && g.tariff ≤ 4 && g.fare ≤ 999999 && g.start.inRange

def Extra.inRange (x : Extra) : Bool :=
  1 ≤ x.code && x.code ≤ 15 && 1 ≤ x.amount && x.amount ≤ 9999

/-- R125: the quantities of an open trip within their ranges, each accumulator below its threshold in
force. -/
def Trip.inRange (t : Trip) : Bool :=
  1 ≤ t.number && t.number ≤ 65535 && t.job ≤ 65535 && t.start.inRange &&
  1 ≤ t.par.number && t.par.number ≤ 4 && t.par.tariff.inRange &&
  1000 ≤ t.par.k && t.par.k ≤ 50000 && 60 ≤ t.par.vmax && t.par.vmax ≤ 300 && t.opening ≤ 9999 &&
  t.adist < t.distThreshold && t.atime < t.timeThreshold &&
  t.fare ≤ 999999 && t.increments ≤ 4294967295 && t.pulses ≤ 4294967295 &&
  t.ticks ≤ 4294967295 && t.clamped ≤ 4294967295 &&
  1 ≤ t.segments.length && t.segments.length ≤ 4 && t.segments.all Segment.inRange &&
  t.extras.length ≤ 8 && t.extras.all Extra.inRange && t.extrasTotal ≤ 79992

def FareMeter.inRange (f : FareMeter) : Bool :=
  f.shiftNo ≤ 65535 && f.shiftStart.inRange && f.totals.inRange && f.chosen ≤ 4 &&
  1 ≤ f.nextTrip && f.nextTrip ≤ 65535 &&
  (match f.meter with
   | .vacant => true
   | _ => f.trip.inRange)

def FareRecord.inRange : FareRecord → Bool
  | .trip r =>
    1 ≤ r.number && r.number ≤ 65535 && r.job ≤ 65535 && r.start.inRange && r.stop.inRange &&
    1 ≤ r.segments.length && r.segments.length ≤ 4 && r.segments.all Segment.inRange &&
    r.extras.length ≤ 8 && r.extras.all Extra.inRange && r.flagFall ≤ 9999 &&
    r.increments ≤ 4294967295 && r.fare ≤ 999999 && r.extrasTotal ≤ 79992 &&
    r.dist ≤ 4294967295 && r.time ≤ 4294967295 && r.clamped ≤ 4294967295
  | .shift r =>
    1 ≤ r.number && r.number ≤ 65535 && r.start.inRange && r.stop.inRange && r.totals.inRange

/-- R195: the posting list names each place that holds a record exactly once, and no free place. -/
def RecordStore.listInRange (st : RecordStore) : Bool :=
  decide st.posting.Nodup &&
  slots16.all (fun i => (pick st.places i).isSome == st.posting.contains i)

def RecordStore.inRange (st : RecordStore) : Bool :=
  st.nextSeq ≤ 65535 && st.listInRange &&
  slots16.all (fun i => (pick st.places i).all (fun h => h.seq ≤ 65535 && h.record.inRange))

def Kept.inRange (k : Kept) : Bool :=
  k.fare.inRange && k.store.inRange && k.emergency.trigger.inRange

/-! ### Judgement, adjustment, copy -/

/-- R195: the retained result, first case that applies. -/
def judgeRetained (r : RetainedStore) : RetainedResult :=
  if r.latch then .none
  else if r.kept.checkWord ≠ r.check then .lost
  else if !r.kept.inRange then .lost
  else .restored

/-- R196: a HIRED meter becomes STOPPED with SUPPLY_INTERRUPTED. -/
def FareMeter.restored (f : FareMeter) : FareMeter :=
  match f.meter with
  | .hired =>
    { f with meter := .stopped, trip := { f.trip with marks := { f.trip.marks with interrupted := true } } }
  | _ => f

/-- R196: an ACKNOWLEDGED emergency becomes ALERTING. -/
def EmergencyKept.restored (e : EmergencyKept) : EmergencyKept :=
  match e.state with
  | .acknowledged => { e with state := .alerting }
  | _ => e

/-- R197: the cleared contents of the store. -/
def Kept.cleared : Kept := {}

/-- R195, R196, R197: what the owners are handed at power-on. -/
def handedToOwners (r : RetainedStore) : Kept :=
  match judgeRetained r with
  | .restored =>
    { fare := r.kept.fare.restored, store := r.kept.store, emergency := r.kept.emergency.restored }
  | _ => Kept.cleared

/-- R195: the store after the decision, its check word written and its latch cleared. -/
def retainedAfterJudgement (r : RetainedStore) : RetainedStore :=
  { kept := handedToOwners r, check := (handedToOwners r).checkWord, latch := false,
    result := judgeRetained r }

end Sys2Proof.Machine
end

