-- ==== Sys2Proof/Machine/State.lean ====
section
/-! DEFINITION. The machine's state: every block of the CX-412, the exchange RAM, the events handed between
blocks, the output pins, and the queue of commands that wait.  All of it is plain data. -/

namespace Sys2Proof.Machine

/-- The reasons for which a step could stop with a fault.  There are none: the data book answers every
event of the part with a next state (an exchange fault of R7 is a count and a news bit, not a stop).
Nobody raises one; safe. -/
inductive Fault where
  deriving DecidableEq, Repr

/-- The reasons for which a step could be refused. -/
inductive Refusal where
  /-- Raised by an arm of `exec` whose command has no meaning yet: no arm raises it; safe (the machine
  stops where the hardware goes on). -/
  | notModelled (mnemonic : String)
  deriving DecidableEq, Repr

structure State where
  /-- The commands that wait, first in first out (the model's own). -/
  pending   : List Instr
  /-- The logic supply is present and RESET_N is high (R193). -/
  powered   : Bool
  /-- The exchange RAM (R1, R19). -/
  ram       : Memory
  port      : ExchangePort
  settings  : SettingsUnit
  rx        : Receiver
  tx        : Transmitter
  time      : TimeBase
  cycle     : CycleTracker
  queue     : TransmitQueue
  link      : LinkUnit
  offers    : OfferManager
  fare      : FareMeter
  limiter   : Limiter
  store     : RecordStore
  /-- The report note (R157): the record sequence of the report now in the queue, or none. -/
  note      : Option Nat
  msgs      : MessageManager
  emergency : EmergencyUnit
  supply    : SupplyMonitor
  retained  : RetainedStore
  mail      : Mail
  due       : Due
  chime     : Chime
  /-- The Emergency Unit has taken the lamp (R187). -/
  lampTaken : Bool
  pins      : Pins
  /-- The counter behind the free values of Config (the model's own). -/
  free      : Nat
  deriving DecidableEq, Repr

/-- The machine right after a power-on that found the backup-loss latch set (R195 case 1): RESET_N has
risen, the store is cleared (R197), every block has its power-on values and the five blocks are written.
The first reading of VSUP_SENSE is 255 here (log entry 4). -/
def State.reset : State where
  pending := []
  powered := true
  ram := ramAtPowerOn Kept.cleared .none {}
  port := {}
  settings := {}
  rx := {}
  tx := {}
  time := {}
  cycle := {}
  queue := {}
  link := {}
  offers := {}
  fare := Kept.cleared.fare
  limiter := {}
  store := Kept.cleared.store
  note := none
  msgs := {}
  emergency := { kept := Kept.cleared.emergency }
  supply := {}
  retained := { kept := Kept.cleared, check := Kept.cleared.checkWord, latch := false, result := .none }
  mail := {}
  due := {}
  chime := {}
  lampTaken := false
  pins := {}
  free := 0

end Sys2Proof.Machine
end

