-- ==== Sys2Proof/Machine/Operands.lean ====
section
/-! DEFINITION. How what a command carries or finds is read: the area a host access falls in (R1), the
Settings Block and its validation (R21, R22), the parameter area of a request (spec 13.3) and the fields
of a received frame (R36 to R38, R199). -/

namespace Sys2Proof.Machine

/-! ### The area of a host access (R1) -/

inductive Area where
  | settings
  | position
  /-- Part Status, Link Status, Meter Live, Shift Totals or Emergency Block. -/
  | controllerBlock
  | unused
  /-- A request slot with the byte offset inside the slot. -/
  | request (i : Slot) (off : Nat)
  | board
  | box (i : Slot) (off : Nat)
  | record (i : Slot) (off : Nat)
  | ident
  | control
  | attention
  | attnMask
  deriving DecidableEq, Repr

/-- The byte offset of a word address: always even (spec 1.1). -/
def byteOffset (a : WordAddr) : Nat := 2 * a.toNat

/-- R1: the area of a byte offset. -/
def areaOf (off : Nat) : Area :=
  if off < 0x0100 then .settings
  else if off < 0x0200 then .controllerBlock
  else if off < 0x0220 then .position
  else if off < 0x0240 then .controllerBlock
  else if off < 0x0400 then .unused
  else if off < 0x0800 then .request (Fin.ofNat 16 ((off - 0x0400) / 64)) ((off - 0x0400) % 64)
  else if off < 0x0B00 then .board
  else if off < 0x1100 then .box (Fin.ofNat 16 ((off - 0x0B00) / 96)) ((off - 0x0B00) % 96)
  else if off < 0x1900 then .record (Fin.ofNat 16 ((off - 0x1100) / 128)) ((off - 0x1100) % 128)
  else if off < 0x3FF0 then .unused
  else if off = 0x3FF0 then .ident
  else if off = 0x3FF2 then .control
  else if off = 0x3FF4 then .attention
  else if off = 0x3FF6 then .attnMask
  else .unused

/-- The low byte of a word, the hand of a hand word (spec 1.2). -/
def lowByte (v : Word) : Byte := v.setWidth 8

/-- The high byte of a word, the disposition of a hand word (spec 1.2). -/
def highByte (v : Word) : Byte := (v >>> 8).setWidth 8

/-! ### Fields in the exchange RAM (R198) -/

def field1 (m : Memory) (a : Nat) : Nat := (Memory.get m a).toNat
def field2 (m : Memory) (a : Nat) : Nat := leNat (Memory.read m a 2)
def field4 (m : Memory) (a : Nat) : Nat := leNat (Memory.read m a 4)

/-! ### The Settings Block (R21, R22) -/

/-- Where tariff group n = 1..4 begins (spec 13.2). -/
def tariffBase (n : Nat) : Nat := 0x08 + 14 * (n - 1)

/-- Whether a value lies in a range, both ends included. -/
def within (lo hi n : Nat) : Bool := decide (lo ≤ n) && decide (n ≤ hi)

/-- A field whose 0 stands for a default or for off, or whose value lies in a range (R21). -/
def zeroOr (lo hi n : Nat) : Bool := n == 0 || within lo hi n

/-- The checks of tariff group n in ascending offset; a disabled group n = 2..4 is judged no further
(R22). -/
def tariffChecks (m : Memory) (n : Nat) : List (Nat × Bool) :=
  let g := tariffBase n
  let enabled := field1 m g
  let d0 := field2 m (g + 0x4)
  let t0 := field2 m (g + 0x6)
  if n ≠ 1 ∧ enabled = 0 then []
  else
    [(g, enabled == 1),
     (g + 0x1, field1 m (g + 0x1) ≤ 1),
     (g + 0x2, field2 m (g + 0x2) ≤ 9999),
     (g + 0x4, d0 ≤ 10000),
     (g + 0x6, t0 ≤ 3600 && (d0 == 0) == (t0 == 0)),
     (g + 0x8, within 1 9999 (field2 m (g + 0x8))),
     (g + 0xA, within 10 1000 (field2 m (g + 0xA))),
     (g + 0xC, within 1 600 (field2 m (g + 0xC)))]

/-- R22: every check of the Settings Block in ascending offset, each with its field's offset. -/
def settingsChecks (m : Memory) : List (Nat × Bool) :=
  [(0x00, within 1 65534 (field2 m 0x00)),
   (0x02, within 1 255 (field1 m 0x02)),
   (0x03, within 1 255 (field1 m 0x03)),
   (0x04, within 1000 50000 (field2 m 0x04)),
   (0x06, within 60 300 (field2 m 0x06))] ++
  tariffChecks m 1 ++ tariffChecks m 2 ++ tariffChecks m 3 ++ tariffChecks m 4 ++
  [(0x40, zeroOr 5 60 (field1 m 0x40)),
   (0x41, field1 m 0x41 ≤ 15),
   (0x42, zeroOr 10 600 (field2 m 0x42)),
   (0x44, zeroOr 10 200 (field1 m 0x44)),
   (0x45, zeroOr 10 120 (field1 m 0x45)),
   (0x46, field1 m 0x46 ≤ 1),
   (0x48, zeroOr 30 900 (field2 m 0x48)),
   (0x4A, field1 m 0x4A ≤ 15),
   (0x4B, field1 m 0x4B ≤ 1)]

/-- R22: the offset of the first field that fails, none on a pass. -/
def firstFailing (m : Memory) : Option Nat := ((settingsChecks m).find? (fun c => !c.2)).map (·.1)

def readTariff (m : Memory) (n : Nat) : Tariff :=
  let g := tariffBase n
  { enabled := field1 m g == 1, mode := field1 m (g + 0x1), flagFall := field2 m (g + 0x2),
    d0 := field2 m (g + 0x4), t0 := field2 m (g + 0x6), amount := field2 m (g + 0x8),
    ud := field2 m (g + 0xA), ut := field2 m (g + 0xC) }

/-- R21: a 0 that stands for a default is written into the working copy as the default. -/
def orDefault (dflt n : Nat) : Nat := if n = 0 then dflt else n

/-- R21, R24: the reading of the Settings Block as a working copy, with the defaults written in. -/
def readSettings (m : Memory) : Settings where
  cab := field2 m 0x00
  fleet := field1 m 0x02
  zone := field1 m 0x03
  k := field2 m 0x04
  vmax := field2 m 0x06
  tariff1 := readTariff m 1
  tariff2 := readTariff m 2
  tariff3 := readTariff m 3
  tariff4 := readTariff m 4
  awardWait := orDefault 15 (field1 m 0x40)
  countOut := field1 m 0x41
  reminder := field2 m 0x42
  debounce := orDefault 50 (field1 m 0x44)
  tracking := orDefault 30 (field1 m 0x45)
  lampSignal := field1 m 0x46 == 1
  status := field2 m 0x48
  supplyCode := field1 m 0x4A
  reports := field1 m 0x4B == 1

/-- Tariff n = 1..4 of a working copy; no other number names an enabled tariff. -/
def Settings.tariff (w : Settings) (n : Nat) : Tariff :=
  match n with
  | 1 => w.tariff1
  | 2 => w.tariff2
  | 3 => w.tariff3
  | 4 => w.tariff4
  | _ => {}

/-! ### A request slot (spec 13.3) -/

def requestCode (m : Memory) (i : Slot) : Nat := field1 m (requestBase i + 0x02)

/-- Where the parameter area begins. -/
def paramBase (i : Slot) : Nat := requestBase i + 0x0C

/-- A one-byte parameter at the start of the area: a zone or a tariff number. -/
def param1 (m : Memory) (i : Slot) : Nat := field1 m (paramBase i)

/-- A two-byte parameter at the start of the area: an offer number. -/
def param2 (m : Memory) (i : Slot) : Nat := field2 m (paramBase i)

/-- ADD_EXTRA's amount. -/
def paramAmount (m : Memory) (i : Slot) : Nat := field2 m (paramBase i + 2)

/-- SEND_MESSAGE's text length. -/
def paramTextLength (m : Memory) (i : Slot) : Nat := field1 m (paramBase i + 1)

/-- The first `n` of SEND_MESSAGE's 48 text characters. -/
def paramText (m : Memory) (i : Slot) (n : Nat) : List Byte := Memory.read m (paramBase i + 2) n

/-- The request codes of R11's table. -/
def knownCodes : List Nat :=
  [0x01, 0x02, 0x03, 0x04, 0x10, 0x11, 0x12, 0x13, 0x14, 0x15, 0x20, 0x21, 0x22, 0x30, 0x40, 0x50, 0x51]

/-! ### Received frames (R36 to R38, R199) -/

/-- A one-byte field of a payload. -/
def rx1 (p : List Byte) (i : Nat) : Nat := (p.getD i 0).toNat
/-- A two-byte big-endian field of a payload. -/
def rx2 (p : List Byte) (i : Nat) : Nat := beNat ((p.drop i).take 2)
/-- A four-byte big-endian field of a payload. -/
def rx4 (p : List Byte) (i : Nat) : Nat := beNat ((p.drop i).take 4)

/-- The cab numbers of a beacon's acknowledgement list, `n` of them from byte `i` on. -/
def ackList (p : List Byte) : Nat → Nat → List Nat
  | _, 0 => []
  | i, n + 1 => rx2 p i :: ackList p (i + 2) n

/-- R38, step 1: the payload length the kind's row gives, none when the payload is too short to hold the
count the length is computed from. -/
def expectedLength (kind : Nat) (p : List Byte) : Option Nat :=
  match kind with
  | 0x01 => if p.length < 10 then none else some (10 + 2 * rx1 p 9)
  | 0x02 => if p.length < 8 then none else some (8 + rx1 p 7)
  | 0x03 => some 4
  | 0x04 => some 2
  | 0x05 => if p.length < 5 then none else some (5 + rx1 p 4)
  | 0x06 => some 0
  | 0x07 => some 0
  | 0x08 => some 2
  | 0x09 => some 0
  | _ => none

/-- R38, step 2: the fields of a downlink kind, none when one is outside its range.  The text of a
JOB_OFFER or a BASE_MESSAGE is clamped (R42). -/
def readDownlink (kind : Nat) (p : List Byte) : Option Downlink :=
  match kind with
  | 0x01 =>
    let acks := ackList p 10 (rx1 p 9)
    if within 1 255 (rx1 p 0) && within 10 50 (rx1 p 7) && rx1 p 8 ≤ 15 && rx1 p 9 ≤ 16 &&
        acks.all (within 1 65534) then
      some (.beacon (rx1 p 0) (rx2 p 1) (rx4 p 3) (rx1 p 7) (rx1 p 8) acks)
    else none
  | 0x02 =>
    if within 1 65535 (rx2 p 0) && within 1 255 (rx1 p 2) && rx1 p 7 ≤ 40 then
      some (.jobOffer (rx2 p 0) (rx1 p 2) (rx1 p 3) ((p.getD 4 0).getLsbD 0) ((p.getD 4 0).getLsbD 1)
        (rx2 p 5) (clampText (p.drop 8)))
    else none
  | 0x03 =>
    if within 1 65535 (rx2 p 0) && within 1 65534 (rx2 p 2) then some (.jobAward (rx2 p 0) (rx2 p 2))
    else none
  | 0x04 => if within 1 65535 (rx2 p 0) then some (.jobWithdraw (rx2 p 0)) else none
  | 0x05 =>
    if within 1 65535 (rx2 p 0) && within 1 56 (rx1 p 4) then
      some (.baseMessage (rx2 p 0) ((p.getD 2 0).getLsbD 0) ((p.getD 2 0).getLsbD 1) (rx1 p 3)
        (clampText (p.drop 5)))
    else none
  | 0x06 => some .emergencyAck
  | 0x07 => some .emergencyClear
  | 0x08 => some (.cabSuspend (rx1 p 0) (rx1 p 1))
  | 0x09 => some .cabResume
  | _ => none

/-- R37: whether a downlink kind accepts the cab number (`directed`) or the address 0. -/
def kindAccepts (kind : Nat) (directed : Bool) : Bool :=
  match kind with
  | 0x01 => !directed
  | 0x06 => directed
  | 0x07 => directed
  | _ => true

/-- R38: a beacon of another fleet is no good frame. -/
def ofFleet (fleet : Nat) : Downlink → Bool
  | .beacon f _ _ _ _ _ => f == fleet
  | _ => true

/-- The judgement of a frame at its last CRC bit. -/
inductive Judged where
  | discard
  | error (e : RxError)
  | good (f : Downlink) (directed : Bool)
  deriving DecidableEq, Repr

/-- R36, R37, R38: kind, address, length match, field values and fleet code, in this order.  `head` is
the four header bytes. -/
def judgeContents (w : Settings) (head payload : List Byte) : Judged :=
  let kind := rx1 head 0
  let addr := rx2 head 2
  if !within 0x01 0x09 kind then .error .kind
  else if addr ≠ w.cab ∧ addr ≠ 0 then .discard
  else if !kindAccepts kind (addr == w.cab) then .discard
  else if expectedLength kind payload ≠ some payload.length then .error .length
  else
    match readDownlink kind payload with
    | none => .error .kind
    | some f => if ofFleet w.fleet f then .good f (addr == w.cab) else .discard

/-- R35: the CRC check, then R36 to R38. -/
def judgeFrame (w : Settings) (head payload : List Byte) (running received : Word) : Judged :=
  if running ≠ received then .error .crc else judgeContents w head payload

/-- R33: the sync pattern 0x5B 0xC6 0x39, first bit first. -/
def syncPattern : List Bool :=
  byteBits (0x5B#8) ++ byteBits (0xC6#8) ++ byteBits (0x39#8)

/-- R33: bits fed to the shifter one at a time; whether one of them completes the sync (the bits after
it are not looked at), and the shifter they leave. -/
def huntBits : List Bool → List Bool → Bool × List Bool
  | sh, [] => (false, sh)
  | sh, b :: bs =>
    let sh' := (b :: sh).take 24
    if sh' = syncPattern.reverse then (true, []) else huntBits sh' bs

/-- The bytes of a header, in the order received. -/
def headerBytes (h : Header) : List Byte := [h.kind, h.len, h.addrHi, h.addrLo]

/-- R40: the bytes count through a whole skipped frame: the header alone when its L is above 56, else
header, L payload bytes and two CRC bytes. -/
def skipComplete (bytes : List Byte) : Bool :=
  if bytes.length < 4 then false
  else if 56 < rx1 bytes 1 then bytes.length == 4
  else bytes.length == 4 + rx1 bytes 1 + 2

end Sys2Proof.Machine
end

