-- ==== Sys2Proof/Machine/Flags.lean ====
section
/-! DEFINITION. Every flag, mark and derived state: the news bits of ATTENTION (R15), the link state (R88),
the for-hire condition (R159), the lamp signal (R187), the marks (R139), the saturated flags (R151) and
the pins that follow the state. -/

namespace Sys2Proof.Machine

/-! ### News (R15) -/

inductive News where
  | reqDone | offer | message | record | link | emergency | supply | reminder | dropped | exchFault
  | settings | logOverflow | meter
  deriving DecidableEq, Repr

/-- The ATTENTION bit of a kind of news (R15). -/
def News.mask : News → Word
  | .reqDone => 0x0001
  | .offer => 0x0002
  | .message => 0x0004
  | .record => 0x0008
  | .link => 0x0010
  | .emergency => 0x0020
  | .supply => 0x0040
  | .reminder => 0x0080
  | .dropped => 0x0100
  | .exchFault => 0x0200
  | .settings => 0x0400
  | .logOverflow => 0x0800
  | .meter => 0x1000

/-- The bits 0..12 that ATTENTION and ATTN_MASK name (spec 1.5). -/
def namedBits : Word := 0x1FFF

/-- R15: a block sets its news bit; a bit already set stays set. -/
def setNews (n : News) (s : State) : State :=
  { s with port := { s.port with attention := s.port.attention ||| n.mask } }

/-- R15, when a condition holds. -/
def newsIf (c : Bool) (n : News) (s : State) : State := if c then setNews n s else s

/-! ### Working copy and part state -/

def State.running (s : State) : Bool := s.settings.part == .running

/-- The working copy; before the first validation that passes, the two settings of R23 (threshold code 0,
debounce 50) and nothing else. -/
def State.working (s : State) : Settings := s.settings.working.getD {}

/-- R23, R191: the threshold in force, in 0.1 V. -/
def State.threshold (s : State) : Nat := 80 + 3 * s.working.supplyCode

/-! ### Link state (R88) -/

def deriveLink (config : Bool) (l : LinkUnit) : LinkState :=
  if config || l.searching then .search
  else if l.withdrawn then .withdrawn
  else if 128 ≤ l.ufc ∨ 128 ≤ l.dfc then .degraded
  else if 96 ≤ l.ufc ∨ 96 ≤ l.dfc then .weak
  else .good

/-! ### Hands (spec 1.2) -/

def handAt (m : Memory) (base : Nat) : Byte := Memory.get m base
def heldByApp (m : Memory) (base : Nat) : Bool := handAt m base == handApp
def heldByCtl (m : Memory) (base : Nat) : Bool := handAt m base == handCtl

/-- Whether any Message Box slot is held by APP. -/
def anyBoxAtApp (m : Memory) : Bool := slots16.any (fun i => heldByApp m (boxBase i))

/-- R163: the lowest Message Box slot at CTL. -/
def freeBox (m : Memory) : Option Slot := slots16.find? (fun i => heldByCtl m (boxBase i))

/-! ### Offers -/

/-- Some entry is AWARDED. -/
def OfferManager.anyAwarded (o : OfferManager) : Bool :=
  places8.any (fun i => (pick o.places i).state == .awarded)

/-- Some entry is ACCEPTING or AWARDED. -/
def OfferManager.anyTaken (o : OfferManager) : Bool :=
  places8.any (fun i => (pick o.places i).state.isTaken)

/-- All four gates are open (R103). -/
def OfferManager.allOpen (o : OfferManager) : Bool :=
  !o.offDutyGate && !o.latch && !o.baseSuspended && !o.emergencyGate

/-! ### Lamp (R159, R187) -/

/-- R159: the for-hire condition. -/
def State.forHire (s : State) : Bool :=
  s.running && s.fare.duty == .on && s.fare.meter == .vacant && !s.offers.anyAwarded &&
  !s.offers.baseSuspended

/-- R187: the lamp follows the 1 Hz signal while it is taken, else the for-hire condition. -/
def State.lampLit (s : State) : Bool := if s.lampTaken then decide (s.time.phase < 50) else s.forHire

/-- R187: the three conditions of the lamp signal, with the emergency state as given. -/
def State.lampWanted (s : State) : Bool :=
  s.running && s.working.lampSignal && s.emergency.kept.state != .idle

/-! ### Marks (R139) and totals (R151) -/

def Marks.add (m : Mark) (ms : Marks) : Marks :=
  match m with
  | .supplyDip => { ms with dip := true }
  | .supplyInterrupted => { ms with interrupted := true }
  | .emergency => { ms with emergency := true }

/-- R151: an addition that saturates at `top`; one that leaves the total at `top` sets its flag. -/
def Total.add (top x : Nat) (t : Total) : Total :=
  { value := satAdd top t.value x, sat := t.sat || satAdd top t.value x == top }

/-! ### Pins -/

/-- R16: ATTN_N is low while the AND of ATTENTION and ATTN_MASK is non-zero. -/
def ExchangePort.attnHigh (p : ExchangePort) : Bool := p.attention &&& p.attnMask == 0

/-- Spec 3.6: what stands on TX_DATA in each state of the shifter. -/
def Transmitter.line (t : Transmitter) : TxLine :=
  if t.shifter = .sending then .frameBits else .steady true

/-- The output pins follow the state (R16, spec 3.6, R100, R159, R187). -/
def settlePins (s : State) : State :=
  { s with pins :=
    { s.pins with
      attnN := s.port.attnHigh
      ptt := s.tx.shifter != .idle
      txData := s.tx.line
      lamp := s.lampLit
      chime := s.chime.high } }

end Sys2Proof.Machine
end

