-- ==== Sys2Proof/Machine/Ops.lean ====
section
/-! DEFINITION. The operations every family shares: how a meaning answers, instants of the time base, the
rewriting of the controller-written blocks, exchange faults, the completion of requests, the taking of a
position, the chime and the hand-over of events between blocks. -/

namespace Sys2Proof.Machine

/-- What a meaning answers. -/
abbrev Answer := Host.Outcome State Fault Refusal

/-! ### Instants (R48) -/

/-- The ticks after which the time base repeats: 2^32 seconds of 100 ticks. -/
def instantSpan : Nat := 4294967296 * 100

/-- The present instant, in ticks of the time base since power-on. -/
def State.now (s : State) : Nat := s.time.seconds * 100 + s.time.phase

/-- An instant some ticks after another. -/
def instantAfter (t n : Nat) : Nat := (t + n) % instantSpan

/-- The ticks from one instant to another, the time base wrapping. -/
def ticksFrom (t later : Nat) : Nat := (later + (instantSpan - t)) % instantSpan

/-- Whether an instant has been reached: it lies no more than half the span back. -/
def reached (t now : Nat) : Bool := decide (ticksFrom t now < instantSpan / 2)

/-- R48: a running timer whose count has reached 0. -/
def Timer.due (t : Timer) : Bool := t.running && t.left == 0

/-- R48: a timer preset and started, or, with an interval of 0, preset and stopped. -/
def Timer.start (n : Nat) : Timer := { running := n != 0, left := n }

/-- R48: a running timer counts down by 1. -/
def Timer.second (t : Timer) : Timer := if t.running then { t with left := t.left - 1 } else t

/-! ### Blocks with a change count (R8) -/

def State.partFields (s : State) : List Byte :=
  Machine.partFields s.settings s.retained.result s.supply s.port s.offers.dropped s.msgs.dropped

def State.linkFields (s : State) : List Byte := Machine.linkFields s.link s.cycle s.queue

def State.meterFields (s : State) : List Byte :=
  Machine.meterFields s.fare s.limiter s.settings.working

def State.shiftFields (s : State) : List Byte := Machine.shiftFields s.fare s.store

def State.emergencyFields (s : State) : List Byte := Machine.emergencyFields s.emergency

/-- R7, R24: the Part Status Block rewritten outright. -/
def rewritePart (s : State) : State := { s with ram := rewriteBlock partBase s.partFields s.ram }

/-- R93: the Link Status Block rewritten outright. -/
def rewriteLink (s : State) : State := { s with ram := rewriteBlock linkBase s.linkFields s.ram }

/-- R139: the Meter Live Block rewritten outright. -/
def rewriteMeter (s : State) : State := { s with ram := rewriteBlock meterBase s.meterFields s.ram }

/-- R178, R182, R183, R184: the Emergency Block rewritten outright. -/
def rewriteEmergency (s : State) : State :=
  { s with ram := rewriteBlock emergencyBase s.emergencyFields s.ram }

/-- R8: a block rewritten when one of its fields has changed since the last rewrite; `view` is what of
the fields a change is judged by. -/
@[irreducible] def refreshBlock (countAt : Nat) (view : List Byte → List Byte) (fields : List Byte) (m : Memory) :
    Memory :=
  if view (shownFields countAt fields.length m) = view fields then m
  else rewriteBlock countAt fields m

/-- The five fixed blocks brought up to date.  `full` at a meter tick: then the running fields of the
Meter Live Block (R140) and the total distance (R153) count as changes too. -/
@[irreducible] def refreshBlocks (full : Bool) (s : State) (m : Memory) : Memory :=
  refreshBlock emergencyBase id s.emergencyFields
    (refreshBlock shiftBase (if full then id else promptPart) s.shiftFields
      (refreshBlock meterBase (if full then id else chargedPart) s.meterFields
        (refreshBlock linkBase id s.linkFields
          (refreshBlock partBase id s.partFields m))))

/-- R98: the board slot of a place no longer shows what the Offer Manager holds. -/
def boardStale (o : OfferManager) (m : Memory) (i : Place) : Bool :=
  shownFields (boardBase i + 2) (boardFields o i).length m != boardFields o i

/-- R98, R99: every board slot brought up to date. -/
@[irreducible] def refreshBoards (o : OfferManager) (m : Memory) : Memory :=
  places8.foldl (fun m i => refreshBlock (boardBase i + 2) id (boardFields o i) m) m

/-- R194: the owners' retained state. -/
def State.kept (s : State) : Kept := { fare := s.fare, store := s.store, emergency := s.emergency.kept }

/-- R194: the owners' changes written into the Retained Store, with the check word. -/
def retain (s : State) : State :=
  { s with retained := { s.retained with kept := s.kept, check := s.kept.checkWord } }

/-- What ends every event: the blocks are rewritten where a field has changed (R8, R18, R94, R140, R153,
R188), the board slots too once the part is RUNNING, with OFFER news (R98, R121), the retained state is
copied (R194) and the pins follow. -/
def publishWith (full : Bool) (s : State) : State :=
  let m := refreshBlocks full s s.ram
  let stale := s.running && places8.any (boardStale s.offers m)
  settlePins (retain (newsIf stale .offer
    { s with ram := if s.running then refreshBoards s.offers m else m }))

/-- The end of an event that is no meter tick. -/
def publish (s : State) : State := publishWith false s

/-! ### How a meaning answers -/

/-- An event of the part: where it occurs (the logic supply is present and its occasion holds) it has its
effect; where it does not, nothing changes (log entry 1). -/
def event (occasion : Bool) (effect : State) (s : State) : Answer :=
  .next (if s.powered && occasion then publish effect else s)

/-! ### Exchange faults and completions (R7, R12) -/

/-- R7: the count, the offset, EXCH_FAULT, and the Part Status Block rewritten. -/
def exchangeFault (off : Nat) (s : State) : State :=
  rewritePart (setNews .exchFault
    { s with port := { s.port with faultCount := bump 255 s.port.faultCount, lastFault := off } })

/-- The outcome codes (R12). -/
inductive ReqOutcome where
  | done | awarded | lost | unanswered | withdrawn | undelivered | cancelled | badRequest | notRunning
  | refusedState | refusedRange | queueFull | noLink | unknownOffer | recordsFull | limit
  deriving DecidableEq, Repr

def ReqOutcome.code : ReqOutcome → Nat
  | .done => 0x01
  | .awarded => 0x02
  | .lost => 0x03
  | .unanswered => 0x04
  | .withdrawn => 0x05
  | .undelivered => 0x07
  | .cancelled => 0x08
  | .badRequest => 0x10
  | .notRunning => 0x11
  | .refusedState => 0x12
  | .refusedRange => 0x13
  | .queueFull => 0x14
  | .noLink => 0x15
  | .unknownOffer => 0x16
  | .recordsFull => 0x17
  | .limit => 0x18

/-- R12: outcome code, detail and completion timestamp, from offset 0x03 of the slot. -/
def outcomeFields (o : ReqOutcome) (detail : Nat) (t : Stamp) : List Byte :=
  byte o.code :: (le 2 detail ++ t.bytes)

/-- The RAM after the four steps of R12. -/
@[irreducible] def writeOutcome (i : Slot) (o : ReqOutcome) (detail : Nat) (t : Stamp) (m : Memory) : Memory :=
  Memory.write (Memory.write m (requestBase i + 0x03) (outcomeFields o detail t)) (requestBase i)
    (handWord handApp)

/-- R12: a request completes.  R3 forbids any writing into a slot that is already at APP. -/
def completeRequest (i : Slot) (o : ReqOutcome) (detail : Nat) (s : State) : State :=
  if heldByCtl s.ram (requestBase i) then
    setNews .reqDone { s with ram := writeOutcome i o detail s.cycle.fleet s.ram }
  else s

/-! ### The taking of a request (R10, R11) -/

/-- The entry at the head of the Request Order list is a request whose code satisfies the row. -/
def headIs (p : Nat → Bool) (s : State) : Bool :=
  match s.port.order with
  | [] => false
  | i :: _ => p (requestCode s.ram i)

/-- R11: the head is taken off the list and, in RUNNING, judged by its owner; in CONFIG it completes
NOT_RUNNING. -/
def takeHead (judge : Slot → State → State) (s : State) : State :=
  match s.port.order with
  | [] => s
  | i :: rest =>
    let t := { s with port := { s.port with order := rest } }
    if t.running then judge i t else completeRequest i .notRunning 0 t

/-- R11: the row of a request with its code. -/
def takeRequest (p : Nat → Bool) (judge : Slot → State → State) (s : State) : Answer :=
  event (headIs p s) (takeHead judge s) s

/-! ### The Position Block (R9) -/

/-- The Position Block as it stands: latitude, longitude, fix and the position-written second. -/
def readPosition (m : Memory) (second : Nat) : PositionCopy :=
  { lat := field4 m (positionBase + 2), lon := field4 m (positionBase + 6),
    fix := field2 m (positionBase + 0x0A) != 0, second := second }

/-- R9: a position is taken; with an even change count and a position written since power-on the copy
becomes the last good copy. -/
def takePosition (s : State) : State :=
  match s.port.posWritten with
  | none => s
  | some sec =>
    if Memory.readWord s.ram positionBase % 2 = 0 then
      { s with port := { s.port with posCopy := some (readPosition s.ram sec) } }
    else s

/-- R9: the age of a copy, in whole time-base seconds, clamped at 255; 255 without a fix. -/
def positionAge (now : Nat) (c : PositionCopy) : Nat :=
  if c.fix then min 255 ((now + (4294967296 - c.second)) % 4294967296) else 255

/-- R9, R199: latitude, longitude and age of the last good copy, or 0, 0, 255. -/
def positionFields (s : State) : List Byte :=
  match s.port.posCopy with
  | none => List.replicate 8 0 ++ [255]
  | some c => be 4 c.lat ++ be 4 c.lon ++ [byte (positionAge s.time.seconds c)]

/-! ### Chime (R100) -/

/-- R100: CHIME is driven high, the 200 ms starting (again) from this request. -/
def requestChime (s : State) : State := { s with chime := { high := true, ticks := 20 } }

/-! ### Hand-over of events between blocks -/

def mailRxError (e : RxError) (s : State) : State :=
  { s with mail := { s.mail with rxErrors := s.mail.rxErrors ++ [e] } }

def mailLink (r : LinkReport) (s : State) : State :=
  { s with mail := { s.mail with linkReports := s.mail.linkReports ++ [r] } }

def mailQueueOut (id : Nat) (o : FrameOutcome) (s : State) : State :=
  { s with mail := { s.mail with queueOuts := s.mail.queueOuts ++ [(id, o)] } }

def mailCallOut (o : FrameOutcome) (s : State) : State :=
  { s with mail := { s.mail with callOuts := s.mail.callOuts ++ [o] } }

def mailSendReport (r : SendReport) (s : State) : State :=
  { s with mail := { s.mail with sendReports := s.mail.sendReports ++ [r] } }

def mailUndelivered (number : Nat) (s : State) : State :=
  { s with mail := { s.mail with undelivered := s.mail.undelivered ++ [number] } }

def mailSendNotice (n : SendNotice) (s : State) : State :=
  { s with mail := { s.mail with sendNotices := s.mail.sendNotices ++ [n] } }

def mailReportDone (seq : Nat) (s : State) : State :=
  { s with mail := { s.mail with reportsDone := s.mail.reportsDone ++ [seq] } }

def mailMark (m : Mark) (s : State) : State :=
  { s with mail := { s.mail with marks := s.mail.marks ++ [m] } }

def mailAddition (a : Addition) (s : State) : State :=
  { s with mail := { s.mail with additions := s.mail.additions ++ [a] } }

def mailChange (leaving : Bool) (s : State) : State :=
  { s with mail := { s.mail with
      gateChanges := s.mail.gateChanges ++ [leaving]
      lampChanges := s.mail.lampChanges ++ [leaving] } }

/-! ### Free order (R25, R29) -/

/-- A free choice of order; the counter advances. -/
def State.orderChoice (s : State) : Bool := Config.freeOrder s.free

end Sys2Proof.Machine
end

