-- ==== Sys2Proof/Machine/QueueOps.lean ====
section
/-! DEFINITION. The Transmit Queue's shared operations (R70 to R83) and the report feed they drive (R157):
admission, displacement, removal, status triggers, the status-pending mark and outcomes. -/

namespace Sys2Proof.Machine

/-! ### Entries (R70 to R72) -/

/-- R80: the key field of a payload: offer number, message number or record sequence. -/
def Entry.key (e : Entry) : Nat := beNat ((e.payload.drop 1).take 2)

/-- R79: the attempt limit of a class, none for class 3. -/
def attemptLimit (cls : Nat) : Option Nat :=
  match cls with
  | 1 => some 6
  | 2 => some 8
  | 4 => some 8
  | 5 => some 3
  | _ => none

/-- R73: a new entry, last in the order of admission, with the next sequence as its uplink sequence and
first payload byte (R72). -/
def TransmitQueue.enqueue (kind : Uplink) (tail : List Byte) (origin : Option Slot) (now : Stamp)
    (q : TransmitQueue) : TransmitQueue :=
  { q with
    entries := q.entries ++
      [{ id := q.nextId, kind := kind, seq := q.nextSeq, payload := byte q.nextSeq :: tail, attempts := 0,
         origin := origin, created := now, inFlight := false }]
    nextSeq := wrapNext 255 0 q.nextSeq
    nextId := q.nextId + 1 }

/-- The entries without the one of an identity. -/
def TransmitQueue.remove (id : Nat) (q : TransmitQueue) : TransmitQueue :=
  { q with entries := q.entries.filter (fun e => e.id != id) }

/-- One entry changed in place. -/
def TransmitQueue.update (id : Nat) (f : Entry → Entry) (q : TransmitQueue) : TransmitQueue :=
  { q with entries := q.entries.map (fun e => if e.id = id then f e else e) }

def TransmitQueue.find (id : Nat) (q : TransmitQueue) : Option Entry :=
  q.entries.find? (fun e => e.id == id)

def TransmitQueue.statusEntry (q : TransmitQueue) : Option Entry :=
  q.entries.find? (fun e => e.kind == .cabStatus)

def TransmitQueue.holdsReport (q : TransmitQueue) : Bool := q.entries.any (fun e => e.kind.isReport)

/-- R75: room for a report: no report entry held and the occupancy below 12. -/
def TransmitQueue.roomForReport (q : TransmitQueue) : Bool :=
  !q.holdsReport && decide (q.entries.length < 12)

/-- R76 case 1: the status entry rewritten in place, with a new sequence and created timestamp and
attempts 0. -/
def TransmitQueue.rewriteStatus (id : Nat) (tail : List Byte) (now : Stamp) (q : TransmitQueue) :
    TransmitQueue :=
  { q.update id (fun e =>
      { e with seq := q.nextSeq, payload := byte q.nextSeq :: tail, attempts := 0, created := now }) with
    nextSeq := wrapNext 255 0 q.nextSeq }

/-! ### The cab's status (R76, R77) -/

/-- The CAB_STATUS payload after its sequence byte, from the state as it stands (R76, R199). -/
def statusTail (s : State) : List Byte :=
  [byte s.fare.duty.code, byte s.fare.meter.code, byte s.offers.zone,
   byte (flagBits [s.msgs.rnr, s.offers.latch, s.offers.baseSuspended])] ++ positionFields s

/-- R76: the placing of a payload by the first case that applies. -/
def placeStatus (tail : List Byte) (now : Stamp) (q : TransmitQueue) : TransmitQueue :=
  match q.statusEntry with
  | some e => if e.inFlight then { q with pending := true } else q.rewriteStatus e.id tail now
  | none =>
    if q.entries.length < 12 then q.enqueue .cabStatus tail none now else { q with pending := true }

/-- R77: the mark can be resolved now. -/
def TransmitQueue.resolvable (q : TransmitQueue) : Bool :=
  q.pending &&
  (match q.statusEntry with
   | some e => !e.inFlight
   | none => decide (q.entries.length < 12))

/-- R77: the status-pending mark resolved, with a payload made from the state as it stands now. -/
def resolvePending (s : State) : State :=
  if s.queue.resolvable then
    let t := takePosition s
    { t with queue := placeStatus (statusTail t) t.cycle.fleet { t.queue with pending := false } }
  else s

/-- R76: a status trigger; ignored in CONFIG. -/
def statusTrigger (s : State) : State :=
  if s.running then
    let t := takePosition s
    resolvePending { t with queue := placeStatus (statusTail t) t.cycle.fleet t.queue }
  else s

/-! ### Reports (R75, R157) -/

/-- R199: a count wider than its two bytes is written as 65535. -/
def clamp16 (n : Nat) : Nat := min 65535 n

/-- The time flags of a report (R199). -/
def timeFlags (start stop : Stamp) : Byte := byte (flagBits [start.valid, stop.valid])

/-- The report payload after its sequence byte (spec 3.7, 13.4, R199). -/
def reportTail (h : HeldRecord) : List Byte :=
  be 2 h.seq ++
  match h.record with
  | .trip r =>
    be 2 r.number ++ be 2 r.job ++ be 4 r.start.secs ++ be 4 r.stop.secs ++ [timeFlags r.start r.stop] ++
    be 2 r.flagFall ++ be 2 (clamp16 r.increments) ++ be 3 r.fare ++ be 3 r.extrasTotal ++
    [byte r.extras.length] ++ padTo 4 (r.segments.map (fun g => byte g.tariff)) ++
    be 4 r.dist ++ be 4 r.time ++ be 2 (clamp16 r.clamped) ++ [byte r.marks.code]
  | .shift r =>
    be 2 r.number ++ be 4 r.start.secs ++ be 4 r.stop.secs ++ [timeFlags r.start r.stop] ++
    be 2 r.totals.trips.value ++ be 4 r.totals.fare.value ++ be 4 r.totals.extras.value ++
    be 4 r.totals.hiredDist.value ++ be 4 r.totals.totalDist.value ++ be 4 r.totals.hiredTime.value ++
    be 2 r.totals.accepted.value ++ be 2 r.totals.expired.value ++ [byte r.totals.emergencies.value] ++
    be 2 r.totals.reportSatFlags

def FareRecord.reportKind : FareRecord → Uplink
  | .trip _ => .tripReport
  | .shift _ => .shiftReport

/-- R157: the first record on the posting list whose reported flag is clear. -/
def RecordStore.firstUnreported (st : RecordStore) : Option HeldRecord :=
  (st.posting.filterMap (fun i => pick st.places i)).find? (fun h => !h.reported)

/-- R157: the Record Store offers its next report: only in RUNNING, while the working copy requires
reports and the note is none; the note becomes the record's sequence when the queue admits it (R75). -/
def reportFeed (s : State) : State :=
  if s.running && s.store.reports && s.note.isNone && s.queue.roomForReport then
    match s.store.firstUnreported with
    | none => s
    | some h =>
      resolvePending
        { s with
          queue := s.queue.enqueue h.record.reportKind (reportTail h) none s.cycle.fleet
          note := some h.seq }
  else s

/-- R75: the queue tells the Record Store when the two conditions come to hold together. -/
def noticeOfRoom (before : TransmitQueue) (s : State) : State :=
  if !before.roomForReport && s.queue.roomForReport then reportFeed s else s

/-! ### Admission (R73, R74) -/

/-- R73: a host-originated frame is admitted while fewer than 8 entries are held. -/
def hostMayAdmit (s : State) : Bool := s.running && decide (s.queue.entries.length < 8)

/-- R73: a host-originated frame that may be admitted. -/
def admitHost (kind : Uplink) (tail : List Byte) (origin : Option Slot) (s : State) : State :=
  resolvePending { s with queue := s.queue.enqueue kind tail origin s.cycle.fleet }

/-- R74: the entry a controller-originated frame displaces from a full queue. -/
def displaceable (q : TransmitQueue) : Option Entry :=
  match q.entries.find? (fun e => e.kind == .cabStatus && !e.inFlight) with
  | some e => some e
  | none => q.entries.find? (fun e => e.kind.cls == 4 && !e.inFlight)

/-- R80: the maker of a removed entry is told DONE or UNDELIVERED. -/
def tellMaker (e : Entry) (done : Bool) (s : State) : State :=
  match e.kind with
  | .jobAccept => if done then s else mailUndelivered e.key s
  | .driverMessage =>
    match e.origin with
    | some i => mailSendNotice { slot := i, seq := e.seq, done := done } s
    | none => s
  | .tripReport => if done then mailReportDone e.key s else s
  | .shiftReport => if done then mailReportDone e.key s else s
  | _ => s

/-- R74: one entry displaced: a status sets the status-pending mark, a driver message is handed to its
maker UNDELIVERED. -/
def displace (e : Entry) (s : State) : State :=
  let q := s.queue.remove e.id
  if e.kind = .cabStatus then { s with queue := { q with pending := true } }
  else tellMaker e false { s with queue := q }

/-- R73, R74: a controller-originated class 1 or class 2 frame. -/
def admitController (kind : Uplink) (tail : List Byte) (s : State) : State :=
  if !s.running then s
  else if s.queue.entries.length < 12 then
    resolvePending { s with queue := s.queue.enqueue kind tail none s.cycle.fleet }
  else
    match displaceable s.queue with
    | none => s
    | some e =>
      let t := displace e s
      resolvePending { t with queue := t.queue.enqueue kind tail none t.cycle.fleet }

/-- The payload of a JOB_DECLINE after its sequence byte (spec 3.7). -/
def declineTail (number reason : Nat) : List Byte := be 2 number ++ [byte reason]

/-- The reason codes of a JOB_DECLINE (spec 3.7). -/
def reasonDriver : Nat := 1
def reasonTooLate : Nat := 2
def reasonBusy : Nat := 3
def reasonUnavailable : Nat := 4
def reasonReturned : Nat := 5

/-- A controller-originated JOB_DECLINE (R73, R104, R105, R113). -/
def answerDecline (number reason : Nat) (s : State) : State :=
  admitController .jobDecline (declineTail number reason) s

/-! ### Removal and outcomes (R79, R81) -/

/-- R79: after a removal the queue resolves the mark and then tells the Record Store of room.

DESIGN CHOICE, unsafe (log entry 44): where one freed place is wanted by a pending status and by the report
feed, R75 lets either be taken first; here the status is made first. -/
def afterRemoval (before : TransmitQueue) (s : State) : State := noticeOfRoom before (resolvePending s)

/-- R81: the removal of the JOB_ACCEPT of an offer number; nothing when there is none. -/
def removeAccept (number : Nat) (s : State) : State :=
  match s.queue.entries.find? (fun e => e.kind == .jobAccept && e.key == number) with
  | none => s
  | some e => afterRemoval s.queue { s with queue := s.queue.remove e.id }

/-- R79: the entry after an attempt that the base did not acknowledge. -/
def Entry.missed (e : Entry) : Entry := { e with attempts := bump 255 e.attempts, inFlight := false }

/-- R79: an attempt missed; the entry leaves the queue at its class limit. -/
def attemptMissed (e : Entry) (s : State) : State :=
  if attemptLimit e.kind.cls = some e.missed.attempts then
    tellMaker e false { s with queue := s.queue.remove e.id }
  else { s with queue := s.queue.update e.id Entry.missed }

/-- R79: an outcome acted on at the entry it names. -/
def entryTakesOutcome (e : Entry) (o : FrameOutcome) (s : State) : State :=
  match o with
  | .acknowledged => tellMaker e true { s with queue := s.queue.remove e.id }
  | .missed => attemptMissed e s
  | .missedUnjudged _ => attemptMissed e s
  | .notSent => { s with queue := s.queue.update e.id (fun e => { e with inFlight := false }) }
  | .abandoned => { s with queue := s.queue.update e.id (fun e => { e with inFlight := false }) }

/-- R79: the outcome of a queue frame taken by the queue. -/
def queueTakesOutcome (id : Nat) (o : FrameOutcome) (s : State) : State :=
  match s.queue.find id with
  | none => s
  | some e => afterRemoval s.queue (entryTakesOutcome e o s)

/-- R71, R79: the queue takes every outcome already delivered to it, oldest first. -/
def drainQueueOuts : List (Nat × FrameOutcome) → State → State
  | [], s => s
  | (id, o) :: rest, s => drainQueueOuts rest (queueTakesOutcome id o s)

end Sys2Proof.Machine
end

