-- ==== Sys2Proof/Machine/RadioPort.lean ====
section
/-! DEFINITION. The Radio Port (chapter 3): the frame assembler and the routing's taking of a good frame, the
send request, the transmit shifter and its cuts. -/

namespace Sys2Proof.Machine

/-! ### Receive side -/

/-- R33, R40: a sync found in HUNT: an overrun when the routing still holds a frame (reported in RUNNING,
R43), else the assembler clears its buffer, starts the running CRC and enters HEADER. -/
def syncTaken (s : State) : State :=
  if s.rx.held.isSome then
    let t := { s with rx := { s.rx with asm := .skip, shifter := [], quiet := 0 } }
    if s.running then mailRxError .overrun t else t
  else { s with rx := { s.rx with asm := .header, shifter := [], buffer := [], crc := crcStart, quiet := 0 } }

/-- R31, R33: received bits in HUNT, up to the one that completes a sync. -/
def receiveBits (bits : List Bool) (s : State) : State :=
  match huntBits s.rx.shifter bits with
  | (true, _) => syncTaken s
  | (false, sh) => { s with rx := { s.rx with shifter := sh } }

/-- The assembler back in HUNT, requiring 24 new bits for a sync (log entry 16). -/
def backToHunt (s : State) : State := { s with rx := { s.rx with asm := .hunt, shifter := [], quiet := 0 } }

/-- R43: in CONFIG nothing is reported to the Link Quality Unit. -/
def reportRx (e : RxError) (s : State) : State := if s.running then mailRxError e s else s

/-- R34: the four header bytes judged by their length. -/
def headerTaken (h : Header) (s : State) : State :=
  if 56 < h.len.toNat then
    backToHunt (reportRx .length { s with rx := { s.rx with buffer := [], crc := crcOver s.rx.crc (headerBytes h) } })
  else
    { s with rx := { s.rx with
        asm := .body, buffer := headerBytes h, crc := crcOver s.rx.crc (headerBytes h), quiet := 0 } }

/-- R35: the payload the header announced. -/
def payloadFits (payload : List Byte) (s : State) : Bool := payload.length == rx1 s.rx.buffer 1

/-- R39: a beacon goes to two blocks, every other kind to one. -/
def Downlink.isBeacon : Downlink → Bool
  | .beacon _ _ _ _ _ _ => true
  | _ => false

/-- R39: the routing holds a good frame, with its mark, its arrival stamp and its end instant. -/
def routeFrame (f : Downlink) (directed : Bool) (s : State) : State :=
  let h : HeldFrame :=
    { frame := f, directed := directed, stamp := s.cycle.fleet, endInstant := s.now,
      forLink := f.isBeacon, forOwner := true }
  { s with rx := { s.rx with held := some h } }

/-- R35 to R38, R43: a frame judged at its last CRC bit; in CONFIG it is discarded unjudged. -/
def frameEnded (payload : List Byte) (received : Word) (s : State) : State :=
  let head := s.rx.buffer
  let running := crcOver s.rx.crc payload
  let t := backToHunt { s with rx := { s.rx with buffer := head ++ payload, crc := running } }
  if s.running then
    match judgeFrame s.working head payload running received with
    | .discard => t
    | .error e => mailRxError e t
    | .good f directed => routeFrame f directed t
  else t

/-- R41: the clock lost in the middle of a frame. -/
def clockLost (s : State) : State :=
  match s.rx.asm with
  | .hunt => s
  | .skip => backToHunt s
  | _ => backToHunt (reportRx .crc s)

/-- SYNC_FOUND (R33). -/
def execSyncFound (bits : List Bool) (s : State) : Answer :=
  event (s.rx.asm == .hunt) (receiveBits bits s) s

/-- RECEIVE_OVERRUN (R40): the sync is found while the routing still holds a frame. -/
def execReceiveOverrun (bits : List Bool) (s : State) : Answer :=
  event (s.rx.asm == .hunt) (receiveBits bits s) s

/-- HEADER_COLLECTED (R34). -/
def execHeaderCollected (h : Header) (s : State) : Answer :=
  event (s.rx.asm == .header) (headerTaken h s) s

/-- HEADER_LENGTH_ERROR (R34). -/
def execHeaderLengthError (h : Header) (s : State) : Answer :=
  event (s.rx.asm == .header) (headerTaken h s) s

/-- RECEIVE_FRAME_END (R35). -/
def execReceiveFrameEnd (payload : List Byte) (crc : Word) (s : State) : Answer :=
  event (s.rx.asm == .body && payloadFits payload s) (frameEnded payload crc s) s

/-- R41: two ticks have passed in the middle of a frame since the latest bits; in HUNT the absence of RX_CLK
has no effect. -/
def clockSilent (r : Receiver) : Bool := r.asm != .hunt && decide (2 ≤ r.quiet)

/-- RECEIVE_CLOCK_LOSS (R41; log entry 43). -/
def execReceiveClockLoss (s : State) : Answer := event (clockSilent s.rx) (clockLost s) s

/-- SKIP_END (R40). -/
def execSkipEnd (bytes : List Byte) (s : State) : Answer :=
  event (s.rx.asm == .skip && skipComplete bytes) (backToHunt s) s

/-! ### The routing (R39) -/

/-- The routing released once every block has taken the frame. -/
def HeldFrame.released (h : HeldFrame) : Option HeldFrame :=
  if h.forLink || h.forOwner then some h else none

/-- R39: the Link Quality Unit has taken the held beacon. -/
def takenByLink (s : State) : State :=
  { s with rx := { s.rx with held := s.rx.held.bind (fun h => { h with forLink := false }.released) } }

/-- R39: the kind's other block has taken the held frame. -/
def takenByOwner (s : State) : State :=
  { s with rx := { s.rx with held := s.rx.held.bind (fun h => { h with forOwner := false }.released) } }

/-- The frame the routing holds for a block other than the Link Quality Unit. -/
def heldForOwner (s : State) : Option HeldFrame :=
  match s.rx.held with
  | some h => if h.forOwner then some h else none
  | none => none

/-- The routing holds a frame of a kind without fields for its owner. -/
def holdsPlain (f : Downlink) (s : State) : Bool :=
  match heldForOwner s with
  | some h => h.frame == f
  | none => false

/-! ### Transmit side -/

/-- The bits of a frame: preamble, sync, header, payload and CRC (spec 3.2, R44). -/
def frameBits (kind : Uplink) (cab : Nat) (payload : List Byte) : List Bool :=
  let body := [byte kind.code, byte payload.length] ++ be 2 cab ++ payload
  (byteBits (0xAA#8) ++ byteBits (0xAA#8)) ++ syncPattern ++ body.flatMap byteBits ++
    (be 2 (crc body).toNat).flatMap byteBits

/-- R44: what refuses a send request. -/
def sendRefused (s : State) : Bool :=
  s.tx.shifter != .idle || s.supply.state == .low || !s.running || !s.cycle.synced

/-- R44, R45: a frame built and keyed. -/
def keyFrame (kind : Uplink) (payload : List Byte) (s : State) : State :=
  { s with tx := { shifter := .keying, frame := frameBits kind s.working.cab payload, keyed := 0 } }

/-- R46: a sending in progress cut off, with its report; nothing when the shifter is IDLE. -/
def cutSending (cause : CutCause) (s : State) : State :=
  if s.tx.shifter = .idle then s
  else mailSendReport (.cut cause) { s with tx := { s.tx with shifter := .idle } }

/-- KEYING_END (R45): two ticks after PTT was asserted the shifter enters SENDING. -/
def execKeyingEnd (s : State) : Answer :=
  event (s.tx.shifter == .keying && decide (2 ≤ s.tx.keyed))
    { s with tx := { s.tx with shifter := .sending } } s

/-- FRAME_SENT (R45): the last CRC bit has been given its period. -/
def execFrameSent (s : State) : Answer :=
  event (s.tx.shifter == .sending)
    (mailSendReport .sent { s with tx := { s.tx with shifter := .idle } }) s

/-- SLOT_END (R45): ten ticks after PTT was asserted a sending still in progress is cut. -/
def execSlotEnd (s : State) : Answer :=
  event (s.tx.shifter != .idle && decide (10 ≤ s.tx.keyed)) (cutSending .slotEnd s) s

end Sys2Proof.Machine
end

