-- ==== Sys2Proof/Machine/Emergency.lean ====
section
/-! DEFINITION. The Emergency Unit (chapter 11): the debounce, triggers, acknowledgement and clearing, the
offering and making of calls, and the outcomes of calls. -/

namespace Sys2Proof.Machine

/-! ### Triggers (R178) -/

/-- R178: the unit's own fields when a trigger starts an emergency. -/
def EmergencyUnit.started (src : TriggerSource) (t : Stamp) (e : EmergencyUnit) : EmergencyUnit :=
  { e with
    kept := { state := .alerting, source := src, trigger := t }
    callSeq := 0
    repeats := 0
    callDue := false
    ackStamp := none
    lastCall := .none
    pacing := .ready }

/-- R186: a change between IDLE and another state handed to the neighbours: to the Offer Manager and to
the lamp always, to the Fare Meter, as its mark and its addition, on leaving IDLE.  The Retained Store has
its part already, in the unit's own event (R194, log entry 15). -/
def handChange (leaving : Bool) (s : State) : State :=
  if leaving then mailAddition .emergency (mailMark .emergency (mailChange true s)) else mailChange false s

/-- R178: a trigger judged by the emergency state. -/
def trigger (src : TriggerSource) (s : State) : State :=
  if s.emergency.kept.state = .idle then
    handChange true (setNews .emergency
      (rewriteEmergency { s with emergency := s.emergency.started src s.cycle.fleet }))
  else
    rewriteEmergency
      { s with emergency := { s.emergency with repeats := bump 255 s.emergency.repeats } }

/-- R179: RAISE_EMERGENCY is a trigger with source HOST; detail 1 when it found an emergency in force. -/
def raiseEmergency (i : Slot) (s : State) : State :=
  completeRequest i .done (if s.emergency.kept.state = .idle then 0 else 1) (trigger .host s)

/-- RAISE_EMERGENCY (R179). -/
def execRaiseEmergency (s : State) : Answer := takeRequest (· == 0x40) raiseEmergency s

/-! ### The emergency input (R176, R177) -/

/-- R176: one sample of EMG_N judged by the debounce state; the flag says that the sample completed the
debounce period.  `period` is the period to fix when the state leaves RELEASED (R177). -/
def EmergencyUnit.sampled (period : Nat) (low : Bool) (e : EmergencyUnit) : Bool × EmergencyUnit :=
  match e.debounce, low with
  | .released, true => (false, { e with period := period, debounce := .timing (period - 1) })
  | .timing n, true =>
    if n ≤ 1 then (true, { e with debounce := .held }) else (false, { e with debounce := .timing (n - 1) })
  | .held, true => (false, e)
  | _, false => (false, { e with debounce := .released })

/-- R176: a sample and the trigger it completes are one event. -/
def inputSample (low : Bool) (s : State) : State :=
  let r := s.emergency.sampled s.working.debounce low
  let t := { s with emergency := r.2, due := { s.due with inputSamples := s.due.inputSamples - 1 } }
  if r.1 then trigger .switch t else t

/-- The debounce period ends at the next low sample. -/
def edgeNext (e : EmergencyUnit) : Bool :=
  match e.debounce with
  | .timing n => decide (n ≤ 1)
  | _ => false

/-- EMERGENCY_INPUT_SAMPLE (R176), once for each tick of the time base. -/
def execEmergencyInputSample (low : Bool) (s : State) : Answer :=
  event (decide (0 < s.due.inputSamples)) (inputSample low s) s

/-- DEBOUNCED_FALLING_EDGE (R176, R178): the low sample that completes the debounce period. -/
def execDebouncedFallingEdge (s : State) : Answer :=
  event (decide (0 < s.due.inputSamples) && edgeNext s.emergency) (inputSample true s) s

/-! ### Offering calls (R182, R183) -/

/-- R182: the answer to the Cycle Tracker's question calls for a retry draw. -/
def EmergencyUnit.wantsDraw (e : EmergencyUnit) : Bool :=
  e.kept.state == .alerting && e.pacing == .retry

/-- R182: whether a call is offered; `draw` is the retry draw, looked at in RETRY alone. -/
def EmergencyUnit.offers (draw : Word) (e : EmergencyUnit) : Bool :=
  match e.kept.state with
  | .idle => false
  | .alerting =>
    match e.pacing with
    | .ready => true
    | .spacing _ => false
    | .retry => draw.getLsbD 0
  | .acknowledged => e.callDue

/-- R182: the spacing counted down by a question in ALERTING. -/
def EmergencyUnit.asked (e : EmergencyUnit) : EmergencyUnit :=
  match e.kept.state, e.pacing with
  | .alerting, .spacing n => { e with pacing := if n ≤ 1 then .ready else .spacing (n - 1) }
  | _, _ => e

/-- R183, steps 1, 2 and 4. -/
def EmergencyUnit.callChosen (e : EmergencyUnit) : EmergencyUnit :=
  { e with
    callSeq := bump 65535 e.callSeq
    callInHand := true
    callDue := if e.kept.state = .acknowledged then false else e.callDue }

/-- R183, R199: the EMERGENCY_CALL payload from the state as it stands. -/
def callPayload (s : State) : List Byte :=
  be 2 s.emergency.callSeq ++ [byte s.emergency.kept.source.code, byte s.fare.meter.code] ++
  positionFields s ++ [byte s.supply.state.code, byte s.supply.lowest]

/-- R183: the call made; its payload is that of `callPayload` in the state answered. -/
def makeCall (s : State) : State :=
  let t := takePosition s
  rewriteEmergency { t with emergency := t.emergency.callChosen }

/-- R182: an offer answered NOT_SENT at once because the supply is LOW. -/
def callRefused (s : State) : State :=
  rewriteEmergency { s with emergency := { s.emergency with lastCall := .notSent } }

/-! ### Outcomes of calls (R184) -/

/-- The last call outcome that an outcome is recorded as. -/
def FrameOutcome.callResult : FrameOutcome → CallResult
  | .acknowledged => .acknowledged
  | .missed => .missed
  | .missedUnjudged _ => .missedUnjudged
  | .notSent => .notSent
  | .abandoned => .abandoned

/-- R184: the pacing after an outcome taken in ALERTING. -/
def pacingAfter (o : FrameOutcome) (p : Pacing) : Pacing :=
  match o with
  | .acknowledged => .spacing 3
  | .missed => .retry
  | .missedUnjudged _ => .retry
  | .notSent => p
  | .abandoned => .ready

/-- R184: an outcome after which the call is due again in ACKNOWLEDGED. -/
def dueAfter (o : FrameOutcome) (due : Bool) : Bool :=
  match o with
  | .notSent => true
  | .abandoned => true
  | _ => due

/-- R184: the unit's fields after an outcome taken with the call in hand. -/
def EmergencyUnit.settled (o : FrameOutcome) (e : EmergencyUnit) : EmergencyUnit :=
  { e with
    callInHand := false
    lastCall := o.callResult
    pacing := if e.kept.state = .alerting then pacingAfter o e.pacing else e.pacing
    callDue := if e.kept.state = .acknowledged then dueAfter o e.callDue else e.callDue }

/-- R184: one delivery taken; ignored when no call is in hand. -/
def takesCallOutcome (o : FrameOutcome) (s : State) : State :=
  if s.emergency.callInHand then rewriteEmergency { s with emergency := s.emergency.settled o } else s

/-- R182: every delivery already made is taken, oldest first. -/
def drainCallOuts : List FrameOutcome → State → State
  | [], s => s
  | o :: rest, s => drainCallOuts rest (takesCallOutcome o s)

/-- The oldest delivery waiting at the unit is taken. -/
def callOutcomeTaken (s : State) : State :=
  match s.mail.callOuts with
  | [] => s
  | o :: rest => takesCallOutcome o { s with mail := { s.mail with callOuts := rest } }

/-- CALL_OUTCOME (R184). -/
def execCallOutcome (s : State) : Answer := event (!s.mail.callOuts.isEmpty) (callOutcomeTaken s) s

/-! ### The tracking timer (R185) -/

/-- R185: the call-due flag set and the timer preset and run on. -/
def trackingExpired (s : State) : State :=
  { s with emergency :=
    { s.emergency with
      callDue := true
      tracking := Timer.start s.working.tracking } }

/-- TRACKING_TIMER_EXPIRY (R185). -/
def execTrackingTimerExpiry (s : State) : Answer :=
  event (s.emergency.kept.state == .acknowledged && s.emergency.tracking.due) (trackingExpired s) s

/-! ### Acknowledgement and clearing (R180, R181) -/

/-- R180: the unit's fields when the base acknowledges. -/
def EmergencyUnit.acknowledged (t : Stamp) (interval : Nat) (e : EmergencyUnit) : EmergencyUnit :=
  { e with
    kept := { e.kept with state := .acknowledged }
    ackStamp := some t
    pacing := .ready
    callDue := false
    tracking := Timer.start interval }

/-- R180: an EMERGENCY_ACK, judged by the emergency state. -/
def takeAck (arrival : Stamp) (s : State) : State :=
  if s.emergency.kept.state = .alerting then
    setNews .emergency (rewriteEmergency
      { s with emergency := s.emergency.acknowledged arrival s.working.tracking })
  else s

/-- EMERGENCY_ACK (R180). -/
def execEmergencyAck (s : State) : Answer :=
  event (holdsPlain .emergencyAck s)
    (match heldForOwner s with
     | some h => takeAck h.stamp (takenByOwner s)
     | none => s) s

/-- R181: the unit's fields when the base clears. -/
def EmergencyUnit.cleared (e : EmergencyUnit) : EmergencyUnit :=
  { e with
    kept := { e.kept with state := .idle }
    tracking := { running := false, left := 0 }
    pacing := .ready
    callDue := false
    callInHand := false }

/-- R181: an EMERGENCY_CLEAR; ignored in IDLE. -/
def takeClear (s : State) : State :=
  if s.emergency.kept.state = .idle then s
  else
    handChange false (requestChime (setNews .emergency
      (rewriteEmergency { s with emergency := s.emergency.cleared })))

/-- EMERGENCY_CLEAR (R181). -/
def execEmergencyClear (s : State) : Answer :=
  event (holdsPlain .emergencyClear s) (takeClear (takenByOwner s)) s

/-! ### Soft reset (R189) -/

/-- R189: the unit's part of a soft reset. -/
def EmergencyUnit.softReset (e : EmergencyUnit) : EmergencyUnit :=
  { e with
    callInHand := false
    lastCall := if e.callInHand then .abandoned else e.lastCall
    pacing := if e.kept.state = .alerting then .ready else e.pacing
    callDue := if e.kept.state = .acknowledged then true else e.callDue }

end Sys2Proof.Machine
end

