-- ==== Sys2Proof/Machine/LinkQuality.lean ====
section
/-! DEFINITION. The Link Quality Unit (chapter 6): UFC, DFC, withdrawal and recovery, the link log, the last
link error code and the link state. -/

namespace Sys2Proof.Machine

/-! ### The unit's own counts -/

/-- R92: one increment of the link log; the first that finds it at 255 sets the overflow-reported flag. -/
def LinkUnit.logged (l : LinkUnit) : LinkUnit :=
  if l.log < 255 then { l with log := l.log + 1 } else { l with overflowed := true }

/-- R92: the increment gives LOG_OVERFLOW news. -/
def LinkUnit.overflows (l : LinkUnit) : Bool := decide (255 ≤ l.log) && !l.overflowed

/-- R89: withdrawal. -/
def LinkUnit.withdraw (l : LinkUnit) : LinkUnit :=
  { l with withdrawn := true, ufc := 255, recovery := 0 }

/-- R84: UFC at a MISSED outcome. -/
def LinkUnit.missedUfc (l : LinkUnit) : LinkUnit :=
  if l.withdrawn then { l with ufc := 255 }
  else if l.ufc + 8 ≤ 255 then { l with ufc := l.ufc + 8 }
  else l.withdraw

/-- R84: a MISSED queue frame. -/
def LinkUnit.missed (l : LinkUnit) : LinkUnit := { l.missedUfc.logged with lastError := .noAck }

/-- R84: an ACKNOWLEDGED queue frame. -/
def LinkUnit.acknowledged (l : LinkUnit) : LinkUnit :=
  { l with ufc := if l.withdrawn then 255 else l.ufc - 1, lastError := .none }

/-- R85: the link error code of a receive error. -/
def RxError.linkError : RxError → LinkError
  | .crc => .crc
  | .length => .length
  | .kind => .kind
  | .overrun => .overrun

/-- R85, R87: DFC and the log rise by 1 and the error code is set. -/
def LinkUnit.downError (e : LinkError) (l : LinkUnit) : LinkUnit :=
  { ({ l with dfc := bump 255 l.dfc } : LinkUnit).logged with lastError := e }

/-- R90: recovery. -/
def LinkUnit.recovered (l : LinkUnit) : LinkUnit :=
  { l with ufc := 0, dfc := 0, recovery := 0, withdrawn := false }

/-- R86, step 3: a recovery step while withdrawn. -/
def LinkUnit.recoveryStep (l : LinkUnit) : LinkUnit :=
  if l.withdrawn then
    let m := { l with recovery := l.recovery + 1, lastError := .recoveryStep }
    if m.recovery = 32 then m.recovered else m
  else l

/-- R86, steps 1 to 3. -/
def LinkUnit.goodBeacon (l : LinkUnit) : LinkUnit :=
  ({ l with dfc := l.dfc - 1, searching := false } : LinkUnit).recoveryStep

/-- R95: the unit's part of a soft reset. -/
def LinkUnit.softReset (l : LinkUnit) : LinkUnit :=
  { l with ufc := 0, dfc := 0, recovery := 0, withdrawn := false, searching := true, lastError := .none }

/-! ### The unit in the machine -/

/-- R88, R91: the link state derived afresh; a change sets LINK. -/
def relink (s : State) : State :=
  let st := deriveLink (!s.running) s.link
  newsIf (st != s.link.state) .link { s with link := { s.link with state := st } }

/-- R92: a change of the unit that enters the link log, with LOG_OVERFLOW news at the first overflow. -/
def loggedChange (f : LinkUnit → LinkUnit) (s : State) : State :=
  relink (newsIf s.link.overflows .logOverflow { s with link := f s.link })

/-- The first report of the Cycle Tracker that waits at the unit is taken off. -/
def dropLinkReport (s : State) : State :=
  { s with mail := { s.mail with linkReports := s.mail.linkReports.tail } }

/-- R84: an outcome taken by the unit; outcomes of calls and MISSED_UNJUDGED change nothing. -/
def linkTakesOutcome (ofQueue : Bool) (o : FrameOutcome) (s : State) : State :=
  if ofQueue then
    match o with
    | .acknowledged => relink { s with link := s.link.acknowledged }
    | .missed => loggedChange LinkUnit.missed s
    | _ => s
  else s

/-- R87: a missed beacon. -/
def linkTakesMiss (s : State) : State := loggedChange (LinkUnit.downError .beaconMissed) s

/-- R87: the loss of synchronisation. -/
def linkTakesSyncLost (s : State) : State :=
  relink { s with link := { s.link with searching := true, lastError := .syncLost } }

/-- R84, R87: one report of the Cycle Tracker taken by the unit. -/
def linkTakes (r : LinkReport) (s : State) : State :=
  match r with
  | .beaconMissed => linkTakesMiss s
  | .syncLost => linkTakesSyncLost s
  | .outcome q o => linkTakesOutcome q o s

/-- Reports taken by the unit, oldest first. -/
def drainLinkReports : List LinkReport → State → State
  | [], s => s
  | r :: rest, s => drainLinkReports rest (linkTakes r s)

/-- The oldest report waiting at the unit is a settled outcome. -/
def outcomeAtLink (s : State) : Option (Bool × FrameOutcome) :=
  match s.mail.linkReports with
  | .outcome q o :: _ => some (q, o)
  | _ => none

/-- LINK_OUTCOME (R84). -/
def execLinkOutcome (s : State) : Answer :=
  event (outcomeAtLink s).isSome
    (match outcomeAtLink s with
     | some (q, o) => linkTakesOutcome q o (dropLinkReport s)
     | none => s) s

/-- RECEIVE_ERROR (R85). -/
def execReceiveError (s : State) : Answer :=
  event (!s.mail.rxErrors.isEmpty)
    (match s.mail.rxErrors with
     | e :: rest =>
       loggedChange (LinkUnit.downError e.linkError) { s with mail := { s.mail with rxErrors := rest } }
     | [] => s) s

/-- BEACON_MISSED_REPORT (R87). -/
def execBeaconMissedReport (s : State) : Answer :=
  event (s.mail.linkReports.head? == some .beaconMissed)
    (linkTakesMiss (dropLinkReport s)) s

/-- SYNC_LOST_REPORT (R87). -/
def execSyncLostReport (s : State) : Answer :=
  event (s.mail.linkReports.head? == some .syncLost)
    (linkTakesSyncLost (dropLinkReport s)) s

/-- The routing holds a beacon the unit has not taken. -/
def beaconForLink (s : State) : Bool := s.rx.held.any (fun h => h.forLink)

/-- BEACON_AT_LINK (R86). -/
def execBeaconAtLink (s : State) : Answer :=
  event (beaconForLink s) (relink { takenByLink s with link := s.link.goodBeacon }) s

/-- R93: the link log cleared and the Link Status Block rewritten. -/
def clearLinkLog (i : Slot) (s : State) : State :=
  completeRequest i .done 0 (rewriteLink { s with link := { s.link with log := 0, overflowed := false } })

/-- CLEAR_LINK_LOG (R93). -/
def execClearLinkLog (s : State) : Answer := takeRequest (· == 0x51) clearLinkLog s

/-- BAD_REQUEST (R11): a request whose code is not in the table. -/
def execBadRequest (s : State) : Answer :=
  takeRequest (fun c => !knownCodes.contains c) (fun i t => completeRequest i .badRequest 0 t) s

end Sys2Proof.Machine
end

