-- ==== Sys2Proof/Machine/CycleTracker.lean ====
section
/-! DEFINITION. The Cycle Tracker (chapter 4): the backoff generator, the beacon and the missed beacon, the
choice of a frame for a cycle, the slot start, the settling of frames and the soft reset. -/

namespace Sys2Proof.Machine

/-! ### The backoff generator (R55) -/

/-- R55: one advance of the generator; the value after the advance is the draw. -/
def advance (r : Word) : Word := if r.getLsbD 0 then (r >>> 1) ^^^ 0xB400#16 else r >>> 1

/-- R55: the seed for a cab number. -/
def seed (cab : Nat) : Word :=
  let x := BitVec.ofNat 16 cab ^^^ 0xACE1#16
  if x = 0 then 0xACE1#16 else x

/-- R55: a draw, standing in the generator afterwards. -/
def draw (s : State) : State := { s with cycle := { s.cycle with lfsr := advance s.cycle.lfsr } }

/-! ### Settling (R64 to R66) -/

/-- R66: a settled outcome delivered to the owner and, but for NOT_SENT and ABANDONED, to the Link
Quality Unit. -/
def deliver (owner : Owner) (o : FrameOutcome) (s : State) : State :=
  let told := match o with
    | .notSent => false
    | .abandoned => false
    | _ => true
  match owner with
  | .queue id => mailQueueOut id o (if told then mailLink (.outcome true o) s else s)
  | .call _ => mailCallOut o (if told then mailLink (.outcome false o) s else s)

/-- R66: the frame in flight settled with an outcome; the record returns to NONE. -/
def settle (o : FrameOutcome) (s : State) : State :=
  deliver s.cycle.inFlight.owner o { s with cycle := { s.cycle with inFlight := {} } }

/-- R64: the outcome a good beacon gives, by the phase. -/
def beaconOutcome (cab : Nat) (acks : List Nat) (p : Phase) : Option FrameOutcome :=
  match p with
  | .awaiting => some (if acks.contains cab then .acknowledged else .missed)
  | .onAir => some (.missedUnjudged .overlap)
  | .chosen => some .notSent
  | .none => none

/-- R65: the outcome a missed beacon gives, by the phase. -/
def missOutcome (p : Phase) : Option FrameOutcome :=
  match p with
  | .awaiting => some (.missedUnjudged .beacon)
  | .onAir => some (.missedUnjudged .beacon)
  | .chosen => some .notSent
  | .none => none

/-- The owner of the frame in flight is the queue. -/
def Owner.isQueue : Owner → Bool
  | .queue _ => true
  | .call _ => false

/-- R57, R58: the miss run and the skip count after a MISSED ordinary frame, from the backoff draw. -/
def backoff (s : State) : State :=
  let t := draw s
  let m := bump 255 t.cycle.missRun
  { t with cycle := { t.cycle with missRun := m, skip := t.cycle.lfsr.toNat % 2 ^ (min m 4) } }

/-- R51, step 2: the counts moved by the outcome of an ordinary frame. -/
def countOutcome (owner : Owner) (o : FrameOutcome) (s : State) : State :=
  if owner.isQueue then
    match o with
    | .missed => backoff s
    | .acknowledged => { s with cycle := { s.cycle with missRun := 0 } }
    | _ => s
  else s

/-- R51, steps 1 and 2. -/
def settleByBeacon (acks : List Nat) (s : State) : State :=
  match beaconOutcome s.working.cab acks s.cycle.inFlight.phase with
  | none => s
  | some o => countOutcome s.cycle.inFlight.owner o (settle o s)

/-! ### The choice (R60, R61) -/

/-- R59: the spacing count at the end of a choice in which no ordinary frame was chosen. -/
def spacingRises (s : State) : State :=
  { s with cycle := { s.cycle with spacing := bump 3 s.cycle.spacing } }

/-- R61: one skipped cycle. -/
def skipFalls (s : State) : State := { s with cycle := { s.cycle with skip := s.cycle.skip - 1 } }

/-- R61: the link state allows an ordinary frame. -/
def linkAllows (l : LinkState) (spacing : Nat) : Bool :=
  match l with
  | .good => true
  | .weak => true
  | .degraded => spacing == 3
  | _ => false

/-- N of the beacon record; 0 while there is none. -/
def CycleTracker.contention (c : CycleTracker) : Nat := (c.record.map (·.slots)).getD 0

/-- R61: the conditions for an ordinary frame at a skip count of 0, the head of the queue apart. -/
def ordinaryAllowed (s : State) : Bool :=
  s.supply.state == .ok && linkAllows s.link.state s.cycle.spacing && 1 ≤ s.cycle.contention

/-- R56, R61: an entry chosen for the slot its draw gives. -/
def chooseEntry (e : Entry) (s : State) : State :=
  let t := draw s
  let slot := 1 + t.cycle.lfsr.toNat % t.cycle.contention
  { t with cycle := { t.cycle with
      spacing := 0, inFlight := { phase := .chosen, owner := .queue e.id, slot := slot } } }

/-- R61: the choice of an ordinary frame. -/
def chooseOrdinary (s : State) : State :=
  if 0 < s.cycle.skip then spacingRises (skipFalls s)
  else
    match headEntry s.queue.entries with
    | some e => if ordinaryAllowed s then chooseEntry e s else spacingRises s
    | none => spacingRises s

/-- R60, R183: an offered call chosen for slot 0. -/
def chooseCall (s : State) : State :=
  let t := makeCall s
  spacingRises (skipFalls { t with cycle := { t.cycle with
    inFlight := { phase := .chosen, owner := .call (callPayload t), slot := 0 } } })

/-- R60, R182: the question put to the Emergency Unit, with the retry draw where it calls for one. -/
def askCall (s : State) : Bool × State :=
  let t := if s.emergency.wantsDraw then draw s else s
  (t.emergency.offers t.cycle.lfsr, { t with emergency := t.emergency.asked })

/-- R51, step 4. -/
def chooseFrame (s : State) : State :=
  let (offered, t) := askCall s
  if offered then
    if t.supply.state = .ok then chooseCall t else chooseOrdinary (callRefused t)
  else chooseOrdinary t

/-! ### The beacon (R50, R51) -/

/-- R49: fleet time set from a beacon taken `e` ticks after its end instant. -/
def beaconTime (secs e : Nat) : Stamp :=
  { secs := (secs + e / 100) % 4294967296, centis := e % 100, valid := true }

/-- R51, step 3, with R50's entry into SYNCHRONISED. -/
def storeBeacon (endInstant cycle secs interval slots : Nat) (s : State) : State :=
  { s with cycle := { s.cycle with
      synced := true
      record := some { endInstant := endInstant, cycle := cycle, interval := interval, slots := slots }
      fleet := beaconTime secs (ticksFrom endInstant s.now)
      missedRun := 0
      deadline := some (instantAfter endInstant (15 * interval)) } }

/-- R71, R182: the deliveries already made are taken by the queue and the Emergency Unit before the
choice (log entry 12). -/
def takeDeliveries (s : State) : State :=
  let t := drainCallOuts s.mail.callOuts { s with mail := { s.mail with callOuts := [] } }
  drainQueueOuts t.mail.queueOuts { t with mail := { t.mail with queueOuts := [] } }

/-- R61: what the Link Quality Unit, which takes its reports as events of its own, has taken when the choice
is made: all that wait (`first`), or none of them yet. -/
def linkBeforeChoice (first : Bool) (s : State) : State :=
  match s.mail.linkReports with
  | [] => s
  | l => if first then drainLinkReports l { s with mail := { s.mail with linkReports := [] } } else s

/-- R50, R51: the four steps of a good beacon; `linkFirst` is the free order of R61. -/
def takeBeacon (linkFirst : Bool) (h : HeldFrame) (cycle secs interval slots : Nat) (acks : List Nat) (s : State) : State :=
  let t := takenByOwner s
  let u := if t.cycle.synced then settleByBeacon acks t else t
  chooseFrame (linkBeforeChoice linkFirst (takeDeliveries (storeBeacon h.endInstant cycle secs interval slots u)))

/-- The beacon the routing holds for the Cycle Tracker. -/
def beaconAtTracker (s : State) : Option (HeldFrame × Downlink) :=
  match heldForOwner s with
  | some h => if h.frame.isBeacon then some (h, h.frame) else none
  | none => none

/-- BEACON (R51); whether the Link Quality Unit comes before the choice is a free value (log entry 12). -/
def execBeacon (s : State) : Answer :=
  event (beaconAtTracker s).isSome
    (match beaconAtTracker s with
     | some (h, .beacon _ cycle secs interval slots acks) =>
       takeBeacon (Config.freeLink s.free) h cycle secs interval slots acks { s with free := s.free + 1 }
     | _ => s) s

/-! ### The missed beacon (R52, R53) -/

/-- R53: synchronisation lost. -/
def loseSync (s : State) : State :=
  cutSending .search (mailLink .syncLost
    { s with cycle := { s.cycle with
        synced := false, deadline := none, missedRun := 0, skip := 0, missRun := 0, spacing := 3 } })

/-- R52, step 3. -/
def settleByMiss (s : State) : State :=
  match missOutcome s.cycle.inFlight.phase with
  | none => s
  | some o => settle o s

/-- R52, R53: a missed beacon at the deadline `d`. -/
def missBeacon (d : Nat) (s : State) : State :=
  let run := bump 3 s.cycle.missedRun
  let interval := (s.cycle.record.map (·.interval)).getD 0
  let t := settleByMiss (mailLink .beaconMissed { s with cycle := { s.cycle with missedRun := run } })
  let u := { t with cycle := { t.cycle with deadline := some (instantAfter d (10 * interval)) } }
  if run = 3 then loseSync u else u

/-- The supervision deadline has been reached. -/
def deadlineReached (s : State) : Bool :=
  s.cycle.synced && s.cycle.deadline.any (fun d => reached d s.now)

/-- BEACON_MISSED (R52). -/
def execBeaconMissed (s : State) : Answer :=
  event (deadlineReached s) (match s.cycle.deadline with
    | some d => missBeacon d s
    | none => s) s

/-! ### The slot start (R54, R62) -/

/-- R54: the instant at which the chosen slot begins. -/
def slotInstant (c : CycleTracker) : Option Nat :=
  c.record.map (fun r => instantAfter r.endInstant (20 + 10 * c.inFlight.slot))

/-- R62: the chosen slot's start has been reached with the record CHOSEN. -/
def slotReached (s : State) : Bool :=
  s.cycle.inFlight.phase == .chosen && (slotInstant s.cycle).any (fun t => reached t s.now)

/-- The in-flight record enters a phase. -/
def toPhase (p : Phase) (s : State) : State :=
  { s with cycle := { s.cycle with inFlight := { s.cycle.inFlight with phase := p } } }

/-- R62: the record returns to NONE with nothing sent and no outcome. -/
def dropFrame (s : State) : State := { s with cycle := { s.cycle with inFlight := {} } }

/-- R44, R62: the send request, answered NOT_SENT or keyed. -/
def requestSend (kind : Uplink) (payload : List Byte) (s : State) : State :=
  if sendRefused s then settle .notSent s else toPhase .onAir (keyFrame kind payload s)

/-- R62, R70: the in-flight mark set on an entry. -/
def markInFlight (id : Nat) (s : State) : State :=
  { s with queue := s.queue.update id (fun e => { e with inFlight := true }) }

/-- R62: the frame handed to the Radio Port, or dropped when its owner is gone. -/
def startSlot (s : State) : State :=
  match s.cycle.inFlight.owner with
  | .queue id =>
    match s.queue.find id with
    | none => dropFrame s
    | some e => requestSend e.kind e.payload (markInFlight id s)
  | .call payload =>
    if s.emergency.kept.state = .idle then dropFrame s else requestSend .emergencyCall payload s

/-- SLOT_START (R62). -/
def execSlotStart (s : State) : Answer := event (slotReached s) (startSlot s) s

/-! ### The Radio Port's report (R63) -/

/-- R63: one report taken. -/
def takeSendReport (r : SendReport) (s : State) : State :=
  if s.cycle.inFlight.phase = .onAir then
    match r with
    | .sent => toPhase .awaiting s
    | .cut .supply => settle (.missedUnjudged .supply) s
    | .cut .slotEnd => settle (.missedUnjudged .slotEnd) s
    | .cut .reset => s
    | .cut .search => s
  else s

/-- The oldest report waiting at the Cycle Tracker is taken. -/
def sendReportTaken (s : State) : State :=
  match s.mail.sendReports with
  | [] => s
  | r :: rest => takeSendReport r { s with mail := { s.mail with sendReports := rest } }

/-- SEND_REPORT (R63). -/
def execSendReport (s : State) : Answer := event (!s.mail.sendReports.isEmpty) (sendReportTaken s) s

/-! ### The Transmit Queue's own events -/

/-- The oldest outcome waiting at the queue is taken. -/
def queueOutcomeTaken (s : State) : State :=
  match s.mail.queueOuts with
  | [] => s
  | (id, o) :: rest => queueTakesOutcome id o { s with mail := { s.mail with queueOuts := rest } }

/-- QUEUE_OUTCOME (R79). -/
def execQueueOutcome (s : State) : Answer := event (!s.mail.queueOuts.isEmpty) (queueOutcomeTaken s) s

/-- R76: the status timer preset again, and a status trigger. -/
def statusExpired (s : State) : State :=
  statusTrigger { s with queue := { s.queue with timer := Timer.start s.working.status } }

/-- STATUS_TIMER_EXPIRY (R76). -/
def execStatusTimerExpiry (s : State) : Answer := event s.queue.timer.due (statusExpired s) s

/-- R78: SEND_STATUS gives a status trigger and completes DONE. -/
def sendStatus (i : Slot) (s : State) : State := completeRequest i .done 0 (statusTrigger s)

/-- SEND_STATUS (R78). -/
def execSendStatus (s : State) : Answer := takeRequest (· == 0x04) sendStatus s

/-! ### Soft reset (R68) -/

/-- R68, step 4. -/
def abandonFrame (s : State) : State :=
  if s.cycle.inFlight.phase = .none then s else settle .abandoned s

/-- R68: the Cycle Tracker's part of a soft reset. -/
def resetTracker (s : State) : State :=
  abandonFrame
    { s with cycle := { s.cycle with
        synced := false, deadline := none, missedRun := 0, missRun := 0, skip := 0, spacing := 3,
        lfsr := seed s.working.cab } }

end Sys2Proof.Machine
end

