-- ==== Sys2Proof/Machine/DriverMessages.lean ====
section
/-! DEFINITION. The Message Manager (chapter 10): the receiving, storing and refusing of base messages, the
return of a box slot, the reminder and the driver's own messages. -/

namespace Sys2Proof.Machine

/-! ### Storing a message (R162 to R165) -/

/-- A BASE_MESSAGE as the Message Manager takes it. -/
structure Incoming where
  number   : Nat
  directed : Bool
  receipt  : Bool
  urgent   : Bool
  sender   : Nat
  text     : List Byte
  arrival  : Stamp
  deriving DecidableEq, Repr

/-- R163: the message is a repeat. -/
def MessageManager.knows (n : Nat) (m : MessageManager) : Bool :=
  m.recent.contains n || slots16.any (fun i => (pick m.boxes i).held && (pick m.boxes i).number == n)

/-- R165: a number joins the recent-number list. -/
def appendRecent (n : Nat) (l : List Nat) : List Nat :=
  (if l.length < 16 then l else l.drop 1) ++ [n]

/-- R162: the data words of a stored message, from offset 0x02 of the slot. -/
def messageBytes (arrivalNo : Nat) (m : Incoming) : List Byte :=
  le 2 arrivalNo ++ le 2 m.number ++
  [byte (if m.directed then 1 else 2), byte (flagBits [m.receipt, m.urgent]), byte m.sender,
   byte m.text.length] ++ m.arrival.bytes ++ padTo 56 m.text

/-- R164, step 3. -/
def boxRecord (m : Incoming) : BoxRecord :=
  { held := true, number := m.number, receipt := m.receipt, urgent := m.urgent, directed := m.directed }

/-- R163, R164: a MSG_DELIVERED asked for. -/
def answerDelivered (n : Nat) (s : State) : State := admitController .msgDelivered (be 2 n) s

/-- R164, step 8: the reminder started when no other slot was at APP.

DESIGN CHOICE, unsafe (log entry 48): it starts from the interval of the working copy as it stands, also where a
REPLACE_SETTINGS has changed the interval since the stopped timer was last preset; no rule says from which. -/
def startReminder (boxEmpty : Bool) (interval : Nat) (t : Timer) : Timer :=
  if boxEmpty then Timer.start interval else t

/-- R164, steps 2 and 4: the slot's data words and then the hand. -/
@[irreducible] def presentMessage (i : Slot) (arrivalNo : Nat) (m : Incoming) (r : Memory) : Memory :=
  Memory.write (Memory.write r (boxBase i + 2) (messageBytes arrivalNo m)) (boxBase i) (handWord handApp)

/-- R164: the message written into its slot, with the box record, the list, the arrival number and the
reminder. -/
def storeMessage (i : Slot) (m : Incoming) (s : State) : State :=
  { s with
    ram := presentMessage i s.msgs.nextArrival m s.ram
    msgs := { s.msgs with
      nextArrival := wrapNext 65535 1 s.msgs.nextArrival
      boxes := put s.msgs.boxes i (boxRecord m)
      recent := appendRecent m.number s.msgs.recent
      reminder := startReminder (!anyBoxAtApp s.ram) s.working.reminder s.msgs.reminder } }

/-- R164: a message stored, with its news, its answer and its chime. -/
def acceptMessage (i : Slot) (m : Incoming) (s : State) : State :=
  let t := setNews .message (storeMessage i m s)
  let u := if m.directed then answerDelivered m.number t else t
  if m.urgent then requestChime u else u

/-- R166, R167: a message that finds the box full. -/
def refuseMessage (m : Incoming) (s : State) : State :=
  if m.directed then
    if s.msgs.rnr then s else statusTrigger { s with msgs := { s.msgs with rnr := true } }
  else
    setNews .dropped { s with msgs := { s.msgs with dropped := bump 255 s.msgs.dropped } }

/-- R163, R167: a BASE_MESSAGE judged. -/
def takeMessage (m : Incoming) (s : State) : State :=
  if s.msgs.knows m.number then (if m.directed then answerDelivered m.number s else s)
  else
    match freeBox s.ram with
    | some i => acceptMessage i m s
    | none => refuseMessage m s

/-- The BASE_MESSAGE the routing holds. -/
def messageAtManager (s : State) : Option Incoming :=
  match heldForOwner s with
  | some h =>
    match h.frame with
    | .baseMessage number receipt urgent sender text =>
      some { number := number, directed := h.directed, receipt := receipt, urgent := urgent,
             sender := sender, text := text, arrival := h.stamp }
    | _ => none
  | none => none

/-- BASE_MESSAGE (R163). -/
def execBaseMessage (s : State) : Answer :=
  event (messageAtManager s).isSome
    (match messageAtManager s with
     | some m => takeMessage m (takenByOwner s)
     | none => s) s

/-! ### Returning a slot (R168) -/

/-- The disposition READ in the high byte of the returning hand word (spec 1.2). -/
def dispositionRead : Byte := 1

/-- R168, step 2: a receipt is owed. -/
def owesReceipt (b : BoxRecord) (d : Byte) : Bool := d == dispositionRead && b.directed && b.receipt

/-- R168, step 4: the reminder preset and stopped once no slot is at APP. -/
def stopReminder (s : State) : State :=
  if anyBoxAtApp s.ram then s
  else
    { s with msgs := { s.msgs with reminder := { running := false, left := s.working.reminder } } }

/-- R168, step 3. -/
def clearRnr (s : State) : State :=
  if s.msgs.rnr then statusTrigger { s with msgs := { s.msgs with rnr := false } } else s

/-- R168: a return taken, the slot's hand already at CTL. -/
def takeReturn (i : Slot) (d : Byte) (s : State) : State :=
  let b := pick s.msgs.boxes i
  let t := { s with msgs := { s.msgs with boxes := put s.msgs.boxes i { b with held := false } } }
  let u := if owesReceipt b d then admitController .msgReceipt (be 2 b.number) t else t
  stopReminder (clearRnr u)

/-! ### The reminder (R170) -/

/-- R170: an expiry of the reminder timer. -/
def reminderExpired (s : State) : State :=
  requestChime (setNews .reminder
    { s with msgs := { s.msgs with reminder := Timer.start s.working.reminder } })

/-- REMINDER_EXPIRY (R170). -/
def execReminderExpiry (s : State) : Answer := event s.msgs.reminder.due (reminderExpired s) s

/-! ### Sending (R171, R172) -/

/-- R171, check 1. -/
def messageInRange (code len : Nat) : Bool :=
  (within 1 63 code && len == 0) || (code == 0 && within 1 48 len)

/-- R171: the DRIVER_MESSAGE payload after its sequence byte. -/
def messageTail (code len : Nat) (text : List Byte) : List Byte :=
  [byte code, byte len] ++ clampText text

/-- R171: the frame admitted and the request kept as a held send. -/
def keepSend (i : Slot) (tail : List Byte) (s : State) : State :=
  let t := admitHost .driverMessage tail (some i) s
  { t with msgs := { t.msgs with sends := t.msgs.sends ++ [{ slot := i, seq := s.queue.nextSeq }] } }

/-- R171: SEND_MESSAGE. -/
def sendMessage (i : Slot) (s : State) : State :=
  let code := param1 s.ram i
  let len := paramTextLength s.ram i
  if !messageInRange code len then completeRequest i .refusedRange 0 s
  else if hostMayAdmit s then keepSend i (messageTail code len (paramText s.ram i len)) s
  else completeRequest i .queueFull 0 s

/-- SEND_MESSAGE (R171). -/
def execSendMessage (s : State) : Answer := takeRequest (· == 0x30) sendMessage s

/-- R172: the queue's notice taken. -/
def takeSendNotice (n : SendNotice) (s : State) : State :=
  let h : HeldSend := { slot := n.slot, seq := n.seq }
  if s.msgs.sends.contains h then
    completeRequest n.slot (if n.done then .done else .undelivered) n.seq
      { s with msgs := { s.msgs with sends := s.msgs.sends.erase h } }
  else s

/-- The oldest notice waiting at the Message Manager is taken. -/
def sendNoticeTaken (s : State) : State :=
  match s.mail.sendNotices with
  | [] => s
  | n :: rest => takeSendNotice n { s with mail := { s.mail with sendNotices := rest } }

/-- HELD_SEND_COMPLETION (R172). -/
def execHeldSendCompletion (s : State) : Answer :=
  event (!s.mail.sendNotices.isEmpty) (sendNoticeTaken s) s

/-! ### Soft reset (R174) -/

/-- R174: every slot is at APP. -/
def boxFull (m : Memory) : Bool := (freeBox m).isNone

/-- R174, steps 1 and 4, with the flag of step 3. -/
def MessageManager.softReset (full anyApp : Bool) (interval : Nat) (m : MessageManager) :
    MessageManager :=
  { m with
    sends := []
    rnr := full
    reminder := if anyApp then Timer.start interval else { running := false, left := interval } }

end Sys2Proof.Machine
end

