-- ==== Sys2Proof/Machine/JobOffers.lean ====
section
/-! DEFINITION. The Offer Manager (chapter 7): the Offer Table, the gates, the entering, accepting, awarding
and closing of offers, base suspension and the cab's zone. -/

namespace Sys2Proof.Machine

/-! ### The Offer Table (R97) -/

def setPlace (i : Place) (p : OfferPlace) (s : State) : State :=
  { s with offers := { s.offers with places := put s.offers.places i p } }

/-- The place of the open entry that carries an offer number. -/
def findOpen (number : Nat) (o : OfferManager) : Option Place :=
  places8.find? (fun i => (pick o.places i).state.isOpen && (pick o.places i).number == number)

/-- R97, R98: the entry of a place closed in a closing state, with the closing timestamp; a closing as
EXPIRED is handed to the Fare Meter. -/
def closePlace (i : Place) (st : PlaceState) (s : State) : State :=
  let t := setPlace i { pick s.offers.places i with state := st, closing := s.cycle.fleet } s
  if st = .expired then mailAddition .offerExpired t else t

/-- R97: the entry of a place enters AWARDED, which is handed to the Fare Meter. -/
def awardPlace (i : Place) (s : State) : State :=
  mailAddition .offerAccepted (setPlace i { pick s.offers.places i with state := .awarded } s)

/-- The entries that satisfy a test closed CANCELLED, in rising order of place. -/
def cancelWhere (p : OfferPlace → Bool) (s : State) : State :=
  places8.foldl (fun t i => if p (pick t.offers.places i) then closePlace i .cancelled t else t) s

def OfferPlace.presented (p : OfferPlace) : Bool := p.state == .presented

/-- Origin codes of an entry (spec 13.3). -/
def originDirected : Nat := 1
def originZone : Nat := 2

def OfferPlace.presentedZone (p : OfferPlace) : Bool := p.state == .presented && p.origin == originZone

/-- R112: the acceptance that an entry leaving ACCEPTING held: the request completes with the outcome and
the place, the note is cleared and the JOB_ACCEPT's removal is asked. -/
def endAcceptance (i : Place) (o : ReqOutcome) (s : State) : State :=
  let t := match s.offers.heldAccept with
    | some slot => completeRequest slot o i.val s
    | none => s
  removeAccept (pick s.offers.places i).number { t with offers := { t.offers with heldAccept := none } }

/-! ### Gates (R101) -/

/-- R101: the OFF_DUTY gate closes. -/
def closeOffDuty (s : State) : State :=
  let t := cancelWhere OfferPlace.presented s
  { t with offers := { t.offers with offDutyGate := true } }

/-- R101: the OFF_DUTY gate opens. -/
def openOffDuty (s : State) : State := { s with offers := { s.offers with offDutyGate := false } }

/-- R101: the EMERGENCY gate closes. -/
def closeEmergencyGate (s : State) : State :=
  let t := cancelWhere OfferPlace.presented s
  { t with offers := { t.offers with emergencyGate := true } }

/-- R101: the EMERGENCY gate opens. -/
def openEmergencyGate (s : State) : State :=
  { s with offers := { s.offers with emergencyGate := false } }

/-- R101, R108: the local suspension latch set: the gate closes, with a status trigger. -/
def setLatch (s : State) : State :=
  let t := cancelWhere OfferPlace.presentedZone s
  statusTrigger { t with offers := { t.offers with latch := true } }

/-! ### Judging an offer (R102 to R107) -/

/-- R102, step 2: the offer number is the job number of the trip in progress or of a TRIP record held. -/
def FareRecord.jobIs (n : Nat) : FareRecord → Bool
  | .trip r => r.job == n
  | .shift _ => false

def jobStarted (n : Nat) (s : State) : Bool :=
  (s.fare.meter != .vacant && s.fare.trip.job == n) ||
  slots16.any (fun i => (pick s.store.places i).any (fun h => h.record.jobIs n))

/-- R103: a ZONE offer passes. -/
def zonePasses (zone : Nat) (s : State) : Bool :=
  s.fare.duty == .on && s.fare.meter == .vacant && zone == s.offers.zone && s.offers.allOpen &&
  !s.offers.anyTaken

/-- R104: a DIRECTED offer passes. -/
def directedPasses (o : OfferManager) : Bool := !o.offDutyGate && !o.baseSuspended && !o.emergencyGate

/-- R107: a deadline clamped to 5..120 seconds. -/
def clampDeadline (n : Nat) : Nat := max 5 (min 120 n)

/-- R107: the entry an offer makes.

DESIGN CHOICE, unsafe (log entry 46): the award wait remaining of an entry that has not been ACCEPTING is 0; the
spec gives it no value before its preset. -/
def newEntry (directed : Bool) (stamp : Stamp) (number zone deadline : Nat) (assigned account : Bool)
    (estimate : Nat) (text : List Byte) : OfferPlace where
  state := if directed && assigned then .awarded else .presented
  number := number
  origin := if directed then originDirected else originZone
  zone := zone
  assigned := assigned
  account := account
  deadline := clampDeadline deadline
  wait := 0
  estimate := estimate
  text := text
  arrival := stamp
  closing := {}

/-- R105, R107: an entry put into its place, with the chime; an assigned one is an entry into AWARDED. -/
def enterOffer (i : Place) (p : OfferPlace) (s : State) : State :=
  let t := requestChime (setPlace i p s)
  if p.state = .awarded then mailAddition .offerAccepted t else t

/-- R106: a drop counted. -/
def countDrop (s : State) : State :=
  setNews .dropped { s with offers := { s.offers with dropped := bump 255 s.offers.dropped } }

/-- R97: the lowest free place. -/
def freePlace (o : OfferManager) : Option Place :=
  places8.find? (fun i => !(pick o.places i).state.isOpen)

/-- R106: of two candidates the one with less deadline remaining, the earlier where they are equal. -/
def lesser (o : OfferManager) (best : Option Place) (i : Place) : Option Place :=
  if (pick o.places i).presentedZone then
    match best with
    | none => some i
    | some b => if (pick o.places i).deadline < (pick o.places b).deadline then some i else some b
  else best

/-- R106: the ZONE entry in PRESENTED that a DIRECTED offer displaces. -/
def displacedPlace (o : OfferManager) : Option Place := places8.foldl (lesser o) none

/-- R102, steps 6 and 7, with R106. -/
def placeOffer (directed : Bool) (p : OfferPlace) (s : State) : State :=
  match freePlace s.offers with
  | some i => enterOffer i p s
  | none =>
    if directed then
      match displacedPlace s.offers with
      | some i => enterOffer i p (countDrop (closePlace i .dropped s))
      | none => answerDecline p.number (if p.assigned then reasonBusy else reasonUnavailable) (countDrop s)
    else countDrop s

/-- R102, steps 4 to 7, for an offer that is no copy, no started job and no broadcast assignment. -/
def judgeOffer (directed : Bool) (p : OfferPlace) (s : State) : State :=
  if directed then
    if !directedPasses s.offers then answerDecline p.number reasonUnavailable s
    else if p.assigned && (s.fare.meter != .vacant || s.offers.anyTaken) then
      answerDecline p.number reasonBusy s
    else placeOffer directed p s
  else if zonePasses p.zone s then placeOffer directed p s
  else s

/-- R102: a JOB_OFFER; the first three steps ignore it. -/
def takeOffer (directed : Bool) (p : OfferPlace) (s : State) : State :=
  if (findOpen p.number s.offers).isSome then s
  else if jobStarted p.number s then s
  else if !directed && p.assigned then s
  else judgeOffer directed p s

/-- The JOB_OFFER the routing holds, as the entry it would make. -/
def offerAtManager (s : State) : Option (Bool × OfferPlace) :=
  match heldForOwner s with
  | some h =>
    match h.frame with
    | .jobOffer number zone deadline assigned account estimate text =>
      some (h.directed, newEntry h.directed h.stamp number zone deadline assigned account estimate text)
    | _ => none
  | none => none

/-- JOB_OFFER (R102). -/
def execJobOffer (s : State) : Answer :=
  event (offerAtManager s).isSome
    (match offerAtManager s with
     | some (directed, p) => takeOffer directed p (takenByOwner s)
     | none => s) s

/-! ### Awards and withdrawals (R113 to R115) -/

/-- R113: an award to this cab. -/
def awardHere (number : Nat) (s : State) : State :=
  match findOpen number s.offers with
  | some i =>
    match (pick s.offers.places i).state with
    | .accepting => endAcceptance i .awarded (awardPlace i s)
    | .presented =>
      if s.offers.anyTaken || s.fare.meter != .vacant then
        closePlace i .cancelled (answerDecline number reasonBusy s)
      else awardPlace i s
    | _ => s
  | none => if jobStarted number s then s else answerDecline number reasonTooLate s

/-- R114: an award to another cab. -/
def awardElsewhere (number : Nat) (s : State) : State :=
  match findOpen number s.offers with
  | some i =>
    match (pick s.offers.places i).state with
    | .accepting => endAcceptance i .lost (closePlace i .lost s)
    | .presented => closePlace i .lost s
    | _ => s
  | none => s

/-- The JOB_AWARD the routing holds. -/
def awardAtManager (s : State) : Option (Nat × Nat) :=
  match heldForOwner s with
  | some h =>
    match h.frame with
    | .jobAward number cab => some (number, cab)
    | _ => none
  | none => none

/-- R113, R114: a JOB_AWARD. -/
def takeAward (number cab : Nat) (s : State) : State :=
  if cab = s.working.cab then awardHere number s else awardElsewhere number s

/-- JOB_AWARD (R113). -/
def execJobAward (s : State) : Answer :=
  event (awardAtManager s).isSome
    (match awardAtManager s with
     | some (number, cab) => takeAward number cab (takenByOwner s)
     | none => s) s

/-- R115: a JOB_WITHDRAW. -/
def takeWithdraw (number : Nat) (s : State) : State :=
  match findOpen number s.offers with
  | some i =>
    if (pick s.offers.places i).state = .accepting then
      endAcceptance i .withdrawn (closePlace i .withdrawn s)
    else closePlace i .withdrawn s
  | none => s

/-- The JOB_WITHDRAW the routing holds. -/
def withdrawAtManager (s : State) : Option Nat :=
  match heldForOwner s with
  | some h =>
    match h.frame with
    | .jobWithdraw number => some number
    | _ => none
  | none => none

/-- JOB_WITHDRAW (R115). -/
def execJobWithdraw (s : State) : Answer :=
  event (withdrawAtManager s).isSome
    (match withdrawAtManager s with
     | some number => takeWithdraw number (takenByOwner s)
     | none => s) s

/-! ### Requests (R109, R110, R116, R119) -/

/-- R110: the seven checks; none when all pass. -/
def acceptRefusal (i : Place) (s : State) : Option ReqOutcome :=
  if (pick s.offers.places i).state ≠ .presented then some .refusedState
  else if s.fare.meter ≠ .vacant then some .refusedState
  else if s.emergency.kept.state ≠ .idle then some .refusedState
  else if s.offers.anyTaken then some .refusedState
  else if s.link.state = .withdrawn ∨ s.link.state = .search then some .noLink
  else if !hostMayAdmit s then some .queueFull
  else none

/-- R110: the acceptance kept: the JOB_ACCEPT admitted, the entry in ACCEPTING, the note made. -/
def keepAcceptance (slot : Slot) (i : Place) (s : State) : State :=
  let p := pick s.offers.places i
  let t := admitHost .jobAccept (be 2 p.number) (some slot) s
  let u := setPlace i { p with state := .accepting, wait := s.working.awardWait } t
  { u with offers := { u.offers with heldAccept := some slot, expiries := 0 } }

/-- R110: ACCEPT_OFFER. -/
def acceptOffer (slot : Slot) (s : State) : State :=
  match findOpen (param2 s.ram slot) s.offers with
  | none => completeRequest slot .unknownOffer 0 s
  | some i =>
    match acceptRefusal i s with
    | some o => completeRequest slot o i.val s
    | none => keepAcceptance slot i s

/-- ACCEPT_OFFER (R110). -/
def execAcceptOffer (s : State) : Answer := takeRequest (· == 0x20) acceptOffer s

/-- R116: the JOB_DECLINE an entry owes on a decline by the driver. -/
def declineReason (p : OfferPlace) : Option Nat :=
  match p.state with
  | .presented => if p.origin = originDirected then some reasonDriver else none
  | .awarded => some reasonReturned
  | _ => none

/-- R116: the closing state of a decline. -/
def declineState (p : OfferPlace) : PlaceState :=
  if p.state = .awarded then .cancelled else .declined

/-- R116: the entry closed, the counter cleared and the request completed DONE. -/
def finishDecline (slot : Slot) (i : Place) (s : State) : State :=
  let t := closePlace i (declineState (pick s.offers.places i)) s
  completeRequest slot .done i.val { t with offers := { t.offers with expiries := 0 } }

/-- R116: DECLINE_OFFER. -/
def declineOffer (slot : Slot) (s : State) : State :=
  match findOpen (param2 s.ram slot) s.offers with
  | none => completeRequest slot .unknownOffer 0 s
  | some i =>
    let p := pick s.offers.places i
    if p.state = .accepting then completeRequest slot .refusedState i.val s
    else
      match declineReason p with
      | none => finishDecline slot i s
      | some r =>
        if hostMayAdmit s then
          finishDecline slot i (admitHost .jobDecline (declineTail p.number r) none s)
        else completeRequest slot .queueFull i.val s

/-- DECLINE_OFFER (R116). -/
def execDeclineOffer (s : State) : Answer := takeRequest (· == 0x21) declineOffer s

/-- R109: the latch cleared, with the status trigger of R101 when it was set. -/
def clearLatch (s : State) : State :=
  let t := { s with offers := { s.offers with latch := false, expiries := 0 } }
  if s.offers.latch then statusTrigger t else t

/-- R109: RESUME_OFFERS. -/
def resumeOffers (slot : Slot) (s : State) : State := completeRequest slot .done 0 (clearLatch s)

/-- RESUME_OFFERS (R109). -/
def execResumeOffers (s : State) : Answer := takeRequest (· == 0x22) resumeOffers s

/-- R119: the zone changed. -/
def changeZone (zone : Nat) (s : State) : State :=
  let t := cancelWhere OfferPlace.presentedZone s
  statusTrigger { t with offers := { t.offers with zone := zone } }

/-- R119: SET_ZONE. -/
def setZone (slot : Slot) (s : State) : State :=
  let zone := param1 s.ram slot
  if zone = 0 then completeRequest slot .refusedRange 0 s
  else if zone = s.offers.zone then completeRequest slot .done 0 s
  else completeRequest slot .done 0 (changeZone zone s)

/-- SET_ZONE (R119). -/
def execSetZone (s : State) : Answer := takeRequest (· == 0x03) setZone s

/-! ### Timers (R108, R111) -/

/-- R108: the consecutive-expiry counter after an expiry. -/
def expiriesAfter (o : OfferManager) : Nat := if o.latch then o.expiries else bump 15 o.expiries

/-- R108: an expired deadline. -/
def deadlineExpired (i : Place) (s : State) : State :=
  let t := closePlace i .expired s
  let u := { t with offers := { t.offers with expiries := expiriesAfter t.offers } }
  let limit := s.working.countOut
  if !u.offers.latch && limit != 0 && decide (limit ≤ u.offers.expiries) then setLatch u else u

/-- The deadline of the entry in a place has run out. -/
def deadlineOut (o : OfferManager) (i : Place) : Bool :=
  (pick o.places i).state == .presented && (pick o.places i).deadline == 0

/-- OFFER_DEADLINE_EXPIRY (R108). -/
def execOfferDeadlineExpiry (i : Place) (s : State) : Answer :=
  event (deadlineOut s.offers i) (deadlineExpired i s) s

/-- R111: an ACCEPTING entry closed UNANSWERED. -/
def unanswered (i : Place) (s : State) : State := endAcceptance i .unanswered (closePlace i .unanswered s)

/-- The award wait of the entry in a place has run out. -/
def waitOut (o : OfferManager) (i : Place) : Bool :=
  (pick o.places i).state == .accepting && (pick o.places i).wait == 0

/-- AWARD_WAIT_EXPIRY (R111). -/
def execAwardWaitExpiry (i : Place) (s : State) : Answer :=
  event (waitOut s.offers i) (unanswered i s) s

/-- R111: an UNDELIVERED for an offer number. -/
def takeUndelivered (number : Nat) (s : State) : State :=
  match findOpen number s.offers with
  | some i => if (pick s.offers.places i).state = .accepting then unanswered i s else s
  | none => s

/-- The oldest UNDELIVERED that waits at the Offer Manager is taken. -/
def undeliveredTaken (s : State) : State :=
  match s.mail.undelivered with
  | [] => s
  | n :: rest => takeUndelivered n { s with mail := { s.mail with undelivered := rest } }

/-- ACCEPT_UNDELIVERED (R111). -/
def execAcceptUndelivered (s : State) : Answer :=
  event (!s.mail.undelivered.isEmpty) (undeliveredTaken s) s

/-! ### Base suspension (R118) -/

/-- R118: the BASE_SUSPEND gate closes. -/
def closeBaseGate (s : State) : State :=
  let t := cancelWhere OfferPlace.presented s
  statusTrigger { t with offers := { t.offers with baseSuspended := true } }

/-- R118: a CAB_SUSPEND. -/
def suspendCab (reason minutes : Nat) (s : State) : State :=
  let t := { s with offers := { s.offers with
    baseReason := reason, baseTimer := Timer.start (minutes * 60) } }
  if s.offers.baseSuspended then t else closeBaseGate t

/-- R118: the base suspension ends. -/
def endSuspension (s : State) : State :=
  statusTrigger { s with offers := { s.offers with
    baseSuspended := false, baseTimer := { running := false, left := 0 } } }

/-- R118: a CAB_RESUME; it does nothing while no suspension is in force. -/
def resumeCab (s : State) : State := if s.offers.baseSuspended then endSuspension s else s

/-- The CAB_SUSPEND the routing holds. -/
def suspendAtManager (s : State) : Option (Nat × Nat) :=
  match heldForOwner s with
  | some h =>
    match h.frame with
    | .cabSuspend reason minutes => some (reason, minutes)
    | _ => none
  | none => none

/-- CAB_SUSPEND (R118). -/
def execCabSuspend (s : State) : Answer :=
  event (suspendAtManager s).isSome
    (match suspendAtManager s with
     | some (reason, minutes) => suspendCab reason minutes (takenByOwner s)
     | none => s) s

/-- CAB_RESUME (R118). -/
def execCabResume (s : State) : Answer :=
  event (holdsPlain .cabResume s) (resumeCab (takenByOwner s)) s

/-- BASE_SUSPENSION_EXPIRY (R118). -/
def execBaseSuspensionExpiry (s : State) : Answer :=
  event (s.offers.baseSuspended && s.offers.baseTimer.due) (endSuspension s) s

/-! ### The awarded job (R117) and the soft reset (R120) -/

/-- The place of the AWARDED entry. -/
def awardedPlace (o : OfferManager) : Option Place :=
  places8.find? (fun i => (pick o.places i).state == .awarded)

/-- R117: the job number given to the Fare Meter. -/
def awardedJob (o : OfferManager) : Nat :=
  match awardedPlace o with
  | some i => (pick o.places i).number
  | none => 0

/-- R117: the AWARDED entry closed STARTED. -/
def startJob (s : State) : State :=
  match awardedPlace s.offers with
  | some i => closePlace i .started s
  | none => s

/-- R120: the Offer Manager's part of a soft reset. -/
def resetOffers (s : State) : State :=
  let t := cancelWhere (fun p => p.state.isOpen) s
  { t with offers := { t.offers with heldAccept := none } }

end Sys2Proof.Machine
end

