-- ==== Sys2Proof/Machine/FareMeter.lean ====
section
/-! DEFINITION. The Fare Meter's computation (chapter 8): increments, pulses and ticks in the two modes, the
pulse limiter, tariffs, extras, marks, the shift totals and the effects of an emergency change. -/

namespace Sys2Proof.Machine

/-- The largest 32-bit count. -/
def max32 : Nat := 4294967295

/-- The largest fare (R125). -/
def maxFare : Nat := 999999

/-! ### Charging (R129, R137) -/

/-- R129: an amount added to the fare with saturation, SATURATED set when the fare is left at its top. -/
def Trip.addFare (amount : Nat) (t : Trip) : Trip :=
  { t with
    fare := satAdd maxFare t.fare amount
    marks := { t.marks with saturated := t.marks.saturated || satAdd maxFare t.fare amount == maxFare } }

/-- R129: one increment charged. -/
def Trip.charge (t : Trip) : Trip :=
  { t.addFare t.par.tariff.amount with increments := bump max32 t.increments }

/-! ### Steps (R127, R128, R130, R131) -/

/-- The distance phase leaves INITIAL; in SINGLE mode the one phase does. -/
def Trip.leaveByDistance (t : Trip) : Trip :=
  { t with distRunning := true, timeRunning := t.timeRunning || !t.par.tariff.double }

/-- The time phase leaves INITIAL; in SINGLE mode the one phase does. -/
def Trip.leaveByTime (t : Trip) : Trip :=
  { t with timeRunning := true, distRunning := t.distRunning || !t.par.tariff.double }

/-- R127, R130: a completed distance step. -/
def Trip.distanceStep (t : Trip) : Trip :=
  let u := { t with
    adist := t.adist - t.distThreshold, atime := if t.par.tariff.double then t.atime else 0 }
  if t.distRunning then u.charge else u.leaveByDistance

/-- R128, R131: a completed time step. -/
def Trip.timeStep (t : Trip) : Trip :=
  let u := { t with atime := 0, adist := if t.par.tariff.double then t.adist else 0 }
  if t.timeRunning then u.charge else u.leaveByTime

/-- R127, R130: an unclamped pulse while HIRED. -/
def Trip.pulse (t : Trip) : Trip :=
  let u := { t with adist := t.adist + 1000, pulses := bump max32 t.pulses }
  if u.distThreshold ≤ u.adist then u.distanceStep else u

/-- R128, R131: a meter tick while HIRED. -/
def Trip.tick (t : Trip) : Trip :=
  let u := { t with atime := t.atime + 1, ticks := bump max32 t.ticks }
  if u.atime = u.timeThreshold then u.timeStep else u

/-! ### The limiter (R133) -/

/-- R133: L from the K and the Vmax in force. -/
def limitFor (k vmax : Nat) : Nat := (k * vmax + 3599) / 3600

/-- R133: a window begins. -/
def startWindow (s : State) : State :=
  { s with limiter := { s.limiter with
      window := 0
      limit := limitFor (kInForce s.fare s.settings.working) (vmaxInForce s.fare s.settings.working) } }

/-- LIMITER_WINDOW_START (R133). -/
def execLimiterWindowStart (s : State) : Answer :=
  event (decide (0 < s.due.windows))
    (startWindow { s with due := { s.due with windows := s.due.windows - 1 } }) s

/-! ### A distance pulse (R134, R152) -/

/-- R151: the total distance raised by a metre. -/
def Totals.addMetre (t : Totals) : Totals := { t with totalDist := t.totalDist.add max32 1 }

/-- R152: a pulse toward the shift's distance. -/
def shiftPulse (s : State) : State :=
  let k := kInForce s.fare s.settings.working
  let r := s.limiter.remainder + 1000
  if k ≤ r then
    { s with
      limiter := { s.limiter with remainder := r - k }
      fare := { s.fare with totals := s.fare.totals.addMetre } }
  else { s with limiter := { s.limiter with remainder := r } }

/-- R134: a clamped pulse ON_DUTY. -/
def clampedPulse (s : State) : State :=
  if s.fare.meter = .vacant then s
  else
    { s with fare := { s.fare with trip :=
      { s.fare.trip with
        clamped := bump max32 s.fare.trip.clamped
        marks := { s.fare.trip.marks with clamped := true } } } }

/-- R134: an unclamped pulse ON_DUTY. -/
def countedPulse (s : State) : State :=
  shiftPulse (if s.fare.meter = .hired then { s with fare := { s.fare with trip := s.fare.trip.pulse } }
    else s)

/-- R133, R134: a pulse taken in RUNNING. -/
def distancePulse (s : State) : State :=
  let t := { s with limiter := { s.limiter with window := s.limiter.window + 1 } }
  if t.fare.duty = .off then t
  else if t.limiter.window ≤ t.limiter.limit then countedPulse t
  else clampedPulse t

/-- DISTANCE_PULSE (R134); ignored in CONFIG (R141). -/
def execDistancePulse (s : State) : Answer := event s.running (distancePulse s) s

/-! ### A meter tick (R128, R131) -/

/-- R128, R131: a meter tick at the Fare Meter. -/
def meterTick (s : State) : State :=
  let t := { s with due := { s.due with meterTicks := s.due.meterTicks - 1 } }
  if t.fare.meter = .hired then { t with fare := { t.fare with trip := t.fare.trip.tick } } else t

/-- METER_TICK (R128): with its rewrites of the running fields (R140) and the total distance (R153). -/
def execMeterTick (s : State) : Answer :=
  .next (if s.powered && decide (0 < s.due.meterTicks) then publishWith true (meterTick s) else s)

/-! ### Marks (R139) and additions (R151) -/

/-- R139: a mark set on the open trip, the Meter Live Block rewritten; nothing when the meter is VACANT. -/
def setMark (m : Mark) (s : State) : State :=
  if s.fare.meter = .vacant then s
  else
    rewriteMeter { s with fare := { s.fare with trip :=
      { s.fare.trip with marks := s.fare.trip.marks.add m } } }

/-- The oldest mark waiting at the Fare Meter is taken. -/
def markTaken (s : State) : State :=
  match s.mail.marks with
  | [] => s
  | m :: rest => setMark m { s with mail := { s.mail with marks := rest } }

/-- MARK_EVENT (R139). -/
def execMarkEvent (s : State) : Answer := event (!s.mail.marks.isEmpty) (markTaken s) s

/-- R151: one count handed by the Offer Manager or the Emergency Unit. -/
def Totals.addCount (a : Addition) (t : Totals) : Totals :=
  match a with
  | .offerAccepted => { t with accepted := t.accepted.add 65535 1 }
  | .offerExpired => { t with expired := t.expired.add 65535 1 }
  | .emergency => { t with emergencies := t.emergencies.add 255 1 }

/-- R151: the addition made while ON_DUTY. -/
def addToShift (a : Addition) (s : State) : State :=
  if s.fare.duty = .on then { s with fare := { s.fare with totals := s.fare.totals.addCount a } } else s

/-- The oldest addition waiting at the Fare Meter is taken. -/
def additionTaken (s : State) : State :=
  match s.mail.additions with
  | [] => s
  | a :: rest => addToShift a { s with mail := { s.mail with additions := rest } }

/-- SHIFT_TOTAL_ADDITION (R151). -/
def execShiftTotalAddition (s : State) : Answer :=
  event (!s.mail.additions.isEmpty) (additionTaken s) s

/-! ### Changes of the emergency state at the neighbours (R186) -/

/-- R186: the Fare Meter's part on leaving IDLE: the mark and the count, where they still wait (log
entry 15). -/
def fareTakesEmergency (s : State) : State :=
  let t := if s.mail.marks.contains .emergency then
      setMark .emergency { s with mail := { s.mail with marks := s.mail.marks.erase .emergency } }
    else s
  if t.mail.additions.contains .emergency then
    addToShift .emergency { t with mail := { t.mail with additions := t.mail.additions.erase .emergency } }
  else t

/-- R187: the lamp taken or given back by the three conditions as they stand. -/
def judgeLamp (s : State) : State := { s with lampTaken := s.lampWanted }

/-- R186: the Offer Manager's part: the oldest change that waits there closes or opens the EMERGENCY gate. -/
def gateTakesChange (s : State) : State :=
  match s.mail.gateChanges with
  | [] => s
  | leaving :: rest =>
    let t := { s with mail := { s.mail with gateChanges := rest } }
    if leaving then closeEmergencyGate t else openEmergencyGate t

/-- R186, R187: the lamp's part: the oldest change that waits there has the lamp judged. -/
def lampTakesChange (s : State) : State :=
  judgeLamp { s with mail := { s.mail with lampChanges := s.mail.lampChanges.tail } }

/-- R186: one neighbour's part. -/
def takesChange : Neighbour → State → State
  | .offerManager => gateTakesChange
  | .fareMeter => fareTakesEmergency
  | .lamp => lampTakesChange

/-- R186: whether a neighbour has a part of a change still to take. -/
def Mail.waitsAt (m : Mail) : Neighbour → Bool
  | .offerManager => !m.gateChanges.isEmpty
  | .fareMeter => m.marks.contains .emergency || m.additions.contains .emergency
  | .lamp => !m.lampChanges.isEmpty

/-- R186: the neighbours that have a part of a change still to take. -/
def Mail.waiting (m : Mail) : List Neighbour :=
  [.offerManager, .fareMeter, .lamp].filter m.waitsAt

/-- R186: "in no order among them": the neighbour whose event comes next is a free value, but where one
alone waits (log entry 15). -/
def nextNeighbour (k : Nat) : List Neighbour → Option Neighbour
  | [] => none
  | [n] => some n
  | n :: rest => some ((n :: rest).getD (k % (rest.length + 1)) n)

/-- R186: one neighbour takes its part, as an event of its own. -/
def changeTaken (s : State) : State :=
  match nextNeighbour (Config.freeNeighbour s.free) s.mail.waiting with
  | none => s
  | some n => takesChange n { s with free := s.free + 1 }

/-- EMERGENCY_STATE_CHANGE (R186): the event of one neighbour. -/
def execEmergencyStateChange (s : State) : Answer :=
  event (!s.mail.waiting.isEmpty) (changeTaken s) s

/-! ### Tariffs and extras (R136, R137) -/

/-- R122: a number names an enabled tariff of the working copy. -/
def tariffEnabled (w : Settings) (n : Nat) : Bool := within 1 4 n && (w.tariff n).enabled

/-- R136: the switch of the trip's tariff, opening a segment. -/
def Trip.switchTariff (n : Nat) (tariff : Tariff) (now : Stamp) (t : Trip) : Trip :=
  { t with
    par := { t.par with number := n, tariff := tariff }
    adist := 0
    atime := 0
    distRunning := true
    timeRunning := true
    segments := t.segments ++ [{ tariff := n, fare := t.fare, start := now }] }

/-- R136: SELECT_TARIFF. -/
def selectTariff (i : Slot) (s : State) : State :=
  let n := param1 s.ram i
  if !tariffEnabled s.working n then completeRequest i .refusedRange 0 s
  else if s.fare.meter = .vacant then
    completeRequest i .done 0 { s with fare := { s.fare with chosen := n } }
  else if 4 ≤ s.fare.trip.segments.length then completeRequest i .limit 4 s
  else
    completeRequest i .done (s.fare.trip.segments.length + 1)
      { s with fare := { s.fare with
          trip := s.fare.trip.switchTariff n (s.working.tariff n) s.cycle.fleet } }

/-- SELECT_TARIFF (R136). -/
def execSelectTariff (s : State) : Answer := takeRequest (· == 0x14) selectTariff s

/-- R137: an extra recorded, totalled and charged. -/
def Trip.addExtra (code amount : Nat) (t : Trip) : Trip :=
  { t.addFare amount with
    extras := t.extras ++ [{ code := code, amount := amount }]
    extrasTotal := t.extrasTotal + amount }

/-- R137: ADD_EXTRA. -/
def addExtra (i : Slot) (s : State) : State :=
  let code := param1 s.ram i
  let amount := paramAmount s.ram i
  if s.fare.meter = .vacant then completeRequest i .refusedState 0 s
  else if !within 1 15 code || !within 1 9999 amount then completeRequest i .refusedRange 0 s
  else if 8 ≤ s.fare.trip.extras.length then completeRequest i .limit 8 s
  else
    completeRequest i .done (s.fare.trip.extras.length + 1)
      { s with fare := { s.fare with trip := s.fare.trip.addExtra code amount } }

/-- ADD_EXTRA (R137). -/
def execAddExtra (s : State) : Answer := takeRequest (· == 0x15) addExtra s

end Sys2Proof.Machine
end

