-- ==== Sys2Proof/Machine/FareRecords.lean ====
section
/-! DEFINITION. Trips, fare records and shifts (chapter 9): the meter requests, duty, the posting, freeing and
collection of records, and the acknowledgement of reports. -/

namespace Sys2Proof.Machine

/-! ### The Record Store (R154 to R158) -/

/-- R154: the lowest free place. -/
def RecordStore.free (st : RecordStore) : Option Slot :=
  slots16.find? (fun i => (pick st.places i).isNone)

/-- R154: a record posted in a place. -/
def RecordStore.post (i : Slot) (h : HeldRecord) (st : RecordStore) : RecordStore :=
  { st with
    places := put st.places i (some h)
    posting := st.posting ++ [i]
    nextSeq := wrapNext 65535 0 st.nextSeq }

/-- R154: the posting, with the slot, the news and the feed's offer (R157). -/
def postRecord (i : Slot) (r : FareRecord) (s : State) : State :=
  let h : HeldRecord := { record := r, seq := s.store.nextSeq, collected := false, reported := false }
  reportFeed (setNews .record { s with store := s.store.post i h, ram := presentRecord i h s.ram })

/-- R156: a place freed. -/
def RecordStore.release (i : Slot) (st : RecordStore) : RecordStore :=
  { st with places := put st.places i none, posting := st.posting.filter (fun j => j != i) }

/-- R156: what frees a held record. -/
def RecordStore.frees (st : RecordStore) (h : HeldRecord) : Bool :=
  h.collected && (!st.reports || h.reported)

/-- R155, R157: the flags of a held record changed; the place frees when R156 says so. -/
def RecordStore.flag (i : Slot) (f : HeldRecord → HeldRecord) (st : RecordStore) : RecordStore :=
  match pick st.places i with
  | none => st
  | some h => if st.frees (f h) then st.release i else { st with places := put st.places i (some (f h)) }

/-- R156, R158: every held record that may go freed, in posting order. -/
def RecordStore.releaseDue (st : RecordStore) : RecordStore :=
  st.posting.foldl (fun t i =>
    if (pick t.places i).any (fun h => t.frees h) then t.release i else t) st

/-- R156, R158, R194: the reports-required setting handed over by the Settings Unit. -/
def RecordStore.require (reports : Bool) (st : RecordStore) : RecordStore :=
  { st with reports := reports }.releaseDue

/-- R155: a collection. -/
def collectRecord (i : Slot) (s : State) : State :=
  { s with store := s.store.flag i (fun h => { h with collected := true }) }

/-- R157: the place of the held record with a sequence. -/
def RecordStore.withSeq (st : RecordStore) (n : Nat) : Option Slot :=
  slots16.find? (fun i => (pick st.places i).any (fun h => h.seq == n))

/-- R157: a report that is DONE. -/
def reportIsDone (n : Nat) (s : State) : State :=
  let st := match s.store.withSeq n with
    | some i => s.store.flag i (fun h => { h with reported := true })
    | none => s.store
  reportFeed { s with store := st, note := none }

/-- The oldest DONE that waits at the Record Store is taken. -/
def reportDoneTaken (s : State) : State :=
  match s.mail.reportsDone with
  | [] => s
  | n :: rest => reportIsDone n { s with mail := { s.mail with reportsDone := rest } }

/-- REPORT_DONE (R157). -/
def execReportDone (s : State) : Answer := event (!s.mail.reportsDone.isEmpty) (reportDoneTaken s) s

/-! ### Meter states (R146) -/

/-- R146: the effects of a change of meter state. -/
def meterChanged (s : State) : State := setNews .meter (statusTrigger s)

/-- R152: the conversion remainder is given up when the K in force has changed. -/
def forgetRemainder (kBefore : Nat) (s : State) : State :=
  if kInForce s.fare s.settings.working = kBefore then s
  else { s with limiter := { s.limiter with remainder := 0 } }

/-- R148: METER_STOP. -/
def meterStop (i : Slot) (s : State) : State :=
  if s.fare.meter = .hired then
    completeRequest i .done 0 (meterChanged { s with fare := { s.fare with meter := .stopped } })
  else completeRequest i .refusedState 0 s

/-- METER_STOP (R148). -/
def execMeterStop (s : State) : Answer := takeRequest (· == 0x11) meterStop s

/-- R148: METER_RESUME. -/
def meterResume (i : Slot) (s : State) : State :=
  if s.fare.meter = .stopped then
    completeRequest i .done 0 (meterChanged { s with fare := { s.fare with meter := .hired } })
  else completeRequest i .refusedState 0 s

/-- METER_RESUME (R148). -/
def execMeterResume (s : State) : Answer := takeRequest (· == 0x12) meterResume s

/-! ### The hire (R126, R147) -/

/-- R147: the tariff a hire names. -/
def hireTariff (chosen p : Nat) : Nat := if p = 0 then chosen else p

/-- R126, R147: the trip a hire opens. -/
def openTrip (n : Nat) (s : State) : Trip :=
  let t := s.working.tariff n
  { number := s.fare.nextTrip
    job := awardedJob s.offers
    start := s.cycle.fleet
    par := { number := n, tariff := t, k := s.working.k, vmax := s.working.vmax }
    opening := t.flagFall
    distRunning := !t.hasInitial
    timeRunning := !t.hasInitial
    fare := t.flagFall
    segments := [{ tariff := n, fare := t.flagFall, start := s.cycle.fleet }]
    marks := { emergency := s.emergency.kept.state != .idle, dip := s.supply.state == .low } }

/-- R147: a hire that passes its checks. -/
def hire (n : Nat) (s : State) : State :=
  let t := startJob s
  meterChanged (forgetRemainder (kInForce s.fare s.settings.working)
    { t with fare := { t.fare with
        meter := .hired, trip := openTrip n s, nextTrip := wrapNext 65535 1 t.fare.nextTrip } })

/-- R147: METER_HIRE. -/
def meterHire (i : Slot) (s : State) : State :=
  let p := param1 s.ram i
  if s.fare.meter ≠ .vacant then completeRequest i .refusedState 0 s
  else if s.fare.duty = .off then completeRequest i .refusedState 1 s
  else if 4 < p ∨ tariffEnabled s.working (hireTariff s.fare.chosen p) = false then
    completeRequest i .refusedRange 0 s
  else completeRequest i .done s.fare.nextTrip (hire (hireTariff s.fare.chosen p) s)

/-- METER_HIRE (R147). -/
def execMeterHire (s : State) : Answer := takeRequest (· == 0x10) meterHire s

/-! ### The clear (R149 to R151) -/

/-- R150: the TRIP record of a trip. -/
def tripRecord (t : Trip) (stop : Stamp) : TripRecord where
  number := t.number
  job := t.job
  start := t.start
  stop := stop
  segments := t.segments
  extras := t.extras
  flagFall := t.opening
  increments := t.increments
  fare := t.fare
  extrasTotal := t.extrasTotal
  dist := t.hiredDistance
  time := t.hiredTime
  clamped := t.clamped
  marks := t.marks

/-- R151: a trip added to the shift totals. -/
def Totals.addTrip (r : TripRecord) (t : Totals) : Totals :=
  { t with
    trips := t.trips.add 65535 1
    fare := t.fare.add 99999999 r.fare
    extras := t.extras.add 99999999 r.extrasTotal
    hiredDist := t.hiredDist.add max32 r.dist
    hiredTime := t.hiredTime.add max32 r.time }

/-- R149, step 3: the trip added while ON_DUTY. -/
def addTripToShift (r : TripRecord) (s : State) : State :=
  if s.fare.duty = .on then { s with fare := { s.fare with totals := s.fare.totals.addTrip r } } else s

/-- R149, steps 4 and 5. -/
def closeTrip (s : State) : State :=
  meterChanged (forgetRemainder (kInForce s.fare s.settings.working)
    { s with fare := { s.fare with meter := .vacant, trip := {} } })

/-- R149: METER_CLEAR. -/
def meterClear (i : Slot) (s : State) : State :=
  if s.fare.meter ≠ .stopped then completeRequest i .refusedState 0 s
  else
    match s.store.free with
    | none => completeRequest i .recordsFull 0 s
    | some p =>
      let r := tripRecord s.fare.trip s.cycle.fleet
      completeRequest i .done p.val (closeTrip (addTripToShift r (postRecord p (.trip r) s)))

/-- METER_CLEAR (R149). -/
def execMeterClear (s : State) : Answer := takeRequest (· == 0x13) meterClear s

/-! ### Duty (R143 to R145) -/

/-- R144: a shift opened. -/
def openShift (s : State) : State :=
  statusTrigger (openOffDuty
    { s with
      fare := { s.fare with
        shiftNo := wrapNext 65535 1 s.fare.shiftNo, shiftStart := s.cycle.fleet, totals := {}, duty := .on }
      limiter := { s.limiter with remainder := 0 } })

/-- R144: DUTY_ON. -/
def dutyOn (i : Slot) (s : State) : State :=
  if s.fare.duty = .on then completeRequest i .refusedState 0 s
  else completeRequest i .done (wrapNext 65535 1 s.fare.shiftNo) (openShift s)

/-- DUTY_ON (R144). -/
def execDutyOn (s : State) : Answer := takeRequest (· == 0x01) dutyOn s

/-- R145: the refusals of the first four checks, with their detail. -/
def dutyOffRefusal (s : State) : Option Nat :=
  if s.fare.duty = .off then some 1
  else if s.fare.meter ≠ .vacant then some 2
  else if s.offers.anyTaken then some 3
  else if s.emergency.kept.state ≠ .idle then some 4
  else none

/-- R145, R150: the SHIFT record of the open shift. -/
def shiftRecord (f : FareMeter) (stop : Stamp) : ShiftRecord where
  number := f.shiftNo
  start := f.shiftStart
  stop := stop
  totals := f.totals

/-- R145: the shift closed with its record in a place. -/
def closeShift (p : Slot) (s : State) : State :=
  let t := postRecord p (.shift (shiftRecord s.fare s.cycle.fleet)) s
  statusTrigger (closeOffDuty { t with fare := { t.fare with duty := .off } })

/-- R145: DUTY_OFF. -/
def dutyOff (i : Slot) (s : State) : State :=
  match dutyOffRefusal s with
  | some d => completeRequest i .refusedState d s
  | none =>
    match s.store.free with
    | none => completeRequest i .recordsFull 0 s
    | some p => completeRequest i .done p.val (closeShift p s)

/-- DUTY_OFF (R145). -/
def execDutyOff (s : State) : Answer := takeRequest (· == 0x02) dutyOff s

end Sys2Proof.Machine
end

