-- ==== Sys2Proof/Machine/SettingsUnit.lean ====
section
/-! DEFINITION. The Settings Unit (chapter 2): the RUN write and the entry into RUNNING, the replacing of the
settings, the soft reset, and CONTROL (R17). -/

namespace Sys2Proof.Machine

/-! ### The entry into RUNNING (R25) -/

/-- R25, R133, R170, R190: what each block takes from the new working copy, the queue apart. -/
def takeUpSettings (w : Settings) (s : State) : State :=
  judgeLamp (startWindow
    { s with
      settings := { part := .running, working := some w, result := .ok, failedAt := 0 }
      cycle := { s.cycle with lfsr := seed w.cab }
      offers := { s.offers with zone := w.zone }
      fare := { s.fare with chosen := 1 }
      msgs := { s.msgs with reminder := { running := false, left := w.reminder } }
      queue := { s.queue with timer := Timer.start w.status }
      store := s.store.require w.reports })

/-- R25, R29: two parts of one event carried out in an order that is free: they agree on everything but
the queue (log entry 9). -/
def eitherOrder (first second : State → State) (s : State) : State :=
  let t := second (first s)
  { t with
    queue := if s.orderChoice then t.queue else (first (second s)).queue
    free := s.free + 1 }

/-- R24, R25: the entry into RUNNING, with the status trigger of the zone's change (R76) and the first
offer of the report feed (R157). -/
def enterRunning (w : Settings) (s : State) : State :=
  eitherOrder statusTrigger reportFeed (takeUpSettings w s)

/-- R24: a validation that fails. -/
def failRun (off : Nat) (s : State) : State :=
  { s with settings := { s.settings with result := .failed, failedAt := off } }

/-- R24: the RUN write in CONFIG. -/
def runWrite (s : State) : State :=
  setNews .settings (rewritePart
    (match firstFailing s.ram with
     | some off => failRun off s
     | none => enterRunning (readSettings s.ram) s))

/-! ### Replacing the settings (R26, R27) -/

/-- R27: the reminder timer under a replaced interval. -/
def reminderReplaced (old new : Nat) (anyApp : Bool) (t : Timer) : Timer :=
  if new = old then t
  else if new = 0 then { running := false, left := 0 }
  else if old = 0 then (if anyApp then Timer.start new else { running := false, left := new })
  else t

/-- R27, R135: the tariff chosen for the next hire under replaced tariffs. -/
def chosenReplaced (w : Settings) (chosen : Nat) : Nat := if tariffEnabled w chosen then chosen else 1

/-- R27: a new working copy in force at every block, the report feed apart: the status timer is preset with the
interval of the new copy, whatever the old one was.  That every block takes it inside this one event is log entry 25
(DEDUCED). -/
def adoptSettings (w : Settings) (s : State) : State :=
  let old := s.working
  judgeLamp (forgetRemainder (kInForce s.fare s.settings.working)
    { s with
      settings := { s.settings with working := some w }
      fare := { s.fare with chosen := chosenReplaced w s.fare.chosen }
      msgs := { s.msgs with
        reminder := reminderReplaced old.reminder w.reminder (anyBoxAtApp s.ram) s.msgs.reminder }
      queue := { s.queue with timer := Timer.start w.status }
      store := s.store.require w.reports })

/-- R27, R158: the replacement, the feed offering when reports have come to be required. -/
def changeSettings (w : Settings) (s : State) : State :=
  let t := adoptSettings w s
  if w.reports && !s.store.reports then reportFeed t else t

/-- R26: the checks before validation: outcome detail of a refusal. -/
def replaceRefusal (s : State) : Option Nat :=
  if s.fare.meter ≠ .vacant then some 0
  else if field2 s.ram 0x00 ≠ s.working.cab then some 0x00
  else if field1 s.ram 0x02 ≠ s.working.fleet then some 0x02
  else none

/-- R26: REPLACE_SETTINGS. -/
def replaceSettings (i : Slot) (s : State) : State :=
  match replaceRefusal s with
  | some d => completeRequest i .refusedState d s
  | none =>
    match firstFailing s.ram with
    | some off => completeRequest i .refusedRange off s
    | none => completeRequest i .done 0 (changeSettings (readSettings s.ram) s)

/-- REPLACE_SETTINGS (R26). -/
def execReplaceSettings (s : State) : Answer := takeRequest (· == 0x50) replaceSettings s

/-! ### The soft reset (R28, R29) -/

/-- R20: the slots in the order in which they complete: the waiting ones first, in list order. -/
def cancelOrder (order : List Slot) : List Slot :=
  order ++ slots16.filter (fun i => !order.contains i)

/-- R20: every request slot at CTL completed CANCELLED, the list emptied. -/
def resetPort (s : State) : State :=
  let t := (cancelOrder s.port.order).foldl (fun t i => completeRequest i .cancelled 0 t) s
  { t with port := { t.port with order := [] } }

/-- R95: the Link Quality Unit's part. -/
def resetLink (s : State) : State := relink { s with link := s.link.softReset }

/-- R189: the Emergency Unit's part. -/
def resetEmergency (s : State) : State := { s with emergency := s.emergency.softReset }

/-- R174: the Message Manager's part, with the status trigger of a changed RNR. -/
def resetMessages (s : State) : State :=
  let full := boxFull s.ram
  let t := { s with msgs := s.msgs.softReset full (anyBoxAtApp s.ram) s.working.reminder }
  if s.msgs.rnr == full then t else statusTrigger t

/-- R157, R160: the Record Store clears its note and offers. -/
def resetStore (s : State) : State := reportFeed { s with note := none }

/-- R83: the queue emptied, its timer preset, and the Record Store told, which clears its note and
offers its oldest unreported record. -/
def resetQueue (s : State) : State :=
  resetStore { s with queue := { s.queue with
    entries := [], pending := false, timer := Timer.start s.working.status } }

/-- The parts that touch the queue, the Message Manager's and the Record Store's each before or after the
queue's own. -/
def resetAroundQueue (messagesFirst storeFirst : Bool) (s : State) : State :=
  let a := if messagesFirst then resetMessages s else s
  let b := if storeFirst then resetStore a else a
  let c := resetQueue b
  let d := if messagesFirst then c else resetMessages c
  if storeFirst then d else resetStore d

/-- R29: those parts in an order that is free: the orders agree on everything but the queue and the report
note (log entry 9). -/
def resetFreely (s : State) : State :=
  let free := resetAroundQueue (Config.freeOrder s.free) (Config.freeOrder (s.free + 1)) s
  { resetAroundQueue true true s with queue := free.queue, note := free.note, free := s.free + 2 }

/-- R28, R29: the soft reset. -/
def softReset (s : State) : State :=
  resetFreely (resetEmergency (resetOffers (resetLink (resetTracker (cutSending .reset (resetPort s))))))

/-! ### CONTROL (R17) -/

/-- R17: a write to CONTROL has an effect. -/
def controlActs (v : Word) (s : State) : Bool := if s.running then v.getLsbD 1 else v.getLsbD 0

/-- R17: a write to CONTROL that has an effect. -/
def controlWrite (s : State) : State := if s.running then softReset s else runWrite s

/-- RUN (R24): a write to CONTROL. -/
def execRun (v : Word) (s : State) : Answer := event (controlActs v s) (controlWrite s) s

/-- SOFT_RESET (R28): a write to CONTROL. -/
def execSoftReset (v : Word) (s : State) : Answer := event (controlActs v s) (controlWrite s) s

end Sys2Proof.Machine
end

