-- ==== Sys2Proof/Machine/HostPort.lean ====
section
/-! DEFINITION. The memory port (chapter 1): host writes by area, hand-overs, the four registers, and what a
host read returns. -/

namespace Sys2Proof.Machine

/-! ### Writes (R1 to R5, R9) -/

/-- R2, R4: a word stored. -/
def storeWord (off : Nat) (v : Word) (s : State) : State := { s with ram := Memory.writeWord s.ram off v }

/-- R9: an even value in the change count records the position-written second. -/
def notePosition (v : Word) (s : State) : State :=
  if v.toNat % 2 = 0 then { s with port := { s.port with posWritten := some s.time.seconds } } else s

/-- R2, R9: a write in the Position Block. -/
def positionWrite (off : Nat) (v : Word) (s : State) : State :=
  if off = positionBase then notePosition v (storeWord off v s) else storeWord off v s

/-- R4: a write to a data word of a slot. -/
def slotDataWrite (base off : Nat) (v : Word) (s : State) : State :=
  if heldByApp s.ram base then storeWord off v s else exchangeFault off s

/-- R5: a hand write; what follows an accepted one is the area's. -/
def handWrite (base : Nat) (v : Word) (accepted : State → State) (s : State) : State :=
  if lowByte v = handCtl ∧ heldByApp s.ram base = true then accepted (storeWord base v s)
  else exchangeFault base s

/-- R5, R10: a request handed over. -/
def appendOrder (i : Slot) (s : State) : State :=
  { s with port := { s.port with order := s.port.order ++ [i] } }

/-- R5: a write to the hand word of a request slot. -/
def requestHand (i : Slot) (v : Word) (s : State) : State :=
  handWrite (requestBase i) v (appendOrder i) s

/-- R5, R168: a write to the hand word of a Message Box slot. -/
def boxHand (i : Slot) (v : Word) (s : State) : State :=
  handWrite (boxBase i) v (takeReturn i (highByte v)) s

/-- R5, R155: a write to the hand word of a fare record slot. -/
def recordHand (i : Slot) (v : Word) (s : State) : State :=
  handWrite (recordBase i) v (collectRecord i) s

/-- R16: bits 0..12 of ATTN_MASK stored. -/
def maskWrite (v : Word) (s : State) : State := { s with port := { s.port with attnMask := v &&& namedBits } }

/-- R1: a host write has an effect: not one to an unused area, to IDENT or to ATTENTION (R14), nor one to
CONTROL that R17 ignores. -/
def writeActs (off : Nat) (v : Word) (s : State) : Bool :=
  match areaOf off with
  | .unused => false
  | .ident => false
  | .attention => false
  | .control => controlActs v s
  | _ => true

/-- R1: a host write by its area. -/
def hostWrite (off : Nat) (v : Word) (s : State) : State :=
  match areaOf off with
  | .settings => storeWord off v s
  | .position => positionWrite off v s
  | .controllerBlock => exchangeFault off s
  | .board => exchangeFault off s
  | .request i o => if o = 0 then requestHand i v s else slotDataWrite (requestBase i) off v s
  | .box i o => if o = 0 then boxHand i v s else slotDataWrite (boxBase i) off v s
  | .record i o => if o = 0 then recordHand i v s else slotDataWrite (recordBase i) off v s
  | .control => controlWrite s
  | .attnMask => maskWrite v s
  | .unused => s
  | .ident => s
  | .attention => s

/-- HOST_SLOT_DATA_WRITE (R4). -/
def execHostSlotDataWrite (a : WordAddr) (v : Word) (s : State) : Answer :=
  event (writeActs (byteOffset a) v s) (hostWrite (byteOffset a) v s) s

/-- FIXED_BLOCK_WRITE (R2). -/
def execFixedBlockWrite (a : WordAddr) (v : Word) (s : State) : Answer :=
  event (writeActs (byteOffset a) v s) (hostWrite (byteOffset a) v s) s

/-- POSITION_BLOCK_WRITE (R9). -/
def execPositionBlockWrite (v : Word) (s : State) : Answer :=
  event true (positionWrite positionBase v s) s

/-- REQUEST_HANDOVER (R5). -/
def execRequestHandover (i : Slot) (v : Word) (s : State) : Answer := event true (requestHand i v s) s

/-- MESSAGE_BOX_RETURN (R168). -/
def execMessageBoxReturn (i : Slot) (v : Word) (s : State) : Answer := event true (boxHand i v s) s

/-- RECORD_COLLECTION (R155). -/
def execRecordCollection (i : Slot) (v : Word) (s : State) : Answer := event true (recordHand i v s) s

/-- REGISTER_WRITE (R14). -/
def execRegisterWrite (a : WordAddr) (v : Word) (s : State) : Answer :=
  event (writeActs (byteOffset a) v s) (hostWrite (byteOffset a) v s) s

/-- ATTN_MASK_WRITE (R16). -/
def execAttnMaskWrite (v : Word) (s : State) : Answer := event true (maskWrite v s) s

/-! ### Reads (R1, R14, R15, R17) -/

/-- What a host read of a word returns. -/
def hostRead (a : WordAddr) (s : State) : Word :=
  match areaOf (byteOffset a) with
  | .unused => 0
  | .ident => 0xC412
  | .control => if s.running then 1 else 0
  | .attention => s.port.attention
  | .attnMask => s.port.attnMask
  | _ => BitVec.ofNat 16 (Memory.readWord s.ram (byteOffset a))

/-- R15: the news bits returned on D[15:0] and cleared in the same access. -/
def readAttention (s : State) : State :=
  { s with
    pins := { s.pins with data := s.port.attention }
    port := { s.port with attention := 0 } }

/-- ATTENTION_READ (R15). -/
def execAttentionRead (s : State) : Answer := event true (readAttention s) s

end Sys2Proof.Machine
end

