-- ==== Sys2Proof/Machine/SupplyMonitor.lean ====
section
/-! DEFINITION. The Supply Monitor (R191 to R193). -/

namespace Sys2Proof.Machine

/-- R191: a sample, in 0.1 V, clamped at 255. -/
def clampSample (vsup : Nat) : Nat := min 255 vsup

/-- R192, state OK. -/
def SupplyMonitor.judgedOk (threshold x : Nat) (p : SupplyMonitor) : SupplyMonitor :=
  if x < threshold then
    if 3 ≤ p.lowRun + 1 then
      { state := .low, lowRun := 0, highRun := 0, runLowest := 255, lowest := min p.runLowest x }
    else
      { p with lowRun := p.lowRun + 1, runLowest := min p.runLowest x, lowest := min p.lowest x }
  else { p with lowRun := 0, runLowest := 255, lowest := min p.lowest x }

/-- R192, state LOW. -/
def SupplyMonitor.judgedLow (threshold x : Nat) (p : SupplyMonitor) : SupplyMonitor :=
  if threshold + 6 ≤ x then
    if 10 ≤ p.highRun + 1 then
      { state := .ok, lowRun := 0, highRun := 0, runLowest := 255, lowest := min p.runLowest x }
    else
      { p with highRun := p.highRun + 1, runLowest := min p.runLowest x, lowest := min p.lowest x }
  else { p with highRun := 0, runLowest := 255, lowest := min p.lowest x }

/-- R192: one sample judged. -/
def SupplyMonitor.judged (threshold x : Nat) (p : SupplyMonitor) : SupplyMonitor :=
  match p.state with
  | .ok => p.judgedOk threshold x
  | .low => p.judgedLow threshold x

/-- R193: a change of supply state handed to the neighbours.  R193 has each neighbour take the change as an event
of its own, in no order among them.  DESIGN CHOICE (log entry 50, unsafe): the Exchange Port's part (SUPPLY news,
the Part Status Block at the end of the event) and the Radio Port's (the cut, R46) are taken here, inside
SUPPLY_SAMPLE, and so always before the Fare Meter's, the mark that waits for MARK_EVENT (R139). -/
def supplyChanged (s : State) : State :=
  let t := setNews .supply s
  if t.supply.state = .low then mailMark .supplyDip (cutSending .supply t) else t

/-- R192, R193: a sample taken, and with it what log entry 50 puts inside the same event. -/
def supplySample (vsup : Nat) (s : State) : State :=
  let t := { s with
    supply := s.supply.judged s.threshold (clampSample vsup)
    due := { s.due with supplySamples := s.due.supplySamples - 1 } }
  if t.supply.state = s.supply.state then t else supplyChanged t

/-- SUPPLY_SAMPLE (R192), once for each meter tick of the time base. -/
def execSupplySample (vsup : Nat) (s : State) : Answer :=
  event (decide (0 < s.due.supplySamples)) (supplySample vsup s) s

end Sys2Proof.Machine
end

