-- ==== Sys2Proof/Machine/PowerOn.lean ====
section
/-! DEFINITION. Power-on and the losses of the two supplies (R19, R193 to R197). -/

namespace Sys2Proof.Machine

/-- R121: the gates that follow the restored duty and emergency state.  The base suspension reason is 0
(DESIGN CHOICE, unsafe, log entry 45). -/
def offersAtPowerOn (k : Kept) : OfferManager :=
  { offDutyGate := k.fare.duty == .off, emergencyGate := k.emergency.state != .idle }

/-- Some restored record is not yet collected (R19). -/
def RecordStore.anyUncollected (st : RecordStore) : Bool :=
  slots16.any (fun i => (pick st.places i).any (fun h => !h.collected))

/-- R19, R190: the ATTENTION bits set during power-on. -/
def attentionAtPowerOn (k : Kept) : Word :=
  (if k.store.anyUncollected then News.record.mask else 0) |||
  (if k.emergency.state = .alerting then News.emergency.mask else 0)

/-- R18, R191: the Supply Monitor with its first reading. -/
def supplyAtPowerOn (vsup : Nat) : SupplyMonitor := { lowest := clampSample vsup }

/-- R19, R195: the part after RESET_N has risen, every block at its power-on values.

DESIGN CHOICE, unsafe (log entry 49): on a part that still has its logic supply this is a pulse of RESET_N
alone, in which the supply powers the backup domain, so the store stands although VBAK is noted absent. -/
def powerUp (vsup : Nat) (s : State) : State :=
  let r := retainedAfterJudgement s.retained
  let p := supplyAtPowerOn vsup
  { State.reset with
    pending := s.pending
    ram := ramAtPowerOn r.kept r.result p
    port := { attention := attentionAtPowerOn r.kept }
    offers := offersAtPowerOn r.kept
    fare := r.kept.fare
    store := r.kept.store
    emergency := { kept := r.kept.emergency }
    supply := p
    retained := { r with vbakAbsent := s.retained.vbakAbsent && Config.freeVbak s.free }
    free := s.free + 1 }

/-- POWER_ON (R19). -/
def execPowerOn (vsup : Nat) (s : State) : Answer := .next (powerUp vsup s)

/-- The levels of the outputs while the logic supply is absent are free values (log entry 10). -/
def freePins (n : Nat) : Pins where
  attnN := Config.freeLevel n
  ptt := Config.freeLevel (n + 1)
  txData := .steady (Config.freeLevel (n + 2))
  lamp := Config.freeLevel (n + 3)
  chime := Config.freeLevel (n + 4)
  data := Config.freeWord (n + 5)

/-- R194: the backup domain without any supply: its contents gone and its latch to come up set. -/
def RetainedStore.lost (r : RetainedStore) : RetainedStore :=
  { r with kept := Kept.cleared, check := Kept.cleared.checkWord, latch := true }

/-- R193: RESET_N low: the part takes no further event; the Retained Store stands, its update begun being
complete, unless VBAK is absent too (R194). -/
def losePower (s : State) : State :=
  { s with
    powered := false
    pins := freePins s.free
    free := s.free + 6
    retained := if s.retained.vbakAbsent then s.retained.lost else s.retained }

/-- LOGIC_SUPPLY_LOSS (R193). -/
def execLogicSupplyLoss (s : State) : Answer := .next (if s.powered then losePower s else s)

/-- R194: VBAK lost; the contents stand while the logic supply powers the backup domain. -/
def loseBackup (s : State) : State :=
  let r := { s.retained with vbakAbsent := true }
  { s with retained := if s.powered then r else r.lost }

/-- BACKUP_SUPPLY_LOSS (R194): VBAK and the logic supply may be lost in either order. -/
def execBackupSupplyLoss (s : State) : Answer := .next (loseBackup s)

end Sys2Proof.Machine
end

