-- ==== Sys2Proof/Machine/TimeBase.lean ====
section
/-! DEFINITION. The time base (R48): the tick, fleet time (R49), the whole-second timers, the events that fall
due, and the end of a chime pulse (R100). -/

namespace Sys2Proof.Machine

/-- R48: the counts after a tick. -/
def TimeBase.tick (t : TimeBase) : TimeBase :=
  if t.phase + 1 < 100 then { t with phase := t.phase + 1 }
  else { phase := 0, seconds := (t.seconds + 1) % 4294967296 }

/-- R49: fleet time after a tick. -/
def Stamp.tick (t : Stamp) : Stamp :=
  if t.centis + 1 < 100 then { t with centis := t.centis + 1 }
  else { t with secs := (t.secs + 1) % 4294967296, centis := 0 }

/-- R48, R97: an entry's running timer counts down. -/
def OfferPlace.second (p : OfferPlace) : OfferPlace :=
  match p.state with
  | .presented => { p with deadline := p.deadline - 1 }
  | .accepting => { p with wait := p.wait - 1 }
  | _ => p

/-- R48: every whole-second timer counts down. -/
def secondPasses (s : State) : State :=
  { s with
    offers := { s.offers with
      places := s.offers.places.map OfferPlace.second, baseTimer := s.offers.baseTimer.second }
    msgs := { s.msgs with reminder := s.msgs.reminder.second }
    emergency := { s.emergency with tracking := s.emergency.tracking.second }
    queue := { s.queue with timer := s.queue.timer.second } }

/-- What falls due at a tick that leaves the phase at `phase`: a sample of EMG_N at every tick (R176),
a supply sample at every meter tick (R191), and in RUNNING the meter tick itself (R128, R141) and, at
phase 0, a window start (R133). -/
def Due.tick (running : Bool) (phase : Nat) (d : Due) : Due where
  inputSamples := d.inputSamples + 1
  supplySamples := if phase % 10 = 0 then d.supplySamples + 1 else d.supplySamples
  meterTicks := if running && phase % 10 == 0 then d.meterTicks + 1 else d.meterTicks
  windows := if running && phase == 0 then d.windows + 1 else d.windows

/-- R100: the pulse's ticks run down. -/
def Chime.tick (c : Chime) : Chime := { c with ticks := c.ticks - 1 }

/-- R45: the ticks since PTT was asserted. -/
def Transmitter.tick (t : Transmitter) : Transmitter :=
  if t.shifter = .idle then t else { t with keyed := t.keyed + 1 }

/-- R41: a tick with no bits in the middle of a frame. -/
def Receiver.tick (r : Receiver) : Receiver :=
  if r.asm = .hunt then r else { r with quiet := bump 2 r.quiet }

/-- R48, R49: one tick of 10 ms. -/
def timeTick (s : State) : State :=
  let time := s.time.tick
  let t := { s with
    time := time
    cycle := { s.cycle with fleet := s.cycle.fleet.tick }
    chime := s.chime.tick
    rx := s.rx.tick
    tx := s.tx.tick
    due := s.due.tick s.running time.phase }
  if time.phase = 0 then secondPasses t else t

/-- TIME_BASE_TICK (R48). -/
def execTimeBaseTick (s : State) : Answer := event true (timeTick s) s

/-- CHIME_PULSE_END (R100): 20 ticks after the last request. -/
def execChimePulseEnd (s : State) : Answer :=
  event (s.chime.high && s.chime.ticks == 0) { s with chime := { s.chime with high := false } } s

end Sys2Proof.Machine
end

