-- ==== Sys2Proof/Machine/Dispatch.lean ====
section
/-! DEFINITION. One arm per command, each a direct call of its meaning. -/

namespace Sys2Proof.Machine

def exec (i : Instr) (s : State) : Host.Outcome State Fault Refusal :=
  match i with
  | .powerOn vsup => Sys2Proof.Machine.execPowerOn vsup s
  | .logicSupplyLoss => Sys2Proof.Machine.execLogicSupplyLoss s
  | .hostSlotDataWrite a v => Sys2Proof.Machine.execHostSlotDataWrite a v s
  | .fixedBlockWrite a v => Sys2Proof.Machine.execFixedBlockWrite a v s
  | .positionBlockWrite v => Sys2Proof.Machine.execPositionBlockWrite v s
  | .requestHandover slot v => Sys2Proof.Machine.execRequestHandover slot v s
  | .messageBoxReturn slot v => Sys2Proof.Machine.execMessageBoxReturn slot v s
  | .recordCollection slot v => Sys2Proof.Machine.execRecordCollection slot v s
  | .attentionRead => Sys2Proof.Machine.execAttentionRead s
  | .attnMaskWrite v => Sys2Proof.Machine.execAttnMaskWrite v s
  | .run v => Sys2Proof.Machine.execRun v s
  | .softReset v => Sys2Proof.Machine.execSoftReset v s
  | .registerWrite a v => Sys2Proof.Machine.execRegisterWrite a v s
  | .badRequest => Sys2Proof.Machine.execBadRequest s
  | .dutyOn => Sys2Proof.Machine.execDutyOn s
  | .dutyOff => Sys2Proof.Machine.execDutyOff s
  | .setZone => Sys2Proof.Machine.execSetZone s
  | .sendStatus => Sys2Proof.Machine.execSendStatus s
  | .meterHire => Sys2Proof.Machine.execMeterHire s
  | .meterStop => Sys2Proof.Machine.execMeterStop s
  | .meterResume => Sys2Proof.Machine.execMeterResume s
  | .meterClear => Sys2Proof.Machine.execMeterClear s
  | .selectTariff => Sys2Proof.Machine.execSelectTariff s
  | .addExtra => Sys2Proof.Machine.execAddExtra s
  | .acceptOffer => Sys2Proof.Machine.execAcceptOffer s
  | .declineOffer => Sys2Proof.Machine.execDeclineOffer s
  | .resumeOffers => Sys2Proof.Machine.execResumeOffers s
  | .sendMessage => Sys2Proof.Machine.execSendMessage s
  | .raiseEmergency => Sys2Proof.Machine.execRaiseEmergency s
  | .replaceSettings => Sys2Proof.Machine.execReplaceSettings s
  | .clearLinkLog => Sys2Proof.Machine.execClearLinkLog s
  | .headerLengthError h => Sys2Proof.Machine.execHeaderLengthError h s
  | .receiveOverrun bits => Sys2Proof.Machine.execReceiveOverrun bits s
  | .receiveFrameEnd payload crc => Sys2Proof.Machine.execReceiveFrameEnd payload crc s
  | .receiveClockLoss => Sys2Proof.Machine.execReceiveClockLoss s
  | .beacon => Sys2Proof.Machine.execBeacon s
  | .beaconAtLink => Sys2Proof.Machine.execBeaconAtLink s
  | .jobOffer => Sys2Proof.Machine.execJobOffer s
  | .jobAward => Sys2Proof.Machine.execJobAward s
  | .jobWithdraw => Sys2Proof.Machine.execJobWithdraw s
  | .baseMessage => Sys2Proof.Machine.execBaseMessage s
  | .emergencyAck => Sys2Proof.Machine.execEmergencyAck s
  | .emergencyClear => Sys2Proof.Machine.execEmergencyClear s
  | .cabSuspend => Sys2Proof.Machine.execCabSuspend s
  | .cabResume => Sys2Proof.Machine.execCabResume s
  | .beaconMissed => Sys2Proof.Machine.execBeaconMissed s
  | .slotStart => Sys2Proof.Machine.execSlotStart s
  | .keyingEnd => Sys2Proof.Machine.execKeyingEnd s
  | .frameSent => Sys2Proof.Machine.execFrameSent s
  | .slotEnd => Sys2Proof.Machine.execSlotEnd s
  | .sendReport => Sys2Proof.Machine.execSendReport s
  | .linkOutcome => Sys2Proof.Machine.execLinkOutcome s
  | .receiveError => Sys2Proof.Machine.execReceiveError s
  | .beaconMissedReport => Sys2Proof.Machine.execBeaconMissedReport s
  | .syncLostReport => Sys2Proof.Machine.execSyncLostReport s
  | .queueOutcome => Sys2Proof.Machine.execQueueOutcome s
  | .statusTimerExpiry => Sys2Proof.Machine.execStatusTimerExpiry s
  | .acceptUndelivered => Sys2Proof.Machine.execAcceptUndelivered s
  | .heldSendCompletion => Sys2Proof.Machine.execHeldSendCompletion s
  | .reportDone => Sys2Proof.Machine.execReportDone s
  | .offerDeadlineExpiry place => Sys2Proof.Machine.execOfferDeadlineExpiry place s
  | .awardWaitExpiry place => Sys2Proof.Machine.execAwardWaitExpiry place s
  | .baseSuspensionExpiry => Sys2Proof.Machine.execBaseSuspensionExpiry s
  | .chimePulseEnd => Sys2Proof.Machine.execChimePulseEnd s
  | .meterTick => Sys2Proof.Machine.execMeterTick s
  | .distancePulse => Sys2Proof.Machine.execDistancePulse s
  | .limiterWindowStart => Sys2Proof.Machine.execLimiterWindowStart s
  | .markEvent => Sys2Proof.Machine.execMarkEvent s
  | .shiftTotalAddition => Sys2Proof.Machine.execShiftTotalAddition s
  | .reminderExpiry => Sys2Proof.Machine.execReminderExpiry s
  | .debouncedFallingEdge => Sys2Proof.Machine.execDebouncedFallingEdge s
  | .emergencyStateChange => Sys2Proof.Machine.execEmergencyStateChange s
  | .callOutcome => Sys2Proof.Machine.execCallOutcome s
  | .trackingTimerExpiry => Sys2Proof.Machine.execTrackingTimerExpiry s
  | .supplySample vsup => Sys2Proof.Machine.execSupplySample vsup s
  | .timeBaseTick => Sys2Proof.Machine.execTimeBaseTick s
  | .emergencyInputSample low => Sys2Proof.Machine.execEmergencyInputSample low s
  | .syncFound bits => Sys2Proof.Machine.execSyncFound bits s
  | .headerCollected h => Sys2Proof.Machine.execHeaderCollected h s
  | .skipEnd bytes => Sys2Proof.Machine.execSkipEnd bytes s
  | .backupSupplyLoss => Sys2Proof.Machine.execBackupSupplyLoss s

end Sys2Proof.Machine
end

