-- ==== Sys2Proof/Safety.lean ====
section
/-! DEFINITION. The terms in which claims speak: the parts of the state a command leaves alone, the bytes of
the exchange RAM it leaves alone, and what a safe run keeps: the memory's canonical form, the agreement
of what is shown with what is held, the retained copy and the output pins. -/

namespace Sys2Proof.Machine

/-! ### What a command leaves alone -/

/-- What follows the hand words of the Offer Board slots (R98). -/
def boardBytes (m : Memory) : List (List Byte) := places8.map fun i => Memory.read m (boardBase i + 2) 94

/-- The parts of the state, the Exchange Port's items each on its own, and the Offer Board slots and the
OFFER bit of ATTENTION besides. -/
inductive Part where
  | pending | powered | ram | attention | attnMask | faults | order | posWritten | posCopy
  | settings | rx | tx | time | cycle | queue | link | offers | fare | limiter | store | note | msgs
  | emergency | supply | retained | mail | due | chime | lampTaken | pins | free | boards | offerNews
  deriving DecidableEq, Repr

/-- Two states agree on a part. -/
def Part.same (p : Part) (s t : State) : Prop :=
  match p with
  | .pending => t.pending = s.pending
  | .powered => t.powered = s.powered
  | .ram => t.ram = s.ram
  | .attention => t.port.attention = s.port.attention
  | .attnMask => t.port.attnMask = s.port.attnMask
  | .faults => t.port.faultCount = s.port.faultCount ∧ t.port.lastFault = s.port.lastFault
  | .order => t.port.order = s.port.order
  | .posWritten => t.port.posWritten = s.port.posWritten
  | .posCopy => t.port.posCopy = s.port.posCopy
  | .settings => t.settings = s.settings
  | .rx => t.rx = s.rx
  | .tx => t.tx = s.tx
  | .time => t.time = s.time
  | .cycle => t.cycle = s.cycle
  | .queue => t.queue = s.queue
  | .link => t.link = s.link
  | .offers => t.offers = s.offers
  | .fare => t.fare = s.fare
  | .limiter => t.limiter = s.limiter
  | .store => t.store = s.store
  | .note => t.note = s.note
  | .msgs => t.msgs = s.msgs
  | .emergency => t.emergency = s.emergency
  | .supply => t.supply = s.supply
  | .retained => t.retained = s.retained
  | .mail => t.mail = s.mail
  | .due => t.due = s.due
  | .chime => t.chime = s.chime
  | .lampTaken => t.lampTaken = s.lampTaken
  | .pins => t.pins = s.pins
  | .free => t.free = s.free
  | .boards => boardBytes t.ram = boardBytes s.ram
  | .offerNews => t.port.attention.getLsbD 1 = s.port.attention.getLsbD 1

/-- Every part but the ones named is the same in both states. -/
def keepsBut (touched : List Part) (s t : State) : Prop := ∀ p, p ∉ touched → p.same s t

/-- What the end of every event may touch (R8, R16, R98, R194): the rewritten blocks, OFFER news, the
retained copy and the pins. -/
def ends : List Part := [.ram, .boards, .attention, .offerNews, .retained, .pins]

/-- The parts a command touches of itself, with those the end of every event may touch. -/
def withEnds (l : List Part) : List Part := l ++ ends

/-- A byte of a controller-written block, or of what follows the hand word of an Offer Board slot (R1, R3, R98). -/
def controllerByte (a : Nat) : Prop :=
  (0x0100 ≤ a ∧ a < 0x0200) ∨ (0x0220 ≤ a ∧ a < 0x0240) ∨
  (0x0800 ≤ a ∧ a < 0x0B00 ∧ 2 ≤ (a - 0x0800) % 96)

/-- Every byte of the exchange RAM outside the controller-written blocks and outside the bytes named reads
as before. -/
def ramKeeps (stored : Nat → Prop) (s t : State) : Prop :=
  ∀ a, ¬ controllerByte a → ¬ stored a → Memory.get t.ram a = Memory.get s.ram a

/-- No byte. -/
def nothing : Nat → Prop := fun _ => False

/-- The bytes of a run. -/
def bytesAt (a n : Nat) : Nat → Prop := fun x => a ≤ x ∧ x < a + n

/-- The bytes of a request slot that a completion stores (R12): hand word, outcome code, detail and
completion timestamp. -/
def outcomeBytes (i : Slot) : Nat → Prop := fun x =>
  bytesAt (requestBase i) 2 x ∨ bytesAt (requestBase i + 3) 9 x

/-- ATTENTION has gained the bits of a word and perhaps OFFER, and lost none.  Where OFFER is gained is said once for
every command, by the board slots rewritten (R98, `Obligations.StepKeepsShownAndRetained`). -/
def gains (w : Word) (s t : State) : Prop :=
  t.port.attention = s.port.attention ||| w ∨ t.port.attention = s.port.attention ||| w ||| News.offer.mask

/-- R12: a request slot holds an outcome: hand APP, outcome code, detail and completion timestamp. -/
def completed (i : Slot) (o : ReqOutcome) (detail : Nat) (now : Stamp) (t : State) : Prop :=
  Memory.read t.ram (requestBase i) 2 = handWord handApp ∧
  Memory.read t.ram (requestBase i + 3) 9 = byte o.code :: (le 2 detail ++ now.bytes)

/-- A request with this code is the next to be taken, and its slot is at CTL: the part is powered, the
RAM is in its canonical form, the slot heads the Request Order list. -/
structure Ready (code : Nat) (i : Slot) (rest : List Slot) (s : State) : Prop where
  powered : s.powered = true
  wf      : Memory.wf s.ram = true
  order   : s.port.order = i :: rest
  code    : requestCode s.ram i = code
  hand    : heldByCtl s.ram (requestBase i) = true

/-- The frame of a command: it touches at most the parts named, stores at most to the bytes named beside
the controller-written blocks, and keeps the canonical form of the RAM. -/
structure Frame (touched : List Part) (stored : Nat → Prop) (s t : State) : Prop where
  keeps : keepsBut touched s t
  ram   : ramKeeps stored s t
  wf    : Memory.wf s.ram = true → Memory.wf t.ram = true

/-! ### How a host write ends (R4, R5, R7) -/

/-- R8: the change count at an offset has risen by 2. -/
def countUp (countAt : Nat) (s t : State) : Prop :=
  Memory.readWord t.ram countAt = (Memory.readWord s.ram countAt + 2) % 65536

/-- R7: a host write at an offset ended as an exchange fault: the count and the offset, EXCH_FAULT, the Part
Status Block rewritten, and nothing else. -/
def faulted (off : Nat) (s t : State) : Prop :=
  t.port.faultCount = min 255 (s.port.faultCount + 1) ∧ t.port.lastFault = off ∧
  gains News.exchFault.mask s t ∧
  shownFields partBase 12 t.ram = t.partFields ∧ countUp partBase s t ∧
  Frame (withEnds [.faults]) nothing s t

/-- The first offset of the slot a word address lies in (R1). -/
def slotBase (a : WordAddr) : Nat :=
  match areaOf (byteOffset a) with
  | .request i _ => requestBase i
  | .box i _ => boxBase i
  | .record i _ => recordBase i
  | _ => 0

/-- R2: a block that the host writes. -/
def hostBlock (a : WordAddr) : Bool :=
  match areaOf (byteOffset a) with
  | .settings => true
  | .position => true
  | _ => false

/-! ### How a request ends (R11, R12) -/

/-- The code of a request row (R11's table). -/
def requestRow : Instr → Option Nat
  | .dutyOn => some 0x01
  | .dutyOff => some 0x02
  | .setZone => some 0x03
  | .sendStatus => some 0x04
  | .meterHire => some 0x10
  | .meterStop => some 0x11
  | .meterResume => some 0x12
  | .meterClear => some 0x13
  | .selectTariff => some 0x14
  | .addExtra => some 0x15
  | .acceptOffer => some 0x20
  | .declineOffer => some 0x21
  | .resumeOffers => some 0x22
  | .sendMessage => some 0x30
  | .raiseEmergency => some 0x40
  | .replaceSettings => some 0x50
  | .clearLinkLog => some 0x51
  | _ => none

/-- A request answered when it was taken: it has left the Request Order list, its outcome stands in the
slot, and ATTENTION has gained REQ_DONE and the news named. -/
def answered (i : Slot) (rest : List Slot) (o : ReqOutcome) (detail : Nat) (news : Word) (s t : State) :
    Prop :=
  t.port.order = rest ∧ completed i o detail s.cycle.fleet t ∧ gains (News.reqDone.mask ||| news) s t

/-- R13: a request kept when it was taken: it has left the list, its slot stands at CTL as before. -/
def keptRequest (i : Slot) (rest : List Slot) (s t : State) : Prop :=
  t.port.order = rest ∧ heldByCtl t.ram (requestBase i) = true ∧ gains 0 s t

/-! ### The bytes of a frame to be sent (R9, R32, R44, R199, spec 3.2, 3.7, 13.4) -/

/-- The bytes of a payload from one offset up to another, spelled by rows of (offset, size, value) as section
13.4 lists its fields: each value in its bytes big-endian, the most significant at the offset. -/
def laid (first stop : Nat) (rows : List (Nat × Nat × Nat)) : List Byte :=
  (List.range' first (stop - first)).map fun k =>
    match rows.find? fun r => r.1 ≤ k && k < r.1 + r.2.1 with
    | some r => BitVec.ofNat 8 (r.2.2 / 256 ^ (r.1 + r.2.1 - 1 - k))
    | none => 0

/-- A byte's bit n, where a flag is set. -/
def bitAt (n : Nat) (flag : Bool) : Nat := if flag then 2 ^ n else 0

/-- The duty, coded 0 and 1 (spec 13.1). -/
def dutyByte (s : State) : Nat := if s.fare.duty = .on then 1 else 0

/-- The meter state, coded 0, 1 and 2 (spec 13.1). -/
def meterByte (s : State) : Nat :=
  match s.fare.meter with
  | .vacant => 0
  | .hired => 1
  | .stopped => 2

/-- The trigger source, SWITCH 1 and HOST 2 (spec 3.7). -/
def sourceByte (s : State) : Nat :=
  match s.emergency.kept.source with
  | .none => 0
  | .switch => 1
  | .host => 2

/-- R9: the last good copy after a position has been taken: the Position Block's latitude, longitude and fix flag
(spec 13.2) with the position-written second, where a position has been written since power-on and the change
count is even; else the copy kept. -/
def positionTaken (s : State) : Option PositionCopy :=
  match s.port.posWritten with
  | none => s.port.posCopy
  | some second =>
    if leNat (Memory.read s.ram 0x0200 2) % 2 = 0 then
      some {
        lat := leNat (Memory.read s.ram 0x0202 4)
        lon := leNat (Memory.read s.ram 0x0206 4)
        fix := leNat (Memory.read s.ram 0x020A 2) != 0
        second := second }
    else s.port.posCopy

/-- R9: the rows of the latitude, the longitude and the position age from an offset on: those of the last good
copy, its age in whole seconds of the time base clamped at 255, and 255 without a fix; 0, 0 and 255 where there
is no copy. -/
def positionRows (o : Nat) (s : State) : List (Nat × Nat × Nat) :=
  match s.port.posCopy with
  | none => [(o, 4, 0), (o + 4, 4, 0), (o + 8, 1, 255)]
  | some c => [(o, 4, c.lat), (o + 4, 4, c.lon), (o + 8, 1,
      if c.fix then min 255 ((s.time.seconds + (4294967296 - c.second)) % 4294967296) else 255)]

/-- CAB_STATUS, 14 bytes, after its sequence. -/
def statusBytes (s : State) : List Byte :=
  laid 1 14 ([(1, 1, dutyByte s), (2, 1, meterByte s), (3, 1, s.offers.zone),
    (4, 1, bitAt 0 s.msgs.rnr + bitAt 1 s.offers.latch + bitAt 2 s.offers.baseSuspended)] ++ positionRows 5 s)

/-- TRIP_REPORT, 42 bytes, and SHIFT_REPORT, 43 bytes, after their sequence (R199). -/
def reportBytes (h : HeldRecord) : List Byte :=
  match h.record with
  | .trip r =>
    let tariff (n : Nat) : Nat := ((r.segments.map (·.tariff))[n]?).getD 0
    laid 1 42 [(1, 2, h.seq), (3, 2, r.number), (5, 2, r.job), (7, 4, r.start.secs), (11, 4, r.stop.secs),
      (15, 1, bitAt 0 r.start.valid + bitAt 1 r.stop.valid), (16, 2, r.flagFall),
      (18, 2, min 65535 r.increments), (20, 3, r.fare), (23, 3, r.extrasTotal), (26, 1, r.extras.length),
      (27, 1, tariff 0), (28, 1, tariff 1), (29, 1, tariff 2), (30, 1, tariff 3),
      (31, 4, r.dist), (35, 4, r.time), (39, 2, min 65535 r.clamped),
      (41, 1, bitAt 0 r.marks.saturated + bitAt 1 r.marks.clamped + bitAt 2 r.marks.dip +
        bitAt 3 r.marks.interrupted + bitAt 4 r.marks.emergency)]
  | .shift r =>
    let x := r.totals
    laid 1 43 [(1, 2, h.seq), (3, 2, r.number), (5, 4, r.start.secs), (9, 4, r.stop.secs),
      (13, 1, bitAt 0 r.start.valid + bitAt 1 r.stop.valid), (14, 2, x.trips.value), (16, 4, x.fare.value),
      (20, 4, x.extras.value), (24, 4, x.hiredDist.value), (28, 4, x.totalDist.value),
      (32, 4, x.hiredTime.value), (36, 2, x.accepted.value), (38, 2, x.expired.value),
      (40, 1, x.emergencies.value),
      (41, 2, bitAt 0 x.trips.sat + bitAt 1 x.fare.sat + bitAt 2 x.extras.sat + bitAt 3 x.hiredDist.sat +
        bitAt 4 x.totalDist.sat + bitAt 5 x.hiredTime.sat + bitAt 6 x.accepted.sat + bitAt 7 x.expired.sat +
        bitAt 8 x.emergencies.sat)]

/-- EMERGENCY_CALL, 15 bytes (R183). -/
def callBytes (s : State) : List Byte :=
  laid 0 15 ([(0, 2, s.emergency.callSeq),
    (2, 1, sourceByte s), (3, 1, meterByte s)] ++ positionRows 4 s ++
    [(13, 1, if s.supply.state = .low then 1 else 0), (14, 1, s.supply.lowest)])

/-- The bits of a run of bytes, each byte most significant bit first. -/
def bitsOf (bytes : List Byte) : List Bool := bytes.flatMap fun b => (List.range 8).map fun k => b.getLsbD (7 - k)

/-- R32: one bit into the check register: combined with its top bit, the register shifted, and 0x1021 combined
with it where the combined bit is 1. -/
def checkBit (r : Word) (b : Bool) : Word := if r.getLsbD 15 ≠ b then (r <<< 1) ^^^ 0x1021 else r <<< 1

/-- R32: a run of bytes into the check register. -/
def checkOver (r : Word) (bytes : List Byte) : Word := (bitsOf bytes).foldl checkBit r

/-- The kind codes of section 3.7. -/
def kindByte : Uplink → Nat
  | .cabStatus => 0x21
  | .jobAccept => 0x22
  | .jobDecline => 0x23
  | .msgDelivered => 0x24
  | .msgReceipt => 0x25
  | .driverMessage => 0x26
  | .tripReport => 0x27
  | .shiftReport => 0x28
  | .emergencyCall => 0x29

/-- R44, spec 3.2: the bits of a frame: the preamble, the sync, the kind, the length, the address, the payload,
and the CRC of R32 over kind through the last payload byte, high byte first. -/
def sentBits (kind : Uplink) (cab : Nat) (payload : List Byte) : List Bool :=
  let run := laid 0 4 [(0, 1, kindByte kind), (1, 1, payload.length), (2, 2, cab)] ++ payload
  bitsOf ([0xAA, 0xAA, 0x5B, 0xC6, 0x39] ++ run ++ laid 0 2 [(0, 2, (checkOver 0xFFFF run).toNat)])

/-! ### What the Transmit Queue holds afterwards (R71 to R80, R157) -/

/-- R72: the next-sequence number after one use. -/
def sequenceAfter (n : Nat) : Nat := if n < 255 then n + 1 else 0

/-- R72, R73: a queue with a frame admitted behind the entries it holds. -/
def joined (kind : Uplink) (tail : List Byte) (origin : Option Slot) (now : Stamp) (q : TransmitQueue) :
    TransmitQueue :=
  let e : Entry :=
    { id := q.nextId, kind := kind, seq := q.nextSeq, payload := byte q.nextSeq :: tail, attempts := 0,
      origin := origin, created := now, inFlight := false }
  { q with entries := q.entries ++ [e], nextSeq := sequenceAfter q.nextSeq, nextId := q.nextId + 1 }

/-- R76: a queue in which the cab's status has been placed by the first of the four cases that applies. -/
def withStatus (tail : List Byte) (now : Stamp) (q : TransmitQueue) : TransmitQueue :=
  match q.statusEntry with
  | some e =>
    if e.inFlight then { q with pending := true }
    else
      { q with
        entries := q.entries.map fun x =>
          if x.id = e.id then
            { x with seq := q.nextSeq, payload := byte q.nextSeq :: tail, attempts := 0, created := now }
          else x
        nextSeq := sequenceAfter q.nextSeq }
  | none =>
    if q.entries.length < 12 then joined .cabStatus tail none now q else { q with pending := true }

/-- R9, R76: a status trigger has been given to a queue: a position has been taken, and the payload made
from the state as it stands has been placed. -/
def statusPlaced (q : TransmitQueue) (s t : State) : Prop :=
  t.port.posCopy = positionTaken s ∧ t.queue = withStatus (statusBytes t) s.cycle.fleet q

/-- The queue is as it was, and no position has been taken. -/
def queueKept (s t : State) : Prop := t.queue = s.queue ∧ t.port.posCopy = s.port.posCopy

/-- R73: a frame has been admitted behind the entries held. -/
def admitted (kind : Uplink) (tail : List Byte) (origin : Option Slot) (s t : State) : Prop :=
  t.queue = joined kind tail origin s.cycle.fleet s.queue ∧ t.port.posCopy = s.port.posCopy

/-- R73, R74: a queue after a controller's class 1 or class 2 frame: admitted where there is room, or in the
place of the entry it displaces, else discarded. -/
def withController (kind : Uplink) (tail : List Byte) (now : Stamp) (q : TransmitQueue) : TransmitQueue :=
  if q.entries.length < 12 then joined kind tail none now q
  else
    match displaceable q with
    | none => q
    | some e =>
      joined kind tail none now
        { q with
          entries := q.entries.filter fun x => x.id != e.id
          pending := q.pending || e.kind == .cabStatus }

/-- R74: what such a frame hands the Message Manager: the DRIVER_MESSAGE it displaces is UNDELIVERED. -/
def displacedNotice (q : TransmitQueue) : List SendNotice :=
  if q.entries.length < 12 then []
  else
    match displaceable q with
    | none => []
    | some e =>
      match e.kind, e.origin with
      | .driverMessage, some i => [{ slot := i, seq := e.seq, done := false }]
      | _, _ => []

/-- R73, R74: a controller's class 1 or class 2 frame has been asked for; in CONFIG it is discarded. -/
def askedFor (kind : Uplink) (tail : List Byte) (s t : State) : Prop :=
  t.port.posCopy = s.port.posCopy ∧
  if s.running = true then
    t.queue = withController kind tail s.cycle.fleet s.queue ∧
    t.mail = { s.mail with sendNotices := s.mail.sendNotices ++ displacedNotice s.queue }
  else t.queue = s.queue ∧ t.mail = s.mail

/-- R75, R157: the queue and the report note after the Record Store has offered its next report where it
may. -/
def fed (running : Bool) (store : RecordStore) (note : Option Nat) (now : Stamp) (q : TransmitQueue) :
    TransmitQueue × Option Nat :=
  if running = true ∧ store.reports = true ∧ note = none ∧ q.roomForReport = true then
    match store.firstUnreported with
    | some h => (joined h.record.reportKind (reportBytes h) none now q, some h.seq)
    | none => (q, note)
  else (q, note)

/-- R77: a queue whose status-pending mark has been resolved, where it can be. -/
def withoutMark (tail : List Byte) (now : Stamp) (q : TransmitQueue) : TransmitQueue :=
  if q.resolvable then withStatus tail now { q with pending := false } else q

/-- R75, R77, R79: the queue `before` has changed to `after` by an outcome or a removal, the mark has been
resolved, and where room for a report has come the Record Store has offered.  That the status comes before
the report is the model's choice (log entry 44). -/
def settledAfter (now : Stamp) (before after : TransmitQueue) (s t : State) : Prop :=
  let q := withoutMark (statusBytes t) now after
  (t.queue, t.note) =
    if before.roomForReport = false ∧ q.roomForReport = true then fed s.running s.store s.note now q
    else (q, s.note)

/-- R9: the position is taken where the mark is resolved. -/
def positionAfter (q : TransmitQueue) (s : State) : Option PositionCopy :=
  if q.resolvable then positionTaken s else s.port.posCopy

/-- R79: the queue with the entry of an identity after an outcome: removed when it is acknowledged or at its
class limit, else kept with its attempts counted and its in-flight mark clear. -/
def withOutcome (e : Entry) (o : FrameOutcome) (q : TransmitQueue) : TransmitQueue :=
  let missed : Bool := o.callResult == .missed || o.callResult == .missedUnjudged
  let tried := min 255 (e.attempts + 1)
  if o = .acknowledged ∨ (missed = true ∧ attemptLimit e.kind.cls = some tried) then
    { q with entries := q.entries.filter fun x => x.id != e.id }
  else
    { q with entries := q.entries.map fun x =>
        if x.id = e.id then
          { x with attempts := if missed then min 255 (x.attempts + 1) else x.attempts, inFlight := false }
        else x }

/-- R80: what the maker of an entry is told at an outcome, as the mail that then waits. -/
def withTold (e : Entry) (o : FrameOutcome) (m : Mail) : Mail :=
  let missed : Bool := o.callResult == .missed || o.callResult == .missedUnjudged
  let done : Bool := o == .acknowledged
  let given : Bool := missed && attemptLimit e.kind.cls == some (min 255 (e.attempts + 1))
  { m with
    undelivered := m.undelivered ++ (if given ∧ e.kind = .jobAccept then [e.key] else [])
    sendNotices := m.sendNotices ++
      (match e.origin with
       | some i => if (done ∨ given) ∧ e.kind = .driverMessage then
           [{ slot := i, seq := e.seq, done := done }] else []
       | none => [])
    reportsDone := m.reportsDone ++ (if done ∧ e.kind.isReport = true then [e.key] else []) }

/-- What the outcomes of queue frames move: the queue, the report note, what the makers are told, and whether a
position has been taken. -/
structure QueueTurn where
  queue : TransmitQueue
  note  : Option Nat
  mail  : Mail
  taken : Bool

/-- R71: where the outcomes find them. -/
def QueueTurn.start (s : State) : QueueTurn := { queue := s.queue, note := s.note, mail := s.mail, taken := false }

/-- R75, R77, R79, R80: one outcome more taken: the entry acted on and its maker told, the mark resolved where it
can be, and the Record Store's offer where room for a report has come.  That the status comes before the report
is the model's choice (log entry 44). -/
def QueueTurn.after (tail : List Byte) (now : Stamp) (s : State) (r : QueueTurn) (x : Nat × FrameOutcome) :
    QueueTurn :=
  match r.queue.find x.1 with
  | none => r
  | some e =>
    let after := withOutcome e x.2 r.queue
    let q := withoutMark tail now after
    let f := if r.queue.roomForReport = false ∧ q.roomForReport = true then fed s.running s.store r.note now q
      else (q, r.note)
    { queue := f.1, note := f.2, mail := withTold e x.2 r.mail, taken := r.taken || after.resolvable }

/-- R39: the frame's owner has taken the frame the routing held. -/
def releasedBy (h : HeldFrame) (s t : State) : Prop :=
  t.rx = { s.rx with held := if h.forLink then some { h with forOwner := false } else none }

/-! ### The bytes of a received frame (R36 to R38, R42, spec 13.4) -/

/-- A byte of a payload. -/
def byteAt (p : List Byte) (i : Nat) : Nat := (p.getD i 0).toNat

/-- Two bytes of a payload, the more significant first. -/
def wordAt (p : List Byte) (i : Nat) : Nat := 256 * byteAt p i + byteAt p (i + 1)

/-- R38, step 1: the payload length is the one the kind's row gives. -/
def lengthMatches (kind : Nat) (p : List Byte) : Bool :=
  match kind with
  | 1 => 10 ≤ p.length && p.length == 10 + 2 * byteAt p 9
  | 2 => 8 ≤ p.length && p.length == 8 + byteAt p 7
  | 3 => p.length == 4
  | 4 => p.length == 2
  | 5 => 5 ≤ p.length && p.length == 5 + byteAt p 4
  | 8 => p.length == 2
  | _ => p.length == 0

/-- R38, step 2: every field lies in the range that section 3.4 gives. -/
def fieldsInRange (kind : Nat) (p : List Byte) : Bool :=
  match kind with
  | 1 =>
    1 ≤ byteAt p 0 && 10 ≤ byteAt p 7 && byteAt p 7 ≤ 50 && byteAt p 8 ≤ 15 && byteAt p 9 ≤ 16 &&
    (List.range (byteAt p 9)).all fun n => 1 ≤ wordAt p (10 + 2 * n) && wordAt p (10 + 2 * n) ≤ 65534
  | 2 => 1 ≤ wordAt p 0 && 1 ≤ byteAt p 2 && byteAt p 7 ≤ 40
  | 3 => 1 ≤ wordAt p 0 && 1 ≤ wordAt p 2 && wordAt p 2 ≤ 65534
  | 4 => 1 ≤ wordAt p 0
  | 5 => 1 ≤ wordAt p 0 && 1 ≤ byteAt p 4 && byteAt p 4 ≤ 56
  | _ => true

/-- R42: a text byte outside 0x20..0x7E is replaced with 0x3F. -/
def shownText (p : List Byte) : List Byte :=
  p.map fun c => if 0x20 ≤ c.toNat ∧ c.toNat ≤ 0x7E then c else 0x3F

/-- The frame that a payload spells, each field at its byte (spec 3.4, 13.4), its text clamped (R42). -/
def frameRead (kind : Nat) (p : List Byte) : Downlink :=
  let flag (n : Nat) (i : Nat) : Bool := (p.getD i 0).getLsbD n
  match kind with
  | 1 => .beacon (byteAt p 0) (wordAt p 1) (65536 * wordAt p 3 + wordAt p 5) (byteAt p 7) (byteAt p 8)
      ((List.range (byteAt p 9)).map fun n => wordAt p (10 + 2 * n))
  | 2 => .jobOffer (wordAt p 0) (byteAt p 2) (byteAt p 3) (flag 0 4) (flag 1 4) (wordAt p 5)
      (shownText (p.drop 8))
  | 3 => .jobAward (wordAt p 0) (wordAt p 2)
  | 4 => .jobWithdraw (wordAt p 0)
  | 5 => .baseMessage (wordAt p 0) (flag 0 2) (flag 1 2) (byteAt p 3) (shownText (p.drop 5))
  | 6 => .emergencyAck
  | 7 => .emergencyClear
  | 8 => .cabSuspend (byteAt p 0) (byteAt p 1)
  | _ => .cabResume

/-- R91, R92: the news of the Link Quality Unit: LINK at a change of the link state, LOG_OVERFLOW at the first
overflow of the log. -/
def linkNews (s t : State) : Prop :=
  gains ((if t.link.state = s.link.state then 0 else News.link.mask) |||
    (if s.link.overflowed = false ∧ t.link.overflowed = true then News.logOverflow.mask else 0)) s t

/-! ### Offers (R97, R101) -/

/-- The entries of a table that satisfy a test closed CANCELLED, every other place as it was. -/
def cancelled (p : OfferPlace → Bool) (s t : State) : Prop :=
  ∀ j : Place, pick t.offers.places j =
    if p (pick s.offers.places j) then
      { pick s.offers.places j with state := .cancelled, closing := s.cycle.fleet }
    else pick s.offers.places j

/-- R97, R98: the entry of a place after it has closed. -/
def closedAs (i : Place) (st : PlaceState) (s : State) : OfferPlace :=
  { pick s.offers.places i with state := st, closing := s.cycle.fleet }

/-- One place of the table has changed to this, no other place, and nothing else of the Offer Manager. -/
def placeSet (i : Place) (p : OfferPlace) (s t : State) : Prop :=
  t.offers = { s.offers with places := put s.offers.places i p }

/-- R110, R112: an entry that has left ACCEPTING for this one: the note of the held acceptance is cleared, its
request (where the soft reset has not completed it) is completed, the JOB_ACCEPT has left the queue (R81), and
nothing else of the Offer Manager has changed.  At the removal a pending status is made before a report, which
is the model's choice (log entry 44). -/
def acceptanceEnded (i : Place) (p : OfferPlace) (o : ReqOutcome) (s t : State) : Prop :=
  t.offers = { s.offers with places := put s.offers.places i p, heldAccept := none } ∧
  (∀ slot, s.offers.heldAccept = some slot → heldByCtl s.ram (requestBase slot) = true →
    completed slot o i.val s.cycle.fleet t) ∧
  gains (if (s.offers.heldAccept.any fun slot => heldByCtl s.ram (requestBase slot)) = true
    then News.reqDone.mask else 0) s t ∧
  (match s.queue.entries.find? (fun e =>
      e.kind == .jobAccept && e.key == (pick s.offers.places i).number) with
   | none => queueKept s t ∧ t.note = s.note
   | some e =>
     let q := { s.queue with entries := s.queue.entries.filter fun x => x.id != e.id }
     settledAfter s.cycle.fleet s.queue q s t ∧ t.port.posCopy = positionAfter q s)

/-- The bytes the completion of the held acceptance stores. -/
def heldAcceptBytes (s : State) : Nat → Prop := fun x =>
  ∃ slot, s.offers.heldAccept = some slot ∧ outcomeBytes slot x

/-! ### The emergency (R178, R186) -/

/-- R184: the unit's fields after the outcome of a call; one that finds no call in hand is ignored. -/
def withCallOutcome (o : FrameOutcome) (u : EmergencyUnit) : EmergencyUnit :=
  if u.callInHand = false then u
  else
    { u with
      callInHand := false
      lastCall := match o with
        | .acknowledged => .acknowledged
        | .missed => .missed
        | .missedUnjudged _ => .missedUnjudged
        | .notSent => .notSent
        | .abandoned => .abandoned
      pacing :=
        if u.kept.state ≠ .alerting then u.pacing
        else
          match o with
          | .acknowledged => .spacing 3
          | .missed => .retry
          | .missedUnjudged _ => .retry
          | .notSent => u.pacing
          | .abandoned => .ready
      callDue := u.callDue ||
        (u.kept.state == .acknowledged && (o == .notSent || o == .abandoned)) }

/-- R178, R186: an emergency has started: the unit's fields (the debouncer's position aside), the change handed
to the neighbours. -/
def emergencyBegun (src : TriggerSource) (s t : State) : Prop :=
  t.emergency = { s.emergency with
    kept := { state := .alerting, source := src, trigger := s.cycle.fleet }
    callSeq := 0
    repeats := 0
    callDue := false
    ackStamp := none
    lastCall := .none
    pacing := .ready
    debounce := t.emergency.debounce } ∧
  t.mail = { s.mail with
    gateChanges := s.mail.gateChanges ++ [true]
    lampChanges := s.mail.lampChanges ++ [true]
    marks := s.mail.marks ++ [.emergency]
    additions := s.mail.additions ++ [.emergency] } ∧
  countUp emergencyBase s t

/-! ### Fare records (R6, R150, R154) -/

/-- The bytes of a fare record slot. -/
def recordBytes (i : Slot) : Nat → Prop := bytesAt (recordBase i) 128

/-- R6, R150: a fare record slot shows a record, at hand APP. -/
def presents (i : Slot) (h : HeldRecord) (t : State) : Prop :=
  Memory.read t.ram (recordBase i) 2 = handWord handApp ∧
  ∀ r ∈ recordRuns h, Memory.read t.ram (recordBase i + r.1) r.2.length = r.2

/-- R154: a record posted in a place. -/
def posted (i : Slot) (r : FareRecord) (s t : State) : Prop :=
  let h : HeldRecord := { record := r, seq := s.store.nextSeq, collected := false, reported := false }
  t.store = { s.store with
    places := put s.store.places i (some h)
    posting := s.store.posting ++ [i]
    nextSeq := if s.store.nextSeq < 65535 then s.store.nextSeq + 1 else 0 } ∧
  presents i h t

/-! ### What a safe run keeps -/

/-- R3: every request, Message Box and fare record slot is at APP or at CTL, every board slot at CTL. -/
def State.handsLegal (s : State) : Prop :=
  (∀ i : Slot, handAt s.ram (requestBase i) = handApp ∨ handAt s.ram (requestBase i) = handCtl) ∧
  (∀ i : Slot, handAt s.ram (boxBase i) = handApp ∨ handAt s.ram (boxBase i) = handCtl) ∧
  (∀ i : Slot, handAt s.ram (recordBase i) = handApp ∨ handAt s.ram (recordBase i) = handCtl) ∧
  (∀ i : Place, handAt s.ram (boardBase i) = handCtl)

/-- The request slots that wait or are held (R10, R13). -/
def State.openRequests (s : State) : List Slot :=
  s.port.order ++ s.offers.heldAccept.toList ++ s.msgs.sends.map (·.slot)

/-- R10, R13: no request slot waits or is held twice, and each stands at CTL. -/
def State.requestsSound (s : State) : Prop :=
  s.openRequests.Nodup ∧ ∀ i ∈ s.openRequests, heldByCtl s.ram (requestBase i) = true

/-- R70, R73: the queue holds at most 12 entries, of which at most one is a CAB_STATUS and at most one a
report, and an entry's identity is its own. -/
def TransmitQueue.lawful (q : TransmitQueue) : Prop :=
  q.entries.length ≤ 12 ∧ (q.entries.filter fun e => e.kind == .cabStatus).length ≤ 1 ∧
  (q.entries.filter fun e => e.kind.isReport).length ≤ 1 ∧
  (q.entries.map (·.id)).Nodup ∧ ∀ e ∈ q.entries, e.id < q.nextId

/-- R77: a lawful queue whose status-pending mark stands only where it cannot be resolved. -/
def State.queueSound (s : State) : Prop := s.queue.lawful ∧ s.queue.resolvable = false

/-- R53, R65, R68: while the Cycle Tracker is not SYNCHRONISED it holds no frame in flight. -/
def State.trackerSound (s : State) : Prop := s.cycle.synced = false → s.cycle.inFlight.phase = .none

/-- R97: at most one entry is ACCEPTING or AWARDED, and no two open entries carry one offer number. -/
def State.offersSound (s : State) : Prop :=
  (∀ i j : Place, (pick s.offers.places i).state.isTaken = true →
    (pick s.offers.places j).state.isTaken = true → i = j) ∧
  (∀ i j : Place, (pick s.offers.places i).state.isOpen = true →
    (pick s.offers.places j).state.isOpen = true →
    (pick s.offers.places i).number = (pick s.offers.places j).number → i = j)

/-- R46: in a powered part PTT is asserted, and a frame keyed or sent, only while the supply state is OK, the
part is RUNNING and the Cycle Tracker is SYNCHRONISED. -/
def State.radioSound (s : State) : Prop :=
  s.powered = true → (s.pins.ptt = true → s.tx.shifter ≠ .idle) ∧
    (s.tx.shifter ≠ .idle → s.supply.state = .ok ∧ s.running = true ∧ s.cycle.synced = true)

/-- R88: the link state that the unit's items give. -/
def linkStateOf (running : Bool) (l : LinkUnit) : LinkState :=
  if running = false ∨ l.searching = true then .search
  else if l.withdrawn = true then .withdrawn
  else if 128 ≤ l.ufc ∨ 128 ≤ l.dfc then .degraded
  else if 96 ≤ l.ufc ∨ 96 ≤ l.dfc then .weak
  else .good

/-- R88: the link state is always the one the items give; before RUN the unit searches and the routing holds
no frame (R43). -/
def State.linkSound (s : State) : Prop :=
  s.link.state = linkStateOf s.running s.link ∧
  (s.running = false → s.link.searching = true ∧ s.rx.held = none)

/-- R21, R22: a tariff of a working copy: in range when enabled. -/
def Tariff.sound (t : Tariff) : Prop := t.enabled = true → t.inRange = true

/-- R21, R22: a working copy that has passed validation, as far as the fare computation reads it. -/
def Settings.sound (w : Settings) : Prop :=
  1000 ≤ w.k ∧ w.k ≤ 50000 ∧ 60 ≤ w.vmax ∧ w.vmax ≤ 300 ∧
  w.tariff1.enabled = true ∧ w.tariff1.sound ∧ w.tariff2.sound ∧ w.tariff3.sound ∧ w.tariff4.sound

/-- R125: the running quantities of an open trip within their bounds, each accumulator below its threshold
in force. -/
def Trip.bounded (t : Trip) : Prop :=
  t.par.tariff.inRange = true ∧ 1000 ≤ t.par.k ∧ t.par.k ≤ 50000 ∧
  t.adist < t.distThreshold ∧ t.atime < t.timeThreshold ∧ t.fare ≤ 999999 ∧
  1 ≤ t.segments.length ∧ t.segments.length ≤ 4 ∧ t.extras.length ≤ 8

/-- R129: the fare is the lesser of 999999 and the flag fall plus the amounts of the increments charged (`c`)
plus the extras; `c` is the increment count times the tariff's amount while one segment is open and the count
does not hold, and SATURATED tells a fare at its top. -/
def Trip.lawful (t : Trip) : Prop :=
  t.extrasTotal = (t.extras.map (·.amount)).sum ∧ t.opening ≤ 9999 ∧
  (t.marks.saturated = true ↔ t.fare = 999999) ∧
  ∃ c, t.fare = min 999999 (t.opening + c + t.extrasTotal) ∧ t.increments ≤ c ∧
    (t.increments < 4294967295 → c ≤ 9999 * t.increments) ∧
    (t.increments < 4294967295 → t.segments.length = 1 → c = t.increments * t.par.tariff.amount)

/-- R129: law R129 of the open trip, and of the one the Retained Store keeps. -/
def State.fareLaw (s : State) : Prop :=
  (s.fare.meter ≠ .vacant → s.fare.trip.lawful) ∧
  (s.retained.kept.fare.meter ≠ .vacant → s.retained.kept.fare.trip.lawful)

/-- A working copy is a valid one, and an open trip is within its bounds. -/
def State.fareSound (s : State) : Prop :=
  (∀ w, s.settings.working = some w → w.sound) ∧
  (s.fare.meter ≠ .vacant → s.fare.trip.bounded)

/-- The five fixed blocks show what their owners hold, but for the fields that R140 and R153 let wait for
a meter tick. -/
def State.blocksShown (s : State) : Prop :=
  shownFields partBase s.partFields.length s.ram = s.partFields ∧
  shownFields linkBase s.linkFields.length s.ram = s.linkFields ∧
  chargedPart (shownFields meterBase s.meterFields.length s.ram) = chargedPart s.meterFields ∧
  promptPart (shownFields shiftBase s.shiftFields.length s.ram) = promptPart s.shiftFields ∧
  shownFields emergencyBase s.emergencyFields.length s.ram = s.emergencyFields

/-- R98: once the part is RUNNING every board slot shows its place and the summary. -/
def State.boardsShown (s : State) : Prop :=
  s.running = true → ∀ i, boardStale s.offers s.ram i = false

/-- R194: the Retained Store holds its owners' state and the check word over it. -/
def State.retainedCurrent (s : State) : Prop :=
  s.retained.kept = s.kept ∧ s.retained.check = s.kept.checkWord

/-- R159, R187: when LAMP is lit: while the Emergency Unit has taken it, at the tick phases 0..49; else while
the for-hire condition holds. -/
def State.lampShows (s : State) : Prop :=
  s.pins.lamp = true ↔
    if s.lampTaken = true then s.time.phase < 50
    else s.running = true ∧ s.fare.duty = .on ∧ s.fare.meter = .vacant ∧
      (∀ i : Place, (pick s.offers.places i).state ≠ .awarded) ∧ s.offers.baseSuspended = false

/-- R16, R100, R159, R187, spec 3.6: the outputs follow the state. -/
def State.pinsFollow (s : State) : Prop :=
  (s.pins.attnN = false ↔ s.port.attention &&& s.port.attnMask ≠ 0) ∧
  (s.pins.ptt = true ↔ s.tx.shifter ≠ .idle) ∧
  s.pins.txData = (if s.tx.shifter = .sending then .frameBits else .steady true) ∧
  s.lampShows ∧ s.pins.chime = s.chime.high

/-- The exchange RAM is in its canonical form. -/
def State.Inv (s : State) : Prop := Memory.wf s.ram = true

/-- What a powered part shows: its blocks and boards, in a RAM of canonical form. -/
def State.Shown (s : State) : Prop :=
  s.Inv ∧ (s.powered = true → s.blocksShown ∧ s.boardsShown)

/-- A powered part's retained copy and outputs are those of its state. -/
def State.Coherent (s : State) : Prop := s.powered = true → s.retainedCurrent ∧ s.pinsFollow

end Sys2Proof.Machine
end

