-- ==== Sys2Proof/WellFormed.lean ====
section
/-! DEFINITION. Which commands are well formed: the operands belong to the row.  A meaning is total on
ill-formed commands too: a host write acts by its address whatever the row's name, and a received event
whose bytes do not fit its row changes nothing. -/

namespace Sys2Proof

open Sys2Proof.Machine

/-- R4: a data word of a request, Message Box or fare record slot. -/
def slotDataAddr (a : WordAddr) : Bool :=
  match areaOf (byteOffset a) with
  | .request _ o => o != 0
  | .box _ o => o != 0
  | .record _ o => o != 0
  | _ => false

/-- R2: a fixed block or an Offer Board slot. -/
def fixedBlockAddr (a : WordAddr) : Bool :=
  match areaOf (byteOffset a) with
  | .settings => true
  | .position => true
  | .controllerBlock => true
  | .board => true
  | _ => false

/-- R14: IDENT, ATTENTION or an unused area. -/
def registerAddr (a : WordAddr) : Bool :=
  match areaOf (byteOffset a) with
  | .unused => true
  | .ident => true
  | .attention => true
  | _ => false

/-- R33: the bits hold a whole sync, which their last bit completes. -/
def endInSync (bits : List Bool) : Bool := bits.drop (bits.length - 24) == syncPattern

/-- The operands of a command belong to its row. -/
def Instr.wellFormed : Instr → Bool
  | .hostSlotDataWrite a _ => slotDataAddr a
  | .fixedBlockWrite a _ => fixedBlockAddr a
  | .registerWrite a _ => registerAddr a
  | .run v => v.getLsbD 0
  | .softReset v => v.getLsbD 1
  | .headerLengthError h => decide (56 < h.len.toNat)
  | .headerCollected h => decide (h.len.toNat ≤ 56)
  | .receiveFrameEnd payload _ => decide (payload.length ≤ 56)
  | .receiveOverrun bits => endInSync bits
  | .syncFound bits => endInSync bits
  | .skipEnd bytes => skipComplete bytes
  | .powerOn _ => true
  | .logicSupplyLoss => true
  | .positionBlockWrite _ => true
  | .requestHandover _ _ => true
  | .messageBoxReturn _ _ => true
  | .recordCollection _ _ => true
  | .attentionRead => true
  | .attnMaskWrite _ => true
  | .badRequest => true
  | .dutyOn => true
  | .dutyOff => true
  | .setZone => true
  | .sendStatus => true
  | .meterHire => true
  | .meterStop => true
  | .meterResume => true
  | .meterClear => true
  | .selectTariff => true
  | .addExtra => true
  | .acceptOffer => true
  | .declineOffer => true
  | .resumeOffers => true
  | .sendMessage => true
  | .raiseEmergency => true
  | .replaceSettings => true
  | .clearLinkLog => true
  | .receiveClockLoss => true
  | .beacon => true
  | .beaconAtLink => true
  | .jobOffer => true
  | .jobAward => true
  | .jobWithdraw => true
  | .baseMessage => true
  | .emergencyAck => true
  | .emergencyClear => true
  | .cabSuspend => true
  | .cabResume => true
  | .beaconMissed => true
  | .slotStart => true
  | .keyingEnd => true
  | .frameSent => true
  | .slotEnd => true
  | .sendReport => true
  | .linkOutcome => true
  | .receiveError => true
  | .beaconMissedReport => true
  | .syncLostReport => true
  | .queueOutcome => true
  | .statusTimerExpiry => true
  | .acceptUndelivered => true
  | .heldSendCompletion => true
  | .reportDone => true
  | .offerDeadlineExpiry _ => true
  | .awardWaitExpiry _ => true
  | .baseSuspensionExpiry => true
  | .chimePulseEnd => true
  | .meterTick => true
  | .distancePulse => true
  | .limiterWindowStart => true
  | .markEvent => true
  | .shiftTotalAddition => true
  | .reminderExpiry => true
  | .debouncedFallingEdge => true
  | .emergencyStateChange => true
  | .callOutcome => true
  | .trackingTimerExpiry => true
  | .supplySample _ => true
  | .timeBaseTick => true
  | .emergencyInputSample _ => true
  | .backupSupplyLoss => true

end Sys2Proof
end

