-- ==== Sys2Proof/Certificates/Slice0/Obligations.lean ====
section
/-! DEFINITION. The statements for the provers: what the machine keeps at every step, and for each command the
next state it answers, with its frame. -/

open Sys2Proof Sys2Proof.Machine

/-! ### The whole machine -/

/-- A step takes the command at the front of the queue and answers what `exec` answers on the state with the
queue's rest; on an empty queue the block idles (log entry 2). -/
def Obligations.StepRunsFrontCommand : Prop :=
  (∀ (c : Instr) (rest : List Instr) (s : State),
    step { s with pending := c :: rest } = exec c { s with pending := rest }) ∧
  (∀ s : State, s.pending = [] → step s = .next s)

/-- Every command answers a next state in every state, and none of them touches the queue of waiting
commands (spec 4; log entries 1 and 2). -/
def Obligations.EveryCommandAnswers : Prop :=
  ∀ (c : Instr) (s : State), ∃ t, exec c s = .next t ∧ t.pending = s.pending

/-- The machine right after power-on meets every invariant below (R19, R194; log entry 4). -/
def Obligations.ResetMeetsInvariants : Prop :=
  State.reset.Inv ∧ State.reset.handsLegal ∧ State.reset.Shown ∧ State.reset.Coherent ∧
  State.reset.queueSound ∧ State.reset.trackerSound ∧ State.reset.fareSound ∧ State.reset.requestsSound ∧
  State.reset.offersSound ∧ State.reset.radioSound ∧ State.reset.linkSound ∧ State.reset.fareLaw

/-- Every step keeps the exchange RAM in its canonical form and, in that form, every slot at exactly one of
the two sides (R3). -/
def Obligations.StepKeepsMemoryAndHands : Prop :=
  ∀ s t : State, s.Inv → step s = .next t → t.Inv ∧ (s.handsLegal → t.handsLegal)

/-- Every step leaves the blocks and boards showing what their owners hold (R8, R18, R94, R98, R140, R153,
R188), the Retained Store current with its check word (R194) and the outputs following the state (R16, R100,
R159, R187: LAMP among them, lit as these two rules say and not otherwise, `State.lampShows`; what TX_DATA shows is
log entry 11, DESIGN CHOICE).  Every command but POWER_ON rewrites a board slot, once and under its change count,
exactly where the Offer Manager has come to hold something else than the slot shows and the part is RUNNING, sets
OFFER in ATTENTION exactly where it rewrites one, leaves every other slot alone, and leaves OFFER as it was unless
it is the read of ATTENTION (R8, R15, R98, R99, R121).  Three points of the second clause are the model's:
* `once`, the change count risen by exactly 2, also where one event changes an entry's state and the summary
  together (DUTY_OFF, SET_ZONE, CAB_SUSPEND, a count-out), is log entry 6 (DEDUCED, unsafe for exact change counts):
  R98 and R99 list the two changes separately, and R8 leaves one rewrite or several open;
* that a slot is rewritten where what it shows has changed at the end of the event, and not otherwise, is log
  entry 7 (DEDUCED);
* that no slot is rewritten while the part is in CONFIG is log entry 39 (DEDUCED, from R99 and R121). -/
def Obligations.StepKeepsShownAndRetained : Prop :=
  (∀ s t : State, s.Shown → s.Coherent → step s = .next t → t.Shown ∧ t.Coherent) ∧
  (∀ (c : Instr) (s t : State), (∀ v, c ≠ .powerOn v) → s.Inv → s.boardsShown → exec c s = .next t →
    let rewritten (i : Place) : Prop := t.running = true ∧ boardStale t.offers s.ram i = true
    (t.port.attention.getLsbD 1 = true ↔
      (s.port.attention.getLsbD 1 = true ∧ ¬ (s.powered = true ∧ c = .attentionRead)) ∨ ∃ i, rewritten i) ∧
    ∀ i : Place, (rewritten i → countUp (boardBase i + 2) s t) ∧
      (¬ rewritten i → ∀ a, bytesAt (boardBase i + 2) 94 a → Memory.get t.ram a = Memory.get s.ram a))

/-- R70, R73, R77: every step keeps the Transmit Queue at 12 entries at most, with at most one CAB_STATUS and
at most one report, each under an identity of its own, and leaves the status-pending mark set only where it
cannot be resolved; R53, R65, R68: it leaves no frame in flight while the Cycle Tracker is not SYNCHRONISED;
R97: it leaves at most one offer ACCEPTING or AWARDED and no two open offers with one number; R46: it never
leaves PTT asserted while the supply is LOW, the part in CONFIG or the tracker in SEARCH; R88: it leaves the
link state the one that the unit's items give. -/
def Obligations.StepKeepsQueueAndTracker : Prop :=
  ∀ s t : State, step s = .next t →
    (s.queueSound → t.queueSound) ∧ (s.trackerSound → t.trackerSound) ∧ (s.offersSound → t.offersSound) ∧
    (s.radioSound → t.radioSound) ∧ (s.linkSound → t.linkSound)

/-- R125: every step keeps an open trip within its bounds, each accumulator below its threshold in force, and
the working copy a valid one; R129: and the fare of the open trip, and of the one the Retained Store keeps, the
lesser of 999999 and the flag fall plus the increments charged plus the extras. -/
def Obligations.StepKeepsTripBounded : Prop :=
  ∀ s t : State, s.fareSound → step s = .next t → t.fareSound ∧ (s.fareLaw → t.fareLaw)

/-- R10, R13: every step keeps each waiting or held request slot listed once and at CTL. -/
def Obligations.StepKeepsRequestsSound : Prop :=
  ∀ s t : State, s.Inv → s.requestsSound → step s = .next t → t.requestsSound

/-! ### The losses of the supplies (R193, R194) -/

/-- R193, R194: the loss of the logic supply leaves everything but the outputs as it stands, and from then on
no command but a power-on or the loss of the backup supply changes anything; the backup's loss alone discards
nothing; where both are absent, lost in either order, the Retained Store's contents are gone (those shown are
the model's choice, log entry 26) and its latch is set, so that the next power-on restores nothing. -/
def Obligations.SupplyLosses : Prop :=
  let discarded (r : RetainedStore) : RetainedStore :=
    { r with kept := Kept.cleared, check := Kept.cleared.checkWord, latch := true }
  (∀ s : State, s.powered = true → ∃ t, exec .logicSupplyLoss s = .next t ∧ t.powered = false ∧
    t.retained = (if s.retained.vbakAbsent = true then discarded s.retained else s.retained) ∧
    Frame [.powered, .pins, .free, .retained] nothing s t ∧ t.ram = s.ram) ∧
  (∀ s : State, ∃ t, exec .backupSupplyLoss s = .next t ∧
    t.retained = (if s.powered = true then { s.retained with vbakAbsent := true }
      else discarded { s.retained with vbakAbsent := true }) ∧
    Frame [.retained] nothing s t ∧ t.ram = s.ram) ∧
  (∀ (vsup : Nat) (s : State), s.powered = true →
    ∃ a b c d u v, exec .backupSupplyLoss s = .next a ∧ exec .logicSupplyLoss a = .next b ∧
      exec (.powerOn vsup) b = .next u ∧ exec .logicSupplyLoss s = .next c ∧
      exec .backupSupplyLoss c = .next d ∧ exec (.powerOn vsup) d = .next v ∧
      u.retained.result = .none ∧ v.retained.result = .none) ∧
  (∀ (c : Instr) (s : State), s.powered = false → (∀ v, c ≠ .powerOn v) → c ≠ .backupSupplyLoss →
    exec c s = .next s)

/-- R19, R195 to R197 and the power-on rules of the chapters: what POWER_ON leaves, whatever stood before.  The
values of `rx`, `tx`, `cycle`, `queue` and of the other blocks for which the chapters give none are the model's
choice (log entries 29, 45 and 47), and so are that the waiting commands stay (log entry 31), the list of ranges
by which a store is LOST (log entry 27), and that a part which still has its logic supply keeps its store
although VBAK is noted absent (log entry 49). -/
def Obligations.PowerOn : Prop :=
  ∀ (vsup : Nat) (s : State), ∃ t, exec (.powerOn vsup) s = .next t ∧
    t.pending = s.pending ∧ t.powered = true ∧ t.Inv ∧ t.handsLegal ∧ t.Shown ∧ t.Coherent ∧
    -- R19, step 5: the hands, and the restored records that are presented again
    (∀ i : Slot, Memory.readWord t.ram (requestBase i) = 0x000A ∧ Memory.readWord t.ram (boxBase i) = 0x000C ∧
      Memory.readWord t.ram (recordBase i) =
        if ((pick t.store.places i).any fun h => !h.collected) = true then 0x000A else 0x000C) ∧
    (∀ i : Place, Memory.readWord t.ram (boardBase i) = 0x000C) ∧
    (∀ (i : Slot) (h : HeldRecord), pick t.store.places i = some h → h.collected = false → presents i h t) ∧
    -- R19, step 1: every byte that is in no hand, no field of a block and no field of such a record reads 0
    (∀ a : Nat,
      (∀ i : Slot, ¬ bytesAt (requestBase i) 2 a ∧ ¬ bytesAt (boxBase i) 2 a ∧ ¬ bytesAt (recordBase i) 2 a) →
      (∀ i : Place, ¬ bytesAt (boardBase i) 2 a) →
      (∀ c : Nat × Nat, c ∈ [(partBase, 14), (linkBase, 30), (meterBase, 64), (shiftBase, 46), (emergencyBase, 20)] →
        ¬ bytesAt c.1 c.2 a) →
      (∀ (i : Slot) (h : HeldRecord), pick t.store.places i = some h → h.collected = false →
        ∀ r ∈ recordRuns h, ¬ bytesAt (recordBase i + r.1) r.2.length a) →
      Memory.get t.ram a = 0) ∧
    (∀ a : Nat, a ∈ [partBase, linkBase, meterBase, shiftBase, emergencyBase] →
      Memory.readWord t.ram a = 2) ∧
    t.port.attnMask = 0 ∧ t.pins.attnN = true ∧ t.port.order = [] ∧ t.port.faultCount = 0 ∧
    t.port.lastFault = 0 ∧ t.port.posWritten = none ∧ t.port.posCopy = none ∧
    t.port.attention = (if t.store.anyUncollected then News.record.mask else 0) |||
      (if t.emergency.kept.state = .alerting then News.emergency.mask else 0) ∧
    t.settings = { part := .config, working := none, result := .none, failedAt := 0 } ∧
    t.rx = {} ∧ t.tx = {} ∧ t.time = {} ∧ t.cycle = {} ∧ t.queue = {} ∧ t.link = {} ∧ t.msgs = {} ∧
    t.limiter = {} ∧ t.note = none ∧ t.mail = {} ∧ t.due = {} ∧ t.chime = {} ∧ t.lampTaken = false ∧
    t.supply = { state := .ok, lowRun := 0, highRun := 0, runLowest := 255, lowest := min 255 vsup } ∧
    t.retained.latch = false ∧
    t.retained.result = (if s.retained.latch then .none
      else if s.retained.kept.checkWord ≠ s.retained.check ∨ s.retained.kept.inRange = false then .lost
      else .restored) ∧
    (t.retained.result = .restored →
      t.store = s.retained.kept.store ∧
      t.fare = (if s.retained.kept.fare.meter = .hired then
        { s.retained.kept.fare with
          meter := .stopped
          trip := { s.retained.kept.fare.trip with
            marks := { s.retained.kept.fare.trip.marks with interrupted := true } } }
        else s.retained.kept.fare) ∧
      t.emergency = { kept := { s.retained.kept.emergency with
        state := if s.retained.kept.emergency.state = .idle then .idle else .alerting } }) ∧
    (t.retained.result ≠ .restored →
      t.store = {} ∧ t.fare = { nextTrip := 1 } ∧ t.emergency = { kept := {} }) ∧
    t.offers = { offDutyGate := t.fare.duty == .off, emergencyGate := t.emergency.kept.state != .idle }

/-! ### The memory port -/

/-- R4: a host write to a data word of a slot. -/
def Obligations.SlotDataWrite : Prop :=
  ∀ (a : WordAddr) (v : Word) (s : State), s.powered = true → s.Inv → slotDataAddr a = true →
    ∃ t, exec (.hostSlotDataWrite a v) s = .next t ∧
      if heldByApp s.ram (slotBase a) = true then
        hostRead a t = v ∧ gains 0 s t ∧ Frame ends (bytesAt (byteOffset a) 2) s t
      else faulted (byteOffset a) s t

/-- R2, R9: a host write to a fixed block or an Offer Board slot, the Position Block's change count among
them. -/
def Obligations.FixedBlockWrite : Prop :=
  (∀ (a : WordAddr) (v : Word) (s : State), s.powered = true → s.Inv → fixedBlockAddr a = true →
    ∃ t, exec (.fixedBlockWrite a v) s = .next t ∧
      if hostBlock a = true then
        hostRead a t = v ∧ gains 0 s t ∧
        t.port.posWritten = (if byteOffset a = positionBase ∧ v.toNat % 2 = 0 then some s.time.seconds
          else s.port.posWritten) ∧
        Frame (withEnds [.posWritten]) (bytesAt (byteOffset a) 2) s t
      else faulted (byteOffset a) s t) ∧
  (∀ (v : Word) (s : State), s.powered = true → s.Inv →
    ∃ t, exec (.positionBlockWrite v) s = .next t ∧
      Memory.readWord t.ram positionBase = v.toNat ∧ gains 0 s t ∧
      t.port.posWritten = (if v.toNat % 2 = 0 then some s.time.seconds else s.port.posWritten) ∧
      Frame (withEnds [.posWritten]) (bytesAt positionBase 2) s t)

/-- R5, R10: a host write to the hand word of a request slot. -/
def Obligations.RequestHandover : Prop :=
  ∀ (i : Slot) (v : Word) (s : State), s.powered = true → s.Inv →
    ∃ t, exec (.requestHandover i v) s = .next t ∧
      if lowByte v = handCtl ∧ heldByApp s.ram (requestBase i) = true then
        Memory.readWord t.ram (requestBase i) = v.toNat ∧ heldByCtl t.ram (requestBase i) = true ∧
        t.port.order = s.port.order ++ [i] ∧ gains 0 s t ∧
        Frame (withEnds [.order]) (bytesAt (requestBase i) 2) s t
      else faulted (requestBase i) s t

/-- R5, R168: the return of a Message Box slot: the receipt that a READ return of a directed message owes is
asked for first, and then RNR is cleared with its status trigger. -/
def Obligations.MessageBoxReturn : Prop :=
  ∀ (i : Slot) (v : Word) (s : State), s.powered = true → s.Inv → s.queueSound →
    ∃ t, exec (.messageBoxReturn i v) s = .next t ∧
      if lowByte v = handCtl ∧ heldByApp s.ram (boxBase i) = true then
        Memory.readWord t.ram (boxBase i) = v.toNat ∧ gains 0 s t ∧
        t.msgs = { s.msgs with
          boxes := put s.msgs.boxes i { pick s.msgs.boxes i with held := false }
          rnr := false
          reminder := if anyBoxAtApp t.ram then s.msgs.reminder
            else { running := false, left := s.working.reminder } } ∧
        (let owed := highByte v = 1 ∧ (pick s.msgs.boxes i).directed = true ∧
            (pick s.msgs.boxes i).receipt = true
         let q := withController .msgReceipt (laid 1 3 [(1, 2, (pick s.msgs.boxes i).number)]) s.cycle.fleet s.queue
         if s.running = true then
          t.mail = (if owed then
            { s.mail with sendNotices := s.mail.sendNotices ++ displacedNotice s.queue } else s.mail) ∧
          (if s.msgs.rnr = true then statusPlaced (if owed then q else s.queue) s t
           else t.queue = (if owed then q else s.queue) ∧ t.port.posCopy = s.port.posCopy)
         else queueKept s t ∧ t.mail = s.mail) ∧
        Frame (withEnds [.msgs, .posCopy, .queue, .mail]) (bytesAt (boxBase i) 2) s t
      else faulted (boxBase i) s t

/-- R155, R156, R157, R199: the collection of a fare record, and the acknowledgement of a report; the report that
is offered then with each field at its byte (`reportBytes`). -/
def Obligations.RecordCollectionAndReport : Prop :=
  (∀ (i : Slot) (v : Word) (s : State), s.powered = true → s.Inv →
    ∃ t, exec (.recordCollection i v) s = .next t ∧
      if lowByte v = handCtl ∧ heldByApp s.ram (recordBase i) = true then
        Memory.readWord t.ram (recordBase i) = v.toNat ∧ gains 0 s t ∧
        t.store = (match pick s.store.places i with
          | none => s.store
          | some h =>
            if s.store.reports = true ∧ h.reported = false then
              { s.store with places := put s.store.places i (some { h with collected := true }) }
            else
              { s.store with
                places := put s.store.places i none
                posting := s.store.posting.filter (fun j => j != i) }) ∧
        Frame (withEnds [.store]) (bytesAt (recordBase i) 2) s t
      else faulted (recordBase i) s t) ∧
  (∀ (n : Nat) (rest : List Nat) (s : State), s.powered = true → s.queueSound →
    s.mail.reportsDone = n :: rest →
    ∃ t, exec .reportDone s = .next t ∧
      t.mail = { s.mail with reportsDone := rest } ∧ gains 0 s t ∧
      (∀ (i : Slot) (h : HeldRecord), s.store.withSeq n = some i → pick s.store.places i = some h →
        t.store = if h.collected then
            { s.store with
              places := put s.store.places i none
              posting := s.store.posting.filter (fun j => j != i) }
          else { s.store with places := put s.store.places i (some { h with reported := true }) }) ∧
      (s.store.withSeq n = none → t.store = s.store) ∧
      (t.queue, t.note) = fed s.running t.store none s.cycle.fleet s.queue ∧
      t.port.posCopy = s.port.posCopy ∧
      Frame (withEnds [.mail, .store, .note, .queue, .posCopy]) nothing s t)

/-- R15, R16: a read of ATTENTION returns the news and clears it in the same access, a write of ATTN_MASK
stores bits 0..12, and ATTN_N follows both.  That D[15:0] keeps its word at the write is the model's choice
(log entry 33). -/
def Obligations.AttentionReadAndMaskWrite : Prop :=
  (∀ s : State, s.powered = true →
    ∃ t, exec .attentionRead s = .next t ∧ t.pins.data = s.port.attention ∧
      (s.boardsShown → t.port.attention = 0) ∧
      (t.port.attention = 0 ∨ t.port.attention = News.offer.mask) ∧
      t.pins.attnN = (t.port.attention &&& t.port.attnMask == 0) ∧ Frame ends nothing s t) ∧
  (∀ (v : Word) (s : State), s.powered = true →
    ∃ t, exec (.attnMaskWrite v) s = .next t ∧ t.port.attnMask = v &&& 0x1FFF ∧ gains 0 s t ∧
      t.pins.attnN = (t.port.attention &&& t.port.attnMask == 0) ∧ t.pins.data = s.pins.data ∧
      Frame (withEnds [.attnMask]) nothing s t)

/-- R14: IDENT, the writes to IDENT and ATTENTION (and to an unused area, R1), and ATTN_MASK as last
written; R17: CONTROL reads the part state in bit 0 and 0 elsewhere; R1: an unused area reads 0. -/
def Obligations.IdentAndMaskRegister : Prop :=
  (∀ (a : WordAddr) (s : State), areaOf (byteOffset a) = .ident → hostRead a s = 0xC412) ∧
  (∀ (a : WordAddr) (s : State), areaOf (byteOffset a) = .control →
    (hostRead a s).getLsbD 0 = s.running ∧ ∀ n, 0 < n → (hostRead a s).getLsbD n = false) ∧
  (∀ (a : WordAddr) (s : State), areaOf (byteOffset a) = .unused → hostRead a s = 0) ∧
  (∀ (a : WordAddr) (v : Word) (s : State), registerAddr a = true →
    exec (.registerWrite a v) s = .next s) ∧
  (∀ (a : WordAddr) (v : Word) (s : State), s.powered = true → areaOf (byteOffset a) = .attnMask →
    ∃ t, exec (.attnMaskWrite v) s = .next t ∧ hostRead a t = v &&& 0x1FFF) ∧
  (∀ (a : WordAddr) (vsup : Nat) (s : State), areaOf (byteOffset a) = .attnMask →
    ∃ t, exec (.powerOn vsup) s = .next t ∧ hostRead a t = 0) ∧
  (∀ (c : Instr) (s t : State), c.wellFormed = true → (∀ v, c ≠ .attnMaskWrite v) →
    (∀ v, c ≠ .powerOn v) → exec c s = .next t → t.port.attnMask = s.port.attnMask)

/-- R17, R22, R24, R25, R121: RUN, with board slots of contents 0 each written once and OFFER set.  That the entry into RUNNING gives a status trigger is log entry 23 (DEDUCED), that
it frees the collected records which no report holds back any more is log entry 24 (DEDUCED), and that the
trigger and the Record Store's offer come in either order is log entry 9. -/
def Obligations.RunWrite : Prop :=
  (∀ (v : Word) (s : State), s.running = false → v.getLsbD 0 = false → exec (.run v) s = .next s) ∧
  (∀ (v : Word) (s : State), s.running = true → v.getLsbD 1 = false → exec (.run v) s = .next s) ∧
  (∀ (v : Word) (off : Nat) (s : State), s.powered = true → s.running = false → v.getLsbD 0 = true →
    firstFailing s.ram = some off →
    ∃ t, exec (.run v) s = .next t ∧
      t.settings = { s.settings with result := .failed, failedAt := off } ∧
      gains News.settings.mask s t ∧ Frame (withEnds [.settings]) nothing s t) ∧
  (∀ (v : Word) (s : State), s.powered = true → s.Inv → s.queueSound → s.running = false →
    v.getLsbD 0 = true → firstFailing s.ram = none →
    ∃ t, exec (.run v) s = .next t ∧
      t.settings = { part := .running, working := some (readSettings s.ram), result := .ok, failedAt := 0 } ∧
      t.cycle = { s.cycle with lfsr := seed (field2 s.ram 0x00) } ∧
      t.offers = { s.offers with zone := field1 s.ram 0x03 } ∧
      t.fare = { s.fare with chosen := 1 } ∧
      t.limiter = { s.limiter with
        window := 0
        limit := limitFor (kInForce s.fare t.settings.working) (vmaxInForce s.fare t.settings.working) } ∧
      t.msgs = { s.msgs with reminder := { running := false, left := field2 s.ram 0x42 } } ∧
      t.port.posCopy = positionTaken s ∧
      (let q := { s.queue with timer := { running := field2 s.ram 0x48 != 0, left := field2 s.ram 0x48 } }
       let offered := fed true t.store s.note s.cycle.fleet
       let placed := withStatus (statusBytes t) s.cycle.fleet
       t.note = (offered (placed q)).2 ∧
       (t.queue = (offered (placed q)).1 ∨ t.queue = placed (offered q).1)) ∧
      t.store = s.store.require (field1 s.ram 0x4B == 1) ∧
      t.lampTaken = (field1 s.ram 0x46 == 1 && s.emergency.kept.state != .idle) ∧
      t.boardsShown ∧ gains News.settings.mask s t ∧
      ((∀ (i : Place) (a : Nat), bytesAt (boardBase i + 2) 94 a → Memory.get s.ram a = 0) →
        (∀ i : Place, Memory.readWord t.ram (boardBase i + 2) = 2) ∧ t.port.attention.getLsbD 1 = true) ∧
      Frame (withEnds [.settings, .cycle, .offers, .fare, .limiter, .msgs, .queue, .store, .note, .lampTaken,
        .posCopy, .free]) nothing s t)

/-- R20, R28, R29, R46, R68, R83, R95, R120, R160, R174, R189: SOFT_RESET, and the writes to CONTROL that R17
ignores.  The order of the parts that touch the queue is free (log entry 9): the Message Manager's and the
Record Store's part each come before or after the queue's own, and the next-sequence number goes on from the
one held, by the frames that each order admits.  That the Record Store's clearing of the report note and its
offer both happen, so that the note is none beside a queued report where the queue's part comes first, is log
entry 40 (DEDUCED). -/
def Obligations.SoftReset : Prop :=
  (∀ (v : Word) (s : State), s.running = true → v.getLsbD 1 = false → exec (.softReset v) s = .next s) ∧
  (∀ (v : Word) (s : State), s.running = false → v.getLsbD 0 = false → exec (.softReset v) s = .next s) ∧
  (∀ (v : Word) (s : State), s.powered = true → s.Inv → s.running = true → v.getLsbD 1 = true →
    ∃ t, exec (.softReset v) s = .next t ∧
      t.port.order = [] ∧
      (∀ i : Slot, heldByCtl s.ram (requestBase i) = true → completed i .cancelled 0 s.cycle.fleet t) ∧
      t.cycle = { s.cycle with
        synced := false, deadline := none, missedRun := 0, missRun := 0, skip := 0, spacing := 3,
        lfsr := seed s.working.cab, inFlight := t.cycle.inFlight } ∧
      t.cycle.inFlight.phase = .none ∧
      t.tx = { s.tx with shifter := .idle } ∧
      t.mail = { s.mail with
        sendReports := s.mail.sendReports ++ (if s.tx.shifter = .idle then [] else [.cut .reset])
        queueOuts := s.mail.queueOuts ++ (match s.cycle.inFlight.phase, s.cycle.inFlight.owner with
          | .none, _ => []
          | _, .queue id => [(id, .abandoned)]
          | _, .call _ => [])
        callOuts := s.mail.callOuts ++ (match s.cycle.inFlight.phase, s.cycle.inFlight.owner with
          | .none, _ => []
          | _, .queue _ => []
          | _, .call _ => [.abandoned]) } ∧
      t.link = { s.link with
        ufc := 0, dfc := 0, recovery := 0, withdrawn := false, searching := true, lastError := .none,
        state := .search } ∧
      t.offers = { s.offers with places := t.offers.places, heldAccept := none } ∧
      cancelled (fun p => p.state.isOpen) s t ∧
      t.emergency = { s.emergency with
        callInHand := false
        lastCall := if s.emergency.callInHand then .abandoned else s.emergency.lastCall
        pacing := if s.emergency.kept.state = .alerting then .ready else s.emergency.pacing
        callDue := if s.emergency.kept.state = .acknowledged then true else s.emergency.callDue } ∧
      t.msgs = { s.msgs with
        sends := []
        rnr := boxFull s.ram
        reminder := { running := anyBoxAtApp s.ram && s.working.reminder != 0, left := s.working.reminder } } ∧
      (∀ e ∈ t.queue.entries, e.kind = .cabStatus ∨ e.kind.isReport = true) ∧
      t.queue.timer = { running := s.working.status != 0, left := s.working.status } ∧
      t.queue.pending = false ∧
      (s.queueSound →
        let turned := s.msgs.rnr ≠ boxFull s.ram
        let placed (q : TransmitQueue) := if turned then withStatus (statusBytes t) s.cycle.fleet q else q
        let offered := fed true s.store none s.cycle.fleet
        t.port.posCopy = (if turned then positionTaken s else s.port.posCopy) ∧
        ∃ messagesFirst storeFirst : Bool,
          let before := if messagesFirst then placed s.queue else s.queue
          let met := if storeFirst then (offered before).1 else before
          let emptied := offered { met with
            entries := []
            pending := false
            timer := { running := s.working.status != 0, left := s.working.status } }
          let after := if messagesFirst then emptied.1 else placed emptied.1
          (t.queue, t.note) = if storeFirst then (after, emptied.2) else offered after) ∧
      gains ((if ∃ i : Slot, heldByCtl s.ram (requestBase i) = true then News.reqDone.mask else 0) |||
        (if s.link.state = .search then 0 else News.link.mask)) s t ∧
      Frame (withEnds [.order, .cycle, .tx, .mail, .link, .offers, .emergency, .msgs, .queue, .note, .posCopy, .free])
        (fun x => ∃ i : Slot, heldByCtl s.ram (requestBase i) = true ∧ outcomeBytes i x) s t)

/-! ### Requests -/

/-- R11: in CONFIG every request completes NOT_RUNNING with detail 0, whatever its code, and in RUNNING a
request with a code that is not in the table completes BAD_REQUEST. -/
def Obligations.RequestsInConfigAndUnknown : Prop :=
  (∀ (c : Instr) (code : Nat) (i : Slot) (rest : List Slot) (s : State), requestRow c = some code →
    Ready code i rest s → s.running = false →
    ∃ t, exec c s = .next t ∧ answered i rest .notRunning 0 0 s t ∧
      Frame (withEnds [.order]) (outcomeBytes i) s t) ∧
  (∀ (code : Nat) (i : Slot) (rest : List Slot) (s : State), knownCodes.contains code = false →
    Ready code i rest s →
    ∃ t, exec .badRequest s = .next t ∧
      answered i rest (if s.running then .badRequest else .notRunning) 0 0 s t ∧
      Frame (withEnds [.order]) (outcomeBytes i) s t)

/-- R143, R144: DUTY_ON. -/
def Obligations.DutyOn : Prop :=
  ∀ (i : Slot) (rest : List Slot) (s : State), Ready 0x01 i rest s → s.running = true → s.queueSound →
    ∃ t, exec .dutyOn s = .next t ∧
      if s.fare.duty = .on then
        answered i rest .refusedState 0 0 s t ∧ Frame (withEnds [.order]) (outcomeBytes i) s t
      else
        answered i rest .done (if s.fare.shiftNo < 65535 then s.fare.shiftNo + 1 else 1) 0 s t ∧
        t.fare = { s.fare with
          shiftNo := if s.fare.shiftNo < 65535 then s.fare.shiftNo + 1 else 1
          shiftStart := s.cycle.fleet
          totals := {}
          duty := .on } ∧
        t.limiter = { s.limiter with remainder := 0 } ∧
        t.offers = { s.offers with offDutyGate := false } ∧ statusPlaced s.queue s t ∧ t.lampShows ∧
        Frame (withEnds [.order, .fare, .limiter, .offers, .posCopy, .queue]) (outcomeBytes i) s t

/-- R76, R145, R154, R157: DUTY_OFF.  That the report is offered before the status trigger is the model's choice
(log entry 32, DEDUCED). -/
def Obligations.DutyOff : Prop :=
  ∀ (i : Slot) (rest : List Slot) (s : State), Ready 0x02 i rest s → s.running = true → s.queueSound →
    ∃ t, exec .dutyOff s = .next t ∧
      if s.fare.duty = .off then
        answered i rest .refusedState 1 0 s t ∧ Frame (withEnds [.order]) (outcomeBytes i) s t
      else if s.fare.meter ≠ .vacant then
        answered i rest .refusedState 2 0 s t ∧ Frame (withEnds [.order]) (outcomeBytes i) s t
      else if s.offers.anyTaken = true then
        answered i rest .refusedState 3 0 s t ∧ Frame (withEnds [.order]) (outcomeBytes i) s t
      else if s.emergency.kept.state ≠ .idle then
        answered i rest .refusedState 4 0 s t ∧ Frame (withEnds [.order]) (outcomeBytes i) s t
      else
        match s.store.free with
        | none => answered i rest .recordsFull 0 0 s t ∧ Frame (withEnds [.order]) (outcomeBytes i) s t
        | some p =>
          answered i rest .done p.val News.record.mask s t ∧
          posted p (.shift
            { number := s.fare.shiftNo, start := s.fare.shiftStart, stop := s.cycle.fleet,
              totals := s.fare.totals }) s t ∧
          (let offered := fed true t.store s.note s.cycle.fleet s.queue
           t.note = offered.2 ∧ statusPlaced offered.1 s t) ∧
          t.fare = { s.fare with duty := .off } ∧
          t.offers = { s.offers with places := t.offers.places, offDutyGate := true } ∧
          cancelled OfferPlace.presented s t ∧ t.lampShows ∧
          Frame (withEnds [.order, .store, .note, .fare, .offers, .posCopy, .queue])
            (fun x => outcomeBytes i x ∨ recordBytes p x) s t

/-- R119: SET_ZONE. -/
def Obligations.SetZone : Prop :=
  ∀ (i : Slot) (rest : List Slot) (s : State), Ready 0x03 i rest s → s.running = true → s.queueSound →
    ∃ t, exec .setZone s = .next t ∧
      let zone := param1 s.ram i
      if zone = 0 then
        answered i rest .refusedRange 0 0 s t ∧ Frame (withEnds [.order]) (outcomeBytes i) s t
      else if zone = s.offers.zone then
        answered i rest .done 0 0 s t ∧ Frame (withEnds [.order]) (outcomeBytes i) s t
      else
        answered i rest .done 0 0 s t ∧
        t.offers = { s.offers with places := t.offers.places, zone := zone } ∧
        cancelled OfferPlace.presentedZone s t ∧ statusPlaced s.queue s t ∧ t.boardsShown ∧
        Frame (withEnds [.order, .offers, .posCopy, .queue]) (outcomeBytes i) s t

/-- R9, R76, R77, R78, R199: SEND_STATUS and the expiry of the status timer each give a status trigger, placed by
the first of the four cases that applies, with the CAB_STATUS payload spelled field by field (`statusBytes`). -/
def Obligations.StatusTrigger : Prop :=
  (∀ (i : Slot) (rest : List Slot) (s : State), Ready 0x04 i rest s → s.running = true → s.queueSound →
    ∃ t, exec .sendStatus s = .next t ∧ answered i rest .done 0 0 s t ∧ statusPlaced s.queue s t ∧
      Frame (withEnds [.order, .posCopy, .queue]) (outcomeBytes i) s t) ∧
  (∀ s : State, s.powered = true → s.running = true → s.queueSound → s.queue.timer.due = true →
    ∃ t, exec .statusTimerExpiry s = .next t ∧
      statusPlaced { s.queue with
        timer := { running := s.working.status != 0, left := s.working.status } } s t ∧ gains 0 s t ∧
      Frame (withEnds [.posCopy, .queue]) nothing s t)

/-- R117, R126, R146, R147: METER_HIRE. -/
def Obligations.MeterHire : Prop :=
  ∀ (i : Slot) (rest : List Slot) (s : State), Ready 0x10 i rest s → s.running = true → s.queueSound →
    ∃ t, exec .meterHire s = .next t ∧
      let p := param1 s.ram i
      let n := if p = 0 then s.fare.chosen else p
      let tariff := s.working.tariff n
      if s.fare.meter ≠ .vacant then
        answered i rest .refusedState 0 0 s t ∧ Frame (withEnds [.order]) (outcomeBytes i) s t
      else if s.fare.duty = .off then
        answered i rest .refusedState 1 0 s t ∧ Frame (withEnds [.order]) (outcomeBytes i) s t
      else if 4 < p ∨ ¬ (1 ≤ n ∧ n ≤ 4 ∧ tariff.enabled = true) then
        answered i rest .refusedRange 0 0 s t ∧ Frame (withEnds [.order]) (outcomeBytes i) s t
      else
        answered i rest .done s.fare.nextTrip News.meter.mask s t ∧
        t.fare = { s.fare with
          meter := .hired
          nextTrip := if s.fare.nextTrip < 65535 then s.fare.nextTrip + 1 else 1
          trip :=
            { number := s.fare.nextTrip
              job := match awardedPlace s.offers with
                | some j => (pick s.offers.places j).number
                | none => 0
              start := s.cycle.fleet
              par := { number := n, tariff := tariff, k := s.working.k, vmax := s.working.vmax }
              opening := tariff.flagFall
              adist := 0
              atime := 0
              distRunning := tariff.d0 == 0 || tariff.t0 == 0
              timeRunning := tariff.d0 == 0 || tariff.t0 == 0
              fare := tariff.flagFall
              increments := 0
              pulses := 0
              ticks := 0
              clamped := 0
              segments := [{ tariff := n, fare := tariff.flagFall, start := s.cycle.fleet }]
              extras := []
              extrasTotal := 0
              marks := { dip := s.supply.state == .low, emergency := s.emergency.kept.state != .idle } } } ∧
        (match awardedPlace s.offers with
         | some j => t.offers = { s.offers with places := put s.offers.places j (closedAs j .started s) }
         | none => t.offers = s.offers) ∧
        statusPlaced s.queue s t ∧ t.lampShows ∧
        Frame (withEnds [.order, .fare, .offers, .posCopy, .queue]) (outcomeBytes i) s t

/-- R132, R146, R148: METER_STOP and METER_RESUME. -/
def Obligations.MeterStopAndResume : Prop :=
  let moves (c : Instr) (code : Nat) (src dst : MeterState) : Prop :=
    ∀ (i : Slot) (rest : List Slot) (s : State), Ready code i rest s → s.running = true → s.queueSound →
      ∃ t, exec c s = .next t ∧
        if s.fare.meter = src then
          answered i rest .done 0 News.meter.mask s t ∧ t.fare = { s.fare with meter := dst } ∧
          statusPlaced s.queue s t ∧ t.lampShows ∧ t.blocksShown ∧
          Frame (withEnds [.order, .fare, .posCopy, .queue]) (outcomeBytes i) s t
        else
          answered i rest .refusedState 0 0 s t ∧ Frame (withEnds [.order]) (outcomeBytes i) s t
  moves .meterStop 0x11 .hired .stopped ∧ moves .meterResume 0x12 .stopped .hired

/-- R76, R132, R138, R149 to R151, R154, R157: METER_CLEAR.  That the report is offered before the status trigger
is the model's choice (log entry 32, DEDUCED). -/
def Obligations.MeterClear : Prop :=
  ∀ (i : Slot) (rest : List Slot) (s : State), Ready 0x13 i rest s → s.running = true → s.queueSound →
    ∃ t, exec .meterClear s = .next t ∧
      if s.fare.meter ≠ .stopped then
        answered i rest .refusedState 0 0 s t ∧ Frame (withEnds [.order]) (outcomeBytes i) s t
      else
        match s.store.free with
        | none => answered i rest .recordsFull 0 0 s t ∧ Frame (withEnds [.order]) (outcomeBytes i) s t
        | some p =>
          let u := s.fare.trip
          let dist := u.pulses * 1000 / u.par.k
          let time := u.ticks / 10
          let x := s.fare.totals
          let added : Totals :=
            { x with
              trips := x.trips.add 65535 1
              fare := x.fare.add 99999999 u.fare
              extras := x.extras.add 99999999 u.extrasTotal
              hiredDist := x.hiredDist.add 4294967295 dist
              hiredTime := x.hiredTime.add 4294967295 time }
          answered i rest .done p.val (News.record.mask ||| News.meter.mask) s t ∧
          posted p (.trip
            { number := u.number, job := u.job, start := u.start, stop := s.cycle.fleet,
              segments := u.segments, extras := u.extras, flagFall := u.opening,
              increments := u.increments, fare := u.fare, extrasTotal := u.extrasTotal, dist := dist,
              time := time, clamped := u.clamped, marks := u.marks }) s t ∧
          (let offered := fed true t.store s.note s.cycle.fleet s.queue
           t.note = offered.2 ∧ statusPlaced offered.1 s t) ∧
          t.fare = { s.fare with
            meter := .vacant
            trip := {}
            totals := if s.fare.duty = .off then x else added } ∧
          t.limiter = { s.limiter with
            remainder := if (s.settings.working.map (·.k)).getD 0 = u.par.k then s.limiter.remainder else 0 } ∧
          t.lampShows ∧
          Frame (withEnds [.order, .store, .note, .fare, .limiter, .posCopy, .queue])
            (fun x => outcomeBytes i x ∨ recordBytes p x) s t

/-- R122, R123, R135, R136: SELECT_TARIFF. -/
def Obligations.SelectTariff : Prop :=
  ∀ (i : Slot) (rest : List Slot) (s : State), Ready 0x14 i rest s → s.running = true →
    ∃ t, exec .selectTariff s = .next t ∧
      let n := param1 s.ram i
      let u := s.fare.trip
      if ¬ (1 ≤ n ∧ n ≤ 4 ∧ (s.working.tariff n).enabled = true) then
        answered i rest .refusedRange 0 0 s t ∧ Frame (withEnds [.order]) (outcomeBytes i) s t
      else if s.fare.meter = .vacant then
        answered i rest .done 0 0 s t ∧ t.fare = { s.fare with chosen := n } ∧
        Frame (withEnds [.order, .fare]) (outcomeBytes i) s t
      else if 4 ≤ u.segments.length then
        answered i rest .limit 4 0 s t ∧ Frame (withEnds [.order]) (outcomeBytes i) s t
      else
        answered i rest .done (u.segments.length + 1) 0 s t ∧
        t.fare = { s.fare with
          trip := { u with
            par := { u.par with number := n, tariff := s.working.tariff n }
            adist := 0
            atime := 0
            distRunning := true
            timeRunning := true
            segments := u.segments ++ [{ tariff := n, fare := u.fare, start := s.cycle.fleet }] } } ∧
        Frame (withEnds [.order, .fare]) (outcomeBytes i) s t

/-- R129, R137: ADD_EXTRA. -/
def Obligations.AddExtra : Prop :=
  ∀ (i : Slot) (rest : List Slot) (s : State), Ready 0x15 i rest s → s.running = true →
    ∃ t, exec .addExtra s = .next t ∧
      let code := param1 s.ram i
      let amount := paramAmount s.ram i
      let u := s.fare.trip
      if s.fare.meter = .vacant then
        answered i rest .refusedState 0 0 s t ∧ Frame (withEnds [.order]) (outcomeBytes i) s t
      else if ¬ (1 ≤ code ∧ code ≤ 15 ∧ 1 ≤ amount ∧ amount ≤ 9999) then
        answered i rest .refusedRange 0 0 s t ∧ Frame (withEnds [.order]) (outcomeBytes i) s t
      else if 8 ≤ u.extras.length then
        answered i rest .limit 8 0 s t ∧ Frame (withEnds [.order]) (outcomeBytes i) s t
      else
        answered i rest .done (u.extras.length + 1) 0 s t ∧
        t.fare = { s.fare with
          trip := { u with
            fare := min 999999 (u.fare + amount)
            extras := u.extras ++ [{ code := code, amount := amount }]
            extrasTotal := u.extrasTotal + amount
            marks := { u.marks with
              saturated := u.marks.saturated || min 999999 (u.fare + amount) == 999999 } } } ∧
        Frame (withEnds [.order, .fare]) (outcomeBytes i) s t

/-- R110, R13: ACCEPT_OFFER. -/
def Obligations.AcceptOffer : Prop :=
  ∀ (i : Slot) (rest : List Slot) (s : State), Ready 0x20 i rest s → s.running = true → s.queueSound →
    ∃ t, exec .acceptOffer s = .next t ∧
      let number := param2 s.ram i
      match findOpen number s.offers with
      | none => answered i rest .unknownOffer 0 0 s t ∧ Frame (withEnds [.order]) (outcomeBytes i) s t
      | some j =>
        let p := pick s.offers.places j
        if p.state ≠ .presented ∨ s.fare.meter ≠ .vacant ∨ s.emergency.kept.state ≠ .idle ∨
            s.offers.anyTaken = true then
          answered i rest .refusedState j.val 0 s t ∧ Frame (withEnds [.order]) (outcomeBytes i) s t
        else if s.link.state = .withdrawn ∨ s.link.state = .search then
          answered i rest .noLink j.val 0 s t ∧ Frame (withEnds [.order]) (outcomeBytes i) s t
        else if 8 ≤ s.queue.entries.length then
          answered i rest .queueFull j.val 0 s t ∧ Frame (withEnds [.order]) (outcomeBytes i) s t
        else
          keptRequest i rest s t ∧ admitted .jobAccept (laid 1 3 [(1, 2, p.number)]) (some i) s t ∧
          t.offers = { s.offers with
            places := put s.offers.places j { p with state := .accepting, wait := s.working.awardWait }
            heldAccept := some i
            expiries := 0 } ∧
          t.boardsShown ∧
          Frame (withEnds [.order, .offers, .posCopy, .queue]) nothing s t

/-- R116: DECLINE_OFFER. -/
def Obligations.DeclineOffer : Prop :=
  ∀ (i : Slot) (rest : List Slot) (s : State), Ready 0x21 i rest s → s.running = true → s.queueSound →
    ∃ t, exec .declineOffer s = .next t ∧
      let number := param2 s.ram i
      match findOpen number s.offers with
      | none => answered i rest .unknownOffer 0 0 s t ∧ Frame (withEnds [.order]) (outcomeBytes i) s t
      | some j =>
        let p := pick s.offers.places j
        let sends := p.state = .awarded ∨ p.origin = 1
        if p.state = .accepting then
          answered i rest .refusedState j.val 0 s t ∧ Frame (withEnds [.order]) (outcomeBytes i) s t
        else if sends ∧ 8 ≤ s.queue.entries.length then
          answered i rest .queueFull j.val 0 s t ∧ Frame (withEnds [.order]) (outcomeBytes i) s t
        else
          answered i rest .done j.val 0 s t ∧
          t.offers = { s.offers with
            places := put s.offers.places j
              (closedAs j (if p.state = .awarded then .cancelled else .declined) s)
            expiries := 0 } ∧
          (sends → admitted .jobDecline (laid 1 4 [(1, 2, p.number), (3, 1, if p.state = .awarded then 5 else 1)]) none s t) ∧
          (¬ sends → queueKept s t) ∧
          Frame (withEnds [.order, .offers, .posCopy, .queue]) (outcomeBytes i) s t

/-- R101, R109: RESUME_OFFERS. -/
def Obligations.ResumeOffers : Prop :=
  ∀ (i : Slot) (rest : List Slot) (s : State), Ready 0x22 i rest s → s.running = true → s.queueSound →
    ∃ t, exec .resumeOffers s = .next t ∧ answered i rest .done 0 0 s t ∧
      t.offers = { s.offers with latch := false, expiries := 0 } ∧ t.boardsShown ∧
      (if s.offers.latch = true then statusPlaced s.queue s t else queueKept s t) ∧
      Frame (withEnds [.order, .offers, .posCopy, .queue]) (outcomeBytes i) s t

/-- R13, R42, R171: SEND_MESSAGE. -/
def Obligations.SendMessage : Prop :=
  ∀ (i : Slot) (rest : List Slot) (s : State), Ready 0x30 i rest s → s.running = true → s.queueSound →
    ∃ t, exec .sendMessage s = .next t ∧
      let code := param1 s.ram i
      let len := paramTextLength s.ram i
      let text := (paramText s.ram i len).map fun c =>
        if 0x20 ≤ c.toNat ∧ c.toNat ≤ 0x7E then c else 0x3F
      if ¬ ((1 ≤ code ∧ code ≤ 63 ∧ len = 0) ∨ (code = 0 ∧ 1 ≤ len ∧ len ≤ 48)) then
        answered i rest .refusedRange 0 0 s t ∧ Frame (withEnds [.order]) (outcomeBytes i) s t
      else if 8 ≤ s.queue.entries.length then
        answered i rest .queueFull 0 0 s t ∧ Frame (withEnds [.order]) (outcomeBytes i) s t
      else
        keptRequest i rest s t ∧
        admitted .driverMessage (laid 1 3 [(1, 1, code), (2, 1, len)] ++ text) (some i) s t ∧
        t.msgs = { s.msgs with sends := s.msgs.sends ++ [{ slot := i, seq := s.queue.nextSeq }] } ∧
        Frame (withEnds [.order, .msgs, .posCopy, .queue]) nothing s t

/-- R178, R179, R186: RAISE_EMERGENCY. -/
def Obligations.RaiseEmergency : Prop :=
  ∀ (i : Slot) (rest : List Slot) (s : State), Ready 0x40 i rest s → s.running = true →
    ∃ t, exec .raiseEmergency s = .next t ∧
      if s.emergency.kept.state = .idle then
        answered i rest .done 0 News.emergency.mask s t ∧
        emergencyBegun .host s t ∧ t.emergency.debounce = s.emergency.debounce ∧ t.blocksShown ∧
        Frame (withEnds [.order, .emergency, .mail]) (outcomeBytes i) s t
      else
        answered i rest .done 1 0 s t ∧
        t.emergency = { s.emergency with repeats := min 255 (s.emergency.repeats + 1) } ∧
        t.blocksShown ∧ countUp emergencyBase s t ∧
        Frame (withEnds [.order, .emergency]) (outcomeBytes i) s t

/-- R22, R26, R27, R156 to R158, R187: REPLACE_SETTINGS.  The status timer is preset with the new interval,
also where it equals the old one (R27).  That every block has taken the new working copy when the command ends, with
no other event among them, is log entry 25 (DEDUCED). -/
def Obligations.ReplaceSettings : Prop :=
  ∀ (i : Slot) (rest : List Slot) (s : State), Ready 0x50 i rest s → s.running = true → s.queueSound →
    ∃ t, exec .replaceSettings s = .next t ∧
      let w := readSettings s.ram
      if s.fare.meter ≠ .vacant then
        answered i rest .refusedState 0 0 s t ∧ Frame (withEnds [.order]) (outcomeBytes i) s t
      else if field2 s.ram 0x00 ≠ s.working.cab then
        answered i rest .refusedState 0x00 0 s t ∧ Frame (withEnds [.order]) (outcomeBytes i) s t
      else if field1 s.ram 0x02 ≠ s.working.fleet then
        answered i rest .refusedState 0x02 0 s t ∧ Frame (withEnds [.order]) (outcomeBytes i) s t
      else
        match firstFailing s.ram with
        | some off =>
          answered i rest .refusedRange off 0 s t ∧ Frame (withEnds [.order]) (outcomeBytes i) s t
        | none =>
          answered i rest .done 0 0 s t ∧
          t.settings = { s.settings with working := some w } ∧
          t.fare = { s.fare with chosen := if tariffEnabled w s.fare.chosen then s.fare.chosen else 1 } ∧
          t.limiter = { s.limiter with
            remainder := if w.k = s.working.k then s.limiter.remainder else 0 } ∧
          t.msgs = { s.msgs with
            reminder :=
              if w.reminder = s.working.reminder then s.msgs.reminder
              else if w.reminder = 0 then { running := false, left := 0 }
              else if s.working.reminder = 0 then
                { running := anyBoxAtApp s.ram, left := w.reminder }
              else s.msgs.reminder } ∧
          t.lampTaken = (w.lampSignal && s.emergency.kept.state != .idle) ∧
          t.store = { s.store with reports := w.reports }.releaseDue ∧
          (let q := { s.queue with
            timer := { running := w.status != 0, left := w.status } }
           (t.queue, t.note) =
            if w.reports = true ∧ s.store.reports = false then
              fed true t.store s.note s.cycle.fleet q
            else (q, s.note)) ∧
          t.port.posCopy = s.port.posCopy ∧
          Frame (withEnds [.order, .settings, .fare, .limiter, .msgs, .queue, .note, .store, .lampTaken, .posCopy]) (outcomeBytes i) s t

/-- R92, R93: CLEAR_LINK_LOG. -/
def Obligations.ClearLinkLog : Prop :=
  ∀ (i : Slot) (rest : List Slot) (s : State), Ready 0x51 i rest s → s.running = true →
    ∃ t, exec .clearLinkLog s = .next t ∧ answered i rest .done 0 0 s t ∧
      t.link = { s.link with log := 0, overflowed := false } ∧
      shownFields linkBase 28 t.ram = t.linkFields ∧ countUp linkBase s t ∧
      Frame (withEnds [.order, .link]) (outcomeBytes i) s t

/-! ### The Radio Port -/

/-- R34, R43: the fourth header byte, with a length in range or above it.  That the shifter is empty after a
LENGTH error is log entry 16 (DEDUCED), and the restart of the count of silent ticks log entry 43 (DEDUCED). -/
def Obligations.HeaderBytes : Prop :=
  ∀ (h : Header) (s : State), s.powered = true → s.rx.asm = .header →
    (h.len.toNat ≤ 56 → ∃ t, exec (.headerCollected h) s = .next t ∧
      t.rx = { s.rx with
        asm := .body
        buffer := [h.kind, h.len, h.addrHi, h.addrLo]
        quiet := 0
        crc := checkOver s.rx.crc [h.kind, h.len, h.addrHi, h.addrLo] } ∧
      gains 0 s t ∧ Frame (withEnds [.rx]) nothing s t) ∧
    (56 < h.len.toNat → ∃ t, exec (.headerLengthError h) s = .next t ∧
      t.rx.asm = .hunt ∧ t.rx.shifter = [] ∧ t.rx.buffer = [] ∧ t.rx.held = s.rx.held ∧
      t.mail = { s.mail with
        rxErrors := s.mail.rxErrors ++ (if s.running then [.length] else []) } ∧
      gains 0 s t ∧ Frame (withEnds [.rx, .mail]) nothing s t)

/-- R33, R40, R43: the bits that complete a sync in HUNT.  The restart of the count of silent ticks is log
entry 43 (DEDUCED). -/
def Obligations.SyncInHunt : Prop :=
  ∀ (bits : List Bool) (s : State), s.powered = true → s.rx.asm = .hunt → endInSync bits = true →
    (s.rx.held = none → ∃ t, exec (.syncFound bits) s = .next t ∧
      t.rx = { s.rx with asm := .header, shifter := [], buffer := [], crc := 0xFFFF, quiet := 0 } ∧
      gains 0 s t ∧ Frame (withEnds [.rx]) nothing s t) ∧
    (s.rx.held ≠ none → ∃ t, exec (.receiveOverrun bits) s = .next t ∧
      t.rx = { s.rx with asm := .skip, shifter := [], quiet := 0 } ∧
      t.mail = { s.mail with
        rxErrors := s.mail.rxErrors ++ (if s.running then [.overrun] else []) } ∧
      gains 0 s t ∧ Frame (withEnds [.rx, .mail]) nothing s t)

/-- R35 to R39, R42, R43: the last CRC bit of a frame, judged on the bytes received: the CRC, the kind, the
address, the length match and the field ranges in this order, and a beacon by its fleet code. -/
def Obligations.FrameEnd : Prop :=
  ∀ (k l hi lo : Byte) (payload : List Byte) (received : Word) (s : State), s.powered = true →
    s.rx.asm = .body → s.rx.buffer = [k, l, hi, lo] → payload.length = l.toNat →
    ∃ t, exec (.receiveFrameEnd payload received) s = .next t ∧
      let kind := k.toNat
      let address := 256 * hi.toNat + lo.toNat
      let reported (e : RxError) : Prop :=
        t.rx.held = s.rx.held ∧ t.mail = { s.mail with rxErrors := s.mail.rxErrors ++ [e] }
      let discarded : Prop := t.rx.held = s.rx.held ∧ t.mail = s.mail
      t.rx.asm = .hunt ∧ t.rx.shifter = [] ∧
      (if s.running = false then discarded
       else if checkOver s.rx.crc payload ≠ received then reported .crc
       else if ¬ (1 ≤ kind ∧ kind ≤ 9) then reported .kind
       else if address ≠ s.working.cab ∧ address ≠ 0 then discarded
       else if (kind = 1 ∧ address = s.working.cab) ∨ ((kind = 6 ∨ kind = 7) ∧ address ≠ s.working.cab) then
         discarded
       else if ¬ lengthMatches kind payload then reported .length
       else if ¬ fieldsInRange kind payload then reported .kind
       else if kind = 1 ∧ byteAt payload 0 ≠ s.working.fleet then discarded
       else
         t.rx.held = some
           { frame := frameRead kind payload
             directed := decide (address = s.working.cab)
             stamp := s.cycle.fleet
             endInstant := s.time.seconds * 100 + s.time.phase
             forLink := decide (kind = 1)
             forOwner := true } ∧
         t.mail = s.mail) ∧
      gains 0 s t ∧ Frame (withEnds [.rx, .mail]) nothing s t

/-- R40, R41, R43: the clock lost in the middle of a frame, once two ticks have passed without a bit, and the end
of a skipped frame.  The empty shifter is log entry 16 (DEDUCED), and that the ticks are counted from the
latest command that carries bits is log entry 43 (DEDUCED). -/
def Obligations.ClockLossAndSkipEnd : Prop :=
  (∀ s : State, s.powered = true → s.rx.asm ≠ .hunt → 2 ≤ s.rx.quiet →
    ∃ t, exec .receiveClockLoss s = .next t ∧
      t.rx = { s.rx with asm := .hunt, shifter := [], quiet := 0 } ∧
      t.mail = { s.mail with
        rxErrors := s.mail.rxErrors ++ (if s.running && s.rx.asm != .skip then [.crc] else []) } ∧
      gains 0 s t ∧ Frame (withEnds [.rx, .mail]) nothing s t) ∧
  (∀ s : State, s.rx.asm = .hunt ∨ s.rx.quiet < 2 → exec .receiveClockLoss s = .next s) ∧
  (∀ (bytes : List Byte) (s : State), s.powered = true → s.rx.asm = .skip → skipComplete bytes = true →
    ∃ t, exec (.skipEnd bytes) s = .next t ∧ t.rx = { s.rx with asm := .hunt, shifter := [], quiet := 0 } ∧
      gains 0 s t ∧ Frame (withEnds [.rx]) nothing s t)

/-- R45, R46 and spec 3.6: the transmit shifter leaves KEYING after two ticks, IDLE again after the last bit
or cut at its slot's end, with PTT and TX_DATA. -/
def Obligations.TransmitShifter : Prop :=
  (∀ s : State, s.powered = true → s.tx.shifter = .keying → 2 ≤ s.tx.keyed →
    ∃ t, exec .keyingEnd s = .next t ∧ t.tx = { s.tx with shifter := .sending } ∧
      t.pins.ptt = true ∧ t.pins.txData = .frameBits ∧ gains 0 s t ∧ Frame (withEnds [.tx]) nothing s t) ∧
  (∀ s : State, s.powered = true → s.tx.shifter = .sending →
    ∃ t, exec .frameSent s = .next t ∧ t.tx = { s.tx with shifter := .idle } ∧
      t.pins.ptt = false ∧ t.pins.txData = .steady true ∧
      t.mail = { s.mail with sendReports := s.mail.sendReports ++ [.sent] } ∧ gains 0 s t ∧
      Frame (withEnds [.tx, .mail]) nothing s t) ∧
  (∀ s : State, s.powered = true → s.tx.shifter ≠ .idle → 10 ≤ s.tx.keyed →
    ∃ t, exec .slotEnd s = .next t ∧ t.tx = { s.tx with shifter := .idle } ∧
      t.pins.ptt = false ∧ t.pins.txData = .steady true ∧
      t.mail = { s.mail with sendReports := s.mail.sendReports ++ [.cut .slotEnd] } ∧ gains 0 s t ∧
      Frame (withEnds [.tx, .mail]) nothing s t)

/-! ### The Cycle Tracker -/

/-- R49 to R51, R54 to R61, R64, R66, R71, R79, R182 to R184: the Cycle Tracker takes a good beacon: the frame in
flight settled, the record and fleet time set, the Emergency Unit asked for a call, and one frame chosen by
these rules or none.  The generator advances once for the backoff, once for the retry and once for the slot,
in this order, where each is drawn.  That every delivery already made is taken before the choice is log
entry 12 (DEDUCED); whether the Link Quality Unit has taken its reports by then is free there.  That a pending
status is made before a report where an outcome removes an entry is the model's choice (log entry 44). -/
def Obligations.Beacon : Prop :=
  ∀ (h : HeldFrame) (fleet cycle secs interval slots : Nat) (acks : List Nat) (s : State),
    s.powered = true → s.trackerSound → heldForOwner s = some h →
    h.frame = .beacon fleet cycle secs interval slots acks →
    ∃ t, exec .beacon s = .next t ∧ releasedBy h s t ∧
      let outcome := if s.cycle.synced then beaconOutcome s.working.cab acks s.cycle.inFlight.phase
        else none
      let owner := s.cycle.inFlight.owner
      let ordinary := owner.isQueue
      let e := ticksFrom h.endInstant (s.time.seconds * 100 + s.time.phase)
      let missed := ordinary = true ∧ outcome = some .missed
      let run := min 255 (s.cycle.missRun + 1)
      -- R55, R58: the backoff draw
      let afterBackoff := if missed then advance s.cycle.lfsr else s.cycle.lfsr
      let skip := if missed then afterBackoff.toNat % 2 ^ min run 4 else s.cycle.skip
      -- R184: every call outcome delivered, then R182: the question, with the retry draw
      let unit := (s.mail.callOuts ++ (if ordinary then [] else outcome.toList)).foldl
        (fun u o => withCallOutcome o u) s.emergency
      let alerting := unit.kept.state = .alerting
      let afterRetry := if alerting ∧ unit.pacing = .retry then advance afterBackoff else afterBackoff
      let offered : Bool := match unit.kept.state, unit.pacing with
        | .idle, _ => false
        | .alerting, .ready => true
        | .alerting, .spacing _ => false
        | .alerting, .retry => afterRetry.getLsbD 0
        | .acknowledged, _ => unit.callDue
      let asked : EmergencyUnit := match unit.kept.state, unit.pacing with
        | .alerting, .spacing n => { unit with pacing := if n ≤ 1 then .ready else .spacing (n - 1) }
        | _, _ => unit
      -- R60, R61: the call first, then the head of the queue
      let called := offered = true ∧ s.supply.state = .ok
      let linkLets := t.link.state = .good ∨ t.link.state = .weak ∨
        (t.link.state = .degraded ∧ s.cycle.spacing = 3)
      let sends := ¬ called ∧ skip = 0 ∧ s.supply.state = .ok ∧ linkLets ∧ 1 ≤ slots ∧ t.queue.entries ≠ []
      let told : List LinkReport := s.mail.linkReports ++ (match outcome with
        | some .notSent => []
        | some .abandoned => []
        | some o => [.outcome ordinary o]
        | none => [])
      let taken := drainLinkReports told s
      let outs : List (Nat × FrameOutcome) := s.mail.queueOuts ++ (match outcome, owner with
        | some o, .queue id => [(id, o)]
        | _, _ => [])
      let turn := outs.foldl (QueueTurn.after (statusBytes t) t.cycle.fleet s) (.start s)
      -- R49, R50, R51 step 3
      t.cycle.synced = true ∧
      t.cycle.record = some
        { endInstant := h.endInstant, cycle := cycle, interval := interval, slots := slots } ∧
      t.cycle.fleet = { secs := (secs + e / 100) % 4294967296, centis := e % 100, valid := true } ∧
      t.cycle.missedRun = 0 ∧ t.cycle.deadline = some (instantAfter h.endInstant (15 * interval)) ∧
      -- R57: the miss run
      t.cycle.missRun = (if missed then run
        else if ordinary = true ∧ outcome = some .acknowledged then 0 else s.cycle.missRun) ∧
      -- R66, R84, R87: the reports to the Link Quality Unit, none of them or all of them taken
      ((t.mail.linkReports = told ∧ t.link = s.link ∧ gains 0 s t) ∨
        (t.mail.linkReports = [] ∧ t.link = taken.link ∧ gains 0 taken t)) ∧
      -- R71, R79, R182: every outcome made has been taken before the choice
      t.mail.queueOuts = [] ∧ t.mail.callOuts = [] ∧
      -- R75, R77, R79, R80: the outcomes that waited and then this beacon's own, at the queue and its makers
      t.queue = turn.queue ∧ t.note = turn.note ∧
      t.port.posCopy = (if called ∨ turn.taken = true then positionTaken s else s.port.posCopy) ∧
      t.mail.undelivered = turn.mail.undelivered ∧ t.mail.sendNotices = turn.mail.sendNotices ∧
      t.mail.reportsDone = turn.mail.reportsDone ∧
      -- R54 to R61, R71, R183: the choice
      (if called then
        t.cycle.inFlight = { phase := .chosen, owner := .call (callBytes t), slot := 0 } ∧
        t.cycle.lfsr = afterRetry ∧ t.cycle.spacing = min 3 (s.cycle.spacing + 1) ∧
        t.cycle.skip = skip - 1 ∧
        t.emergency = { asked with
          callSeq := min 65535 (asked.callSeq + 1)
          callInHand := true
          callDue := if asked.kept.state = .acknowledged then false else asked.callDue }
      else
        t.emergency = (if offered = true then { asked with lastCall := .notSent } else asked) ∧
        if sends then
          (∃ x, x ∈ t.queue.entries ∧ (∀ y ∈ t.queue.entries, x.kind.cls ≤ y.kind.cls) ∧
            t.queue.entries.find? (fun y => y.kind.cls == x.kind.cls) = some x ∧
            t.cycle.inFlight =
              { phase := .chosen, owner := .queue x.id, slot := 1 + (advance afterRetry).toNat % slots }) ∧
          t.cycle.lfsr = advance afterRetry ∧ t.cycle.spacing = 0 ∧ t.cycle.skip = 0
        else
          t.cycle.inFlight.phase = .none ∧ t.cycle.lfsr = afterRetry ∧
          t.cycle.spacing = min 3 (s.cycle.spacing + 1) ∧ t.cycle.skip = skip - 1) ∧
      t.mail.rxErrors = s.mail.rxErrors ∧ t.mail.sendReports = s.mail.sendReports ∧
      t.mail.marks = s.mail.marks ∧ t.mail.additions = s.mail.additions ∧
      t.mail.gateChanges = s.mail.gateChanges ∧ t.mail.lampChanges = s.mail.lampChanges ∧
      Frame (withEnds [.rx, .cycle, .queue, .note, .mail, .posCopy, .emergency, .link, .free]) nothing s t

/-- R52, R53, R65, R66: the supervision deadline reached while SYNCHRONISED. -/
def Obligations.BeaconMissed : Prop :=
  ∀ (d : Nat) (s : State), s.powered = true → s.cycle.synced = true → s.cycle.deadline = some d →
    reached d (s.time.seconds * 100 + s.time.phase) = true →
    ∃ t, exec .beaconMissed s = .next t ∧
      let run := min 3 (s.cycle.missedRun + 1)
      let interval := (s.cycle.record.map (·.interval)).getD 0
      let outcome := missOutcome s.cycle.inFlight.phase
      let told : List LinkReport := .beaconMissed :: (match outcome with
        | some (.missedUnjudged c) => [.outcome s.cycle.inFlight.owner.isQueue (.missedUnjudged c)]
        | _ => [])
      t.cycle.record = s.cycle.record ∧ t.cycle.fleet = s.cycle.fleet ∧ t.cycle.lfsr = s.cycle.lfsr ∧
      t.cycle.inFlight.phase = .none ∧
      t.mail = { s.mail with
        linkReports := t.mail.linkReports
        sendReports := t.mail.sendReports
        queueOuts := t.mail.queueOuts
        callOuts := t.mail.callOuts } ∧
      (match outcome, s.cycle.inFlight.owner with
       | some o, .queue id =>
         t.mail.queueOuts = s.mail.queueOuts ++ [(id, o)] ∧ t.mail.callOuts = s.mail.callOuts
       | some o, .call _ =>
         t.mail.callOuts = s.mail.callOuts ++ [o] ∧ t.mail.queueOuts = s.mail.queueOuts
       | none, _ => t.mail.queueOuts = s.mail.queueOuts ∧ t.mail.callOuts = s.mail.callOuts) ∧
      (if run = 3 then
        t.cycle.synced = false ∧ t.cycle.deadline = none ∧ t.cycle.missedRun = 0 ∧ t.cycle.skip = 0 ∧
        t.cycle.missRun = 0 ∧ t.cycle.spacing = 3 ∧ t.tx.shifter = .idle ∧
        t.mail.linkReports = s.mail.linkReports ++ told ++ [.syncLost] ∧
        t.mail.sendReports = s.mail.sendReports ++
          (if s.tx.shifter = .idle then [] else [.cut .search]) ∧
        Frame (withEnds [.cycle, .mail, .tx]) nothing s t
      else
        t.cycle.synced = true ∧ t.cycle.deadline = some (instantAfter d (10 * interval)) ∧
        t.cycle.missedRun = run ∧ t.cycle.skip = s.cycle.skip ∧ t.cycle.missRun = s.cycle.missRun ∧
        t.cycle.spacing = s.cycle.spacing ∧ t.mail.linkReports = s.mail.linkReports ++ told ∧
        t.mail.sendReports = s.mail.sendReports ∧ Frame (withEnds [.cycle, .mail]) nothing s t) ∧
      gains 0 s t

/-- R32, R44, R54, R62, R63, R66: the start of the chosen slot, with the bits of the frame sent spelled from the
preamble to the CRC (`sentBits`), and the Radio Port's report of a sending's end. -/
def Obligations.SlotStartAndSendReport : Prop :=
  (∀ (r : BeaconRecord) (s : State), s.powered = true → s.cycle.inFlight.phase = .chosen →
    s.cycle.record = some r →
    reached (instantAfter r.endInstant (20 + 10 * s.cycle.inFlight.slot))
      (s.time.seconds * 100 + s.time.phase) = true →
    ∃ t, exec .slotStart s = .next t ∧
      let refused := s.tx.shifter ≠ .idle ∨ s.supply.state = .low ∨ s.running = false ∨
        s.cycle.synced = false
      let sent (kind : Uplink) (payload : List Byte) : Prop :=
        t.cycle = { s.cycle with inFlight := { s.cycle.inFlight with phase := .onAir } } ∧
        t.tx = { shifter := .keying, frame := sentBits kind s.working.cab payload, keyed := 0 } ∧
        t.mail = s.mail ∧ t.pins.ptt = true ∧ t.pins.txData = .steady true
      match s.cycle.inFlight.owner with
      | .queue id =>
        (match s.queue.find id with
         | none =>
           t.cycle = { s.cycle with inFlight := {} } ∧ t.queue = s.queue ∧ t.tx = s.tx ∧ t.mail = s.mail
         | some x =>
           t.queue = s.queue.update id (fun y => { y with inFlight := true }) ∧
           (refused → t.cycle = { s.cycle with inFlight := {} } ∧ t.tx = s.tx ∧
             t.mail = { s.mail with queueOuts := s.mail.queueOuts ++ [(id, .notSent)] }) ∧
           (¬ refused → sent x.kind x.payload)) ∧
        gains 0 s t ∧ Frame (withEnds [.cycle, .queue, .tx, .mail]) nothing s t
      | .call payload =>
        (if s.emergency.kept.state = .idle then
           t.cycle = { s.cycle with inFlight := {} } ∧ t.tx = s.tx ∧ t.mail = s.mail
         else
           (refused → t.cycle = { s.cycle with inFlight := {} } ∧ t.tx = s.tx ∧
             t.mail = { s.mail with callOuts := s.mail.callOuts ++ [.notSent] }) ∧
           (¬ refused → sent .emergencyCall payload)) ∧
        gains 0 s t ∧ Frame (withEnds [.cycle, .tx, .mail]) nothing s t) ∧
  (∀ (r : SendReport) (rest : List SendReport) (s : State), s.powered = true →
    s.mail.sendReports = r :: rest →
    ∃ t, exec .sendReport s = .next t ∧ t.mail.sendReports = rest ∧
      let unjudged (c : MissCause) : Prop :=
        t.cycle = { s.cycle with inFlight := {} } ∧
        t.mail = { s.mail with
          sendReports := rest
          linkReports := s.mail.linkReports ++
            [.outcome s.cycle.inFlight.owner.isQueue (.missedUnjudged c)]
          queueOuts := s.mail.queueOuts ++ (match s.cycle.inFlight.owner with
            | .queue id => [(id, .missedUnjudged c)]
            | .call _ => [])
          callOuts := s.mail.callOuts ++ (match s.cycle.inFlight.owner with
            | .queue _ => []
            | .call _ => [.missedUnjudged c]) }
      (match s.cycle.inFlight.phase, r with
       | .onAir, .sent =>
         t.cycle = { s.cycle with inFlight := { s.cycle.inFlight with phase := .awaiting } } ∧
         t.mail = { s.mail with sendReports := rest }
       | .onAir, .cut .supply => unjudged .supply
       | .onAir, .cut .slotEnd => unjudged .slotEnd
       | _, _ => t.cycle = s.cycle ∧ t.mail = { s.mail with sendReports := rest }) ∧
      gains 0 s t ∧ Frame (withEnds [.cycle, .mail]) nothing s t)

/-! ### The Transmit Queue -/

/-- R75, R77, R79, R80: an outcome taken by the queue: the entry named removed, tried again or left with its
attempts, the status-pending mark resolved (with the rewriting of a status entry that stays), the Record Store
told of room, and the entry's maker told.  That the status is made before the report is the model's choice
(log entry 44). -/
def Obligations.QueueOutcome : Prop :=
  ∀ (id : Nat) (o : FrameOutcome) (rest : List (Nat × FrameOutcome)) (s : State), s.powered = true →
    s.mail.queueOuts = (id, o) :: rest →
    ∃ t, exec .queueOutcome s = .next t ∧
      (match s.queue.find id with
       | none => queueKept s t ∧ t.note = s.note ∧ t.mail = { s.mail with queueOuts := rest }
       | some e =>
         settledAfter s.cycle.fleet s.queue (withOutcome e o s.queue) s t ∧
         t.port.posCopy = positionAfter (withOutcome e o s.queue) s ∧
         t.mail = withTold e o { s.mail with queueOuts := rest }) ∧
      gains 0 s t ∧ Frame (withEnds [.queue, .mail, .note, .posCopy]) nothing s t

/-! ### The Link Quality Unit -/

/-- R84, R85, R87 to R92: what the Link Quality Unit takes from the Cycle Tracker and the Radio Port. -/
def Obligations.LinkReports : Prop :=
  (∀ (ofQueue : Bool) (o : FrameOutcome) (rest : List LinkReport) (s : State), s.powered = true →
    s.mail.linkReports = .outcome ofQueue o :: rest →
    ∃ t, exec .linkOutcome s = .next t ∧ t.mail = { s.mail with linkReports := rest } ∧
      linkNews s t ∧ Frame (withEnds [.mail, .link]) nothing s t ∧
      (if ofQueue = true ∧ o = .acknowledged then
        t.link = { s.link with
          ufc := if s.link.withdrawn then 255 else s.link.ufc - 1
          lastError := .none
          state := deriveLink (!s.running) t.link }
      else if ofQueue = true ∧ o = .missed then
        t.link = { s.link with
          ufc := if s.link.withdrawn ∨ 255 < s.link.ufc + 8 then 255 else s.link.ufc + 8
          withdrawn := s.link.withdrawn || decide (255 < s.link.ufc + 8)
          recovery := if s.link.withdrawn = false ∧ 255 < s.link.ufc + 8 then 0 else s.link.recovery
          log := if s.link.log < 255 then s.link.log + 1 else s.link.log
          overflowed := s.link.overflowed || decide (255 ≤ s.link.log)
          lastError := .noAck
          state := deriveLink (!s.running) t.link }
      else t.link = s.link)) ∧
  (let counted (e : LinkError) (s t : State) : Prop :=
    t.link = { s.link with
      dfc := min 255 (s.link.dfc + 1)
      log := if s.link.log < 255 then s.link.log + 1 else s.link.log
      overflowed := s.link.overflowed || decide (255 ≤ s.link.log)
      lastError := e
      state := deriveLink (!s.running) t.link } ∧
    linkNews s t ∧ Frame (withEnds [.mail, .link]) nothing s t
  (∀ (e : RxError) (rest : List RxError) (s : State), s.powered = true → s.mail.rxErrors = e :: rest →
    ∃ t, exec .receiveError s = .next t ∧ t.mail = { s.mail with rxErrors := rest } ∧
      counted (match e with
        | .crc => .crc
        | .length => .length
        | .kind => .kind
        | .overrun => .overrun) s t) ∧
  (∀ (rest : List LinkReport) (s : State), s.powered = true → s.mail.linkReports = .beaconMissed :: rest →
    ∃ t, exec .beaconMissedReport s = .next t ∧ t.mail = { s.mail with linkReports := rest } ∧
      counted .beaconMissed s t)) ∧
  (∀ (rest : List LinkReport) (s : State), s.powered = true → s.mail.linkReports = .syncLost :: rest →
    ∃ t, exec .syncLostReport s = .next t ∧ t.mail = { s.mail with linkReports := rest } ∧
      t.link = { s.link with
        searching := true, lastError := .syncLost, state := deriveLink (!s.running) t.link } ∧
      linkNews s t ∧ Frame (withEnds [.mail, .link]) nothing s t)

/-- R86, R88, R90, R91: the Link Quality Unit takes a good beacon. -/
def Obligations.BeaconAtLink : Prop :=
  ∀ (h : HeldFrame) (s : State), s.powered = true → s.rx.held = some h → h.forLink = true →
    ∃ t, exec .beaconAtLink s = .next t ∧
      t.rx = { s.rx with held := if h.forOwner then some { h with forLink := false } else none } ∧
      (let recovers := s.link.withdrawn = true ∧ s.link.recovery + 1 = 32
       t.link = { s.link with
        dfc := if recovers then 0 else s.link.dfc - 1
        ufc := if recovers then 0 else s.link.ufc
        searching := false
        recovery := if recovers then 0 else if s.link.withdrawn then s.link.recovery + 1
          else s.link.recovery
        withdrawn := if recovers then false else s.link.withdrawn
        lastError := if s.link.withdrawn then .recoveryStep else s.link.lastError
        state := deriveLink (!s.running) t.link }) ∧
      linkNews s t ∧ Frame (withEnds [.rx, .link]) nothing s t

/-! ### The Offer Manager -/

/-- R97, R102 to R107: JOB_OFFER.  That an ASSIGNED offer's entry holds the clamped deadline is log entry 19
(DESIGN CHOICE), and that its award wait is 0 until it is ACCEPTING is log entry 46 (DESIGN CHOICE). -/
def Obligations.JobOffer : Prop :=
  ∀ (h : HeldFrame) (number zone deadline estimate : Nat) (assigned account : Bool) (text : List Byte)
    (s : State), s.powered = true → s.queueSound → heldForOwner s = some h →
    h.frame = .jobOffer number zone deadline assigned account estimate text →
    ∃ t, exec .jobOffer s = .next t ∧ releasedBy h s t ∧
      let entry : OfferPlace :=
        { state := if h.directed && assigned then .awarded else .presented
          number := number
          origin := if h.directed then 1 else 2
          zone := zone
          assigned := assigned
          account := account
          deadline := max 5 (min 120 deadline)
          wait := 0
          estimate := estimate
          text := text
          arrival := h.stamp
          closing := {} }
      let ignored : Prop := t.offers = s.offers ∧ queueKept s t ∧ t.mail = s.mail ∧
        t.chime = s.chime ∧ gains 0 s t
      let answeredWith (reason : Nat) : Prop :=
        askedFor .jobDecline (laid 1 4 [(1, 2, number), (3, 1, reason)]) s t ∧ t.chime = s.chime
      let entered (j : Place) : Prop :=
        pick t.offers.places j = entry ∧ t.chime = { high := true, ticks := 20 } ∧ t.pins.chime = true ∧
        t.mail = { s.mail with additions :=
          s.mail.additions ++ (if h.directed && assigned then [.offerAccepted] else []) } ∧
        queueKept s t
      let busy := h.directed = true ∧ assigned = true ∧
        (s.fare.meter ≠ .vacant ∨ s.offers.anyTaken = true)
      (if (findOpen number s.offers).isSome = true ∨ jobStarted number s = true ∨
          (h.directed = false ∧ assigned = true) then ignored
       else if h.directed = false ∧ ¬ (s.fare.duty = .on ∧ s.fare.meter = .vacant ∧
          zone = s.offers.zone ∧ s.offers.gates = 0 ∧ s.offers.anyTaken = false) then ignored
       else if h.directed = true ∧ (s.offers.offDutyGate = true ∨ s.offers.baseSuspended = true ∨
          s.offers.emergencyGate = true) then
         answeredWith 4 ∧ t.offers = s.offers ∧ gains 0 s t
       else if busy then answeredWith 3 ∧ t.offers = s.offers ∧ gains 0 s t
       else
         match freePlace s.offers, displacedPlace s.offers with
         | some j, _ =>
           entered j ∧ t.offers = { s.offers with places := put s.offers.places j entry } ∧ gains 0 s t
         | none, d =>
           t.offers = { s.offers with
             places := t.offers.places, dropped := min 255 (s.offers.dropped + 1) } ∧
           gains News.dropped.mask s t ∧
           (if h.directed = true then
             match d with
             | some j => entered j ∧ t.offers.places = put s.offers.places j entry
             | none => answeredWith (if assigned then 3 else 4) ∧ t.offers.places = s.offers.places
           else t.offers.places = s.offers.places ∧ queueKept s t ∧ t.mail = s.mail ∧ t.chime = s.chime)) ∧
      Frame (withEnds [.rx, .offers, .queue, .mail, .chime, .posCopy]) nothing s t

/-- R112 to R115: JOB_AWARD and JOB_WITHDRAW.  That a pending status is made before a report at the removal of
the JOB_ACCEPT is the model's choice (log entry 44). -/
def Obligations.JobAwardAndWithdraw : Prop :=
  (∀ (h : HeldFrame) (number cab : Nat) (s : State), s.powered = true → s.Inv → s.queueSound →
    heldForOwner s = some h → h.frame = .jobAward number cab →
    ∃ t, exec .jobAward s = .next t ∧ releasedBy h s t ∧
      Frame (withEnds [.rx, .offers, .mail, .queue, .note, .posCopy]) (heldAcceptBytes s) s t ∧
      let unchanged : Prop := t.offers = s.offers ∧ queueKept s t ∧ t.note = s.note ∧ t.mail = s.mail ∧
        gains 0 s t
      let declined (reason : Nat) : Prop := askedFor .jobDecline (laid 1 4 [(1, 2, number), (3, 1, reason)]) s t ∧
        t.note = s.note
      let here : Prop := cab = s.working.cab
      match findOpen number s.offers with
      | none =>
        if here ∧ jobStarted number s = false then declined 2 ∧ t.offers = s.offers ∧ gains 0 s t
        else unchanged
      | some j =>
        let p := pick s.offers.places j
        let awarded : OfferPlace := { p with state := .awarded }
        let counted : Prop := t.mail = { s.mail with additions := s.mail.additions ++ [.offerAccepted] }
        (p.state = .accepting →
          if here then counted ∧ acceptanceEnded j awarded .awarded s t
          else t.mail = s.mail ∧ acceptanceEnded j (closedAs j .lost s) .lost s t) ∧
        (p.state = .presented →
          if here then
            if s.offers.anyTaken = true ∨ s.fare.meter ≠ .vacant then
              declined 3 ∧ placeSet j (closedAs j .cancelled s) s t ∧ gains 0 s t
            else placeSet j awarded s t ∧ counted ∧ queueKept s t ∧ t.note = s.note ∧ gains 0 s t
          else placeSet j (closedAs j .lost s) s t ∧ queueKept s t ∧ t.note = s.note ∧ t.mail = s.mail ∧
            gains 0 s t) ∧
        (p.state = .awarded → unchanged)) ∧
  (∀ (h : HeldFrame) (number : Nat) (s : State), s.powered = true → s.Inv → s.queueSound →
    heldForOwner s = some h → h.frame = .jobWithdraw number →
    ∃ t, exec .jobWithdraw s = .next t ∧ releasedBy h s t ∧
      Frame (withEnds [.rx, .offers, .mail, .queue, .note, .posCopy]) (heldAcceptBytes s) s t ∧
      match findOpen number s.offers with
      | none =>
        t.offers = s.offers ∧ queueKept s t ∧ t.note = s.note ∧ t.mail = s.mail ∧ gains 0 s t
      | some j =>
        t.mail = s.mail ∧
        if (pick s.offers.places j).state = .accepting then
          acceptanceEnded j (closedAs j .withdrawn s) .withdrawn s t
        else placeSet j (closedAs j .withdrawn s) s t ∧ queueKept s t ∧ t.note = s.note ∧ gains 0 s t)

/-- R101, R108, R111, R112: the timers of an offer, and an acceptance that the queue has given up.  That a
pending status is made before a report at the removal of the JOB_ACCEPT is the model's choice (log entry 44). -/
def Obligations.OfferExpiries : Prop :=
  (∀ (i : Place) (s : State), s.powered = true → s.Inv → s.running = true → s.queueSound →
    (pick s.offers.places i).state = .presented → (pick s.offers.places i).deadline = 0 →
    ∃ t, exec (.offerDeadlineExpiry i) s = .next t ∧
      let count := if s.offers.latch then s.offers.expiries else min 15 (s.offers.expiries + 1)
      let latches := s.offers.latch = false ∧ s.working.countOut ≠ 0 ∧ s.working.countOut ≤ count
      t.offers = { s.offers with
        places := t.offers.places, expiries := count, latch := s.offers.latch || decide latches } ∧
      (∀ j : Place, pick t.offers.places j =
        if j = i then closedAs i .expired s
        else if latches ∧ (pick s.offers.places j).presentedZone = true then closedAs j .cancelled s
        else pick s.offers.places j) ∧
      t.mail = { s.mail with additions := s.mail.additions ++ [.offerExpired] } ∧
      (if latches then statusPlaced s.queue s t else queueKept s t) ∧ t.boardsShown ∧ gains 0 s t ∧
      Frame (withEnds [.offers, .mail, .queue, .posCopy]) nothing s t) ∧
  (∀ (i : Place) (s : State), s.powered = true → s.Inv → s.queueSound →
    (pick s.offers.places i).state = .accepting → (pick s.offers.places i).wait = 0 →
    ∃ t, exec (.awardWaitExpiry i) s = .next t ∧
      acceptanceEnded i (closedAs i .unanswered s) .unanswered s t ∧
      Frame (withEnds [.offers, .queue, .note, .posCopy]) (heldAcceptBytes s) s t) ∧
  (∀ (n : Nat) (rest : List Nat) (s : State), s.powered = true → s.Inv → s.queueSound →
    s.mail.undelivered = n :: rest →
    ∃ t, exec .acceptUndelivered s = .next t ∧ t.mail = { s.mail with undelivered := rest } ∧
      (∀ j, findOpen n s.offers = some j → (pick s.offers.places j).state = .accepting →
        acceptanceEnded j (closedAs j .unanswered s) .unanswered s t) ∧
      ((∀ j, findOpen n s.offers = some j → (pick s.offers.places j).state ≠ .accepting) →
        t.offers = s.offers ∧ queueKept s t ∧ t.note = s.note ∧ gains 0 s t) ∧
      Frame (withEnds [.offers, .mail, .queue, .note, .posCopy]) (heldAcceptBytes s) s t)

/-- R101, R118: CAB_SUSPEND, CAB_RESUME and the expiry of the base suspension. -/
def Obligations.BaseSuspension : Prop :=
  let ended (s t : State) : Prop :=
    t.offers = { s.offers with
      baseSuspended := false
      baseTimer := { running := false, left := 0 } } ∧
    (if s.running = true then statusPlaced s.queue s t ∧ t.boardsShown else queueKept s t) ∧
    t.lampShows ∧ gains 0 s t
  (∀ (h : HeldFrame) (reason minutes : Nat) (s : State), s.powered = true → s.queueSound →
    heldForOwner s = some h →
    h.frame = .cabSuspend reason minutes →
    ∃ t, exec .cabSuspend s = .next t ∧ releasedBy h s t ∧
      t.offers = { s.offers with
        places := t.offers.places
        baseReason := reason
        baseTimer := { running := minutes * 60 != 0, left := minutes * 60 }
        baseSuspended := true } ∧
      (if s.offers.baseSuspended = true then t.offers.places = s.offers.places ∧ queueKept s t
       else cancelled OfferPlace.presented s t ∧
        if s.running = true then statusPlaced s.queue s t else queueKept s t) ∧
      t.lampShows ∧ gains 0 s t ∧
      Frame (withEnds [.rx, .offers, .queue, .posCopy]) nothing s t) ∧
  (∀ (h : HeldFrame) (s : State), s.powered = true → s.Inv → s.queueSound → heldForOwner s = some h →
    h.frame = .cabResume →
    ∃ t, exec .cabResume s = .next t ∧ releasedBy h s t ∧
      (if s.offers.baseSuspended = true then ended s t
       else t.offers = s.offers ∧ queueKept s t ∧ gains 0 s t) ∧
      Frame (withEnds [.rx, .offers, .queue, .posCopy]) nothing s t) ∧
  (∀ s : State, s.powered = true → s.Inv → s.queueSound → s.offers.baseSuspended = true →
    s.offers.baseTimer.running = true → s.offers.baseTimer.left = 0 →
    ∃ t, exec .baseSuspensionExpiry s = .next t ∧ ended s t ∧
      Frame (withEnds [.offers, .queue, .posCopy]) nothing s t)

/-! ### The Message Manager -/

/-- R162 to R167, R169, R170, R172: BASE_MESSAGE, the expiry of the reminder and the completion of a held
send.  That the bytes of the slot behind the text are 0 is log entry 17 (DESIGN CHOICE), and that the reminder
starts from the interval as it stands is log entry 48 (DESIGN CHOICE). -/
def Obligations.MessageEvents : Prop :=
  (∀ (h : HeldFrame) (number sender : Nat) (receipt urgent : Bool) (text : List Byte) (s : State),
    s.powered = true → s.Inv → s.queueSound → heldForOwner s = some h →
    h.frame = .baseMessage number receipt urgent sender text →
    ∃ t, exec .baseMessage s = .next t ∧ releasedBy h s t ∧
      let answered_ : Prop := if h.directed = true then askedFor .msgDelivered (laid 1 3 [(1, 2, number)]) s t
        else queueKept s t ∧ t.mail = s.mail
      (if s.msgs.knows number = true then
        t.msgs = s.msgs ∧ answered_ ∧ t.chime = s.chime ∧ gains 0 s t ∧
        Frame (withEnds [.rx, .queue, .mail, .posCopy]) nothing s t
      else
        match freeBox s.ram with
        | some i =>
          Memory.read t.ram (boxBase i) 2 = handWord handApp ∧
          Memory.read t.ram (boxBase i + 2) 70 =
            le 2 s.msgs.nextArrival ++ le 2 number ++
            [byte (if h.directed then 1 else 2), byte (receipt.toNat + 2 * urgent.toNat), byte sender,
              byte text.length] ++ h.stamp.bytes ++ padTo 56 text ∧
          t.msgs = { s.msgs with
            nextArrival := if s.msgs.nextArrival < 65535 then s.msgs.nextArrival + 1 else 1
            boxes := put s.msgs.boxes i
              { held := true, number := number, receipt := receipt, urgent := urgent,
                directed := h.directed }
            recent := (if s.msgs.recent.length < 16 then s.msgs.recent else s.msgs.recent.drop 1) ++
              [number]
            reminder := if anyBoxAtApp s.ram then s.msgs.reminder
              else { running := s.working.reminder != 0, left := s.working.reminder } } ∧
          answered_ ∧ t.chime = (if urgent then { high := true, ticks := 20 } else s.chime) ∧
          gains News.message.mask s t ∧
          Frame (withEnds [.rx, .msgs, .queue, .mail, .posCopy, .chime]) (bytesAt (boxBase i) 96) s t
        | none =>
          t.chime = s.chime ∧ Frame (withEnds [.rx, .msgs, .queue, .posCopy]) nothing s t ∧
          if h.directed = true then
            t.msgs = { s.msgs with rnr := true } ∧ gains 0 s t ∧
            (if s.msgs.rnr = false ∧ s.running = true then statusPlaced s.queue s t else queueKept s t)
          else
            t.msgs = { s.msgs with dropped := min 255 (s.msgs.dropped + 1) } ∧
            gains News.dropped.mask s t ∧ queueKept s t)) ∧
  (∀ s : State, s.powered = true → s.msgs.reminder.running = true → s.msgs.reminder.left = 0 →
    ∃ t, exec .reminderExpiry s = .next t ∧
      t.msgs = { s.msgs with
        reminder := { running := s.working.reminder != 0, left := s.working.reminder } } ∧
      t.chime = { high := true, ticks := 20 } ∧ t.pins.chime = true ∧ gains News.reminder.mask s t ∧
      Frame (withEnds [.msgs, .chime]) nothing s t) ∧
  (∀ (n : SendNotice) (rest : List SendNotice) (s : State), s.powered = true → s.Inv →
    s.mail.sendNotices = n :: rest →
    ∃ t, exec .heldSendCompletion s = .next t ∧ t.mail = { s.mail with sendNotices := rest } ∧
      let send : HeldSend := { slot := n.slot, seq := n.seq }
      if send ∈ s.msgs.sends then
        t.msgs = { s.msgs with sends := s.msgs.sends.erase send } ∧
        (heldByCtl s.ram (requestBase n.slot) = true →
          completed n.slot (if n.done then .done else .undelivered) n.seq s.cycle.fleet t ∧
          gains News.reqDone.mask s t) ∧
        Frame (withEnds [.msgs, .mail]) (outcomeBytes n.slot) s t
      else t.msgs = s.msgs ∧ gains 0 s t ∧ Frame (withEnds [.mail]) nothing s t)

/-! ### The Emergency Unit -/

/-- R101, R180, R181, R186: EMERGENCY_ACK and EMERGENCY_CLEAR. -/
def Obligations.EmergencyAckAndClear : Prop :=
  (∀ (h : HeldFrame) (s : State), s.powered = true → heldForOwner s = some h → h.frame = .emergencyAck →
    ∃ t, exec .emergencyAck s = .next t ∧ releasedBy h s t ∧
      (if s.emergency.kept.state = .alerting then
        t.emergency = { s.emergency with
          kept := { s.emergency.kept with state := .acknowledged }
          ackStamp := some h.stamp
          pacing := .ready
          callDue := false
          tracking := { running := s.working.tracking != 0, left := s.working.tracking } } ∧
        gains News.emergency.mask s t
      else t.emergency = s.emergency ∧ gains 0 s t) ∧
      Frame (withEnds [.rx, .emergency]) nothing s t) ∧
  (∀ (h : HeldFrame) (s : State), s.powered = true → heldForOwner s = some h → h.frame = .emergencyClear →
    ∃ t, exec .emergencyClear s = .next t ∧ releasedBy h s t ∧
      (if s.emergency.kept.state = .idle then
        t.emergency = s.emergency ∧ t.chime = s.chime ∧ t.mail = s.mail ∧ gains 0 s t
      else
        t.emergency = { s.emergency with
          kept := { s.emergency.kept with state := .idle }
          tracking := { running := false, left := 0 }
          pacing := .ready
          callDue := false
          callInHand := false } ∧
        t.chime = { high := true, ticks := 20 } ∧
        t.mail = { s.mail with
          gateChanges := s.mail.gateChanges ++ [false], lampChanges := s.mail.lampChanges ++ [false] } ∧
        gains News.emergency.mask s t) ∧
      Frame (withEnds [.rx, .emergency, .chime, .mail]) nothing s t)

/-- R176 to R178, R186: the samples of EMG_N and the debounced falling edge. -/
def Obligations.EmergencyInput : Prop :=
  (∀ (low : Bool) (s : State), s.powered = true → 0 < s.due.inputSamples →
    ¬ (low = true ∧ edgeNext s.emergency = true) →
    ∃ t, exec (.emergencyInputSample low) s = .next t ∧
      t.emergency = (match s.emergency.debounce, low with
        | .released, true => { s.emergency with
            period := s.working.debounce, debounce := .timing (s.working.debounce - 1) }
        | .timing n, true => { s.emergency with debounce := .timing (n - 1) }
        | .held, true => s.emergency
        | _, false => { s.emergency with debounce := .released }) ∧
      t.due = { s.due with inputSamples := s.due.inputSamples - 1 } ∧ gains 0 s t ∧
      Frame (withEnds [.emergency, .due]) nothing s t) ∧
  (∀ (n : Nat) (s : State), s.powered = true → s.Inv → 0 < s.due.inputSamples →
    s.emergency.debounce = .timing n → n ≤ 1 →
    ∃ t, exec .debouncedFallingEdge s = .next t ∧ exec (.emergencyInputSample true) s = .next t ∧
      t.emergency.debounce = .held ∧ t.emergency.period = s.emergency.period ∧
      t.due = { s.due with inputSamples := s.due.inputSamples - 1 } ∧
      (if s.emergency.kept.state = .idle then
        emergencyBegun .switch s t ∧ gains News.emergency.mask s t
      else
        t.emergency = { s.emergency with
          debounce := .held, repeats := min 255 (s.emergency.repeats + 1) } ∧
        t.mail = s.mail ∧ countUp emergencyBase s t ∧ gains 0 s t) ∧
      Frame (withEnds [.emergency, .due, .mail]) nothing s t)

/-- R139, R151, R186, R187: what other blocks have handed the Fare Meter, and the event in which one neighbour
takes a change of the emergency state: the Offer Manager, the Fare Meter or the lamp, whichever the free order
picks of those that have it still to take, and any of them may be picked.  That the Fare Meter's part is the mark
and the count that still wait is log entry 15 (DEDUCED); in CONFIG the parts are taken as in RUNNING (log entry
35, DEDUCED). -/
def Obligations.HandedToNeighbours : Prop :=
  (∀ (m : Mark) (rest : List Mark) (s : State), s.powered = true → s.Inv → s.mail.marks = m :: rest →
    ∃ t, exec .markEvent s = .next t ∧ t.mail = { s.mail with marks := rest } ∧ gains 0 s t ∧
      (if s.fare.meter = .vacant then t.fare = s.fare
       else
        t.fare = { s.fare with trip := { s.fare.trip with marks := s.fare.trip.marks.add m } } ∧
        countUp meterBase s t ∧ t.blocksShown) ∧
      Frame (withEnds [.mail, .fare]) nothing s t) ∧
  (∀ (a : Addition) (rest : List Addition) (s : State), s.powered = true → s.mail.additions = a :: rest →
    ∃ t, exec .shiftTotalAddition s = .next t ∧ t.mail = { s.mail with additions := rest } ∧ gains 0 s t ∧
      (let x := s.fare.totals
       t.fare = if s.fare.duty = .off then s.fare else
        match a with
        | .offerAccepted => { s.fare with totals := { x with accepted := x.accepted.add 65535 1 } }
        | .offerExpired => { s.fare with totals := { x with expired := x.expired.add 65535 1 } }
        | .emergency => { s.fare with totals := { x with emergencies := x.emergencies.add 255 1 } }) ∧
      Frame (withEnds [.mail, .fare]) nothing s t) ∧
  (∀ s : State, s.powered = true → s.Inv →
    (s.mail.gateChanges ≠ [] ∨ Mark.emergency ∈ s.mail.marks ∨ Addition.emergency ∈ s.mail.additions ∨
      s.mail.lampChanges ≠ []) →
    ∃ (n : Neighbour) (t : State), exec .emergencyStateChange s = .next t ∧ gains 0 s t ∧
      nextNeighbour (Config.freeNeighbour s.free) s.mail.waiting = some n ∧
      match n with
      | .offerManager =>
        ∃ leaving rest, s.mail.gateChanges = leaving :: rest ∧ t.mail = { s.mail with gateChanges := rest } ∧
          t.offers = { s.offers with places := t.offers.places, emergencyGate := leaving } ∧
          (if leaving = true then cancelled OfferPlace.presented s t else t.offers.places = s.offers.places) ∧
          Frame (withEnds [.mail, .offers, .free]) nothing s t
      | .fareMeter =>
        (Mark.emergency ∈ s.mail.marks ∨ Addition.emergency ∈ s.mail.additions) ∧
          t.mail = { s.mail with
            marks := s.mail.marks.erase .emergency
            additions := s.mail.additions.erase .emergency } ∧
          (let marked := Mark.emergency ∈ s.mail.marks ∧ s.fare.meter ≠ .vacant
           t.fare = { s.fare with
            trip := if marked then { s.fare.trip with marks := { s.fare.trip.marks with emergency := true } }
              else s.fare.trip
            totals := if Addition.emergency ∈ s.mail.additions ∧ s.fare.duty = .on then
                { s.fare.totals with emergencies := s.fare.totals.emergencies.add 255 1 }
              else s.fare.totals } ∧
           (marked → countUp meterBase s t)) ∧ t.blocksShown ∧
          Frame (withEnds [.mail, .fare, .free]) nothing s t
      | .lamp =>
        ∃ leaving rest, s.mail.lampChanges = leaving :: rest ∧ t.mail = { s.mail with lampChanges := rest } ∧
          t.lampTaken = (s.running && s.working.lampSignal && s.emergency.kept.state != .idle) ∧ t.lampShows ∧
          Frame (withEnds [.mail, .lampTaken, .free]) nothing s t) ∧
  (∀ (m : Mail) (n : Neighbour),
    (∃ k, nextNeighbour k m.waiting = some n) ↔
      match n with
      | .offerManager => m.gateChanges ≠ []
      | .fareMeter => Mark.emergency ∈ m.marks ∨ Addition.emergency ∈ m.additions
      | .lamp => m.lampChanges ≠ [])

/-- R184, R185: the outcome of a call, and the expiry of the tracking timer. -/
def Obligations.CallOutcomeAndTracking : Prop :=
  (∀ (o : FrameOutcome) (rest : List FrameOutcome) (s : State), s.powered = true → s.Inv →
    s.mail.callOuts = o :: rest →
    ∃ t, exec .callOutcome s = .next t ∧ t.mail = { s.mail with callOuts := rest } ∧
      (if s.emergency.callInHand = true then
        t.emergency = { s.emergency with
          callInHand := false
          lastCall := match o with
            | .acknowledged => .acknowledged
            | .missed => .missed
            | .missedUnjudged _ => .missedUnjudged
            | .notSent => .notSent
            | .abandoned => .abandoned
          pacing := if s.emergency.kept.state = .alerting then
              match o with
              | .acknowledged => .spacing 3
              | .missed => .retry
              | .missedUnjudged _ => .retry
              | .notSent => s.emergency.pacing
              | .abandoned => .ready
            else s.emergency.pacing
          callDue := s.emergency.callDue ||
            (s.emergency.kept.state == .acknowledged && (o == .notSent || o == .abandoned)) } ∧
        countUp emergencyBase s t ∧ t.blocksShown
      else t.emergency = s.emergency) ∧
      gains 0 s t ∧ Frame (withEnds [.mail, .emergency]) nothing s t) ∧
  (∀ s : State, s.powered = true → s.emergency.kept.state = .acknowledged →
    s.emergency.tracking.running = true → s.emergency.tracking.left = 0 →
    ∃ t, exec .trackingTimerExpiry s = .next t ∧
      t.emergency = { s.emergency with
        callDue := true
        tracking := { running := s.working.tracking != 0, left := s.working.tracking } } ∧
      gains 0 s t ∧ Frame (withEnds [.emergency]) nothing s t)

/-! ### The Fare Meter -/

/-- R124, R128, R129, R131, R140, R153: a meter tick, in SINGLE and in DOUBLE mode. -/
def Obligations.MeterTick : Prop :=
  ∀ s : State, s.powered = true → s.Inv → 0 < s.due.meterTicks →
    ∃ t, exec .meterTick s = .next t ∧
      t.due = { s.due with meterTicks := s.due.meterTicks - 1 } ∧
      (let u := s.fare.trip
       let p := u.par.tariff
       let threshold := 10 * (if u.timeRunning then p.ut else p.t0)
       let counted : Trip := { u with ticks := min 4294967295 (u.ticks + 1), atime := u.atime + 1 }
       let emptied : Trip := { counted with atime := 0, adist := if p.mode = 1 then u.adist else 0 }
       let charged : Trip := { emptied with
        fare := min 999999 (u.fare + p.amount)
        increments := min 4294967295 (u.increments + 1)
        marks := { u.marks with
          saturated := u.marks.saturated || min 999999 (u.fare + p.amount) == 999999 } }
       let begun : Trip := { emptied with
        timeRunning := true, distRunning := u.distRunning || decide (p.mode ≠ 1) }
       t.fare = { s.fare with
        trip := if s.fare.meter ≠ .hired then u
          else if u.atime + 1 ≠ threshold then counted
          else if u.timeRunning then charged
          else begun }) ∧
      shownFields meterBase 62 t.ram = t.meterFields ∧ shownFields shiftBase 44 t.ram = t.shiftFields ∧
      gains 0 s t ∧ Frame (withEnds [.due, .fare]) nothing s t

/-- R124, R127, R129, R130, R133, R134, R152: a distance pulse, and the start of a window of the pulse
limiter. -/
def Obligations.DistancePulseAndWindow : Prop :=
  (∀ s : State, s.powered = true → s.running = true →
    ∃ t, exec .distancePulse s = .next t ∧
      (let u := s.fare.trip
       let p := u.par.tariff
       let threshold := (if u.distRunning then p.ud else p.d0) * u.par.k
       let counted : Trip := { u with pulses := min 4294967295 (u.pulses + 1), adist := u.adist + 1000 }
       let reduced : Trip := { counted with
        adist := u.adist + 1000 - threshold, atime := if p.mode = 1 then u.atime else 0 }
       let charged : Trip := { reduced with
        fare := min 999999 (u.fare + p.amount)
        increments := min 4294967295 (u.increments + 1)
        marks := { u.marks with
          saturated := u.marks.saturated || min 999999 (u.fare + p.amount) == 999999 } }
       let begun : Trip := { reduced with
        distRunning := true, timeRunning := u.timeRunning || decide (p.mode ≠ 1) }
       let clampedTrip : Trip := { u with
        clamped := min 4294967295 (u.clamped + 1), marks := { u.marks with clamped := true } }
       let unclamped := s.limiter.window + 1 ≤ s.limiter.limit
       let k := kInForce s.fare s.settings.working
       let counts := s.fare.duty = .on ∧ unclamped
       let metre := counts ∧ k ≤ s.limiter.remainder + 1000
       t.fare = { s.fare with
        trip := if s.fare.duty = .off then u
          else if unclamped then
            if s.fare.meter ≠ .hired then u
            else if u.adist + 1000 < threshold then counted
            else if u.distRunning then charged
            else begun
          else if s.fare.meter = .vacant then u
          else clampedTrip
        totals := if metre then
            { s.fare.totals with totalDist := s.fare.totals.totalDist.add 4294967295 1 }
          else s.fare.totals } ∧
       t.limiter = { s.limiter with
        window := s.limiter.window + 1
        remainder := if metre then s.limiter.remainder + 1000 - k
          else if counts then s.limiter.remainder + 1000
          else s.limiter.remainder }) ∧
      gains 0 s t ∧ Frame (withEnds [.fare, .limiter]) nothing s t) ∧
  (∀ s : State, s.running = false → exec .distancePulse s = .next s) ∧
  (∀ s : State, s.powered = true → 0 < s.due.windows →
    ∃ t, exec .limiterWindowStart s = .next t ∧
      t.due = { s.due with windows := s.due.windows - 1 } ∧
      t.limiter.window = 0 ∧ t.limiter.remainder = s.limiter.remainder ∧
      (let product := kInForce s.fare s.settings.working * vmaxInForce s.fare s.settings.working
       product ≤ 3600 * t.limiter.limit ∧ 3600 * t.limiter.limit < product + 3600) ∧
      gains 0 s t ∧ Frame (withEnds [.due, .limiter]) nothing s t)

/-! ### The Supply Monitor and the time base -/

/-- R191 to R193: a sample of the cab supply.  That at a change of state the Exchange Port and the Radio Port have
taken their parts when the sample ends, while the Fare Meter's mark still waits, is log entry 50 (DESIGN CHOICE):
R193 gives no order among the three. -/
def Obligations.SupplySample : Prop :=
  ∀ (vsup : Nat) (s : State), s.powered = true → 0 < s.due.supplySamples →
    ∃ t, exec (.supplySample vsup) s = .next t ∧
      t.due = { s.due with supplySamples := s.due.supplySamples - 1 } ∧
      (let x := min 255 vsup
       let threshold := 80 + 3 * s.working.supplyCode
       let p := s.supply
       let deeper := min p.runLowest x
       let low := x < threshold
       let high := threshold + 6 ≤ x
       if p.state = .ok ∧ low ∧ 3 ≤ p.lowRun + 1 then
        t.supply = { state := .low, lowRun := 0, highRun := 0, runLowest := 255, lowest := deeper } ∧
        t.tx = { s.tx with shifter := .idle } ∧ t.pins.ptt = false ∧
        t.mail = { s.mail with
          sendReports := s.mail.sendReports ++ (if s.tx.shifter = .idle then [] else [.cut .supply])
          marks := s.mail.marks ++ [.supplyDip] } ∧
        gains News.supply.mask s t
       else if p.state = .low ∧ high ∧ 10 ≤ p.highRun + 1 then
        t.supply = { state := .ok, lowRun := 0, highRun := 0, runLowest := 255, lowest := deeper } ∧
        t.tx = s.tx ∧ t.mail = s.mail ∧ gains News.supply.mask s t
       else
        t.supply = { p with
          lowRun := if p.state = .low then p.lowRun else if low then p.lowRun + 1 else 0
          highRun := if p.state = .ok then p.highRun else if high then p.highRun + 1 else 0
          runLowest := if (p.state = .ok ∧ low) ∨ (p.state = .low ∧ high) then deeper else 255
          lowest := min p.lowest x } ∧
        t.tx = s.tx ∧ t.mail = s.mail ∧ gains 0 s t) ∧
      Frame (withEnds [.supply, .due, .tx, .mail]) nothing s t

/-- R41, R45, R48, R49, R100, R128, R133, R141, R176, R191: a tick of the time base, and the end of a chime pulse.
The due counts that a tick raises are the model's choice (log entry 13); that none fall due at the Fare Meter
in CONFIG is log entry 36 (DEDUCED), and the Radio Port's count of silent ticks log entry 43. -/
def Obligations.TimeBaseTickAndChimeEnd : Prop :=
  (∀ s : State, s.powered = true → s.time.phase ≤ 99 → s.cycle.fleet.centis ≤ 99 →
    ∃ t, exec .timeBaseTick s = .next t ∧
      let phase := (s.time.phase + 1) % 100
      let second := phase = 0
      t.time = { phase := phase
                 seconds := if second then (s.time.seconds + 1) % 4294967296 else s.time.seconds } ∧
      t.cycle = { s.cycle with
        fleet :=
          { secs := if s.cycle.fleet.centis = 99 then (s.cycle.fleet.secs + 1) % 4294967296
              else s.cycle.fleet.secs
            centis := (s.cycle.fleet.centis + 1) % 100
            valid := s.cycle.fleet.valid } } ∧
      t.chime = { s.chime with ticks := s.chime.ticks - 1 } ∧
      t.tx = (if s.tx.shifter = .idle then s.tx else { s.tx with keyed := s.tx.keyed + 1 }) ∧
      t.rx = (if s.rx.asm = .hunt then s.rx else { s.rx with quiet := min 2 (s.rx.quiet + 1) }) ∧
      t.due =
        { inputSamples := s.due.inputSamples + 1
          supplySamples := if phase % 10 = 0 then s.due.supplySamples + 1 else s.due.supplySamples
          meterTicks := if s.running = true ∧ phase % 10 = 0 then s.due.meterTicks + 1
            else s.due.meterTicks
          windows := if s.running = true ∧ second then s.due.windows + 1 else s.due.windows } ∧
      (let down (r : Timer) : Timer := if second ∧ r.running = true then { r with left := r.left - 1 } else r
       t.queue = { s.queue with timer := down s.queue.timer } ∧
       t.msgs = { s.msgs with reminder := down s.msgs.reminder } ∧
       t.emergency = { s.emergency with tracking := down s.emergency.tracking } ∧
       t.offers = { s.offers with places := t.offers.places, baseTimer := down s.offers.baseTimer }) ∧
      (∀ j : Place, pick t.offers.places j =
        let p := pick s.offers.places j
        if second ∧ p.state = .presented then { p with deadline := p.deadline - 1 }
        else if second ∧ p.state = .accepting then { p with wait := p.wait - 1 }
        else p) ∧
      t.lampShows ∧ gains 0 s t ∧
      Frame (withEnds [.time, .cycle, .chime, .rx, .tx, .due, .queue, .msgs, .emergency, .offers]) nothing s t) ∧
  (∀ s : State, s.powered = true → s.chime.high = true → s.chime.ticks = 0 →
    ∃ t, exec .chimePulseEnd s = .next t ∧ t.chime = { high := false, ticks := 0 } ∧
      t.pins.chime = false ∧ gains 0 s t ∧ Frame (withEnds [.chime]) nothing s t)
end

