-- ==== Sys2Proof/Laws/Memory.lean ====
section
/-! SUPPORT. The exchange RAM: reading after writing, writing elsewhere, and that every operation keeps the
canonical form. -/

namespace Sys2Proof.Machine

@[simp] theorem Memory.get_nil (a : Nat) : Memory.get [] a = unlistedByte := rfl

theorem Memory.get_cons (k : Nat) (b : Byte) (m : Memory) (a : Nat) :
    Memory.get ((k, b) :: m) a = if k = a then b else Memory.get m a := rfl

/-- Below the offsets of a list every byte is the unlisted one. -/
theorem Memory.get_below {lo : Nat} {m : Memory} (h : Memory.wfAbove lo m = true) {a : Nat}
    (ha : a < lo) : Memory.get m a = unlistedByte := by
  induction m generalizing lo with
  | nil => rfl
  | cons c m ih =>
    obtain ⟨k, b⟩ := c
    simp only [Memory.wfAbove, Bool.and_eq_true, decide_eq_true_eq] at h
    rw [Memory.get_cons, if_neg (by omega)]
    exact ih h.2 (by omega)

theorem Memory.wfAbove_mono {lo lo' : Nat} {m : Memory} (h : Memory.wfAbove lo m = true) (hl : lo' ≤ lo) :
    Memory.wfAbove lo' m = true := by
  cases m with
  | nil => rfl
  | cons c m =>
    obtain ⟨k, b⟩ := c
    simp only [Memory.wfAbove, Bool.and_eq_true, decide_eq_true_eq] at h ⊢
    exact ⟨⟨by omega, h.1.2⟩, h.2⟩

theorem Memory.wfAbove_set {lo : Nat} {m : Memory} (h : Memory.wfAbove lo m = true) {a : Nat} (b : Byte)
    (ha : lo ≤ a) : Memory.wfAbove lo (Memory.set m a b) = true := by
  induction m generalizing lo with
  | nil =>
    unfold Memory.set
    split
    · rfl
    · simp [Memory.wfAbove, *]
  | cons c m ih =>
    obtain ⟨k, c⟩ := c
    simp only [Memory.wfAbove, Bool.and_eq_true, decide_eq_true_eq] at h
    unfold Memory.set
    split
    · split
      · simp [Memory.wfAbove, h]
      · rename_i hlt hb
        have := Nat.succ_le_of_lt hlt
        simp [Memory.wfAbove, h, ha, hb]
        omega
    · split
      · split
        · exact wfAbove_mono h.2 (by omega)
        · rename_i hb
          simp [Memory.wfAbove, h, hb]
      · simp only [Memory.wfAbove, Bool.and_eq_true, decide_eq_true_eq]
        exact ⟨h.1, ih h.2 (by omega)⟩

/-- A byte written keeps the canonical form. -/
theorem Memory.wf_set {m : Memory} (h : m.wf = true) (a : Nat) (b : Byte) :
    Memory.wf (Memory.set m a b) = true := wfAbove_set h b (Nat.zero_le a)

/-- Bytes written keep the canonical form. -/
theorem Memory.wf_write {m : Memory} (h : m.wf = true) (a : Nat) (bs : List Byte) :
    Memory.wf (Memory.write m a bs) = true := by
  induction bs generalizing m a with
  | nil => exact h
  | cons b bs ih => exact ih (wf_set h a b) (a + 1)

/-- Another byte than the one written reads as before, in any list. -/
theorem Memory.get_set_other (m : Memory) (a a' : Nat) (b : Byte) (h : a' ≠ a) :
    Memory.get (Memory.set m a b) a' = Memory.get m a' := by
  induction m with
  | nil =>
    unfold Memory.set
    split
    · rfl
    · rw [get_cons, if_neg (Ne.symm h)]
  | cons c m ih =>
    obtain ⟨k, c⟩ := c
    unfold Memory.set
    split
    · split
      · rfl
      · rw [get_cons, if_neg (Ne.symm h)]
    · split
      · rename_i hk
        subst hk
        split
        · rw [get_cons, if_neg (Ne.symm h)]
        · simp [get_cons, Ne.symm h]
      · rw [get_cons, get_cons, ih]

/-- The byte written reads back, in a list of canonical form. -/
theorem Memory.get_set_same {lo : Nat} {m : Memory} (hm : Memory.wfAbove lo m = true) (a : Nat) (b : Byte) :
    Memory.get (Memory.set m a b) a = b := by
  induction m generalizing lo with
  | nil =>
    unfold Memory.set
    split
    · simp [*]
    · simp [get_cons]
  | cons c m ih =>
    obtain ⟨k, c⟩ := c
    simp only [Memory.wfAbove, Bool.and_eq_true, decide_eq_true_eq] at hm
    unfold Memory.set
    split
    · split
      · rename_i hk hb
        rw [get_cons, if_neg (by omega), get_below hm.2 (by omega), hb]
      · simp [get_cons]
    · split
      · rename_i hk
        split
        · rename_i hb
          rw [get_below hm.2 (by omega), hb]
        · simp [get_cons, hk]
      · rename_i h1 h2
        rw [get_cons, if_neg (by omega)]
        exact ih hm.2

/-- Bytes outside those written read as before. -/
theorem Memory.get_write_other (m : Memory) (a : Nat) (bs : List Byte) (a' : Nat)
    (h : a' < a ∨ a + bs.length ≤ a') : Memory.get (Memory.write m a bs) a' = Memory.get m a' := by
  induction bs generalizing m a with
  | nil => rfl
  | cons b bs ih =>
    simp only [List.length_cons] at h
    rw [Memory.write, ih _ _ (by omega), get_set_other _ _ _ _ (by omega)]

/-- Bytes written read back. -/
theorem Memory.get_write_same {m : Memory} (hm : m.wf = true) (a : Nat) (bs : List Byte) (i : Nat)
    (h : i < bs.length) : Memory.get (Memory.write m a bs) (a + i) = bs[i] := by
  induction bs generalizing m a i with
  | nil => simp at h
  | cons b bs ih =>
    rw [Memory.write]
    cases i with
    | zero =>
      rw [Nat.add_zero, get_write_other _ _ _ _ (by omega)]
      exact get_set_same hm a b
    | succ i =>
      have := ih (wf_set hm a b) (a + 1) i (by simpa using h)
      simpa [Nat.add_assoc, Nat.add_comm 1 i] using this

@[simp] theorem Memory.length_read (m : Memory) (a n : Nat) : (Memory.read m a n).length = n := by
  induction n generalizing a with
  | zero => rfl
  | succ n ih => simp [Memory.read, ih]

theorem Memory.getElem_read (m : Memory) (a n i : Nat) (h : i < (Memory.read m a n).length) :
    (Memory.read m a n)[i] = Memory.get m (a + i) := by
  induction n generalizing a i with
  | zero => simp [Memory.read] at h
  | succ n ih =>
    cases i with
    | zero => rfl
    | succ i =>
      simp only [Memory.read, List.getElem_cons_succ]
      rw [ih (a + 1) i (by simpa [Memory.read] using h), Nat.add_assoc, Nat.add_comm 1 i]

/-- A run of bytes reads the same in two memories that agree on it. -/
theorem Memory.read_congr {m m' : Memory} {a n : Nat} (h : ∀ i, i < n → Memory.get m' (a + i) = Memory.get m (a + i)) :
    Memory.read m' a n = Memory.read m a n := by
  apply List.ext_getElem
  · simp
  · intro i h1 h2
    rw [getElem_read, getElem_read]
    exact h i (by simpa using h1)

/-- A run written reads back. -/
theorem Memory.read_write_same {m : Memory} (hm : m.wf = true) (a : Nat) (bs : List Byte) :
    Memory.read (Memory.write m a bs) a bs.length = bs := by
  apply List.ext_getElem
  · simp
  · intro i h1 h2
    rw [getElem_read]
    exact get_write_same hm a bs i h2

theorem Memory.write_append (m : Memory) (a : Nat) (xs ys : List Byte) :
    Memory.write m a (xs ++ ys) = Memory.write (Memory.write m a xs) (a + xs.length) ys := by
  induction xs generalizing m a with
  | nil => rfl
  | cons x xs ih =>
    simp only [List.cons_append, Memory.write, List.length_cons]
    rw [ih, Nat.add_assoc, Nat.add_comm 1 xs.length]

/-! ### Byte lists -/

@[simp] theorem le_length (n v : Nat) : (le n v).length = n := by
  induction n generalizing v with
  | zero => rfl
  | succ n ih => simp [le, ih]

@[simp] theorem be_length (n v : Nat) : (be n v).length = n := by simp [be]

/-- The value of a little-endian field is the value written, cut to its bytes (R198). -/
theorem leNat_le (n v : Nat) : leNat (le n v) = v % 256 ^ n := by
  induction n generalizing v with
  | zero => simp [le, leNat, Nat.mod_one]
  | succ n ih =>
    simp only [le, leNat, ih, BitVec.toNat_ofNat]
    rw [show (2 : Nat) ^ 8 = 256 from rfl, show 256 ^ (n + 1) = 256 * 256 ^ n from by ring, Nat.mod_mul]

@[simp] theorem padTo_length (n : Nat) (bs : List Byte) : (padTo n bs).length = n := by
  simp [padTo]

@[simp] theorem Stamp.bytes_length (s : Stamp) : s.bytes.length = 6 := by simp [Stamp.bytes]

/-! ### Blocks with a change count (R8) -/

/-- R8: a rewrite keeps the canonical form. -/
theorem wf_rewriteBlock {m : Memory} (h : m.wf = true) (c : Nat) (fs : List Byte) :
    Memory.wf (rewriteBlock c fs m) = true := by
  unfold rewriteBlock
  exact Memory.wf_write h _ _

/-- R8: a rewrite stores to the change count and the fields alone. -/
theorem get_rewriteBlock_other (m : Memory) (c : Nat) (fs : List Byte) (a : Nat)
    (h : a < c ∨ c + 2 + fs.length ≤ a) : Memory.get (rewriteBlock c fs m) a = Memory.get m a := by
  unfold rewriteBlock
  apply Memory.get_write_other
  simp
  omega

/-- R8: after a rewrite the block shows the fields. -/
theorem shown_rewriteBlock {m : Memory} (h : m.wf = true) (c : Nat) (fs : List Byte) :
    shownFields c fs.length (rewriteBlock c fs m) = fs := by
  unfold shownFields rewriteBlock
  rw [Memory.write_append, le_length]
  exact Memory.read_write_same (Memory.wf_write h _ _) _ _

/-- R8: a rewrite adds 2 to the change count, which runs from 65535 to 0. -/
theorem count_rewriteBlock {m : Memory} (h : m.wf = true) (c : Nat) (fs : List Byte) :
    Memory.readWord (rewriteBlock c fs m) c = (Memory.readWord m c + 2) % 65536 := by
  unfold rewriteBlock
  rw [Memory.write_append]
  have : Memory.readWord (Memory.write (Memory.write m c (le 2 (m.readWord c + 2)))
      (c + (le 2 (m.readWord c + 2)).length) fs) c
      = Memory.readWord (Memory.write m c (le 2 (m.readWord c + 2))) c := by
    unfold Memory.readWord
    rw [Memory.read_congr (m := Memory.write m c (le 2 (leNat (Memory.read m c 2) + 2)))]
    intro i hi
    apply Memory.get_write_other
    simp
    omega
  rw [this, Memory.readWord]
  have h2 := Memory.read_write_same h c (le 2 (m.readWord c + 2))
  rw [le_length] at h2
  rw [h2, leNat_le, show (256 : Nat) ^ 2 = 65536 from rfl]

/-- R8: bringing a block up to date either leaves the memory or rewrites the block. -/
theorem refreshBlock_cases (c : Nat) (view : List Byte → List Byte) (fs : List Byte) (m : Memory) :
    (view (shownFields c fs.length m) = view fs ∧ refreshBlock c view fs m = m) ∨
    (view (shownFields c fs.length m) ≠ view fs ∧ refreshBlock c view fs m = rewriteBlock c fs m) := by
  unfold refreshBlock
  split
  · exact .inl ⟨‹_›, rfl⟩
  · exact .inr ⟨‹_›, rfl⟩

theorem wf_refreshBlock {m : Memory} (h : m.wf = true) (c : Nat) (view : List Byte → List Byte)
    (fs : List Byte) : Memory.wf (refreshBlock c view fs m) = true := by
  obtain ⟨-, e⟩ | ⟨-, e⟩ := refreshBlock_cases c view fs m
  · rw [e]; exact h
  · rw [e]; exact wf_rewriteBlock h c fs

theorem get_refreshBlock_other (c : Nat) (view : List Byte → List Byte) (fs : List Byte) (m : Memory)
    (a : Nat) (h : a < c ∨ c + 2 + fs.length ≤ a) :
    Memory.get (refreshBlock c view fs m) a = Memory.get m a := by
  obtain ⟨-, e⟩ | ⟨-, e⟩ := refreshBlock_cases c view fs m
  · rw [e]
  · rw [e]; exact get_rewriteBlock_other m c fs a h

/-- R8: after it the block's view is that of the fields. -/
theorem shown_refreshBlock {m : Memory} (h : m.wf = true) (c : Nat) (view : List Byte → List Byte)
    (fs : List Byte) : view (shownFields c fs.length (refreshBlock c view fs m)) = view fs := by
  obtain ⟨e, e'⟩ | ⟨-, e⟩ := refreshBlock_cases c view fs m
  · rw [e', e]
  · rw [e, shown_rewriteBlock h]

/-- A block's view does not see writes elsewhere. -/
theorem shown_congr {m m' : Memory} {c n : Nat}
    (h : ∀ a, c + 2 ≤ a → a < c + 2 + n → Memory.get m' a = Memory.get m a) :
    shownFields c n m' = shownFields c n m := by
  unfold shownFields
  exact Memory.read_congr fun i hi => h _ (by omega) (by omega)

/-! ### How long the shown fields are -/

theorem partFields_length (s : State) : s.partFields.length = 12 := by
  simp [State.partFields, partFields]

theorem linkFields_length (s : State) : s.linkFields.length = 28 := by
  simp only [State.linkFields, linkFields, List.length_append, le_length]
  unfold headFields
  split <;> simp

theorem meterFields_length (s : State) : s.meterFields.length = 62 := by
  simp [State.meterFields, meterFields, meterHead]

theorem shiftFields_length (s : State) : s.shiftFields.length = 44 := by
  simp [State.shiftFields, shiftFields]

theorem emergencyFields_length (s : State) : s.emergencyFields.length = 18 := by
  simp [State.emergencyFields, emergencyFields]

theorem boardFields_length (o : OfferManager) (i : Place) : (boardFields o i).length = 70 := by
  simp [boardFields]

end Sys2Proof.Machine
end

