-- ==== Sys2Proof/Laws/State.lean ====
section
/-! SUPPORT. One lemma per field for each shared update of the state: the fields it leaves alone. -/

namespace Sys2Proof.Machine

/-! ### setNews -/

@[simp] theorem setNews_pending (n : News) (s : State) : (setNews n s).pending = s.pending := rfl
@[simp] theorem setNews_powered (n : News) (s : State) : (setNews n s).powered = s.powered := rfl
@[simp] theorem setNews_ram (n : News) (s : State) : (setNews n s).ram = s.ram := rfl
@[simp] theorem setNews_settings (n : News) (s : State) : (setNews n s).settings = s.settings := rfl
@[simp] theorem setNews_rx (n : News) (s : State) : (setNews n s).rx = s.rx := rfl
@[simp] theorem setNews_tx (n : News) (s : State) : (setNews n s).tx = s.tx := rfl
@[simp] theorem setNews_time (n : News) (s : State) : (setNews n s).time = s.time := rfl
@[simp] theorem setNews_cycle (n : News) (s : State) : (setNews n s).cycle = s.cycle := rfl
@[simp] theorem setNews_queue (n : News) (s : State) : (setNews n s).queue = s.queue := rfl
@[simp] theorem setNews_link (n : News) (s : State) : (setNews n s).link = s.link := rfl
@[simp] theorem setNews_offers (n : News) (s : State) : (setNews n s).offers = s.offers := rfl
@[simp] theorem setNews_fare (n : News) (s : State) : (setNews n s).fare = s.fare := rfl
@[simp] theorem setNews_limiter (n : News) (s : State) : (setNews n s).limiter = s.limiter := rfl
@[simp] theorem setNews_store (n : News) (s : State) : (setNews n s).store = s.store := rfl
@[simp] theorem setNews_note (n : News) (s : State) : (setNews n s).note = s.note := rfl
@[simp] theorem setNews_msgs (n : News) (s : State) : (setNews n s).msgs = s.msgs := rfl
@[simp] theorem setNews_emergency (n : News) (s : State) : (setNews n s).emergency = s.emergency := rfl
@[simp] theorem setNews_supply (n : News) (s : State) : (setNews n s).supply = s.supply := rfl
@[simp] theorem setNews_retained (n : News) (s : State) : (setNews n s).retained = s.retained := rfl
@[simp] theorem setNews_mail (n : News) (s : State) : (setNews n s).mail = s.mail := rfl
@[simp] theorem setNews_due (n : News) (s : State) : (setNews n s).due = s.due := rfl
@[simp] theorem setNews_chime (n : News) (s : State) : (setNews n s).chime = s.chime := rfl
@[simp] theorem setNews_lampTaken (n : News) (s : State) : (setNews n s).lampTaken = s.lampTaken := rfl
@[simp] theorem setNews_pins (n : News) (s : State) : (setNews n s).pins = s.pins := rfl
@[simp] theorem setNews_free (n : News) (s : State) : (setNews n s).free = s.free := rfl

/-! ### newsIf -/

@[simp] theorem newsIf_pending (c : Bool) (n : News) (s : State) : (newsIf c n s).pending = s.pending := by unfold newsIf; split <;> rfl
@[simp] theorem newsIf_powered (c : Bool) (n : News) (s : State) : (newsIf c n s).powered = s.powered := by unfold newsIf; split <;> rfl
@[simp] theorem newsIf_ram (c : Bool) (n : News) (s : State) : (newsIf c n s).ram = s.ram := by unfold newsIf; split <;> rfl
@[simp] theorem newsIf_settings (c : Bool) (n : News) (s : State) : (newsIf c n s).settings = s.settings := by unfold newsIf; split <;> rfl
@[simp] theorem newsIf_rx (c : Bool) (n : News) (s : State) : (newsIf c n s).rx = s.rx := by unfold newsIf; split <;> rfl
@[simp] theorem newsIf_tx (c : Bool) (n : News) (s : State) : (newsIf c n s).tx = s.tx := by unfold newsIf; split <;> rfl
@[simp] theorem newsIf_time (c : Bool) (n : News) (s : State) : (newsIf c n s).time = s.time := by unfold newsIf; split <;> rfl
@[simp] theorem newsIf_cycle (c : Bool) (n : News) (s : State) : (newsIf c n s).cycle = s.cycle := by unfold newsIf; split <;> rfl
@[simp] theorem newsIf_queue (c : Bool) (n : News) (s : State) : (newsIf c n s).queue = s.queue := by unfold newsIf; split <;> rfl
@[simp] theorem newsIf_link (c : Bool) (n : News) (s : State) : (newsIf c n s).link = s.link := by unfold newsIf; split <;> rfl
@[simp] theorem newsIf_offers (c : Bool) (n : News) (s : State) : (newsIf c n s).offers = s.offers := by unfold newsIf; split <;> rfl
@[simp] theorem newsIf_fare (c : Bool) (n : News) (s : State) : (newsIf c n s).fare = s.fare := by unfold newsIf; split <;> rfl
@[simp] theorem newsIf_limiter (c : Bool) (n : News) (s : State) : (newsIf c n s).limiter = s.limiter := by unfold newsIf; split <;> rfl
@[simp] theorem newsIf_store (c : Bool) (n : News) (s : State) : (newsIf c n s).store = s.store := by unfold newsIf; split <;> rfl
@[simp] theorem newsIf_note (c : Bool) (n : News) (s : State) : (newsIf c n s).note = s.note := by unfold newsIf; split <;> rfl
@[simp] theorem newsIf_msgs (c : Bool) (n : News) (s : State) : (newsIf c n s).msgs = s.msgs := by unfold newsIf; split <;> rfl
@[simp] theorem newsIf_emergency (c : Bool) (n : News) (s : State) : (newsIf c n s).emergency = s.emergency := by unfold newsIf; split <;> rfl
@[simp] theorem newsIf_supply (c : Bool) (n : News) (s : State) : (newsIf c n s).supply = s.supply := by unfold newsIf; split <;> rfl
@[simp] theorem newsIf_retained (c : Bool) (n : News) (s : State) : (newsIf c n s).retained = s.retained := by unfold newsIf; split <;> rfl
@[simp] theorem newsIf_mail (c : Bool) (n : News) (s : State) : (newsIf c n s).mail = s.mail := by unfold newsIf; split <;> rfl
@[simp] theorem newsIf_due (c : Bool) (n : News) (s : State) : (newsIf c n s).due = s.due := by unfold newsIf; split <;> rfl
@[simp] theorem newsIf_chime (c : Bool) (n : News) (s : State) : (newsIf c n s).chime = s.chime := by unfold newsIf; split <;> rfl
@[simp] theorem newsIf_lampTaken (c : Bool) (n : News) (s : State) : (newsIf c n s).lampTaken = s.lampTaken := by unfold newsIf; split <;> rfl
@[simp] theorem newsIf_pins (c : Bool) (n : News) (s : State) : (newsIf c n s).pins = s.pins := by unfold newsIf; split <;> rfl
@[simp] theorem newsIf_free (c : Bool) (n : News) (s : State) : (newsIf c n s).free = s.free := by unfold newsIf; split <;> rfl

/-! ### retain -/

@[simp] theorem retain_pending (s : State) : (retain s).pending = s.pending := rfl
@[simp] theorem retain_powered (s : State) : (retain s).powered = s.powered := rfl
@[simp] theorem retain_ram (s : State) : (retain s).ram = s.ram := rfl
@[simp] theorem retain_port (s : State) : (retain s).port = s.port := rfl
@[simp] theorem retain_settings (s : State) : (retain s).settings = s.settings := rfl
@[simp] theorem retain_rx (s : State) : (retain s).rx = s.rx := rfl
@[simp] theorem retain_tx (s : State) : (retain s).tx = s.tx := rfl
@[simp] theorem retain_time (s : State) : (retain s).time = s.time := rfl
@[simp] theorem retain_cycle (s : State) : (retain s).cycle = s.cycle := rfl
@[simp] theorem retain_queue (s : State) : (retain s).queue = s.queue := rfl
@[simp] theorem retain_link (s : State) : (retain s).link = s.link := rfl
@[simp] theorem retain_offers (s : State) : (retain s).offers = s.offers := rfl
@[simp] theorem retain_fare (s : State) : (retain s).fare = s.fare := rfl
@[simp] theorem retain_limiter (s : State) : (retain s).limiter = s.limiter := rfl
@[simp] theorem retain_store (s : State) : (retain s).store = s.store := rfl
@[simp] theorem retain_note (s : State) : (retain s).note = s.note := rfl
@[simp] theorem retain_msgs (s : State) : (retain s).msgs = s.msgs := rfl
@[simp] theorem retain_emergency (s : State) : (retain s).emergency = s.emergency := rfl
@[simp] theorem retain_supply (s : State) : (retain s).supply = s.supply := rfl
@[simp] theorem retain_mail (s : State) : (retain s).mail = s.mail := rfl
@[simp] theorem retain_due (s : State) : (retain s).due = s.due := rfl
@[simp] theorem retain_chime (s : State) : (retain s).chime = s.chime := rfl
@[simp] theorem retain_lampTaken (s : State) : (retain s).lampTaken = s.lampTaken := rfl
@[simp] theorem retain_pins (s : State) : (retain s).pins = s.pins := rfl
@[simp] theorem retain_free (s : State) : (retain s).free = s.free := rfl

/-! ### settlePins -/

@[simp] theorem settlePins_pending (s : State) : (settlePins s).pending = s.pending := rfl
@[simp] theorem settlePins_powered (s : State) : (settlePins s).powered = s.powered := rfl
@[simp] theorem settlePins_ram (s : State) : (settlePins s).ram = s.ram := rfl
@[simp] theorem settlePins_port (s : State) : (settlePins s).port = s.port := rfl
@[simp] theorem settlePins_settings (s : State) : (settlePins s).settings = s.settings := rfl
@[simp] theorem settlePins_rx (s : State) : (settlePins s).rx = s.rx := rfl
@[simp] theorem settlePins_tx (s : State) : (settlePins s).tx = s.tx := rfl
@[simp] theorem settlePins_time (s : State) : (settlePins s).time = s.time := rfl
@[simp] theorem settlePins_cycle (s : State) : (settlePins s).cycle = s.cycle := rfl
@[simp] theorem settlePins_queue (s : State) : (settlePins s).queue = s.queue := rfl
@[simp] theorem settlePins_link (s : State) : (settlePins s).link = s.link := rfl
@[simp] theorem settlePins_offers (s : State) : (settlePins s).offers = s.offers := rfl
@[simp] theorem settlePins_fare (s : State) : (settlePins s).fare = s.fare := rfl
@[simp] theorem settlePins_limiter (s : State) : (settlePins s).limiter = s.limiter := rfl
@[simp] theorem settlePins_store (s : State) : (settlePins s).store = s.store := rfl
@[simp] theorem settlePins_note (s : State) : (settlePins s).note = s.note := rfl
@[simp] theorem settlePins_msgs (s : State) : (settlePins s).msgs = s.msgs := rfl
@[simp] theorem settlePins_emergency (s : State) : (settlePins s).emergency = s.emergency := rfl
@[simp] theorem settlePins_supply (s : State) : (settlePins s).supply = s.supply := rfl
@[simp] theorem settlePins_retained (s : State) : (settlePins s).retained = s.retained := rfl
@[simp] theorem settlePins_mail (s : State) : (settlePins s).mail = s.mail := rfl
@[simp] theorem settlePins_due (s : State) : (settlePins s).due = s.due := rfl
@[simp] theorem settlePins_chime (s : State) : (settlePins s).chime = s.chime := rfl
@[simp] theorem settlePins_lampTaken (s : State) : (settlePins s).lampTaken = s.lampTaken := rfl
@[simp] theorem settlePins_free (s : State) : (settlePins s).free = s.free := rfl

/-! ### requestChime -/

@[simp] theorem requestChime_pending (s : State) : (requestChime s).pending = s.pending := rfl
@[simp] theorem requestChime_powered (s : State) : (requestChime s).powered = s.powered := rfl
@[simp] theorem requestChime_ram (s : State) : (requestChime s).ram = s.ram := rfl
@[simp] theorem requestChime_port (s : State) : (requestChime s).port = s.port := rfl
@[simp] theorem requestChime_settings (s : State) : (requestChime s).settings = s.settings := rfl
@[simp] theorem requestChime_rx (s : State) : (requestChime s).rx = s.rx := rfl
@[simp] theorem requestChime_tx (s : State) : (requestChime s).tx = s.tx := rfl
@[simp] theorem requestChime_time (s : State) : (requestChime s).time = s.time := rfl
@[simp] theorem requestChime_cycle (s : State) : (requestChime s).cycle = s.cycle := rfl
@[simp] theorem requestChime_queue (s : State) : (requestChime s).queue = s.queue := rfl
@[simp] theorem requestChime_link (s : State) : (requestChime s).link = s.link := rfl
@[simp] theorem requestChime_offers (s : State) : (requestChime s).offers = s.offers := rfl
@[simp] theorem requestChime_fare (s : State) : (requestChime s).fare = s.fare := rfl
@[simp] theorem requestChime_limiter (s : State) : (requestChime s).limiter = s.limiter := rfl
@[simp] theorem requestChime_store (s : State) : (requestChime s).store = s.store := rfl
@[simp] theorem requestChime_note (s : State) : (requestChime s).note = s.note := rfl
@[simp] theorem requestChime_msgs (s : State) : (requestChime s).msgs = s.msgs := rfl
@[simp] theorem requestChime_emergency (s : State) : (requestChime s).emergency = s.emergency := rfl
@[simp] theorem requestChime_supply (s : State) : (requestChime s).supply = s.supply := rfl
@[simp] theorem requestChime_retained (s : State) : (requestChime s).retained = s.retained := rfl
@[simp] theorem requestChime_mail (s : State) : (requestChime s).mail = s.mail := rfl
@[simp] theorem requestChime_due (s : State) : (requestChime s).due = s.due := rfl
@[simp] theorem requestChime_lampTaken (s : State) : (requestChime s).lampTaken = s.lampTaken := rfl
@[simp] theorem requestChime_pins (s : State) : (requestChime s).pins = s.pins := rfl
@[simp] theorem requestChime_free (s : State) : (requestChime s).free = s.free := rfl

/-! ### takenByOwner -/

@[simp] theorem takenByOwner_pending (s : State) : (takenByOwner s).pending = s.pending := rfl
@[simp] theorem takenByOwner_powered (s : State) : (takenByOwner s).powered = s.powered := rfl
@[simp] theorem takenByOwner_ram (s : State) : (takenByOwner s).ram = s.ram := rfl
@[simp] theorem takenByOwner_port (s : State) : (takenByOwner s).port = s.port := rfl
@[simp] theorem takenByOwner_settings (s : State) : (takenByOwner s).settings = s.settings := rfl
@[simp] theorem takenByOwner_tx (s : State) : (takenByOwner s).tx = s.tx := rfl
@[simp] theorem takenByOwner_time (s : State) : (takenByOwner s).time = s.time := rfl
@[simp] theorem takenByOwner_cycle (s : State) : (takenByOwner s).cycle = s.cycle := rfl
@[simp] theorem takenByOwner_queue (s : State) : (takenByOwner s).queue = s.queue := rfl
@[simp] theorem takenByOwner_link (s : State) : (takenByOwner s).link = s.link := rfl
@[simp] theorem takenByOwner_offers (s : State) : (takenByOwner s).offers = s.offers := rfl
@[simp] theorem takenByOwner_fare (s : State) : (takenByOwner s).fare = s.fare := rfl
@[simp] theorem takenByOwner_limiter (s : State) : (takenByOwner s).limiter = s.limiter := rfl
@[simp] theorem takenByOwner_store (s : State) : (takenByOwner s).store = s.store := rfl
@[simp] theorem takenByOwner_note (s : State) : (takenByOwner s).note = s.note := rfl
@[simp] theorem takenByOwner_msgs (s : State) : (takenByOwner s).msgs = s.msgs := rfl
@[simp] theorem takenByOwner_emergency (s : State) : (takenByOwner s).emergency = s.emergency := rfl
@[simp] theorem takenByOwner_supply (s : State) : (takenByOwner s).supply = s.supply := rfl
@[simp] theorem takenByOwner_retained (s : State) : (takenByOwner s).retained = s.retained := rfl
@[simp] theorem takenByOwner_mail (s : State) : (takenByOwner s).mail = s.mail := rfl
@[simp] theorem takenByOwner_due (s : State) : (takenByOwner s).due = s.due := rfl
@[simp] theorem takenByOwner_chime (s : State) : (takenByOwner s).chime = s.chime := rfl
@[simp] theorem takenByOwner_lampTaken (s : State) : (takenByOwner s).lampTaken = s.lampTaken := rfl
@[simp] theorem takenByOwner_pins (s : State) : (takenByOwner s).pins = s.pins := rfl
@[simp] theorem takenByOwner_free (s : State) : (takenByOwner s).free = s.free := rfl

/-! ### takenByLink -/

@[simp] theorem takenByLink_pending (s : State) : (takenByLink s).pending = s.pending := rfl
@[simp] theorem takenByLink_powered (s : State) : (takenByLink s).powered = s.powered := rfl
@[simp] theorem takenByLink_ram (s : State) : (takenByLink s).ram = s.ram := rfl
@[simp] theorem takenByLink_port (s : State) : (takenByLink s).port = s.port := rfl
@[simp] theorem takenByLink_settings (s : State) : (takenByLink s).settings = s.settings := rfl
@[simp] theorem takenByLink_tx (s : State) : (takenByLink s).tx = s.tx := rfl
@[simp] theorem takenByLink_time (s : State) : (takenByLink s).time = s.time := rfl
@[simp] theorem takenByLink_cycle (s : State) : (takenByLink s).cycle = s.cycle := rfl
@[simp] theorem takenByLink_queue (s : State) : (takenByLink s).queue = s.queue := rfl
@[simp] theorem takenByLink_link (s : State) : (takenByLink s).link = s.link := rfl
@[simp] theorem takenByLink_offers (s : State) : (takenByLink s).offers = s.offers := rfl
@[simp] theorem takenByLink_fare (s : State) : (takenByLink s).fare = s.fare := rfl
@[simp] theorem takenByLink_limiter (s : State) : (takenByLink s).limiter = s.limiter := rfl
@[simp] theorem takenByLink_store (s : State) : (takenByLink s).store = s.store := rfl
@[simp] theorem takenByLink_note (s : State) : (takenByLink s).note = s.note := rfl
@[simp] theorem takenByLink_msgs (s : State) : (takenByLink s).msgs = s.msgs := rfl
@[simp] theorem takenByLink_emergency (s : State) : (takenByLink s).emergency = s.emergency := rfl
@[simp] theorem takenByLink_supply (s : State) : (takenByLink s).supply = s.supply := rfl
@[simp] theorem takenByLink_retained (s : State) : (takenByLink s).retained = s.retained := rfl
@[simp] theorem takenByLink_mail (s : State) : (takenByLink s).mail = s.mail := rfl
@[simp] theorem takenByLink_due (s : State) : (takenByLink s).due = s.due := rfl
@[simp] theorem takenByLink_chime (s : State) : (takenByLink s).chime = s.chime := rfl
@[simp] theorem takenByLink_lampTaken (s : State) : (takenByLink s).lampTaken = s.lampTaken := rfl
@[simp] theorem takenByLink_pins (s : State) : (takenByLink s).pins = s.pins := rfl
@[simp] theorem takenByLink_free (s : State) : (takenByLink s).free = s.free := rfl

/-! ### rewritePart -/

@[simp] theorem rewritePart_pending (s : State) : (rewritePart s).pending = s.pending := rfl
@[simp] theorem rewritePart_powered (s : State) : (rewritePart s).powered = s.powered := rfl
@[simp] theorem rewritePart_port (s : State) : (rewritePart s).port = s.port := rfl
@[simp] theorem rewritePart_settings (s : State) : (rewritePart s).settings = s.settings := rfl
@[simp] theorem rewritePart_rx (s : State) : (rewritePart s).rx = s.rx := rfl
@[simp] theorem rewritePart_tx (s : State) : (rewritePart s).tx = s.tx := rfl
@[simp] theorem rewritePart_time (s : State) : (rewritePart s).time = s.time := rfl
@[simp] theorem rewritePart_cycle (s : State) : (rewritePart s).cycle = s.cycle := rfl
@[simp] theorem rewritePart_queue (s : State) : (rewritePart s).queue = s.queue := rfl
@[simp] theorem rewritePart_link (s : State) : (rewritePart s).link = s.link := rfl
@[simp] theorem rewritePart_offers (s : State) : (rewritePart s).offers = s.offers := rfl
@[simp] theorem rewritePart_fare (s : State) : (rewritePart s).fare = s.fare := rfl
@[simp] theorem rewritePart_limiter (s : State) : (rewritePart s).limiter = s.limiter := rfl
@[simp] theorem rewritePart_store (s : State) : (rewritePart s).store = s.store := rfl
@[simp] theorem rewritePart_note (s : State) : (rewritePart s).note = s.note := rfl
@[simp] theorem rewritePart_msgs (s : State) : (rewritePart s).msgs = s.msgs := rfl
@[simp] theorem rewritePart_emergency (s : State) : (rewritePart s).emergency = s.emergency := rfl
@[simp] theorem rewritePart_supply (s : State) : (rewritePart s).supply = s.supply := rfl
@[simp] theorem rewritePart_retained (s : State) : (rewritePart s).retained = s.retained := rfl
@[simp] theorem rewritePart_mail (s : State) : (rewritePart s).mail = s.mail := rfl
@[simp] theorem rewritePart_due (s : State) : (rewritePart s).due = s.due := rfl
@[simp] theorem rewritePart_chime (s : State) : (rewritePart s).chime = s.chime := rfl
@[simp] theorem rewritePart_lampTaken (s : State) : (rewritePart s).lampTaken = s.lampTaken := rfl
@[simp] theorem rewritePart_pins (s : State) : (rewritePart s).pins = s.pins := rfl
@[simp] theorem rewritePart_free (s : State) : (rewritePart s).free = s.free := rfl

/-! ### rewriteLink -/

@[simp] theorem rewriteLink_pending (s : State) : (rewriteLink s).pending = s.pending := rfl
@[simp] theorem rewriteLink_powered (s : State) : (rewriteLink s).powered = s.powered := rfl
@[simp] theorem rewriteLink_port (s : State) : (rewriteLink s).port = s.port := rfl
@[simp] theorem rewriteLink_settings (s : State) : (rewriteLink s).settings = s.settings := rfl
@[simp] theorem rewriteLink_rx (s : State) : (rewriteLink s).rx = s.rx := rfl
@[simp] theorem rewriteLink_tx (s : State) : (rewriteLink s).tx = s.tx := rfl
@[simp] theorem rewriteLink_time (s : State) : (rewriteLink s).time = s.time := rfl
@[simp] theorem rewriteLink_cycle (s : State) : (rewriteLink s).cycle = s.cycle := rfl
@[simp] theorem rewriteLink_queue (s : State) : (rewriteLink s).queue = s.queue := rfl
@[simp] theorem rewriteLink_link (s : State) : (rewriteLink s).link = s.link := rfl
@[simp] theorem rewriteLink_offers (s : State) : (rewriteLink s).offers = s.offers := rfl
@[simp] theorem rewriteLink_fare (s : State) : (rewriteLink s).fare = s.fare := rfl
@[simp] theorem rewriteLink_limiter (s : State) : (rewriteLink s).limiter = s.limiter := rfl
@[simp] theorem rewriteLink_store (s : State) : (rewriteLink s).store = s.store := rfl
@[simp] theorem rewriteLink_note (s : State) : (rewriteLink s).note = s.note := rfl
@[simp] theorem rewriteLink_msgs (s : State) : (rewriteLink s).msgs = s.msgs := rfl
@[simp] theorem rewriteLink_emergency (s : State) : (rewriteLink s).emergency = s.emergency := rfl
@[simp] theorem rewriteLink_supply (s : State) : (rewriteLink s).supply = s.supply := rfl
@[simp] theorem rewriteLink_retained (s : State) : (rewriteLink s).retained = s.retained := rfl
@[simp] theorem rewriteLink_mail (s : State) : (rewriteLink s).mail = s.mail := rfl
@[simp] theorem rewriteLink_due (s : State) : (rewriteLink s).due = s.due := rfl
@[simp] theorem rewriteLink_chime (s : State) : (rewriteLink s).chime = s.chime := rfl
@[simp] theorem rewriteLink_lampTaken (s : State) : (rewriteLink s).lampTaken = s.lampTaken := rfl
@[simp] theorem rewriteLink_pins (s : State) : (rewriteLink s).pins = s.pins := rfl
@[simp] theorem rewriteLink_free (s : State) : (rewriteLink s).free = s.free := rfl

/-! ### rewriteMeter -/

@[simp] theorem rewriteMeter_pending (s : State) : (rewriteMeter s).pending = s.pending := rfl
@[simp] theorem rewriteMeter_powered (s : State) : (rewriteMeter s).powered = s.powered := rfl
@[simp] theorem rewriteMeter_port (s : State) : (rewriteMeter s).port = s.port := rfl
@[simp] theorem rewriteMeter_settings (s : State) : (rewriteMeter s).settings = s.settings := rfl
@[simp] theorem rewriteMeter_rx (s : State) : (rewriteMeter s).rx = s.rx := rfl
@[simp] theorem rewriteMeter_tx (s : State) : (rewriteMeter s).tx = s.tx := rfl
@[simp] theorem rewriteMeter_time (s : State) : (rewriteMeter s).time = s.time := rfl
@[simp] theorem rewriteMeter_cycle (s : State) : (rewriteMeter s).cycle = s.cycle := rfl
@[simp] theorem rewriteMeter_queue (s : State) : (rewriteMeter s).queue = s.queue := rfl
@[simp] theorem rewriteMeter_link (s : State) : (rewriteMeter s).link = s.link := rfl
@[simp] theorem rewriteMeter_offers (s : State) : (rewriteMeter s).offers = s.offers := rfl
@[simp] theorem rewriteMeter_fare (s : State) : (rewriteMeter s).fare = s.fare := rfl
@[simp] theorem rewriteMeter_limiter (s : State) : (rewriteMeter s).limiter = s.limiter := rfl
@[simp] theorem rewriteMeter_store (s : State) : (rewriteMeter s).store = s.store := rfl
@[simp] theorem rewriteMeter_note (s : State) : (rewriteMeter s).note = s.note := rfl
@[simp] theorem rewriteMeter_msgs (s : State) : (rewriteMeter s).msgs = s.msgs := rfl
@[simp] theorem rewriteMeter_emergency (s : State) : (rewriteMeter s).emergency = s.emergency := rfl
@[simp] theorem rewriteMeter_supply (s : State) : (rewriteMeter s).supply = s.supply := rfl
@[simp] theorem rewriteMeter_retained (s : State) : (rewriteMeter s).retained = s.retained := rfl
@[simp] theorem rewriteMeter_mail (s : State) : (rewriteMeter s).mail = s.mail := rfl
@[simp] theorem rewriteMeter_due (s : State) : (rewriteMeter s).due = s.due := rfl
@[simp] theorem rewriteMeter_chime (s : State) : (rewriteMeter s).chime = s.chime := rfl
@[simp] theorem rewriteMeter_lampTaken (s : State) : (rewriteMeter s).lampTaken = s.lampTaken := rfl
@[simp] theorem rewriteMeter_pins (s : State) : (rewriteMeter s).pins = s.pins := rfl
@[simp] theorem rewriteMeter_free (s : State) : (rewriteMeter s).free = s.free := rfl

/-! ### rewriteEmergency -/

@[simp] theorem rewriteEmergency_pending (s : State) : (rewriteEmergency s).pending = s.pending := rfl
@[simp] theorem rewriteEmergency_powered (s : State) : (rewriteEmergency s).powered = s.powered := rfl
@[simp] theorem rewriteEmergency_port (s : State) : (rewriteEmergency s).port = s.port := rfl
@[simp] theorem rewriteEmergency_settings (s : State) : (rewriteEmergency s).settings = s.settings := rfl
@[simp] theorem rewriteEmergency_rx (s : State) : (rewriteEmergency s).rx = s.rx := rfl
@[simp] theorem rewriteEmergency_tx (s : State) : (rewriteEmergency s).tx = s.tx := rfl
@[simp] theorem rewriteEmergency_time (s : State) : (rewriteEmergency s).time = s.time := rfl
@[simp] theorem rewriteEmergency_cycle (s : State) : (rewriteEmergency s).cycle = s.cycle := rfl
@[simp] theorem rewriteEmergency_queue (s : State) : (rewriteEmergency s).queue = s.queue := rfl
@[simp] theorem rewriteEmergency_link (s : State) : (rewriteEmergency s).link = s.link := rfl
@[simp] theorem rewriteEmergency_offers (s : State) : (rewriteEmergency s).offers = s.offers := rfl
@[simp] theorem rewriteEmergency_fare (s : State) : (rewriteEmergency s).fare = s.fare := rfl
@[simp] theorem rewriteEmergency_limiter (s : State) : (rewriteEmergency s).limiter = s.limiter := rfl
@[simp] theorem rewriteEmergency_store (s : State) : (rewriteEmergency s).store = s.store := rfl
@[simp] theorem rewriteEmergency_note (s : State) : (rewriteEmergency s).note = s.note := rfl
@[simp] theorem rewriteEmergency_msgs (s : State) : (rewriteEmergency s).msgs = s.msgs := rfl
@[simp] theorem rewriteEmergency_emergency (s : State) : (rewriteEmergency s).emergency = s.emergency := rfl
@[simp] theorem rewriteEmergency_supply (s : State) : (rewriteEmergency s).supply = s.supply := rfl
@[simp] theorem rewriteEmergency_retained (s : State) : (rewriteEmergency s).retained = s.retained := rfl
@[simp] theorem rewriteEmergency_mail (s : State) : (rewriteEmergency s).mail = s.mail := rfl
@[simp] theorem rewriteEmergency_due (s : State) : (rewriteEmergency s).due = s.due := rfl
@[simp] theorem rewriteEmergency_chime (s : State) : (rewriteEmergency s).chime = s.chime := rfl
@[simp] theorem rewriteEmergency_lampTaken (s : State) : (rewriteEmergency s).lampTaken = s.lampTaken := rfl
@[simp] theorem rewriteEmergency_pins (s : State) : (rewriteEmergency s).pins = s.pins := rfl
@[simp] theorem rewriteEmergency_free (s : State) : (rewriteEmergency s).free = s.free := rfl

/-! ### publishWith -/

@[simp] theorem publishWith_pending (full : Bool) (s : State) : (publishWith full s).pending = s.pending := by simp [publishWith]
@[simp] theorem publishWith_powered (full : Bool) (s : State) : (publishWith full s).powered = s.powered := by simp [publishWith]
@[simp] theorem publishWith_settings (full : Bool) (s : State) : (publishWith full s).settings = s.settings := by simp [publishWith]
@[simp] theorem publishWith_rx (full : Bool) (s : State) : (publishWith full s).rx = s.rx := by simp [publishWith]
@[simp] theorem publishWith_tx (full : Bool) (s : State) : (publishWith full s).tx = s.tx := by simp [publishWith]
@[simp] theorem publishWith_time (full : Bool) (s : State) : (publishWith full s).time = s.time := by simp [publishWith]
@[simp] theorem publishWith_cycle (full : Bool) (s : State) : (publishWith full s).cycle = s.cycle := by simp [publishWith]
@[simp] theorem publishWith_queue (full : Bool) (s : State) : (publishWith full s).queue = s.queue := by simp [publishWith]
@[simp] theorem publishWith_link (full : Bool) (s : State) : (publishWith full s).link = s.link := by simp [publishWith]
@[simp] theorem publishWith_offers (full : Bool) (s : State) : (publishWith full s).offers = s.offers := by simp [publishWith]
@[simp] theorem publishWith_fare (full : Bool) (s : State) : (publishWith full s).fare = s.fare := by simp [publishWith]
@[simp] theorem publishWith_limiter (full : Bool) (s : State) : (publishWith full s).limiter = s.limiter := by simp [publishWith]
@[simp] theorem publishWith_store (full : Bool) (s : State) : (publishWith full s).store = s.store := by simp [publishWith]
@[simp] theorem publishWith_note (full : Bool) (s : State) : (publishWith full s).note = s.note := by simp [publishWith]
@[simp] theorem publishWith_msgs (full : Bool) (s : State) : (publishWith full s).msgs = s.msgs := by simp [publishWith]
@[simp] theorem publishWith_emergency (full : Bool) (s : State) : (publishWith full s).emergency = s.emergency := by simp [publishWith]
@[simp] theorem publishWith_supply (full : Bool) (s : State) : (publishWith full s).supply = s.supply := by simp [publishWith]
@[simp] theorem publishWith_mail (full : Bool) (s : State) : (publishWith full s).mail = s.mail := by simp [publishWith]
@[simp] theorem publishWith_due (full : Bool) (s : State) : (publishWith full s).due = s.due := by simp [publishWith]
@[simp] theorem publishWith_chime (full : Bool) (s : State) : (publishWith full s).chime = s.chime := by simp [publishWith]
@[simp] theorem publishWith_lampTaken (full : Bool) (s : State) : (publishWith full s).lampTaken = s.lampTaken := by simp [publishWith]
@[simp] theorem publishWith_free (full : Bool) (s : State) : (publishWith full s).free = s.free := by simp [publishWith]

/-! ### publish -/

@[simp] theorem publish_pending (s : State) : (publish s).pending = s.pending := by simp [publish]
@[simp] theorem publish_powered (s : State) : (publish s).powered = s.powered := by simp [publish]
@[simp] theorem publish_settings (s : State) : (publish s).settings = s.settings := by simp [publish]
@[simp] theorem publish_rx (s : State) : (publish s).rx = s.rx := by simp [publish]
@[simp] theorem publish_tx (s : State) : (publish s).tx = s.tx := by simp [publish]
@[simp] theorem publish_time (s : State) : (publish s).time = s.time := by simp [publish]
@[simp] theorem publish_cycle (s : State) : (publish s).cycle = s.cycle := by simp [publish]
@[simp] theorem publish_queue (s : State) : (publish s).queue = s.queue := by simp [publish]
@[simp] theorem publish_link (s : State) : (publish s).link = s.link := by simp [publish]
@[simp] theorem publish_offers (s : State) : (publish s).offers = s.offers := by simp [publish]
@[simp] theorem publish_fare (s : State) : (publish s).fare = s.fare := by simp [publish]
@[simp] theorem publish_limiter (s : State) : (publish s).limiter = s.limiter := by simp [publish]
@[simp] theorem publish_store (s : State) : (publish s).store = s.store := by simp [publish]
@[simp] theorem publish_note (s : State) : (publish s).note = s.note := by simp [publish]
@[simp] theorem publish_msgs (s : State) : (publish s).msgs = s.msgs := by simp [publish]
@[simp] theorem publish_emergency (s : State) : (publish s).emergency = s.emergency := by simp [publish]
@[simp] theorem publish_supply (s : State) : (publish s).supply = s.supply := by simp [publish]
@[simp] theorem publish_mail (s : State) : (publish s).mail = s.mail := by simp [publish]
@[simp] theorem publish_due (s : State) : (publish s).due = s.due := by simp [publish]
@[simp] theorem publish_chime (s : State) : (publish s).chime = s.chime := by simp [publish]
@[simp] theorem publish_lampTaken (s : State) : (publish s).lampTaken = s.lampTaken := by simp [publish]
@[simp] theorem publish_free (s : State) : (publish s).free = s.free := by simp [publish]

/-! ### completeRequest -/

@[simp] theorem completeRequest_pending (i : Slot) (o : ReqOutcome) (d : Nat) (s : State) : (completeRequest i o d s).pending = s.pending := by unfold completeRequest; split <;> rfl
@[simp] theorem completeRequest_powered (i : Slot) (o : ReqOutcome) (d : Nat) (s : State) : (completeRequest i o d s).powered = s.powered := by unfold completeRequest; split <;> rfl
@[simp] theorem completeRequest_settings (i : Slot) (o : ReqOutcome) (d : Nat) (s : State) : (completeRequest i o d s).settings = s.settings := by unfold completeRequest; split <;> rfl
@[simp] theorem completeRequest_rx (i : Slot) (o : ReqOutcome) (d : Nat) (s : State) : (completeRequest i o d s).rx = s.rx := by unfold completeRequest; split <;> rfl
@[simp] theorem completeRequest_tx (i : Slot) (o : ReqOutcome) (d : Nat) (s : State) : (completeRequest i o d s).tx = s.tx := by unfold completeRequest; split <;> rfl
@[simp] theorem completeRequest_time (i : Slot) (o : ReqOutcome) (d : Nat) (s : State) : (completeRequest i o d s).time = s.time := by unfold completeRequest; split <;> rfl
@[simp] theorem completeRequest_cycle (i : Slot) (o : ReqOutcome) (d : Nat) (s : State) : (completeRequest i o d s).cycle = s.cycle := by unfold completeRequest; split <;> rfl
@[simp] theorem completeRequest_queue (i : Slot) (o : ReqOutcome) (d : Nat) (s : State) : (completeRequest i o d s).queue = s.queue := by unfold completeRequest; split <;> rfl
@[simp] theorem completeRequest_link (i : Slot) (o : ReqOutcome) (d : Nat) (s : State) : (completeRequest i o d s).link = s.link := by unfold completeRequest; split <;> rfl
@[simp] theorem completeRequest_offers (i : Slot) (o : ReqOutcome) (d : Nat) (s : State) : (completeRequest i o d s).offers = s.offers := by unfold completeRequest; split <;> rfl
@[simp] theorem completeRequest_fare (i : Slot) (o : ReqOutcome) (d : Nat) (s : State) : (completeRequest i o d s).fare = s.fare := by unfold completeRequest; split <;> rfl
@[simp] theorem completeRequest_limiter (i : Slot) (o : ReqOutcome) (d : Nat) (s : State) : (completeRequest i o d s).limiter = s.limiter := by unfold completeRequest; split <;> rfl
@[simp] theorem completeRequest_store (i : Slot) (o : ReqOutcome) (d : Nat) (s : State) : (completeRequest i o d s).store = s.store := by unfold completeRequest; split <;> rfl
@[simp] theorem completeRequest_note (i : Slot) (o : ReqOutcome) (d : Nat) (s : State) : (completeRequest i o d s).note = s.note := by unfold completeRequest; split <;> rfl
@[simp] theorem completeRequest_msgs (i : Slot) (o : ReqOutcome) (d : Nat) (s : State) : (completeRequest i o d s).msgs = s.msgs := by unfold completeRequest; split <;> rfl
@[simp] theorem completeRequest_emergency (i : Slot) (o : ReqOutcome) (d : Nat) (s : State) : (completeRequest i o d s).emergency = s.emergency := by unfold completeRequest; split <;> rfl
@[simp] theorem completeRequest_supply (i : Slot) (o : ReqOutcome) (d : Nat) (s : State) : (completeRequest i o d s).supply = s.supply := by unfold completeRequest; split <;> rfl
@[simp] theorem completeRequest_retained (i : Slot) (o : ReqOutcome) (d : Nat) (s : State) : (completeRequest i o d s).retained = s.retained := by unfold completeRequest; split <;> rfl
@[simp] theorem completeRequest_mail (i : Slot) (o : ReqOutcome) (d : Nat) (s : State) : (completeRequest i o d s).mail = s.mail := by unfold completeRequest; split <;> rfl
@[simp] theorem completeRequest_due (i : Slot) (o : ReqOutcome) (d : Nat) (s : State) : (completeRequest i o d s).due = s.due := by unfold completeRequest; split <;> rfl
@[simp] theorem completeRequest_chime (i : Slot) (o : ReqOutcome) (d : Nat) (s : State) : (completeRequest i o d s).chime = s.chime := by unfold completeRequest; split <;> rfl
@[simp] theorem completeRequest_lampTaken (i : Slot) (o : ReqOutcome) (d : Nat) (s : State) : (completeRequest i o d s).lampTaken = s.lampTaken := by unfold completeRequest; split <;> rfl
@[simp] theorem completeRequest_pins (i : Slot) (o : ReqOutcome) (d : Nat) (s : State) : (completeRequest i o d s).pins = s.pins := by unfold completeRequest; split <;> rfl
@[simp] theorem completeRequest_free (i : Slot) (o : ReqOutcome) (d : Nat) (s : State) : (completeRequest i o d s).free = s.free := by unfold completeRequest; split <;> rfl

end Sys2Proof.Machine
end

