-- ==== Sys2Proof/Laws/Frames.lean ====
section
/-! SUPPORT. Frames: how they compose, and the end of every event (`publishWith`). -/

namespace Sys2Proof.Machine

/-! ### Composition -/

theorem Frame.refl (s : State) : Frame [] nothing s s :=
  ⟨fun p _ => by cases p <;> simp [Part.same], fun _ _ _ => rfl, id⟩

theorem Part.same_trans {p : Part} {s t u : State} (h : p.same s t) (k : p.same t u) : p.same s u := by
  cases p <;> simp only [Part.same] at * <;> first | exact k.trans h | exact ⟨k.1.trans h.1, k.2.trans h.2⟩

theorem Frame.trans {a b : List Part} {p q : Nat → Prop} {s t u : State} (h : Frame a p s t)
    (k : Frame b q t u) : Frame (a ++ b) (fun x => p x ∨ q x) s u where
  keeps r hr := Part.same_trans (h.keeps r fun m => hr (List.mem_append.2 (.inl m)))
    (k.keeps r fun m => hr (List.mem_append.2 (.inr m)))
  ram x hx hs := (k.ram x hx fun m => hs (.inr m)).trans (h.ram x hx fun m => hs (.inl m))
  wf m := k.wf (h.wf m)

theorem Frame.mono {a b : List Part} {p q : Nat → Prop} {s t : State} (h : Frame a p s t)
    (hab : ∀ r ∈ a, r ∈ b) (hpq : ∀ x, p x → q x) : Frame b q s t where
  keeps r hr := h.keeps r fun m => hr (hab r m)
  ram x hx hs := h.ram x hx fun m => hs (hpq x m)
  wf := h.wf

/-- A frame that stores nothing, from agreement on the parts alone. -/
theorem Frame.of_keeps {a : List Part} {s t : State} (h : keepsBut a s t) (hr : t.ram = s.ram) :
    Frame a nothing s t :=
  ⟨h, fun _ _ _ => by rw [hr], fun m => by rw [hr]; exact m⟩

/-- What follows the hand words of the board slots, from agreement byte by byte. -/
theorem boardBytes_congr {m n : Memory} (h : ∀ x, 0x0802 ≤ x → x < 0x0B00 → Memory.get n x = Memory.get m x) :
    boardBytes n = boardBytes m := by
  unfold boardBytes
  refine List.map_congr_left fun i _ => Memory.read_congr fun k hk => h _ ?_ ?_ <;>
  · have := i.isLt
    unfold boardBase
    omega

/-- A frame that stores to bytes of the exchange RAM, none of them in a board slot's contents. -/
theorem Frame.of_stores {a : List Part} {p : Nat → Prop} {s t : State}
    (hk : ∀ r, r ∉ a → r ≠ .boards → r.same s t)
    (hr : ∀ x, ¬ p x → Memory.get t.ram x = Memory.get s.ram x)
    (hp : ∀ x, p x → x < 0x0802 ∨ 0x0B00 ≤ x) (hw : Memory.wf s.ram = true → Memory.wf t.ram = true) :
    Frame a p s t where
  keeps r h := by
    by_cases e : r = .boards
    · subst e
      exact boardBytes_congr fun x h1 h2 => hr x fun hx => by have := hp x hx; omega
    · exact hk r h e
  ram x _ hx := hr x hx
  wf := hw

/-- A frame followed by one that stores nothing more. -/
theorem Frame.then {a b : List Part} {p : Nat → Prop} {s t u : State} (h : Frame a p s t)
    (k : Frame b nothing t u) : Frame (a ++ b) p s u :=
  (h.trans k).mono (fun _ m => m) fun _ m => m.elim id False.elim

/-! ### The end of an event -/

theorem publishWith_ram (full : Bool) (s : State) : (publishWith full s).ram =
    if s.running then refreshBoards s.offers (refreshBlocks full s s.ram)
    else refreshBlocks full s s.ram := by simp [publishWith]

theorem wf_refreshBlocks {m : Memory} (h : Memory.wf m = true) (full : Bool) (s : State) :
    Memory.wf (refreshBlocks full s m) = true := by
  unfold refreshBlocks
  exact wf_refreshBlock (wf_refreshBlock (wf_refreshBlock (wf_refreshBlock (wf_refreshBlock h _ _ _)
    _ _ _) _ _ _) _ _ _) _ _ _

theorem get_refreshBlocks_outside (full : Bool) (s : State) (m : Memory) (a : Nat)
    (h : ¬ ((0x0100 ≤ a ∧ a < 0x0200) ∨ (0x0220 ≤ a ∧ a < 0x0240))) :
    Memory.get (refreshBlocks full s m) a = Memory.get m a := by
  unfold refreshBlocks
  rw [get_refreshBlock_other _ _ _ _ _ (by rw [emergencyFields_length, emergencyBase]; omega),
    get_refreshBlock_other _ _ _ _ _ (by rw [shiftFields_length, shiftBase]; omega),
    get_refreshBlock_other _ _ _ _ _ (by rw [meterFields_length, meterBase]; omega),
    get_refreshBlock_other _ _ _ _ _ (by rw [linkFields_length, linkBase]; omega),
    get_refreshBlock_other _ _ _ _ _ (by rw [partFields_length, partBase]; omega)]

theorem get_refreshBlocks_other (full : Bool) (s : State) (m : Memory) (a : Nat)
    (h : ¬ controllerByte a) : Memory.get (refreshBlocks full s m) a = Memory.get m a :=
  get_refreshBlocks_outside full s m a fun k => h (k.elim .inl fun k => .inr (.inl k))

/-- One board slot brought up to date. -/
def refreshBoard (o : OfferManager) (i : Place) (m : Memory) : Memory :=
  refreshBlock (boardBase i + 2) id (boardFields o i) m

theorem refreshBoards_eq (o : OfferManager) (m : Memory) :
    refreshBoards o m = places8.foldl (fun m i => refreshBoard o i m) m := by
  unfold refreshBoards
  rfl

theorem wf_refreshBoards {m : Memory} (h : Memory.wf m = true) (o : OfferManager) :
    Memory.wf (refreshBoards o m) = true := by
  rw [refreshBoards_eq]
  generalize places8 = l
  induction l generalizing m with
  | nil => exact h
  | cons i l ih => exact ih (wf_refreshBlock h _ _ _)

theorem get_refreshBoard_other (o : OfferManager) (i : Place) (m : Memory) (a : Nat)
    (h : a < boardBase i + 2 ∨ boardBase i + 74 ≤ a) :
    Memory.get (refreshBoard o i m) a = Memory.get m a := by
  apply get_refreshBlock_other
  rw [boardFields_length]
  omega

theorem get_refreshBoards_other (o : OfferManager) (m : Memory) (a : Nat) (h : ¬ controllerByte a) :
    Memory.get (refreshBoards o m) a = Memory.get m a := by
  rw [refreshBoards_eq]
  generalize places8 = l
  induction l generalizing m with
  | nil => rfl
  | cons i l ih =>
    rw [List.foldl_cons, ih]
    apply get_refreshBoard_other
    have := i.isLt
    unfold controllerByte at h
    unfold boardBase
    omega

theorem wf_publishWith {s : State} (h : Memory.wf s.ram = true) (full : Bool) :
    Memory.wf (publishWith full s).ram = true := by
  rw [publishWith_ram]
  split
  · exact wf_refreshBoards (wf_refreshBlocks h full s) _
  · exact wf_refreshBlocks h full s

theorem get_publishWith_other (full : Bool) (s : State) (a : Nat) (h : ¬ controllerByte a) :
    Memory.get (publishWith full s).ram a = Memory.get s.ram a := by
  rw [publishWith_ram]
  split
  · rw [get_refreshBoards_other _ _ _ h, get_refreshBlocks_other _ _ _ _ h]
  · rw [get_refreshBlocks_other _ _ _ _ h]

/-- The end of an event changes no item of the Exchange Port but ATTENTION, and there OFFER alone. -/
theorem publishWith_port (full : Bool) (s : State) :
    (publishWith full s).port = s.port ∨
    (s.running = true ∧ (publishWith full s).port =
      { s.port with attention := s.port.attention ||| News.offer.mask }) := by
  unfold publishWith newsIf
  dsimp only [settlePins_port, retain_port]
  split
  · rename_i h
    simp only [Bool.and_eq_true] at h
    exact .inr ⟨h.1, rfl⟩
  · exact .inl rfl

/-- R98: what the end of an event does to OFFER news. -/
theorem publishWith_offerBit (full : Bool) (s : State) :
    (publishWith full s).port.attention.getLsbD 1 =
      (s.port.attention.getLsbD 1 || (s.running && places8.any (boardStale s.offers s.ram))) := by
  have hb : ∀ i, boardStale s.offers (refreshBlocks full s s.ram) i = boardStale s.offers s.ram i := by
    intro i
    unfold boardStale
    rw [shown_congr fun a h1 h2 => get_refreshBlocks_outside _ _ _ _ (by unfold boardBase at h1; omega)]
  unfold publishWith newsIf
  dsimp only [settlePins_port, retain_port]
  rw [show (boardStale s.offers (refreshBlocks full s s.ram)) = boardStale s.offers s.ram from funext hb]
  split
  · rename_i h
    rw [h, Bool.or_true]
    simp [setNews, News.mask]
  · rename_i h
    rw [Bool.not_eq_true] at h
    rw [h, Bool.or_false]

/-- The frame of the end of an event. -/
theorem publishWith_frame (full : Bool) (s : State) : Frame ends nothing s (publishWith full s) where
  keeps p hp := by
    obtain h | ⟨-, h⟩ := publishWith_port full s <;>
    cases p <;> first | exact absurd (by decide) hp | simp [Part.same, h]
  ram a ha _ := get_publishWith_other full s a ha
  wf h := wf_publishWith h full

/-- R159, R187: `lampLit` is the condition of the two rules. -/
theorem lampLit_iff (s : State) : s.lampLit = true ↔
    if s.lampTaken = true then s.time.phase < 50
    else s.running = true ∧ s.fare.duty = .on ∧ s.fare.meter = .vacant ∧
      (∀ i : Place, (pick s.offers.places i).state ≠ .awarded) ∧ s.offers.baseSuspended = false := by
  have mem : ∀ i : Place, i ∈ places8 := by decide
  unfold State.lampLit State.forHire OfferManager.anyAwarded
  split
  · simp
  · simp [mem, and_assoc]

/-- Outputs that `settlePins` leaves as they are follow the state. -/
theorem pinsFollow_of_settled {s : State} (h : settlePins s = s) : s.pinsFollow := by
  unfold State.pinsFollow State.lampShows
  rw [← lampLit_iff, ← h]
  refine ⟨?_, ?_, rfl, Iff.rfl, rfl⟩ <;> simp [settlePins, ExchangePort.attnHigh, bne_iff_ne]

/-- The end of an event leaves the outputs settled. -/
theorem publishWith_settled (full : Bool) (s : State) :
    settlePins (publishWith full s) = publishWith full s := by
  obtain ⟨u, hu⟩ : ∃ u, publishWith full s = settlePins u := ⟨_, rfl⟩
  rw [hu]
  rfl

/-- The pins follow the state after every event. -/
theorem publishWith_pins (full : Bool) (s : State) : (publishWith full s).pinsFollow :=
  pinsFollow_of_settled (publishWith_settled full s)

/-- R194: the Retained Store is current after every event. -/
theorem publishWith_retained (full : Bool) (s : State) : (publishWith full s).retainedCurrent := by
  obtain ⟨u, hu⟩ : ∃ u, publishWith full s = settlePins (retain u) := ⟨_, rfl⟩
  rw [hu]
  exact ⟨rfl, rfl⟩

/-! ### What the end of an event shows -/

/-- A block's fields read the same from memories that agree on them. -/
theorem shown_refreshBlock_other (c n : Nat) (c' : Nat) (view : List Byte → List Byte) (fs : List Byte)
    (m : Memory) (h : c + 2 + n ≤ c' ∨ c' + 2 + fs.length ≤ c + 2) :
    shownFields c n (refreshBlock c' view fs m) = shownFields c n m :=
  shown_congr fun a h1 h2 => get_refreshBlock_other _ _ _ _ _ (by omega)

theorem shown_refreshBoards_other (c n : Nat) (o : OfferManager) (m : Memory)
    (h : c + 2 + n ≤ 0x0800) : shownFields c n (refreshBoards o m) = shownFields c n m := by
  apply shown_congr
  intro a h1 h2
  rw [refreshBoards_eq]
  generalize places8 = l
  induction l generalizing m with
  | nil => rfl
  | cons i l ih =>
    rw [List.foldl_cons, ih]
    apply get_refreshBoard_other
    unfold boardBase
    omega

/-- The five blocks after they have been brought up to date. -/
theorem shown_refreshBlocks {m : Memory} (h : Memory.wf m = true) (full : Bool) (s : State) :
    let r := refreshBlocks full s m
    shownFields partBase 12 r = s.partFields ∧
    shownFields linkBase 28 r = s.linkFields ∧
    (if full then id else chargedPart) (shownFields meterBase 62 r) =
      (if full then id else chargedPart) s.meterFields ∧
    (if full then id else promptPart) (shownFields shiftBase 44 r) =
      (if full then id else promptPart) s.shiftFields ∧
    shownFields emergencyBase 18 r = s.emergencyFields := by
  unfold refreshBlocks
  have lp := partFields_length s
  have ll := linkFields_length s
  have lm := meterFields_length s
  have ls := shiftFields_length s
  have le := emergencyFields_length s
  have h1 := wf_refreshBlock h partBase id s.partFields
  have h2 := wf_refreshBlock h1 linkBase id s.linkFields
  have h3 := wf_refreshBlock h2 meterBase (if full then id else chargedPart) s.meterFields
  have h4 := wf_refreshBlock h3 shiftBase (if full then id else promptPart) s.shiftFields
  have e1 := shown_refreshBlock h partBase id s.partFields
  have e2 := shown_refreshBlock h1 linkBase id s.linkFields
  have e3 := shown_refreshBlock h2 meterBase (if full then id else chargedPart) s.meterFields
  have e4 := shown_refreshBlock h3 shiftBase (if full then id else promptPart) s.shiftFields
  have e5 := shown_refreshBlock h4 emergencyBase id s.emergencyFields
  rw [lp, id, id] at e1
  rw [ll, id, id] at e2
  rw [lm] at e3
  rw [ls] at e4
  rw [le, id, id] at e5
  have b1 : partBase = 0x0100 := rfl
  have b2 : linkBase = 0x0140 := rfl
  have b3 : meterBase = 0x0180 := rfl
  have b4 : shiftBase = 0x01C0 := rfl
  have b5 : emergencyBase = 0x0220 := rfl
  refine ⟨?_, ?_, ?_, ?_, e5⟩
  · rw [shown_refreshBlock_other, shown_refreshBlock_other, shown_refreshBlock_other,
      shown_refreshBlock_other, e1] <;> omega
  · rw [shown_refreshBlock_other, shown_refreshBlock_other, shown_refreshBlock_other, e2] <;> omega
  · rw [shown_refreshBlock_other, shown_refreshBlock_other, e3] <;> omega
  · rw [shown_refreshBlock_other, e4]
    omega

theorem shown_refreshBoard_other (o : OfferManager) (i j : Place) (m : Memory) (h : j ≠ i) :
    shownFields (boardBase i + 2) 70 (refreshBoard o j m) = shownFields (boardBase i + 2) 70 m := by
  apply shown_refreshBlock_other
  rw [boardFields_length]
  have := Fin.val_ne_of_ne h
  unfold boardBase
  omega

/-- The board slots after they have been brought up to date. -/
theorem shown_boards_foldl (o : OfferManager) (i : Place) (l : List Place) (hl : l.Nodup) {m : Memory}
    (hm : Memory.wf m = true) (h : i ∈ l) :
    shownFields (boardBase i + 2) 70 (l.foldl (fun m i => refreshBoard o i m) m) = boardFields o i := by
  induction l generalizing m with
  | nil => cases h
  | cons j l ih =>
    rw [List.nodup_cons] at hl
    rw [List.foldl_cons]
    by_cases hi : i ∈ l
    · exact ih hl.2 (wf_refreshBlock hm _ _ _) hi
    · have hj : j = i := by
        cases h with
        | head => rfl
        | tail _ h => exact absurd h hi
      subst hj
      have key : ∀ (l : List Place) (m : Memory), j ∉ l →
          shownFields (boardBase j + 2) 70 (l.foldl (fun m i => refreshBoard o i m) m) =
          shownFields (boardBase j + 2) 70 m := by
        intro l
        induction l with
        | nil => intro m _; rfl
        | cons k l ih =>
          intro m hk
          rw [List.mem_cons, not_or] at hk
          rw [List.foldl_cons, ih _ hk.2, shown_refreshBoard_other _ _ _ _ (Ne.symm hk.1)]
      rw [key l _ hi]
      have e := shown_refreshBlock hm (boardBase j + 2) id (boardFields o j)
      rw [boardFields_length, id, id] at e
      exact e

theorem shown_refreshBoards {m : Memory} (hm : Memory.wf m = true) (o : OfferManager) (i : Place) :
    boardStale o (refreshBoards o m) i = false := by
  unfold boardStale
  rw [boardFields_length, refreshBoards_eq, shown_boards_foldl o i places8 (by decide) hm (by revert i; decide)]
  simp

/-- The fields of the blocks do not see the end of an event. -/
theorem partFields_publishWith (full : Bool) (s : State) :
    (publishWith full s).partFields = s.partFields := by
  unfold State.partFields
  obtain h | ⟨-, h⟩ := publishWith_port full s <;> rw [h] <;> simp [partFields, publishWith, retain]

theorem linkFields_publishWith (full : Bool) (s : State) :
    (publishWith full s).linkFields = s.linkFields := by simp [State.linkFields]

theorem meterFields_publishWith (full : Bool) (s : State) :
    (publishWith full s).meterFields = s.meterFields := by simp [State.meterFields]

theorem shiftFields_publishWith (full : Bool) (s : State) :
    (publishWith full s).shiftFields = s.shiftFields := by simp [State.shiftFields]

theorem emergencyFields_publishWith (full : Bool) (s : State) :
    (publishWith full s).emergencyFields = s.emergencyFields := by simp [State.emergencyFields]

/-- R8, R18, R94, R140, R153, R188: after an event the five blocks show what their owners hold. -/
theorem publishWith_blocksShown {s : State} (h : Memory.wf s.ram = true) (full : Bool) :
    (publishWith full s).blocksShown := by
  have key : ∀ c n, c + 2 + n ≤ 0x0800 → shownFields c n (publishWith full s).ram =
      shownFields c n (refreshBlocks full s s.ram) := by
    intro c n hc
    rw [publishWith_ram]
    split
    · exact shown_refreshBoards_other _ _ _ _ hc
    · rfl
  obtain ⟨h1, h2, h3, h4, h5⟩ := shown_refreshBlocks h full s
  unfold State.blocksShown
  rw [partFields_publishWith, linkFields_publishWith, meterFields_publishWith,
    shiftFields_publishWith, emergencyFields_publishWith, partFields_length, linkFields_length,
    meterFields_length, shiftFields_length, emergencyFields_length, key _ _ (by decide), key _ _ (by decide),
    key _ _ (by decide), key _ _ (by decide), key _ _ (by decide)]
  refine ⟨h1, h2, ?_, ?_, h5⟩
  · cases full
    · exact h3
    · exact congrArg chargedPart h3
  · cases full
    · exact h4
    · exact congrArg promptPart h4

/-- R98, R99: after an event of a RUNNING part the board slots show their places and the summary. -/
theorem publishWith_boardsShown {s : State} (h : Memory.wf s.ram = true) (full : Bool) :
    (publishWith full s).boardsShown := by
  intro hr i
  have hr' : s.running = true := by
    unfold State.running at *
    rwa [publishWith_settings] at hr
  rw [publishWith_offers, publishWith_ram, if_pos hr']
  exact shown_refreshBoards (wf_refreshBlocks h full s) _ i

end Sys2Proof.Machine
end

