-- ==== Sys2Proof/Laws/Ops.lean ====
section
/-! SUPPORT. What each shared operation can do, said once: its frame and its effect. -/

namespace Sys2Proof.Machine

/-! ### Simple updates -/

/-- News other than OFFER. -/
theorem News.offer_bit {n : News} (h : n ≠ .offer) (w : Word) : (w ||| n.mask).getLsbD 1 = w.getLsbD 1 := by
  cases n <;> first | exact absurd rfl h | simp [News.mask]

theorem setNews_frame (n : News) (s : State) (h : n ≠ .offer := by decide) :
    Frame [.attention] nothing s (setNews n s) :=
  .of_keeps (fun p hp => by
    cases p <;> first
      | rfl
      | exact absurd (by decide) hp
      | exact ⟨rfl, rfl⟩
      | exact News.offer_bit h s.port.attention) rfl

theorem newsIf_frame (c : Bool) (n : News) (s : State) (h : n ≠ .offer := by decide) :
    Frame [.attention] nothing s (newsIf c n s) := by
  unfold newsIf
  split
  · exact setNews_frame n s h
  · exact (Frame.refl s).mono (by simp) fun _ => id

theorem requestChime_frame (s : State) : Frame [.chime] nothing s (requestChime s) :=
  .of_keeps (fun p hp => by cases p <;> first | rfl | exact absurd (by decide) hp | exact ⟨rfl, rfl⟩) rfl

/-- A block rewritten: the RAM alone, in the block alone. -/
theorem rewrite_frame (c : Nat) (fs : List Byte) (s : State)
    (h : ∀ a, c ≤ a → a < c + 2 + fs.length → controllerByte a ∧ a < 0x0800) :
    Frame [.ram] nothing s { s with ram := rewriteBlock c fs s.ram } where
  keeps p hp := by
    cases p <;> first
      | rfl
      | exact absurd (by decide) hp
      | exact ⟨rfl, rfl⟩
      | exact boardBytes_congr fun a h1 _ => get_rewriteBlock_other _ _ _ _ (by
          by_contra hn
          have := (h a (by omega) (by omega)).2
          omega)
  ram a ha _ := by
    apply get_rewriteBlock_other
    by_contra hn
    exact ha (h a (by omega) (by omega)).1
  wf m := wf_rewriteBlock m _ _

theorem rewritePart_frame (s : State) : Frame [.ram] nothing s (rewritePart s) :=
  rewrite_frame _ _ s fun a h1 h2 => by
    rw [partFields_length, partBase] at h2
    rw [partBase] at h1
    unfold controllerByte
    omega

theorem rewriteLink_frame (s : State) : Frame [.ram] nothing s (rewriteLink s) :=
  rewrite_frame _ _ s fun a h1 h2 => by
    rw [linkFields_length, linkBase] at h2
    rw [linkBase] at h1
    unfold controllerByte
    omega

theorem rewriteMeter_frame (s : State) : Frame [.ram] nothing s (rewriteMeter s) :=
  rewrite_frame _ _ s fun a h1 h2 => by
    rw [meterFields_length, meterBase] at h2
    rw [meterBase] at h1
    unfold controllerByte
    omega

theorem rewriteEmergency_frame (s : State) : Frame [.ram] nothing s (rewriteEmergency s) :=
  rewrite_frame _ _ s fun a h1 h2 => by
    rw [emergencyFields_length, emergencyBase] at h2
    rw [emergencyBase] at h1
    unfold controllerByte
    omega

/-- R7: the frame of an exchange fault. -/
theorem exchangeFault_frame (off : Nat) (s : State) :
    Frame [.faults, .attention, .ram] nothing s (exchangeFault off s) := by
  obtain ⟨u, hu, h⟩ : ∃ u : State, Frame [.faults] nothing s u ∧
      exchangeFault off s = rewritePart (setNews .exchFault u) :=
    ⟨{ s with port := { s.port with faultCount := bump 255 s.port.faultCount, lastFault := off } },
      .of_keeps (fun p hp => by cases p <;> first | rfl | exact absurd (by decide) hp) rfl,
      rfl⟩
  rw [h]
  exact (hu.then (setNews_frame .exchFault u)).then (rewritePart_frame _)

/-! ### Completion of a request (R12) -/

/-- The bytes of the request slots lie outside the controller-written blocks. -/
theorem request_not_controller {i : Slot} {a : Nat} (h : requestBase i ≤ a) (h' : a < requestBase i + 64) :
    ¬ controllerByte a := by
  have := i.isLt
  unfold requestBase at *
  unfold controllerByte
  omega

theorem handWord_length (h : Byte) : (handWord h).length = 2 := rfl

theorem outcomeFields_length (o : ReqOutcome) (d : Nat) (t : Stamp) : (outcomeFields o d t).length = 9 := by
  simp [outcomeFields]

theorem wf_writeOutcome {m : Memory} (h : Memory.wf m = true) (i : Slot) (o : ReqOutcome) (d : Nat)
    (t : Stamp) : Memory.wf (writeOutcome i o d t m) = true := by
  unfold writeOutcome
  exact Memory.wf_write (Memory.wf_write h _ _) _ _

theorem get_writeOutcome_other (i : Slot) (o : ReqOutcome) (d : Nat) (t : Stamp) (m : Memory) (a : Nat)
    (h : ¬ outcomeBytes i a) : Memory.get (writeOutcome i o d t m) a = Memory.get m a := by
  unfold outcomeBytes bytesAt at h
  unfold writeOutcome
  rw [Memory.get_write_other _ _ _ _ (by rw [handWord_length]; omega),
    Memory.get_write_other _ _ _ _ (by rw [outcomeFields_length]; omega)]

theorem read_writeOutcome {m : Memory} (h : Memory.wf m = true) (i : Slot) (o : ReqOutcome) (d : Nat)
    (t : Stamp) :
    Memory.read (writeOutcome i o d t m) (requestBase i) 2 = handWord handApp ∧
    Memory.read (writeOutcome i o d t m) (requestBase i + 3) 9 = outcomeFields o d t := by
  unfold writeOutcome
  refine ⟨Memory.read_write_same (Memory.wf_write h _ _) _ (handWord handApp), ?_⟩
  have e := Memory.read_write_same h (requestBase i + 3) (outcomeFields o d t)
  rw [outcomeFields_length] at e
  conv_rhs => rw [← e]
  apply Memory.read_congr
  intro k hk
  apply Memory.get_write_other
  rw [handWord_length]
  omega

/-- R12: a request completes: what a completion does to a slot at CTL. -/
theorem completeRequest_eq {i : Slot} {s : State} (h : heldByCtl s.ram (requestBase i) = true)
    (o : ReqOutcome) (d : Nat) : completeRequest i o d s =
      setNews .reqDone { s with ram := writeOutcome i o d s.cycle.fleet s.ram } := by
  unfold completeRequest
  rw [if_pos h]

/-- R3: a slot that is not at CTL is not written. -/
theorem completeRequest_other {i : Slot} {s : State} (h : heldByCtl s.ram (requestBase i) = false)
    (o : ReqOutcome) (d : Nat) : completeRequest i o d s = s := by
  unfold completeRequest
  rw [h]
  rfl

theorem completeRequest_frame (i : Slot) (o : ReqOutcome) (d : Nat) (s : State) :
    Frame [.ram, .attention] (outcomeBytes i) s (completeRequest i o d s) := by
  by_cases h : heldByCtl s.ram (requestBase i) = true
  · rw [completeRequest_eq h]
    refine .of_stores (fun p hp hb => by
        cases p <;> first
          | rfl
          | exact absurd (by decide) hp
          | exact ⟨rfl, rfl⟩
          | exact absurd rfl hb
          | exact News.offer_bit (n := .reqDone) (by decide) s.port.attention)
      (fun a hs => get_writeOutcome_other _ _ _ _ _ _ hs) (fun x hx => ?_) fun m => wf_writeOutcome m _ _ _ _
    have := i.isLt
    unfold outcomeBytes bytesAt requestBase at hx
    omega
  · rw [completeRequest_other (by simpa using h)]
    exact (Frame.refl s).mono (by simp) fun _ => False.elim

/-- R12: the outcome stands in the slot. -/
theorem completeRequest_completed {i : Slot} {s : State} (hw : Memory.wf s.ram = true)
    (h : heldByCtl s.ram (requestBase i) = true) (o : ReqOutcome) (d : Nat) :
    completed i o d s.cycle.fleet (completeRequest i o d s) := by
  rw [completeRequest_eq h]
  exact read_writeOutcome hw i o d _

/-- An outcome in a slot is left alone by what stores to no byte of the slot. -/
theorem completed_of_frame {i : Slot} {o : ReqOutcome} {d : Nat} {now : Stamp} {a : List Part}
    {p : Nat → Prop} {s t : State} (h : completed i o d now s) (f : Frame a p s t)
    (hp : ∀ x, requestBase i ≤ x → x < requestBase i + 64 → ¬ p x) : completed i o d now t := by
  unfold completed at *
  rw [← h.1, ← h.2]
  refine ⟨Memory.read_congr fun k hk => ?_, Memory.read_congr fun k hk => ?_⟩ <;>
  exact f.ram _ (request_not_controller (i := i) (by omega) (by omega)) (hp _ (by omega) (by omega))

/-! ### How a meaning answers -/

/-- An event whose occasion holds answers its effect, published. -/
theorem event_next {c : Bool} {u s : State} (hp : s.powered = true) (hc : c = true) :
    event c u s = .next (publish u) := by
  unfold event
  rw [hp, hc]
  rfl

/-- An event whose occasion does not hold changes nothing. -/
theorem event_not {c : Bool} {u s : State} (h : s.powered = false ∨ c = false) : event c u s = .next s := by
  unfold event
  obtain h | h := h <;> rw [h] <;> simp

/-- All an event can answer. -/
theorem event_cases {c : Bool} {u s t : State} (h : event c u s = .next t) :
    t = s ∨ (s.powered = true ∧ c = true ∧ t = publish u) := by
  unfold event at h
  split at h
  · rename_i hc
    simp only [Bool.and_eq_true] at hc
    exact .inr ⟨hc.1, hc.2, (Host.Outcome.next.inj h).symm⟩
  · exact .inl (Host.Outcome.next.inj h).symm

/-- R11: the state with the head of the Request Order list taken off. -/
def State.taken (s : State) (rest : List Slot) : State := { s with port := { s.port with order := rest } }

theorem taken_frame (s : State) (rest : List Slot) : Frame [.order] nothing s (s.taken rest) :=
  .of_keeps (fun p hp => by cases p <;> first | rfl | exact absurd (by decide) hp | exact ⟨rfl, rfl⟩) rfl

/-- R11: a request taken in RUNNING is judged by its owner. -/
theorem takeRequest_running {p : Nat → Bool} {judge : Slot → State → State} {s : State} {i : Slot}
    {rest : List Slot} (hp : s.powered = true) (ho : s.port.order = i :: rest)
    (hc : p (requestCode s.ram i) = true) (hr : s.running = true) :
    takeRequest p judge s = .next (publish (judge i (s.taken rest))) := by
  unfold takeRequest
  rw [event_next hp (by unfold headIs; rw [ho]; exact hc)]
  unfold takeHead
  rw [ho]
  simp only [State.taken]
  rw [if_pos]
  exact hr

/-- R11: a request taken in CONFIG completes NOT_RUNNING. -/
theorem takeRequest_config {p : Nat → Bool} {judge : Slot → State → State} {s : State} {i : Slot}
    {rest : List Slot} (hp : s.powered = true) (ho : s.port.order = i :: rest)
    (hc : p (requestCode s.ram i) = true) (hr : s.running = false) :
    takeRequest p judge s = .next (publish (completeRequest i .notRunning 0 (s.taken rest))) := by
  unfold takeRequest
  rw [event_next hp (by unfold headIs; rw [ho]; exact hc)]
  unfold takeHead
  rw [ho]
  simp only [State.taken]
  rw [if_neg]
  unfold State.running at *
  rw [hr]
  simp

/-! ### Positions (R9) -/

/-- R9: a take touches the last good copy alone. -/
theorem takePosition_eq (s : State) :
    ∃ c, takePosition s = { s with port := { s.port with posCopy := c } } := by
  unfold takePosition
  split
  · exact ⟨s.port.posCopy, rfl⟩
  · split
    · exact ⟨_, rfl⟩
    · exact ⟨s.port.posCopy, rfl⟩

/-! ### The Transmit Queue -/

/-- R77: the resolution of the mark touches the queue and the position copy. -/
theorem resolvePending_eq (s : State) :
    ∃ c q, resolvePending s = { s with port := { s.port with posCopy := c }, queue := q } := by
  unfold resolvePending
  split
  · obtain ⟨c, h⟩ := takePosition_eq s
    rw [h]
    exact ⟨c, _, rfl⟩
  · exact ⟨s.port.posCopy, s.queue, rfl⟩

/-- R76: a status trigger touches the queue and the position copy. -/
theorem statusTrigger_eq (s : State) :
    ∃ c q, statusTrigger s = { s with port := { s.port with posCopy := c }, queue := q } := by
  unfold statusTrigger
  split
  · obtain ⟨c, h⟩ := takePosition_eq s
    rw [h]
    obtain ⟨c', q', h'⟩ := resolvePending_eq
      { { s with port := { s.port with posCopy := c } } with
        queue := placeStatus (statusTail { s with port := { s.port with posCopy := c } })
          { s with port := { s.port with posCopy := c } }.cycle.fleet
          { s with port := { s.port with posCopy := c } }.queue }
    exact ⟨c', q', h'⟩
  · exact ⟨s.port.posCopy, s.queue, rfl⟩

/-- A state that differs in the queue and the position copy alone. -/
theorem queueCopy_frame (s : State) (c : Option PositionCopy) (q : TransmitQueue) :
    Frame [.posCopy, .queue] nothing s { s with port := { s.port with posCopy := c }, queue := q } :=
  .of_keeps (fun p hp => by cases p <;> first | rfl | exact absurd (by decide) hp | exact ⟨rfl, rfl⟩) rfl

theorem resolvePending_frame (s : State) : Frame [.posCopy, .queue] nothing s (resolvePending s) := by
  obtain ⟨c, q, h⟩ := resolvePending_eq s
  rw [h]
  exact queueCopy_frame s c q

theorem statusTrigger_frame (s : State) : Frame [.posCopy, .queue] nothing s (statusTrigger s) := by
  obtain ⟨c, q, h⟩ := statusTrigger_eq s
  rw [h]
  exact queueCopy_frame s c q

/-- R73: an admission touches the queue and the position copy. -/
theorem admitHost_eq (kind : Uplink) (tail : List Byte) (origin : Option Slot) (s : State) :
    ∃ c q, admitHost kind tail origin s = { s with port := { s.port with posCopy := c }, queue := q } := by
  unfold admitHost
  obtain ⟨c, q, h⟩ := resolvePending_eq { s with queue := s.queue.enqueue kind tail origin s.cycle.fleet }
  exact ⟨c, q, h⟩

/-- R157: the report feed touches the queue, the position copy and the report note. -/
theorem reportFeed_eq (s : State) :
    ∃ c q n, reportFeed s = { s with port := { s.port with posCopy := c }, queue := q, note := n } := by
  unfold reportFeed
  split
  · split
    · exact ⟨s.port.posCopy, s.queue, s.note, rfl⟩
    · rename_i h _
      obtain ⟨c, q, e⟩ := resolvePending_eq
        { s with
          queue := s.queue.enqueue h.record.reportKind (reportTail h) none s.cycle.fleet
          note := some h.seq }
      exact ⟨c, q, some h.seq, e⟩
  · exact ⟨s.port.posCopy, s.queue, s.note, rfl⟩

theorem reportFeed_frame (s : State) : Frame [.posCopy, .queue, .note] nothing s (reportFeed s) := by
  obtain ⟨c, q, n, h⟩ := reportFeed_eq s
  rw [h]
  exact .of_keeps (fun p hp => by cases p <;> first | rfl | exact absurd (by decide) hp | exact ⟨rfl, rfl⟩) rfl

/-- R80: what the maker of a removed entry is told goes into the mail. -/
theorem tellMaker_eq (e : Entry) (done : Bool) (s : State) :
    ∃ u n r, tellMaker e done s =
      { s with mail := { s.mail with undelivered := u, sendNotices := n, reportsDone := r } } := by
  unfold tellMaker
  split <;> (try split) <;> exact ⟨_, _, _, rfl⟩

/-- R73, R74: a controller's frame touches the queue, the position copy and the mail of the makers. -/
theorem admitController_eq (kind : Uplink) (tail : List Byte) (s : State) :
    ∃ c q m, admitController kind tail s =
      { s with port := { s.port with posCopy := c }, queue := q, mail := m } := by
  unfold admitController
  split
  · exact ⟨s.port.posCopy, s.queue, s.mail, rfl⟩
  · split
    · obtain ⟨c, q, h⟩ := resolvePending_eq { s with queue := s.queue.enqueue kind tail none s.cycle.fleet }
      exact ⟨c, q, s.mail, h⟩
    · split
      · exact ⟨s.port.posCopy, s.queue, s.mail, rfl⟩
      · rename_i e _
        obtain ⟨q', m', hd⟩ : ∃ q' m', displace e s = { s with queue := q', mail := m' } := by
          unfold displace
          dsimp only
          split
          · exact ⟨_, s.mail, rfl⟩
          · obtain ⟨u, n, r, h⟩ := tellMaker_eq e false { s with queue := s.queue.remove e.id }
            rw [h]
            exact ⟨_, _, rfl⟩
        rw [hd]
        dsimp only
        obtain ⟨c, q, h⟩ := resolvePending_eq
          { { s with queue := q', mail := m' } with queue := q'.enqueue kind tail none s.cycle.fleet }
        exact ⟨c, q, m', h⟩

theorem admitController_frame (kind : Uplink) (tail : List Byte) (s : State) :
    Frame [.posCopy, .queue, .mail] nothing s (admitController kind tail s) := by
  obtain ⟨c, q, m, h⟩ := admitController_eq kind tail s
  rw [h]
  exact .of_keeps (fun p hp => by cases p <;> first | rfl | exact absurd (by decide) hp | exact ⟨rfl, rfl⟩) rfl

/-- R75, R79: what follows a removal touches the queue, the position copy and the report note. -/
theorem afterRemoval_eq (before : TransmitQueue) (s : State) :
    ∃ c q n, afterRemoval before s =
      { s with port := { s.port with posCopy := c }, queue := q, note := n } := by
  unfold afterRemoval noticeOfRoom
  obtain ⟨c, q, h⟩ := resolvePending_eq s
  rw [h]
  split
  · obtain ⟨c', q', n', h'⟩ := reportFeed_eq { s with port := { s.port with posCopy := c }, queue := q }
    exact ⟨c', q', n', h'⟩
  · exact ⟨c, q, s.note, rfl⟩

/-- R81: the removal of a JOB_ACCEPT. -/
theorem removeAccept_eq (number : Nat) (s : State) :
    ∃ c q n, removeAccept number s =
      { s with port := { s.port with posCopy := c }, queue := q, note := n } := by
  unfold removeAccept
  split
  · exact ⟨s.port.posCopy, s.queue, s.note, rfl⟩
  · rename_i e _
    obtain ⟨c, q, n, h⟩ := afterRemoval_eq s.queue { s with queue := s.queue.remove e.id }
    exact ⟨c, q, n, h⟩

/-- R79: an outcome taken by the queue. -/
theorem queueTakesOutcome_eq (id : Nat) (o : FrameOutcome) (s : State) :
    ∃ c q n m, queueTakesOutcome id o s =
      { s with port := { s.port with posCopy := c }, queue := q, note := n, mail := m } := by
  unfold queueTakesOutcome
  split
  · exact ⟨s.port.posCopy, s.queue, s.note, s.mail, rfl⟩
  · rename_i e _
    suffices h : ∃ q m, entryTakesOutcome e o s = { s with queue := q, mail := m } by
      obtain ⟨q, m, h⟩ := h
      rw [h]
      obtain ⟨c, q', n, h'⟩ := afterRemoval_eq s.queue { s with queue := q, mail := m }
      exact ⟨c, q', n, m, h'⟩
    have hm : ∃ q m, attemptMissed e s = { s with queue := q, mail := m } := by
      unfold attemptMissed
      split
      · obtain ⟨u, n, r, h⟩ := tellMaker_eq e false { s with queue := s.queue.remove e.id }
        exact ⟨_, _, h⟩
      · exact ⟨_, s.mail, rfl⟩
    unfold entryTakesOutcome
    split
    · obtain ⟨u, n, r, h⟩ := tellMaker_eq e true { s with queue := s.queue.remove e.id }
      exact ⟨_, _, h⟩
    · exact hm
    · exact hm
    · exact ⟨_, s.mail, rfl⟩
    · exact ⟨_, s.mail, rfl⟩

end Sys2Proof.Machine
end

