-- ==== Sys2Proof/Laws/Answers.lean ====
section
/-! SUPPORT. How an answer is put together: the end of an event after an effect, and the completion of a
request after what its owner did. -/

namespace Sys2Proof.Machine

/-! ### The end of an event -/

theorem publish_frame (s : State) : Frame ends nothing s (publish s) := publishWith_frame false s

theorem gains_publishWith (full : Bool) {s u : State} {w : Word}
    (h : u.port.attention = s.port.attention ||| w) : gains w s (publishWith full u) := by
  unfold gains
  obtain e | ⟨-, e⟩ := publishWith_port full u
  · exact .inl (by rw [e, h])
  · exact .inr (by rw [e]; exact congrArg (· ||| News.offer.mask) h)

theorem gains_publish {s u : State} {w : Word} (h : u.port.attention = s.port.attention ||| w) :
    gains w s (publish u) := gains_publishWith false h

/-- No news of its own: ATTENTION gains OFFER at most. -/
theorem gains_publish_zero {s u : State} (h : u.port.attention = s.port.attention) : gains 0 s (publish u) :=
  gains_publish (h.trans (BitVec.or_zero).symm)

/-- The frame of an effect, published. -/
theorem Frame.publish {a : List Part} {p : Nat → Prop} {s u : State} (h : Frame a p s u) :
    Frame (withEnds a) p s (publish u) := h.then (publish_frame u)

theorem Frame.publishWith {a : List Part} {p : Nat → Prop} {s u : State} (full : Bool) (h : Frame a p s u) :
    Frame (withEnds a) p s (publishWith full u) := h.then (publishWith_frame full u)

theorem publish_pins_eq (s : State) : settlePins (publish s) = publish s := publishWith_settled false s

theorem publish_lampShows (s : State) : (publish s).lampShows := (publishWith_pins false s).2.2.2.1

theorem publish_lamp (s : State) : (publish s).pins.lamp = (publish s).lampLit := by
  conv_lhs => rw [← publish_pins_eq]
  rfl

theorem publish_attnN (s : State) :
    (publish s).pins.attnN = ((publish s).port.attention &&& (publish s).port.attnMask == 0) := by
  conv_lhs => rw [← publish_pins_eq]
  rfl

theorem publish_ptt (s : State) : (publish s).pins.ptt = (s.tx.shifter != .idle) := by
  rw [← publish_tx s]
  conv_lhs => rw [← publish_pins_eq]
  rfl

theorem publish_txData (s : State) : (publish s).pins.txData = s.tx.line := by
  rw [← publish_tx s]
  conv_lhs => rw [← publish_pins_eq]
  rfl

theorem publish_chimePin (s : State) : (publish s).pins.chime = s.chime.high := by
  rw [← publish_chime s]
  conv_lhs => rw [← publish_pins_eq]
  rfl

/-- The word on the data bus is left alone. -/
theorem publish_data (s : State) : (publish s).pins.data = s.pins.data := by
  simp [publish, Machine.publishWith, settlePins, retain]

theorem publish_order (s : State) : (publish s).port.order = s.port.order := by
  have := (publish_frame s).keeps .order (by decide)
  exact this

theorem publish_posWritten (s : State) : (publish s).port.posWritten = s.port.posWritten := by
  have := (publish_frame s).keeps .posWritten (by decide)
  exact this

theorem publish_posCopy (s : State) : (publish s).port.posCopy = s.port.posCopy := by
  have := (publish_frame s).keeps .posCopy (by decide)
  exact this

theorem publish_attnMask (s : State) : (publish s).port.attnMask = s.port.attnMask := by
  have := (publish_frame s).keeps .attnMask (by decide)
  exact this

theorem running_of_settings {s t : State} (h : t.settings = s.settings) : t.running = s.running := by
  unfold State.running
  rw [h]

theorem working_of_settings {s t : State} (h : t.settings = s.settings) : t.working = s.working := by
  unfold State.working
  rw [h]

@[simp] theorem publish_running (s : State) : (publish s).running = s.running :=
  running_of_settings (publish_settings s)

@[simp] theorem publish_working (s : State) : (publish s).working = s.working :=
  working_of_settings (publish_settings s)

/-! ### Parts that a frame leaves alone -/

theorem Frame.attention {a : List Part} {p : Nat → Prop} {s t : State} (f : Frame a p s t)
    (h : Part.attention ∉ a) : t.port.attention = s.port.attention := f.keeps .attention h

theorem Frame.order {a : List Part} {p : Nat → Prop} {s t : State} (f : Frame a p s t)
    (h : Part.order ∉ a) : t.port.order = s.port.order := f.keeps .order h

theorem Frame.settings {a : List Part} {p : Nat → Prop} {s t : State} (f : Frame a p s t)
    (h : Part.settings ∉ a) : t.settings = s.settings := f.keeps .settings h

theorem Frame.cycle {a : List Part} {p : Nat → Prop} {s t : State} (f : Frame a p s t)
    (h : Part.cycle ∉ a) : t.cycle = s.cycle := f.keeps .cycle h

theorem Frame.queue {a : List Part} {p : Nat → Prop} {s t : State} (f : Frame a p s t)
    (h : Part.queue ∉ a) : t.queue = s.queue := f.keeps .queue h

theorem Frame.mail {a : List Part} {p : Nat → Prop} {s t : State} (f : Frame a p s t)
    (h : Part.mail ∉ a) : t.mail = s.mail := f.keeps .mail h

theorem Frame.offers {a : List Part} {p : Nat → Prop} {s t : State} (f : Frame a p s t)
    (h : Part.offers ∉ a) : t.offers = s.offers := f.keeps .offers h

theorem Frame.fare {a : List Part} {p : Nat → Prop} {s t : State} (f : Frame a p s t)
    (h : Part.fare ∉ a) : t.fare = s.fare := f.keeps .fare h

theorem Frame.limiter {a : List Part} {p : Nat → Prop} {s t : State} (f : Frame a p s t)
    (h : Part.limiter ∉ a) : t.limiter = s.limiter := f.keeps .limiter h

theorem Frame.store {a : List Part} {p : Nat → Prop} {s t : State} (f : Frame a p s t)
    (h : Part.store ∉ a) : t.store = s.store := f.keeps .store h

theorem Frame.note {a : List Part} {p : Nat → Prop} {s t : State} (f : Frame a p s t)
    (h : Part.note ∉ a) : t.note = s.note := f.keeps .note h

theorem Frame.msgs {a : List Part} {p : Nat → Prop} {s t : State} (f : Frame a p s t)
    (h : Part.msgs ∉ a) : t.msgs = s.msgs := f.keeps .msgs h

theorem Frame.emergency {a : List Part} {p : Nat → Prop} {s t : State} (f : Frame a p s t)
    (h : Part.emergency ∉ a) : t.emergency = s.emergency := f.keeps .emergency h

theorem Frame.supply {a : List Part} {p : Nat → Prop} {s t : State} (f : Frame a p s t)
    (h : Part.supply ∉ a) : t.supply = s.supply := f.keeps .supply h

theorem Frame.link {a : List Part} {p : Nat → Prop} {s t : State} (f : Frame a p s t)
    (h : Part.link ∉ a) : t.link = s.link := f.keeps .link h

theorem Frame.rx {a : List Part} {p : Nat → Prop} {s t : State} (f : Frame a p s t)
    (h : Part.rx ∉ a) : t.rx = s.rx := f.keeps .rx h

theorem Frame.tx {a : List Part} {p : Nat → Prop} {s t : State} (f : Frame a p s t)
    (h : Part.tx ∉ a) : t.tx = s.tx := f.keeps .tx h

theorem Frame.time {a : List Part} {p : Nat → Prop} {s t : State} (f : Frame a p s t)
    (h : Part.time ∉ a) : t.time = s.time := f.keeps .time h

theorem Frame.due {a : List Part} {p : Nat → Prop} {s t : State} (f : Frame a p s t)
    (h : Part.due ∉ a) : t.due = s.due := f.keeps .due h

theorem Frame.chime {a : List Part} {p : Nat → Prop} {s t : State} (f : Frame a p s t)
    (h : Part.chime ∉ a) : t.chime = s.chime := f.keeps .chime h

theorem Frame.posCopy {a : List Part} {p : Nat → Prop} {s t : State} (f : Frame a p s t)
    (h : Part.posCopy ∉ a) : t.port.posCopy = s.port.posCopy := f.keeps .posCopy h

theorem Frame.lampTaken {a : List Part} {p : Nat → Prop} {s t : State} (f : Frame a p s t)
    (h : Part.lampTaken ∉ a) : t.lampTaken = s.lampTaken := f.keeps .lampTaken h

theorem Frame.running {a : List Part} {p : Nat → Prop} {s t : State} (f : Frame a p s t)
    (h : Part.settings ∉ a) : t.running = s.running := running_of_settings (f.settings h)

theorem Frame.working {a : List Part} {p : Nat → Prop} {s t : State} (f : Frame a p s t)
    (h : Part.settings ∉ a) : t.working = s.working := working_of_settings (f.settings h)

/-! ### Requests -/

/-- A byte outside the controller's areas and outside what a frame stores reads as before, so a hand does. -/
theorem Frame.hand {a : List Part} {p : Nat → Prop} {s t : State} (f : Frame a p s t) {base : Nat}
    (hc : ¬ controllerByte base) (hp : ¬ p base) : handAt t.ram base = handAt s.ram base := f.ram _ hc hp

/-- How a request ends after its owner's effect `u`: answered, with the frame of the whole. -/
theorem request_ends {code : Nat} {i : Slot} {rest : List Slot} {s u : State} {a : List Part} {p : Nat → Prop}
    {news : Word} (hr : Ready code i rest s) (f : Frame a p (s.taken rest) u)
    (hp : ∀ x, requestBase i ≤ x → x < requestBase i + 64 → ¬ p x) (ho : u.port.order = rest)
    (hf : u.cycle.fleet = s.cycle.fleet) (hn : u.port.attention = s.port.attention ||| news)
    (o : ReqOutcome) (d : Nat) :
    answered i rest o d news s (publish (completeRequest i o d u)) ∧
    Frame (withEnds (.order :: a)) (fun x => outcomeBytes i x ∨ p x) s (publish (completeRequest i o d u)) := by
  have hh : heldByCtl u.ram (requestBase i) = true := by
    have e := f.hand (base := requestBase i) (request_not_controller (i := i) (by omega) (by omega))
      (hp _ (by omega) (by omega))
    unfold heldByCtl
    rw [e]
    exact hr.hand
  have hw : Memory.wf u.ram = true := f.wf hr.wf
  have hc := completeRequest_completed hw hh o d
  rw [hf] at hc
  refine ⟨⟨?_, ?_, ?_⟩, ?_⟩
  · rw [publish_order, ← ho]
    exact (completeRequest_frame i o d u).keeps .order (by decide)
  · exact completed_of_frame hc (publish_frame _) fun _ _ _ => id
  · apply gains_publish
    rw [completeRequest_eq hh]
    change u.port.attention ||| News.reqDone.mask = _
    rw [hn, BitVec.or_assoc]
    exact congrArg _ (BitVec.or_comm _ _)
  · have g := ((taken_frame s rest).trans f).trans (completeRequest_frame i o d u)
    refine g.publish.mono ?_ ?_
    · simp [withEnds, ends]
      tauto
    · intro x hx
      unfold nothing at hx
      tauto

/-- A request that its owner answers with no effect of its own. -/
theorem request_plain {code : Nat} {i : Slot} {rest : List Slot} {s : State} (hr : Ready code i rest s)
    (o : ReqOutcome) (d : Nat) :
    answered i rest o d 0 s (publish (completeRequest i o d (s.taken rest))) ∧
    Frame (withEnds [.order]) (outcomeBytes i) s (publish (completeRequest i o d (s.taken rest))) := by
  have h := request_ends (news := 0) hr (Frame.refl (s.taken rest)) (fun _ _ _ => id) rfl rfl
    (BitVec.or_zero).symm o d
  exact ⟨h.1, h.2.mono (fun _ => id) fun x hx => hx.elim id False.elim⟩

/-- R11: the row of a request with one code, taken in RUNNING. -/
theorem request_judged {code : Nat} {i : Slot} {rest : List Slot} {s : State} {judge : Slot → State → State}
    (hr : Ready code i rest s) (h : s.running = true) :
    takeRequest (· == code) judge s = .next (publish (judge i (s.taken rest))) :=
  takeRequest_running hr.powered hr.order (by rw [hr.code]; simp) h

end Sys2Proof.Machine
end

