-- ==== Sys2Proof/Laws/Blocks.lean ====
section
/-! SUPPORT. What the end of an event leaves of a block that is current already, and the change counts of the
blocks rewritten outright. -/

namespace Sys2Proof.Machine

/-- A block that shows its fields is not rewritten. -/
theorem refreshBlock_current {c : Nat} {view : List Byte → List Byte} {fs : List Byte} {m : Memory}
    (h : view (shownFields c fs.length m) = view fs) : refreshBlock c view fs m = m := by
  unfold refreshBlock
  rw [if_pos h]

/-- The bytes of a block that shows its fields already, whatever stands in the other four. -/
theorem get_refreshBlocks_current (full : Bool) (s : State) (m : Memory) (a : Nat) :
    ((0x0100 ≤ a ∧ a < 0x0140 ∧ shownFields partBase 12 m = s.partFields) ∨
     (0x0140 ≤ a ∧ a < 0x0180 ∧ shownFields linkBase 28 m = s.linkFields) ∨
     (0x0180 ≤ a ∧ a < 0x01C0 ∧ shownFields meterBase 62 m = s.meterFields) ∨
     (0x01C0 ≤ a ∧ a < 0x0200 ∧ shownFields shiftBase 44 m = s.shiftFields) ∨
     (0x0220 ≤ a ∧ a < 0x0240 ∧ shownFields emergencyBase 18 m = s.emergencyFields)) →
    Memory.get (refreshBlocks full s m) a = Memory.get m a := by
  unfold refreshBlocks
  have lp := partFields_length s
  have ll := linkFields_length s
  have lm := meterFields_length s
  have ls := shiftFields_length s
  have le := emergencyFields_length s
  have b1 : partBase = 0x0100 := rfl
  have b2 : linkBase = 0x0140 := rfl
  have b3 : meterBase = 0x0180 := rfl
  have b4 : shiftBase = 0x01C0 := rfl
  have b5 : emergencyBase = 0x0220 := rfl
  intro h
  obtain ⟨h1, h2, h⟩ | ⟨h1, h2, h⟩ | ⟨h1, h2, h⟩ | ⟨h1, h2, h⟩ | ⟨h1, h2, h⟩ := h
  · rw [get_refreshBlock_other _ _ _ _ _ (by omega), get_refreshBlock_other _ _ _ _ _ (by omega),
      get_refreshBlock_other _ _ _ _ _ (by omega), get_refreshBlock_other _ _ _ _ _ (by omega),
      refreshBlock_current (by rw [lp, h])]
  · rw [get_refreshBlock_other _ _ _ _ _ (by omega), get_refreshBlock_other _ _ _ _ _ (by omega),
      get_refreshBlock_other _ _ _ _ _ (by omega), refreshBlock_current
        (by rw [ll, shown_refreshBlock_other _ _ _ _ _ _ (by omega), h]),
      get_refreshBlock_other _ _ _ _ _ (by omega)]
  · rw [get_refreshBlock_other _ _ _ _ _ (by omega), get_refreshBlock_other _ _ _ _ _ (by omega),
      refreshBlock_current (by
        rw [lm, shown_refreshBlock_other _ _ _ _ _ _ (by omega), shown_refreshBlock_other _ _ _ _ _ _ (by omega), h]),
      get_refreshBlock_other _ _ _ _ _ (by omega), get_refreshBlock_other _ _ _ _ _ (by omega)]
  · rw [get_refreshBlock_other _ _ _ _ _ (by omega),
      refreshBlock_current (by
        rw [ls, shown_refreshBlock_other _ _ _ _ _ _ (by omega), shown_refreshBlock_other _ _ _ _ _ _ (by omega),
          shown_refreshBlock_other _ _ _ _ _ _ (by omega), h]),
      get_refreshBlock_other _ _ _ _ _ (by omega), get_refreshBlock_other _ _ _ _ _ (by omega),
      get_refreshBlock_other _ _ _ _ _ (by omega)]
  · rw [refreshBlock_current (by
        rw [le, shown_refreshBlock_other _ _ _ _ _ _ (by omega), shown_refreshBlock_other _ _ _ _ _ _ (by omega),
          shown_refreshBlock_other _ _ _ _ _ _ (by omega), shown_refreshBlock_other _ _ _ _ _ _ (by omega), h]),
      get_refreshBlock_other _ _ _ _ _ (by omega), get_refreshBlock_other _ _ _ _ _ (by omega),
      get_refreshBlock_other _ _ _ _ _ (by omega), get_refreshBlock_other _ _ _ _ _ (by omega)]

theorem get_publishWith_below (full : Bool) (s : State) (a : Nat) (h : a < 0x0800) :
    Memory.get (publishWith full s).ram a = Memory.get (refreshBlocks full s s.ram) a := by
  rw [publishWith_ram]
  split
  · rw [refreshBoards_eq]
    generalize refreshBlocks full s s.ram = m
    generalize places8 = l
    induction l generalizing m with
    | nil => rfl
    | cons i l ih =>
      rw [List.foldl_cons, ih, get_refreshBoard_other _ _ _ _ (by unfold boardBase; omega)]
  · rfl

theorem readWord_eq {m n : Memory} {a : Nat} (h0 : Memory.get m a = Memory.get n a)
    (h1 : Memory.get m (a + 1) = Memory.get n (a + 1)) : Memory.readWord m a = Memory.readWord n a := by
  unfold Memory.readWord
  rw [Memory.read_congr]
  intro i hi
  match i, hi with
  | 0, _ => exact h0
  | 1, _ => exact h1

/-- R8: the change count of a block that shows its fields already stands as it is. -/
theorem count_publishWith {full : Bool} {u : State} {c : Nat}
    (h : (c = partBase ∧ shownFields partBase 12 u.ram = u.partFields) ∨
      (c = linkBase ∧ shownFields linkBase 28 u.ram = u.linkFields) ∨
      (c = meterBase ∧ shownFields meterBase 62 u.ram = u.meterFields) ∨
      (c = shiftBase ∧ shownFields shiftBase 44 u.ram = u.shiftFields) ∨
      (c = emergencyBase ∧ shownFields emergencyBase 18 u.ram = u.emergencyFields)) :
    Memory.readWord (publishWith full u).ram c = Memory.readWord u.ram c := by
  have b1 : partBase = 0x0100 := rfl
  have b2 : linkBase = 0x0140 := rfl
  have b3 : meterBase = 0x0180 := rfl
  have b4 : shiftBase = 0x01C0 := rfl
  have b5 : emergencyBase = 0x0220 := rfl
  have key : ∀ a, a = c ∨ a = c + 1 → Memory.get (publishWith full u).ram a = Memory.get u.ram a := by
    intro a ha
    rw [get_publishWith_below _ _ _ (by omega), get_refreshBlocks_current]
    obtain ⟨e, h⟩ | ⟨e, h⟩ | ⟨e, h⟩ | ⟨e, h⟩ | ⟨e, h⟩ := h
    · exact .inl ⟨by omega, by omega, h⟩
    · exact .inr (.inl ⟨by omega, by omega, h⟩)
    · exact .inr (.inr (.inl ⟨by omega, by omega, h⟩))
    · exact .inr (.inr (.inr (.inl ⟨by omega, by omega, h⟩)))
    · exact .inr (.inr (.inr (.inr ⟨by omega, by omega, h⟩)))
  exact readWord_eq (key c (.inl rfl)) (key (c + 1) (.inr rfl))

/-- R8: a block rewritten outright counts once, whatever the end of the event does. -/
theorem countUp_publish {s u v : State} {c : Nat} {fs : List Byte}
    (hw : Memory.wf s.ram = true) (hu : u.ram = rewriteBlock c fs s.ram)
    (hv : ∀ a, c ≤ a → a < c + 2 + fs.length → Memory.get v.ram a = Memory.get u.ram a)
    (h : (c = partBase ∧ fs = v.partFields) ∨ (c = linkBase ∧ fs = v.linkFields) ∨
      (c = meterBase ∧ fs = v.meterFields) ∨ (c = emergencyBase ∧ fs = v.emergencyFields)) :
    countUp c s (publish v) := by
  have hs : shownFields c fs.length v.ram = fs := by
    rw [shown_congr (m := u.ram) (m' := v.ram) fun a h1 h2 => hv a (by omega) (by omega), hu, shown_rewriteBlock hw]
  have hc : Memory.readWord v.ram c = (Memory.readWord s.ram c + 2) % 65536 := by
    have hlen : 0 < fs.length := by
      obtain ⟨-, rfl⟩ | ⟨-, rfl⟩ | ⟨-, rfl⟩ | ⟨-, rfl⟩ := h
      · rw [partFields_length]; decide
      · rw [linkFields_length]; decide
      · rw [meterFields_length]; decide
      · rw [emergencyFields_length]; decide
    rw [readWord_eq (m := v.ram) (n := u.ram) (hv _ (by omega) (by omega)) (hv _ (by omega) (by omega)), hu,
      count_rewriteBlock hw]
  unfold countUp
  rw [← hc]
  refine (count_publishWith ?_)
  obtain ⟨rfl, e⟩ | ⟨rfl, e⟩ | ⟨rfl, e⟩ | ⟨rfl, e⟩ := h
  · rw [e, partFields_length] at hs
    exact .inl ⟨rfl, hs⟩
  · rw [e, linkFields_length] at hs
    exact .inr (.inl ⟨rfl, hs⟩)
  · rw [e, meterFields_length] at hs
    exact .inr (.inr (.inl ⟨rfl, hs⟩))
  · rw [e, emergencyFields_length] at hs
    exact .inr (.inr (.inr (.inr ⟨rfl, hs⟩)))

/-- R7: what an exchange fault leaves once it is published. -/
theorem faulted_exchangeFault (off : Nat) {s : State} (h : Memory.wf s.ram = true) :
    faulted off s (publish (exchangeFault off s)) := by
  have f := exchangeFault_frame off s
  have hk := (publish_frame (exchangeFault off s)).keeps .faults (by decide)
  refine ⟨?_, ?_, gains_publish rfl, ?_, ?_, f.publish.mono (by decide) fun _ => id⟩
  · rw [hk.1]
    rfl
  · rw [hk.2]
    rfl
  · have e := (publishWith_blocksShown (f.wf h) false).1
    rwa [partFields_length] at e
  · exact countUp_publish (u := exchangeFault off s) (fs := (exchangeFault off s).partFields) h rfl
      (fun _ _ _ => rfl) (.inl ⟨rfl, rfl⟩)

/-! ### The board slots at the end of an event (R98) -/

/-- Bringing other slots up to date leaves the bytes of a slot alone. -/
theorem get_boards_foldl_other (o : OfferManager) (i : Place) (l : List Place) (hl : i ∉ l) (m : Memory) {a : Nat}
    (h1 : boardBase i + 2 ≤ a) (h2 : a < boardBase i + 96) :
    Memory.get (l.foldl (fun m i => refreshBoard o i m) m) a = Memory.get m a := by
  induction l generalizing m with
  | nil => rfl
  | cons j l ih =>
    rw [List.mem_cons, not_or] at hl
    rw [List.foldl_cons, ih hl.2]
    apply get_refreshBoard_other
    have := Fin.val_ne_of_ne hl.1
    unfold boardBase at *
    omega

theorem boardStale_congr {o : OfferManager} {i : Place} {m n : Memory}
    (h : ∀ a, boardBase i + 2 ≤ a → a < boardBase i + 96 → Memory.get n a = Memory.get m a) :
    boardStale o n i = boardStale o m i := by
  unfold boardStale
  rw [shown_congr fun a h1 h2 => h a (by omega) (by rw [boardFields_length] at h2; omega)]

/-- R8, R98: a board slot that is stale is rewritten once, under its change count; any other is left alone. -/
theorem refreshBoards_slot {m : Memory} (hm : Memory.wf m = true) (o : OfferManager) (i : Place) :
    (boardStale o m i = true → Memory.readWord (refreshBoards o m) (boardBase i + 2) =
      (Memory.readWord m (boardBase i + 2) + 2) % 65536) ∧
    (boardStale o m i = false → ∀ a, boardBase i + 2 ≤ a → a < boardBase i + 96 →
      Memory.get (refreshBoards o m) a = Memory.get m a) := by
  obtain ⟨l1, l2, hl, h1, h2⟩ : ∃ l1 l2, places8 = l1 ++ i :: l2 ∧ i ∉ l1 ∧ i ∉ l2 := by
    have hi : i ∈ places8 := by revert i; decide
    have hn : places8.Nodup := by decide
    obtain ⟨l1, l2, e⟩ := List.append_of_mem hi
    rw [e] at hn
    have hd := List.nodup_append.1 hn
    exact ⟨l1, l2, e, fun h => hd.2.2 _ h _ List.mem_cons_self rfl, (List.nodup_cons.1 hd.2.1).1⟩
  rw [refreshBoards_eq, hl, List.foldl_append, List.foldl_cons]
  have hw : Memory.wf (l1.foldl (fun m i => refreshBoard o i m) m) = true := by
    clear hl h1
    induction l1 generalizing m with
    | nil => exact hm
    | cons j l ih => exact ih (wf_refreshBlock hm _ _ _)
  have before : ∀ a, boardBase i + 2 ≤ a → a < boardBase i + 96 →
      Memory.get (l1.foldl (fun m i => refreshBoard o i m) m) a = Memory.get m a :=
    fun a => get_boards_foldl_other o i l1 h1 m
  generalize l1.foldl (fun m i => refreshBoard o i m) m = n at hw before
  rw [← boardStale_congr before]
  have after : ∀ a, boardBase i + 2 ≤ a → a < boardBase i + 96 →
      Memory.get (l2.foldl (fun m i => refreshBoard o i m) (refreshBoard o i n)) a =
        Memory.get (refreshBoard o i n) a := fun a => get_boards_foldl_other o i l2 h2 _
  refine ⟨fun h => ?_, fun h a ha hb => ?_⟩
  · have e : refreshBoard o i n = rewriteBlock (boardBase i + 2) (boardFields o i) n := by
      unfold refreshBoard
      obtain ⟨e, -⟩ | ⟨-, e⟩ := refreshBlock_cases (boardBase i + 2) id (boardFields o i) n
      · exact absurd e (by simpa [boardStale] using h)
      · exact e
    rw [readWord_eq (n := refreshBoard o i n) (after _ (by omega) (by omega)) (after _ (by omega) (by omega)), e,
      count_rewriteBlock hw, readWord_eq (n := m) (before _ (by omega) (by omega)) (before _ (by omega) (by omega))]
  · rw [after a ha hb, ← before a ha hb, refreshBoard, refreshBlock_current]
    simpa [boardStale] using h

end Sys2Proof.Machine
end

