-- ==== Sys2Proof/Laws/Queue.lean ====
section
/-! SUPPORT. What each operation of the Transmit Queue keeps (R70, R73, R77) and which entries it leaves. -/

namespace Sys2Proof.Machine

/-! ### Lawful queues -/

theorem mem_statusEntry {q : TransmitQueue} {e : Entry} (h : q.statusEntry = some e) :
    e ∈ q.entries ∧ e.kind = .cabStatus := by
  unfold TransmitQueue.statusEntry at h
  exact ⟨List.mem_of_find?_eq_some h, by simpa using List.find?_some h⟩

theorem no_statusEntry {q : TransmitQueue} (h : q.statusEntry = none) : ∀ e ∈ q.entries, e.kind ≠ .cabStatus := by
  unfold TransmitQueue.statusEntry at h
  intro e he
  simpa using (List.find?_eq_none.1 h) e he

/-- A status entry of a lawful queue is the one `statusEntry` finds. -/
theorem statusEntry_unique {q : TransmitQueue} (h : q.lawful) {e : Entry} (he : e ∈ q.entries)
    (hk : e.kind = .cabStatus) : q.statusEntry = some e := by
  cases hs : q.statusEntry with
  | none => exact absurd hk (no_statusEntry hs e he)
  | some d =>
    obtain ⟨hd, hdk⟩ := mem_statusEntry hs
    have h1 : d ∈ q.entries.filter fun e => e.kind == .cabStatus := by simp [hd, hdk]
    have h2 : e ∈ q.entries.filter fun e => e.kind == .cabStatus := by simp [he, hk]
    have hl := h.2.1
    generalize q.entries.filter (fun e => e.kind == .cabStatus) = l at h1 h2 hl
    match l, hl with
    | [x], _ =>
      rw [List.mem_singleton] at h1 h2
      rw [h1, h2]

/-- Entries with the same identity are the same. -/
theorem entry_of_id {q : TransmitQueue} (h : q.lawful) {a b : Entry} (ha : a ∈ q.entries)
    (hb : b ∈ q.entries) (hi : a.id = b.id) : a = b :=
  List.inj_on_of_nodup_map h.2.2.2.1 ha hb hi

theorem find_of_mem {q : TransmitQueue} (h : q.lawful) {e : Entry} (he : e ∈ q.entries) :
    q.find e.id = some e := by
  cases hf : q.find e.id with
  | none =>
    unfold TransmitQueue.find at hf
    exact absurd (List.find?_eq_none.1 hf e he) (by simp)
  | some d =>
    unfold TransmitQueue.find at hf
    rw [entry_of_id h (List.mem_of_find?_eq_some hf) he (by simpa using List.find?_some hf)]

theorem mem_of_find {q : TransmitQueue} {n : Nat} {e : Entry} (h : q.find n = some e) :
    e ∈ q.entries ∧ e.id = n := by
  unfold TransmitQueue.find at h
  exact ⟨List.mem_of_find?_eq_some h, by simpa using List.find?_some h⟩

theorem lawful_admit {q : TransmitQueue} (h : q.lawful) {kind : Uplink} (hl : q.entries.length < 12)
    (hs : kind = .cabStatus → ∀ e ∈ q.entries, e.kind ≠ .cabStatus)
    (hr : kind.isReport = true → ∀ e ∈ q.entries, e.kind.isReport = false) (tail : List Byte)
    (origin : Option Slot) (now : Stamp) : (q.enqueue kind tail origin now).lawful := by
  obtain ⟨h1, h2, h3, h4, h5⟩ := h
  refine ⟨?_, ?_, ?_, ?_, ?_⟩
  · simp [TransmitQueue.enqueue]
    omega
  · simp only [TransmitQueue.enqueue, List.filter_append, List.length_append]
    by_cases hk : kind = .cabStatus
    · have : q.entries.filter (fun e => e.kind == .cabStatus) = [] := by
        rw [List.filter_eq_nil_iff]
        intro e he
        simpa using hs hk e he
      rw [this]
      simp [hk]
    · simpa [hk] using h2
  · simp only [TransmitQueue.enqueue, List.filter_append, List.length_append]
    by_cases hk : kind.isReport = true
    · have : q.entries.filter (fun e => e.kind.isReport) = [] := by
        rw [List.filter_eq_nil_iff]
        intro e he
        simpa using hr hk e he
      rw [this]
      simp [hk]
    · simpa [hk] using h3
  · simp only [TransmitQueue.enqueue, List.map_append, List.map_cons, List.map_nil]
    rw [List.nodup_append]
    refine ⟨h4, by simp, ?_⟩
    intro a ha b hb
    rw [List.mem_map] at ha
    obtain ⟨e, he, rfl⟩ := ha
    rw [List.mem_singleton] at hb
    have := h5 e he
    omega
  · intro e he
    simp only [TransmitQueue.enqueue, List.mem_append, List.mem_singleton] at *
    obtain he | rfl := he
    · have := h5 e he
      omega
    · simp

theorem lawful_remove {q : TransmitQueue} (h : q.lawful) (id : Nat) : (q.remove id).lawful := by
  obtain ⟨h1, h2, h3, h4, h5⟩ := h
  have sub : (q.entries.filter fun e => e.id != id).Sublist q.entries := List.filter_sublist
  refine ⟨?_, ?_, ?_, ?_, ?_⟩
  · exact sub.length_le.trans h1
  · exact (sub.filter _).length_le.trans h2
  · exact (sub.filter _).length_le.trans h3
  · exact (sub.map _).nodup h4
  · exact fun e he => h5 e (sub.subset he)

/-- Entries changed in place, their identities and kinds kept. -/
theorem lawful_map {q : TransmitQueue} (h : q.lawful) (f : Entry → Entry) (hf : ∀ e, (f e).id = e.id)
    (hk : ∀ e, (f e).kind = e.kind) : ({ q with entries := q.entries.map f } : TransmitQueue).lawful := by
  obtain ⟨h1, h2, h3, h4, h5⟩ := h
  refine ⟨by simpa using h1, ?_, ?_, ?_, ?_⟩
  · simpa [List.filter_map, Function.comp_def, hk] using h2
  · simpa [List.filter_map, Function.comp_def, hk] using h3
  · simpa [Function.comp_def, hf] using h4
  · intro e he
    simp only [List.mem_map] at he
    obtain ⟨d, hd, rfl⟩ := he
    rw [hf]
    exact h5 d hd

theorem lawful_update {q : TransmitQueue} (h : q.lawful) (id : Nat) (f : Entry → Entry)
    (hf : ∀ e, (f e).id = e.id) (hk : ∀ e, (f e).kind = e.kind) : (q.update id f).lawful :=
  lawful_map h _ (fun e => by split <;> simp [hf]) (fun e => by split <;> simp [hk])

/-- The mark, the timer and the next sequence number have no part in the law. -/
theorem lawful_of_entries {q r : TransmitQueue} (h : q.lawful) (he : r.entries = q.entries)
    (hn : r.nextId = q.nextId) : r.lawful := by
  unfold TransmitQueue.lawful at *
  rw [he, hn]
  exact h

theorem lawful_rewriteStatus {q : TransmitQueue} (h : q.lawful) (id : Nat) (tail : List Byte) (now : Stamp) :
    (q.rewriteStatus id tail now).lawful :=
  lawful_of_entries (r := q.rewriteStatus id tail now)
    (lawful_update h id (fun e =>
      { e with seq := q.nextSeq, payload := byte q.nextSeq :: tail, attempts := 0, created := now })
      (fun _ => rfl) (fun _ => rfl)) rfl rfl

/-! ### The cab's status (R76, R77) -/

theorem lawful_placeStatus {q : TransmitQueue} (h : q.lawful) (tail : List Byte) (now : Stamp) :
    (placeStatus tail now q).lawful := by
  unfold placeStatus
  split
  · split
    · exact lawful_of_entries h rfl rfl
    · exact lawful_rewriteStatus h _ _ _
  · rename_i hs
    split
    · rename_i hl
      exact lawful_admit h hl (fun _ => no_statusEntry hs) (by simp [Uplink.isReport]) _ _ _
    · exact lawful_of_entries h rfl rfl

/-- R77: a mark that can be resolved is cleared by the placing. -/
theorem placeStatus_resolves {q : TransmitQueue} (h : q.resolvable = true) (tail : List Byte) (now : Stamp) :
    (placeStatus tail now { q with pending := false }).pending = false := by
  unfold TransmitQueue.resolvable at h
  unfold placeStatus
  have hs : ({ q with pending := false } : TransmitQueue).statusEntry = q.statusEntry := rfl
  rw [hs]
  cases he : q.statusEntry with
  | none =>
    rw [he] at h
    simp only [Bool.and_eq_true, decide_eq_true_eq] at h
    simp [h.2, TransmitQueue.enqueue]
  | some e =>
    rw [he] at h
    simp only [Bool.and_eq_true, Bool.not_eq_true'] at h
    simp [h.2, TransmitQueue.rewriteStatus, TransmitQueue.update]

theorem takePosition_queue (s : State) : (takePosition s).queue = s.queue := by
  obtain ⟨c, h⟩ := takePosition_eq s
  rw [h]

theorem takePosition_cycle (s : State) : (takePosition s).cycle = s.cycle := by
  obtain ⟨c, h⟩ := takePosition_eq s
  rw [h]

/-- R77: the queue after the resolution of the mark. -/
theorem resolvePending_queue (s : State) : (resolvePending s).queue =
    if s.queue.resolvable then
      placeStatus (statusTail (takePosition s)) s.cycle.fleet { s.queue with pending := false }
    else s.queue := by
  unfold resolvePending
  split
  · dsimp only
    rw [takePosition_queue, takePosition_cycle]
  · rfl

theorem queueSound_resolvePending {s : State} (h : s.queue.lawful) : (resolvePending s).queueSound := by
  unfold State.queueSound
  rw [resolvePending_queue]
  split
  · rename_i hr
    refine ⟨lawful_placeStatus (q := { s.queue with pending := false }) (lawful_of_entries h rfl rfl) _ _, ?_⟩
    unfold TransmitQueue.resolvable
    rw [placeStatus_resolves hr]
    rfl
  · rename_i hr
    exact ⟨h, by simpa using hr⟩

/-! ### The status timer (R76) -/

theorem placeStatus_timer (tail : List Byte) (now : Stamp) (q : TransmitQueue) :
    (placeStatus tail now q).timer = q.timer := by
  unfold placeStatus
  split
  · split <;> rfl
  · split <;> rfl

theorem resolvePending_timer (s : State) : (resolvePending s).queue.timer = s.queue.timer := by
  rw [resolvePending_queue]
  split
  · exact placeStatus_timer _ _ _
  · rfl

/-! ### Status triggers -/

theorem statusTrigger_running {s : State} (h : s.running = true) : statusTrigger s =
    resolvePending { takePosition s with
      queue := placeStatus (statusTail (takePosition s)) s.cycle.fleet s.queue } := by
  unfold statusTrigger
  rw [if_pos h]
  dsimp only
  rw [takePosition_queue, takePosition_cycle]

theorem statusTrigger_config {s : State} (h : s.running = false) : statusTrigger s = s := by
  unfold statusTrigger
  rw [h]
  rfl

theorem queueSound_statusTrigger {s : State} (h : s.queueSound) : (statusTrigger s).queueSound := by
  cases hr : s.running
  · rw [statusTrigger_config hr]
    exact h
  · rw [statusTrigger_running hr]
    exact queueSound_resolvePending (lawful_placeStatus h.1 _ _)

/-- R79: the Transmit Queue has a state whose mark cannot be resolved once a status trigger has been given. -/
theorem queueSound_of_queue {s t : State} (h : s.queueSound) (hq : t.queue = s.queue) : t.queueSound := by
  unfold State.queueSound at *
  rw [hq]
  exact h

/-! ### Admission (R73, R74, R75) -/

theorem queueSound_admitHost {kind : Uplink} {s : State} (h : s.queueSound) (hl : s.queue.entries.length < 8)
    (hs : kind ≠ .cabStatus) (hr : kind.isReport = false) (tail : List Byte) (origin : Option Slot) :
    (admitHost kind tail origin s).queueSound :=
  queueSound_resolvePending
    (lawful_admit h.1 (by omega) (fun e => absurd e hs) (fun e => absurd e (by simp [hr])) _ _ _)

theorem holdsReport_false {q : TransmitQueue} (h : q.holdsReport = false) :
    ∀ e ∈ q.entries, e.kind.isReport = false := by
  unfold TransmitQueue.holdsReport at h
  simpa using h

theorem roomForReport_true {q : TransmitQueue} (h : q.roomForReport = true) :
    q.entries.length < 12 ∧ ∀ e ∈ q.entries, e.kind.isReport = false := by
  unfold TransmitQueue.roomForReport at h
  simp only [Bool.and_eq_true, Bool.not_eq_true', decide_eq_true_eq] at h
  exact ⟨h.2, holdsReport_false h.1⟩

theorem reportKind_isReport (r : FareRecord) : r.reportKind.isReport = true := by cases r <;> rfl

theorem reportKind_ne (r : FareRecord) : r.reportKind ≠ .cabStatus := by cases r <;> simp [FareRecord.reportKind]

theorem lawful_admitReport {s : State} (h : s.queue.lawful) (hr : s.queue.roomForReport = true)
    (r : FareRecord) (tail : List Byte) : (s.queue.enqueue r.reportKind tail none s.cycle.fleet).lawful :=
  lawful_admit h (roomForReport_true hr).1 (fun e => absurd e (reportKind_ne r))
    (fun _ => (roomForReport_true hr).2) _ _ _

/-- R157: the Record Store offers its next report. -/
def State.feedReady (s : State) : Bool :=
  s.running && s.store.reports && s.note.isNone && s.queue.roomForReport

theorem reportFeed_some {s : State} (h : s.feedReady = true) {r : HeldRecord}
    (hr : s.store.firstUnreported = some r) : reportFeed s =
      resolvePending { s with
        queue := s.queue.enqueue r.record.reportKind (reportTail r) none s.cycle.fleet, note := some r.seq } := by
  unfold State.feedReady at h
  unfold reportFeed
  rw [if_pos h, hr]

theorem reportFeed_none {s : State} (h : s.feedReady = false ∨ s.store.firstUnreported = none) :
    reportFeed s = s := by
  unfold State.feedReady at h
  unfold reportFeed
  obtain h | h := h
  · rw [h]
    rfl
  · rw [h]
    split <;> rfl

theorem queueSound_reportFeed {s : State} (h : s.queueSound) : (reportFeed s).queueSound := by
  cases hf : s.feedReady with
  | false => rwa [reportFeed_none (.inl hf)]
  | true =>
    cases hr : s.store.firstUnreported with
    | none => rwa [reportFeed_none (.inr hr)]
    | some r =>
      rw [reportFeed_some hf hr]
      unfold State.feedReady at hf
      simp only [Bool.and_eq_true] at hf
      exact queueSound_resolvePending (lawful_admitReport h.1 hf.2 _ _)

/-- R157: the note after the feed. -/
theorem reportFeed_note (s : State) : (reportFeed s).note =
    if s.feedReady then s.store.firstUnreported.map (·.seq) else s.note := by
  cases hf : s.feedReady with
  | false =>
    rw [reportFeed_none (.inl hf)]
    rfl
  | true =>
    cases hr : s.store.firstUnreported with
    | none =>
      rw [reportFeed_none (.inr hr)]
      unfold State.feedReady at hf
      simp only [Bool.and_eq_true, Option.isNone_iff_eq_none] at hf
      simp [hf.1.2]
    | some r =>
      rw [reportFeed_some hf hr]
      obtain ⟨c, q, h⟩ := resolvePending_eq
        { s with
          queue := s.queue.enqueue r.record.reportKind (reportTail r) none s.cycle.fleet
          note := some r.seq }
      rw [h]
      rfl

theorem statusTrigger_timer (s : State) : (statusTrigger s).queue.timer = s.queue.timer := by
  cases hr : s.running
  · rw [statusTrigger_config hr]
  · rw [statusTrigger_running hr, resolvePending_timer]
    exact placeStatus_timer _ _ _

theorem reportFeed_timer (s : State) : (reportFeed s).queue.timer = s.queue.timer := by
  unfold reportFeed
  split
  · split
    · rfl
    · rw [resolvePending_timer]
      rfl
  · rfl

/-! ### A controller's frame (R73, R74) -/

theorem displaceable_mem {q : TransmitQueue} {e : Entry} (h : displaceable q = some e) : e ∈ q.entries := by
  unfold displaceable at h
  split at h
  · rename_i d hd
    exact Option.some.inj h ▸ List.mem_of_find?_eq_some hd
  · exact List.mem_of_find?_eq_some h

theorem remove_length_lt {q : TransmitQueue} {e : Entry} (h : e ∈ q.entries) :
    (q.remove e.id).entries.length < q.entries.length := by
  unfold TransmitQueue.remove
  rw [List.length_filter_lt_length_iff_exists]
  exact ⟨e, h, by simp⟩

theorem tellMaker_queue (e : Entry) (done : Bool) (s : State) : (tellMaker e done s).queue = s.queue := by
  obtain ⟨u, n, r, h⟩ := tellMaker_eq e done s
  rw [h]

theorem displace_queue (e : Entry) (s : State) : (displace e s).queue.entries = (s.queue.remove e.id).entries ∧
    (displace e s).queue.nextId = s.queue.nextId ∧ (displace e s).queue.nextSeq = s.queue.nextSeq := by
  unfold displace
  dsimp only
  split
  · exact ⟨rfl, rfl, rfl⟩
  · rw [tellMaker_queue]
    exact ⟨rfl, rfl, rfl⟩

theorem lawful_displaced {s : State} (h : s.queue.lawful) {e : Entry} (he : e ∈ s.queue.entries)
    {kind : Uplink} (hs : kind ≠ .cabStatus) (hr : kind.isReport = false) (tail : List Byte)
    (origin : Option Slot) (now : Stamp) : ((displace e s).queue.enqueue kind tail origin now).lawful := by
  obtain ⟨h1, h2, h3⟩ := displace_queue e s
  apply lawful_admit (lawful_of_entries (lawful_remove h e.id) h1 h2)
  · rw [h1]
    have := remove_length_lt he
    have := h.1
    omega
  · exact fun x => absurd x hs
  · exact fun x => absurd x (by simp [hr])

theorem queueSound_admitController {kind : Uplink} {s : State} (h : s.queueSound) (hs : kind ≠ .cabStatus)
    (hr : kind.isReport = false) (tail : List Byte) : (admitController kind tail s).queueSound := by
  unfold admitController
  split
  · exact h
  · split
    · rename_i hl
      exact queueSound_resolvePending
        (lawful_admit h.1 hl (fun e => absurd e hs) (fun e => absurd e (by simp [hr])) _ _ _)
    · split
      · exact h
      · rename_i e he
        exact queueSound_resolvePending (lawful_displaced h.1 (displaceable_mem he) hs hr _ _ _)

/-! ### Removals and outcomes (R79, R81) -/

theorem queueSound_afterRemoval {s : State} (h : s.queue.lawful) (before : TransmitQueue) :
    (afterRemoval before s).queueSound := by
  unfold afterRemoval noticeOfRoom
  split
  · exact queueSound_reportFeed (queueSound_resolvePending h)
  · exact queueSound_resolvePending h

theorem queueSound_removeAccept {s : State} (h : s.queueSound) (n : Nat) :
    (removeAccept n s).queueSound := by
  unfold removeAccept
  split
  · exact h
  · exact queueSound_afterRemoval (lawful_remove h.1 _) _

theorem lawful_attemptMissed {s : State} (h : s.queue.lawful) (e : Entry) :
    (attemptMissed e s).queue.lawful := by
  unfold attemptMissed
  split
  · rw [tellMaker_queue]
    exact lawful_remove h _
  · exact lawful_update h _ _ (fun _ => rfl) (fun _ => rfl)

theorem lawful_entryTakesOutcome {s : State} (h : s.queue.lawful) (e : Entry) (o : FrameOutcome) :
    (entryTakesOutcome e o s).queue.lawful := by
  unfold entryTakesOutcome
  split
  · rw [tellMaker_queue]
    exact lawful_remove h _
  · exact lawful_attemptMissed h e
  · exact lawful_attemptMissed h e
  · exact lawful_update h _ _ (fun _ => rfl) (fun _ => rfl)
  · exact lawful_update h _ _ (fun _ => rfl) (fun _ => rfl)

theorem queueSound_queueTakesOutcome {s : State} (h : s.queueSound) (id : Nat) (o : FrameOutcome) :
    (queueTakesOutcome id o s).queueSound := by
  unfold queueTakesOutcome
  split
  · exact h
  · exact queueSound_afterRemoval (lawful_entryTakesOutcome h.1 _ _) _

theorem queueSound_drainQueueOuts (l : List (Nat × FrameOutcome)) {s : State} (h : s.queueSound) :
    (drainQueueOuts l s).queueSound := by
  induction l generalizing s with
  | nil => exact h
  | cons x l ih => exact ih (queueSound_queueTakesOutcome h _ _)

/-- R79: the queue's outcomes touch the queue, the position copy, the report note and the mail. -/
theorem drainQueueOuts_eq (l : List (Nat × FrameOutcome)) (s : State) :
    ∃ c q n m, drainQueueOuts l s =
      { s with port := { s.port with posCopy := c }, queue := q, note := n, mail := m } := by
  induction l generalizing s with
  | nil => exact ⟨s.port.posCopy, s.queue, s.note, s.mail, rfl⟩
  | cons x l ih =>
    obtain ⟨c, q, n, m, h⟩ := queueTakesOutcome_eq x.1 x.2 s
    obtain ⟨c', q', n', m', h'⟩ := ih (queueTakesOutcome x.1 x.2 s)
    refine ⟨c', q', n', m', ?_⟩
    change drainQueueOuts l (queueTakesOutcome x.1 x.2 s) = _
    rw [h', h]

end Sys2Proof.Machine
end

