-- ==== Sys2Proof/Laws/Effects.lean ====
section
/-! SUPPORT. What the effect of each command touches: one frame for each effect, before it is published. -/

namespace Sys2Proof.Machine

/-- An effect that may be left out. -/
theorem Frame.refl_of {a : List Part} {p : Nat → Prop} (s : State) : Frame a p s s :=
  (Frame.refl s).mono (by simp) fun _ => False.elim

/-- A condition between two effects with one frame. -/
theorem Frame.ite {a : List Part} {p : Nat → Prop} {s t u : State} {c : Prop} [Decidable c]
    (h : Frame a p s t) (k : Frame a p s u) : Frame a p s (if c then t else u) := by
  split <;> assumption

/-! ### The Radio Port -/

theorem mailRxError_frame (e : RxError) (s : State) : Frame [.mail] nothing s (mailRxError e s) :=
  .of_keeps (fun p hp => by cases p <;> first | rfl | exact absurd (by decide) hp | exact ⟨rfl, rfl⟩) rfl

theorem backToHunt_frame (s : State) : Frame [.rx] nothing s (backToHunt s) :=
  .of_keeps (fun p hp => by cases p <;> first | rfl | exact absurd (by decide) hp | exact ⟨rfl, rfl⟩) rfl

theorem reportRx_eq (e : RxError) (s : State) : reportRx e s = { s with
    mail := { s.mail with rxErrors := s.mail.rxErrors ++ (if s.running then [e] else []) } } := by
  unfold reportRx
  split
  · rfl
  · simp

theorem syncTaken_frame (s : State) : Frame [.rx, .mail] nothing s (syncTaken s) := by
  unfold syncTaken
  dsimp only
  split
  · split <;> exact .of_keeps (fun p hp => by cases p <;> first | rfl | exact absurd (by decide) hp | exact ⟨rfl, rfl⟩) rfl
  · exact .of_keeps (fun p hp => by cases p <;> first | rfl | exact absurd (by decide) hp | exact ⟨rfl, rfl⟩) rfl

theorem receiveBits_frame (bits : List Bool) (s : State) : Frame [.rx, .mail] nothing s (receiveBits bits s) := by
  unfold receiveBits
  split
  · exact syncTaken_frame s
  · exact .of_keeps (fun p hp => by cases p <;> first | rfl | exact absurd (by decide) hp | exact ⟨rfl, rfl⟩) rfl

theorem headerTaken_frame (h : Header) (s : State) : Frame [.rx, .mail] nothing s (headerTaken h s) := by
  unfold headerTaken
  split
  · rw [reportRx_eq]
    exact .of_keeps (fun p hp => by cases p <;> first | rfl | exact absurd (by decide) hp | exact ⟨rfl, rfl⟩) rfl
  · exact .of_keeps (fun p hp => by cases p <;> first | rfl | exact absurd (by decide) hp | exact ⟨rfl, rfl⟩) rfl

theorem frameEnded_frame (payload : List Byte) (crc : Word) (s : State) :
    Frame [.rx, .mail] nothing s (frameEnded payload crc s) := by
  unfold frameEnded
  dsimp only
  split
  · split <;> exact .of_keeps (fun p hp => by cases p <;> first | rfl | exact absurd (by decide) hp | exact ⟨rfl, rfl⟩) rfl
  · exact .of_keeps (fun p hp => by cases p <;> first | rfl | exact absurd (by decide) hp | exact ⟨rfl, rfl⟩) rfl

theorem clockLost_frame (s : State) : Frame [.rx, .mail] nothing s (clockLost s) := by
  unfold clockLost
  split
  · exact Frame.refl_of s
  · exact .of_keeps (fun p hp => by cases p <;> first | rfl | exact absurd (by decide) hp | exact ⟨rfl, rfl⟩) rfl
  · rw [reportRx_eq]
    exact .of_keeps (fun p hp => by cases p <;> first | rfl | exact absurd (by decide) hp | exact ⟨rfl, rfl⟩) rfl

theorem takenByOwner_frame (s : State) : Frame [.rx] nothing s (takenByOwner s) :=
  .of_keeps (fun p hp => by cases p <;> first | rfl | exact absurd (by decide) hp | exact ⟨rfl, rfl⟩) rfl

theorem takenByLink_frame (s : State) : Frame [.rx] nothing s (takenByLink s) :=
  .of_keeps (fun p hp => by cases p <;> first | rfl | exact absurd (by decide) hp | exact ⟨rfl, rfl⟩) rfl

theorem heldForOwner_some {s : State} {h : HeldFrame} (hh : heldForOwner s = some h) :
    s.rx.held = some h ∧ h.forOwner = true := by
  unfold heldForOwner at hh
  split at hh
  · rename_i x hx
    split at hh
    · rename_i ho
      cases hh
      exact ⟨hx, ho⟩
    · cases hh
  · cases hh

/-- R39: the owner takes the frame the routing holds for it. -/
theorem takenByOwner_rx {s : State} {h : HeldFrame} (hh : heldForOwner s = some h) :
    releasedBy h s (takenByOwner s) := by
  unfold releasedBy takenByOwner
  rw [(heldForOwner_some hh).1]
  simp only [Option.bind_some, HeldFrame.released, Bool.or_false]

theorem cutSending_eq (c : CutCause) (s : State) : cutSending c s = { s with
    tx := { s.tx with shifter := .idle }
    mail := { s.mail with
      sendReports := s.mail.sendReports ++ (if s.tx.shifter = .idle then [] else [.cut c]) } } := by
  unfold cutSending
  split
  · rename_i h
    rw [← h]
    simp
  · rfl

theorem cutSending_frame (c : CutCause) (s : State) : Frame [.tx, .mail] nothing s (cutSending c s) := by
  rw [cutSending_eq]
  exact .of_keeps (fun p hp => by cases p <;> first | rfl | exact absurd (by decide) hp | exact ⟨rfl, rfl⟩) rfl

theorem tx_frame (x : Transmitter) (s : State) : Frame [.tx] nothing s { s with tx := x } :=
  .of_keeps (fun p hp => by cases p <;> first | rfl | exact absurd (by decide) hp | exact ⟨rfl, rfl⟩) rfl

theorem chime_frame (x : Chime) (s : State) : Frame [.chime] nothing s { s with chime := x } :=
  .of_keeps (fun p hp => by cases p <;> first | rfl | exact absurd (by decide) hp | exact ⟨rfl, rfl⟩) rfl

theorem due_frame (x : Due) (s : State) : Frame [.due] nothing s { s with due := x } :=
  .of_keeps (fun p hp => by cases p <;> first | rfl | exact absurd (by decide) hp | exact ⟨rfl, rfl⟩) rfl

/-! ### The Link Quality Unit -/

theorem link_frame (x : LinkUnit) (s : State) : Frame [.link] nothing s { s with link := x } :=
  .of_keeps (fun p hp => by cases p <;> first | rfl | exact absurd (by decide) hp | exact ⟨rfl, rfl⟩) rfl

/-- R88, R91: the link state derived afresh. -/
theorem relink_eq (s : State) : relink s =
    newsIf (deriveLink (!s.running) s.link != s.link.state) .link
      { s with link := { s.link with state := deriveLink (!s.running) s.link } } := rfl

theorem relink_frame (s : State) : Frame [.link, .attention] nothing s (relink s) := by
  rw [relink_eq]
  exact (link_frame _ s).then (newsIf_frame _ .link _)

theorem loggedChange_frame (f : LinkUnit → LinkUnit) (s : State) :
    Frame [.link, .attention] nothing s (loggedChange f s) := by
  unfold loggedChange
  obtain ⟨u, hu, h⟩ : ∃ u, Frame [.link, .attention] nothing s u ∧
      newsIf s.link.overflows .logOverflow { s with link := f s.link } = u := by
    exact ⟨_, (link_frame _ s).then (newsIf_frame _ .logOverflow _), rfl⟩
  rw [h]
  exact (hu.then (relink_frame u)).mono (by decide) fun _ => id

theorem linkTakesOutcome_frame (q : Bool) (o : FrameOutcome) (s : State) :
    Frame [.link, .attention] nothing s (linkTakesOutcome q o s) := by
  unfold linkTakesOutcome
  split
  · split
    · obtain ⟨u, hu, h⟩ : ∃ u, Frame [.link, .attention] nothing s u ∧
          { s with link := s.link.acknowledged } = u := ⟨_, by exact .of_keeps (fun p hp => by cases p <;> first | rfl | exact absurd (by decide) hp | exact ⟨rfl, rfl⟩) rfl, rfl⟩
      rw [h]
      exact (hu.then (relink_frame u)).mono (by decide) fun _ => id
    · exact loggedChange_frame _ s
    · exact Frame.refl_of s
  · exact Frame.refl_of s

theorem linkTakesSyncLost_frame (s : State) : Frame [.link, .attention] nothing s (linkTakesSyncLost s) := by
  unfold linkTakesSyncLost
  obtain ⟨u, hu, h⟩ : ∃ u, Frame [.link, .attention] nothing s u ∧
      { s with link := { s.link with searching := true, lastError := .syncLost } } = u := ⟨_, by exact .of_keeps (fun p hp => by cases p <;> first | rfl | exact absurd (by decide) hp | exact ⟨rfl, rfl⟩) rfl, rfl⟩
  rw [h]
  exact (hu.then (relink_frame u)).mono (by decide) fun _ => id

theorem linkTakesMiss_frame (s : State) : Frame [.link, .attention] nothing s (linkTakesMiss s) :=
  loggedChange_frame _ s

theorem linkTakes_frame (r : LinkReport) (s : State) : Frame [.link, .attention] nothing s (linkTakes r s) := by
  cases r
  · exact linkTakesMiss_frame s
  · exact linkTakesSyncLost_frame s
  · exact linkTakesOutcome_frame _ _ s

theorem drainLinkReports_frame (l : List LinkReport) (s : State) :
    Frame [.link, .attention] nothing s (drainLinkReports l s) := by
  induction l generalizing s with
  | nil => exact Frame.refl_of s
  | cons r l ih => exact ((linkTakes_frame r s).then (ih _)).mono (by decide) fun _ => id

/-! ### Deliveries of the Cycle Tracker -/

/-- R66: a settled outcome goes to its owner, and but for NOT_SENT and ABANDONED to the Link Quality Unit. -/
theorem deliver_eq (owner : Owner) (o : FrameOutcome) (s : State) : deliver owner o s = { s with mail :=
    { s.mail with
      linkReports := s.mail.linkReports ++ (match o with
        | .notSent => []
        | .abandoned => []
        | _ => [.outcome owner.isQueue o])
      queueOuts := s.mail.queueOuts ++ (match owner with
        | .queue id => [(id, o)]
        | .call _ => [])
      callOuts := s.mail.callOuts ++ (match owner with
        | .queue _ => []
        | .call _ => [o]) } } := by
  unfold deliver mailQueueOut mailCallOut mailLink Owner.isQueue
  cases owner <;> cases o <;> simp

/-- R66: the record returns to NONE and the outcome is delivered. -/
theorem settle_eq (o : FrameOutcome) (s : State) : settle o s =
    deliver s.cycle.inFlight.owner o { s with cycle := { s.cycle with inFlight := {} } } := rfl

theorem settle_frame (o : FrameOutcome) (s : State) : Frame [.cycle, .mail] nothing s (settle o s) := by
  rw [settle_eq, deliver_eq]
  exact .of_keeps (fun p hp => by cases p <;> first | rfl | exact absurd (by decide) hp | exact ⟨rfl, rfl⟩) rfl

theorem backoff_frame (s : State) : Frame [.cycle] nothing s (backoff s) :=
  .of_keeps (fun p hp => by cases p <;> first | rfl | exact absurd (by decide) hp | exact ⟨rfl, rfl⟩) rfl

theorem countOutcome_frame (w : Owner) (o : FrameOutcome) (s : State) :
    Frame [.cycle] nothing s (countOutcome w o s) := by
  unfold countOutcome
  split
  · split
    · exact backoff_frame s
    · exact .of_keeps (fun p hp => by cases p <;> first | rfl | exact absurd (by decide) hp | exact ⟨rfl, rfl⟩) rfl
    · exact Frame.refl_of s
  · exact Frame.refl_of s

theorem settleByBeacon_frame (acks : List Nat) (s : State) :
    Frame [.cycle, .mail] nothing s (settleByBeacon acks s) := by
  unfold settleByBeacon
  split
  · exact Frame.refl_of s
  · exact ((settle_frame _ s).then (countOutcome_frame _ _ _)).mono (by decide) fun _ => id

theorem settleByMiss_frame (s : State) : Frame [.cycle, .mail] nothing s (settleByMiss s) := by
  unfold settleByMiss
  split
  · exact Frame.refl_of s
  · exact settle_frame _ s

/-! ### The Emergency Unit -/

theorem takePosition_frame (s : State) : Frame [.posCopy] nothing s (takePosition s) := by
  obtain ⟨c, h⟩ := takePosition_eq s
  rw [h]
  exact .of_keeps (fun p hp => by cases p <;> first | rfl | exact absurd (by decide) hp | exact ⟨rfl, rfl⟩) rfl

theorem handChange_frame (leaving : Bool) (s : State) : Frame [.mail] nothing s (handChange leaving s) := by
  cases leaving <;> exact .of_keeps (fun p hp => by cases p <;> first | rfl | exact absurd (by decide) hp | exact ⟨rfl, rfl⟩) rfl

/-- A change of the unit with its block rewritten. -/
theorem emergencyChange_frame (e : EmergencyUnit) (s : State) :
    Frame [.emergency, .ram] nothing s (rewriteEmergency { s with emergency := e }) := by
  obtain ⟨u, hu, h⟩ : ∃ u, Frame [.emergency] nothing s u ∧ { s with emergency := e } = u :=
    ⟨_, by exact .of_keeps (fun p hp => by cases p <;> first | rfl | exact absurd (by decide) hp | exact ⟨rfl, rfl⟩) rfl, rfl⟩
  rw [h]
  exact hu.then (rewriteEmergency_frame u)

theorem trigger_frame (src : TriggerSource) (s : State) :
    Frame [.emergency, .ram, .attention, .mail] nothing s (trigger src s) := by
  unfold trigger
  split
  · exact (((emergencyChange_frame _ s).then (setNews_frame .emergency _)).then
      (handChange_frame true _)).mono (by decide) fun _ => id
  · exact (emergencyChange_frame _ s).mono (by decide) fun _ => id

theorem inputSample_frame (low : Bool) (s : State) :
    Frame [.emergency, .due, .ram, .attention, .mail] nothing s (inputSample low s) := by
  unfold inputSample
  dsimp only
  obtain ⟨u, hu, h⟩ : ∃ u, Frame [.emergency, .due] nothing s u ∧
      { s with
        emergency := (s.emergency.sampled s.working.debounce low).2
        due := { s.due with inputSamples := s.due.inputSamples - 1 } } = u := ⟨_, by exact .of_keeps (fun p hp => by cases p <;> first | rfl | exact absurd (by decide) hp | exact ⟨rfl, rfl⟩) rfl, rfl⟩
  rw [h]
  split
  · exact (hu.then (trigger_frame _ u)).mono (by decide) fun _ => id
  · exact hu.mono (by decide) fun _ => id

theorem takesCallOutcome_frame (o : FrameOutcome) (s : State) :
    Frame [.emergency, .ram] nothing s (takesCallOutcome o s) := by
  unfold takesCallOutcome
  split
  · exact emergencyChange_frame _ s
  · exact Frame.refl_of s

theorem drainCallOuts_frame (l : List FrameOutcome) (s : State) :
    Frame [.emergency, .ram] nothing s (drainCallOuts l s) := by
  induction l generalizing s with
  | nil => exact Frame.refl_of s
  | cons o l ih => exact ((takesCallOutcome_frame o s).then (ih _)).mono (by decide) fun _ => id

theorem mail_frame (m : Mail) (s : State) : Frame [.mail] nothing s { s with mail := m } :=
  .of_keeps (fun p hp => by cases p <;> first | rfl | exact absurd (by decide) hp | exact ⟨rfl, rfl⟩) rfl

theorem callOutcomeTaken_frame (s : State) :
    Frame [.mail, .emergency, .ram] nothing s (callOutcomeTaken s) := by
  unfold callOutcomeTaken
  split
  · exact Frame.refl_of s
  · exact (mail_frame _ s).then (takesCallOutcome_frame _ _)

theorem takeAck_frame (a : Stamp) (s : State) :
    Frame [.emergency, .ram, .attention] nothing s (takeAck a s) := by
  unfold takeAck
  split
  · exact (emergencyChange_frame _ s).then (setNews_frame .emergency _)
  · exact Frame.refl_of s

theorem takeClear_frame (s : State) :
    Frame [.emergency, .ram, .attention, .chime, .mail] nothing s (takeClear s) := by
  unfold takeClear
  split
  · exact Frame.refl_of s
  · exact ((((emergencyChange_frame _ s).then (setNews_frame .emergency _)).then
      (requestChime_frame _)).then (handChange_frame false _))

theorem trackingExpired_frame (s : State) : Frame [.emergency] nothing s (trackingExpired s) :=
  .of_keeps (fun p hp => by cases p <;> first | rfl | exact absurd (by decide) hp | exact ⟨rfl, rfl⟩) rfl

/-! ### The Cycle Tracker's choice -/

theorem makeCall_frame (s : State) : Frame [.posCopy, .emergency, .ram] nothing s (makeCall s) :=
  (takePosition_frame s).then (emergencyChange_frame _ _)

theorem callRefused_frame (s : State) : Frame [.emergency, .ram] nothing s (callRefused s) :=
  emergencyChange_frame _ s

/-- A change of the Cycle Tracker alone. -/
theorem cycle_frame (c : CycleTracker) (s : State) : Frame [.cycle] nothing s { s with cycle := c } :=
  .of_keeps (fun p hp => by cases p <;> first | rfl | exact absurd (by decide) hp | exact ⟨rfl, rfl⟩) rfl

theorem chooseEntry_frame (e : Entry) (s : State) : Frame [.cycle] nothing s (chooseEntry e s) :=
  .of_keeps (fun p hp => by cases p <;> first | rfl | exact absurd (by decide) hp | exact ⟨rfl, rfl⟩) rfl

theorem chooseOrdinary_frame (s : State) : Frame [.cycle] nothing s (chooseOrdinary s) := by
  unfold chooseOrdinary
  split
  · exact .of_keeps (fun p hp => by cases p <;> first | rfl | exact absurd (by decide) hp | exact ⟨rfl, rfl⟩) rfl
  · split
    · split
      · exact chooseEntry_frame _ s
      · exact .of_keeps (fun p hp => by cases p <;> first | rfl | exact absurd (by decide) hp | exact ⟨rfl, rfl⟩) rfl
    · exact .of_keeps (fun p hp => by cases p <;> first | rfl | exact absurd (by decide) hp | exact ⟨rfl, rfl⟩) rfl

theorem chooseCall_frame (s : State) : Frame [.posCopy, .emergency, .ram, .cycle] nothing s (chooseCall s) := by
  unfold chooseCall spacingRises skipFalls
  exact (makeCall_frame s).then (cycle_frame _ _)

theorem askCall_frame (s : State) : Frame [.cycle, .emergency] nothing s (askCall s).2 := by
  unfold askCall
  dsimp only
  split <;> exact .of_keeps (fun p hp => by cases p <;> first | rfl | exact absurd (by decide) hp | exact ⟨rfl, rfl⟩) rfl

theorem chooseFrame_frame (s : State) :
    Frame [.posCopy, .emergency, .ram, .cycle] nothing s (chooseFrame s) := by
  unfold chooseFrame
  have h := askCall_frame s
  generalize askCall s = x at h
  obtain ⟨offered, t⟩ := x
  dsimp only at *
  split
  · split
    · exact (h.then (chooseCall_frame t)).mono (by decide) fun _ => id
    · exact (h.then ((callRefused_frame t).then (chooseOrdinary_frame _))).mono (by decide) fun _ => id
  · exact (h.then (chooseOrdinary_frame t)).mono (by decide) fun _ => id

theorem drainQueueOuts_frame (l : List (Nat × FrameOutcome)) (s : State) :
    Frame [.posCopy, .queue, .note, .mail] nothing s (drainQueueOuts l s) := by
  obtain ⟨c, q, n, m, h⟩ := drainQueueOuts_eq l s
  rw [h]
  exact .of_keeps (fun p hp => by cases p <;> first | rfl | exact absurd (by decide) hp | exact ⟨rfl, rfl⟩) rfl

theorem takeDeliveries_frame (s : State) :
    Frame [.emergency, .ram, .posCopy, .queue, .note, .mail] nothing s (takeDeliveries s) := by
  unfold takeDeliveries
  dsimp only
  exact ((((mail_frame _ s).then (drainCallOuts_frame _ _)).then (mail_frame _ _)).then
    (drainQueueOuts_frame _ _)).mono (by decide) fun _ => id

theorem storeBeacon_frame (a b c d e : Nat) (s : State) : Frame [.cycle] nothing s (storeBeacon a b c d e s) :=
  cycle_frame _ s

theorem linkBeforeChoice_frame (first : Bool) (s : State) :
    Frame [.mail, .link, .attention] nothing s (linkBeforeChoice first s) := by
  unfold linkBeforeChoice
  split
  · exact Frame.refl_of s
  · exact (((mail_frame _ s).then (drainLinkReports_frame _ _)).mono (by decide) fun _ => id).ite (Frame.refl_of s)

theorem free_frame (n : Nat) (s : State) : Frame [.free] nothing s { s with free := n } :=
  .of_keeps (fun p hp => by cases p <;> first | rfl | exact absurd (by decide) hp | exact ⟨rfl, rfl⟩) rfl

theorem takeBeacon_frame (first : Bool) (h : HeldFrame) (a b c d : Nat) (acks : List Nat) (s : State) :
    Frame [.rx, .cycle, .mail, .emergency, .ram, .posCopy, .queue, .note, .link, .attention] nothing s
      (takeBeacon first h a b c d acks s) := by
  unfold takeBeacon
  dsimp only
  have h1 := takenByOwner_frame s
  generalize takenByOwner s = t at h1
  have h2 : Frame [.cycle, .mail] nothing t (if t.cycle.synced then settleByBeacon acks t else t) :=
    (settleByBeacon_frame acks t).ite (Frame.refl_of t)
  have h3 : Frame [.rx, .cycle, .mail] nothing s
      (storeBeacon h.endInstant a b c d (if t.cycle.synced then settleByBeacon acks t else t)) :=
    ((h1.then h2).then (storeBeacon_frame _ _ _ _ _ _)).mono (by decide) fun _ => id
  generalize storeBeacon h.endInstant a b c d (if t.cycle.synced then settleByBeacon acks t else t) = u at h3
  exact (((h3.then (takeDeliveries_frame u)).then (linkBeforeChoice_frame _ _)).then
    (chooseFrame_frame _)).mono (by decide) fun _ => id

theorem missBeacon_frame (d : Nat) (s : State) : Frame [.cycle, .mail, .tx] nothing s (missBeacon d s) := by
  unfold missBeacon
  dsimp only
  obtain ⟨u, hu, e⟩ : ∃ u, Frame [.cycle, .mail] nothing s u ∧
      mailLink .beaconMissed { s with cycle := { s.cycle with missedRun := bump 3 s.cycle.missedRun } } = u :=
    ⟨_, by exact .of_keeps (fun p hp => by cases p <;> first | rfl | exact absurd (by decide) hp | exact ⟨rfl, rfl⟩) rfl, rfl⟩
  rw [e]
  have h2 := (hu.then (settleByMiss_frame u)).then (cycle_frame
    { (settleByMiss u).cycle with
      deadline := some (instantAfter d (10 * (s.cycle.record.map (·.interval)).getD 0)) } _)
  split
  · unfold loseSync
    refine (h2.then (Frame.then (b := [.tx, .mail]) (a := [.cycle, .mail]) ?_ (cutSending_frame .search _))).mono
      (by decide) fun _ => id
    exact .of_keeps (fun p hp => by cases p <;> first | rfl | exact absurd (by decide) hp | exact ⟨rfl, rfl⟩) rfl
  · exact h2.mono (by decide) fun _ => id

theorem requestSend_frame (kind : Uplink) (payload : List Byte) (s : State) :
    Frame [.cycle, .mail, .tx] nothing s (requestSend kind payload s) := by
  unfold requestSend
  split
  · exact (settle_frame _ s).mono (by decide) fun _ => id
  · exact .of_keeps (fun p hp => by cases p <;> first | rfl | exact absurd (by decide) hp | exact ⟨rfl, rfl⟩) rfl

theorem queue_frame (q : TransmitQueue) (s : State) : Frame [.queue] nothing s { s with queue := q } :=
  .of_keeps (fun p hp => by cases p <;> first | rfl | exact absurd (by decide) hp | exact ⟨rfl, rfl⟩) rfl

theorem startSlot_frame (s : State) : Frame [.cycle, .queue, .mail, .tx] nothing s (startSlot s) := by
  unfold startSlot
  split
  · split
    · exact (cycle_frame _ s).mono (by decide) fun _ => id
    · exact ((queue_frame _ s).then (requestSend_frame _ _ _)).mono (by decide) fun _ => id
  · split
    · exact (cycle_frame _ s).mono (by decide) fun _ => id
    · exact (requestSend_frame _ _ _).mono (by decide) fun _ => id

theorem takeSendReport_frame (r : SendReport) (s : State) :
    Frame [.cycle, .mail] nothing s (takeSendReport r s) := by
  unfold takeSendReport
  split
  · split
    · exact (cycle_frame _ s).mono (by decide) fun _ => id
    · exact settle_frame _ s
    · exact settle_frame _ s
    · exact Frame.refl_of s
    · exact Frame.refl_of s
  · exact Frame.refl_of s

theorem sendReportTaken_frame (s : State) : Frame [.cycle, .mail] nothing s (sendReportTaken s) := by
  unfold sendReportTaken
  split
  · exact Frame.refl_of s
  · exact ((mail_frame _ s).then (takeSendReport_frame _ _)).mono (by decide) fun _ => id

theorem queueTakesOutcome_frame (id : Nat) (o : FrameOutcome) (s : State) :
    Frame [.posCopy, .queue, .note, .mail] nothing s (queueTakesOutcome id o s) := by
  obtain ⟨c, q, n, m, h⟩ := queueTakesOutcome_eq id o s
  rw [h]
  exact .of_keeps (fun p hp => by cases p <;> first | rfl | exact absurd (by decide) hp | exact ⟨rfl, rfl⟩) rfl

theorem queueOutcomeTaken_frame (s : State) :
    Frame [.posCopy, .queue, .note, .mail] nothing s (queueOutcomeTaken s) := by
  unfold queueOutcomeTaken
  split
  · exact Frame.refl_of s
  · exact ((mail_frame _ s).then (queueTakesOutcome_frame _ _ _)).mono (by decide) fun _ => id

theorem statusExpired_frame (s : State) : Frame [.posCopy, .queue] nothing s (statusExpired s) :=
  ((queue_frame _ s).then (statusTrigger_frame _)).mono (by decide) fun _ => id

theorem abandonFrame_frame (s : State) : Frame [.cycle, .mail] nothing s (abandonFrame s) := by
  unfold abandonFrame
  split
  · exact Frame.refl_of s
  · exact settle_frame _ s

theorem resetTracker_frame (s : State) : Frame [.cycle, .mail] nothing s (resetTracker s) :=
  ((cycle_frame _ s).then (abandonFrame_frame _)).mono (by decide) fun _ => id

/-! ### The Offer Manager -/

/-- R97: one place of the table changed. -/
theorem setPlace_frame (i : Place) (p : OfferPlace) (s : State) : Frame [.offers] nothing s (setPlace i p s) :=
  .of_keeps (fun p hp => by cases p <;> first | rfl | exact absurd (by decide) hp | exact ⟨rfl, rfl⟩) rfl

/-- R97, R98: the closing of a place that does not expire. -/
theorem closePlace_eq (i : Place) {st : PlaceState} (h : st ≠ .expired) (s : State) :
    closePlace i st s = setPlace i (closedAs i st s) s := by
  unfold closePlace
  rw [if_neg h]
  rfl

theorem closePlace_expired (i : Place) (s : State) :
    closePlace i .expired s = mailAddition .offerExpired (setPlace i (closedAs i .expired s) s) := rfl

theorem closePlace_frame (i : Place) (st : PlaceState) (s : State) :
    Frame [.offers, .mail] nothing s (closePlace i st s) := by
  unfold closePlace
  dsimp only
  split <;> exact .of_keeps (fun p hp => by cases p <;> first | rfl | exact absurd (by decide) hp | exact ⟨rfl, rfl⟩) rfl

theorem awardPlace_frame (i : Place) (s : State) : Frame [.offers, .mail] nothing s (awardPlace i s) :=
  .of_keeps (fun p hp => by cases p <;> first | rfl | exact absurd (by decide) hp | exact ⟨rfl, rfl⟩) rfl

theorem pick_put {α : Type} {n : Nat} (v : Vector α n) (i j : Fin n) (x : α) :
    pick (put v i x) j = if j = i then x else pick v j := by
  unfold pick put
  rw [Vector.getElem_set]
  simp only [Fin.ext_iff, eq_comm]

@[simp] theorem pick_put_same {α : Type} {n : Nat} (v : Vector α n) (i : Fin n) (x : α) :
    pick (put v i x) i = x := by
  rw [pick_put, if_pos rfl]

theorem pick_put_other {α : Type} {n : Nat} (v : Vector α n) {i j : Fin n} (x : α) (h : j ≠ i) :
    pick (put v i x) j = pick v j := by
  rw [pick_put, if_neg h]

theorem vector_ext_pick {α : Type} {n : Nat} {v w : Vector α n} (h : ∀ i : Fin n, pick v i = pick w i) :
    v = w := by
  apply Vector.ext
  intro i hi
  exact h ⟨i, hi⟩

/-- One place of the table as the cancelling leaves it. -/
def cancelledPlace (p : OfferPlace → Bool) (now : Stamp) (x : OfferPlace) : OfferPlace :=
  if p x then { x with state := .cancelled, closing := now } else x

/-- R101: the entries that satisfy a test closed CANCELLED, every other place as it was. -/
theorem cancelWhere_eq (p : OfferPlace → Bool) (s : State) : ∃ ps, cancelWhere p s =
      { s with offers := { s.offers with places := ps } } ∧
    ∀ j, pick ps j = cancelledPlace p s.cycle.fleet (pick s.offers.places j) := by
  have key : ∀ (l : List Place) (hl : l.Nodup) (t : State), ∃ ps,
      l.foldl (fun t i => if p (pick t.offers.places i) then closePlace i .cancelled t else t) t =
        { t with offers := { t.offers with places := ps } } ∧
      ∀ j, pick ps j = if j ∈ l then cancelledPlace p t.cycle.fleet (pick t.offers.places j)
        else pick t.offers.places j := by
    intro l
    induction l with
    | nil => exact fun _ t => ⟨t.offers.places, rfl, fun j => by simp⟩
    | cons i l ih =>
      intro hl t
      rw [List.nodup_cons] at hl
      rw [List.foldl_cons]
      obtain ⟨qs, hq, hp⟩ : ∃ qs, (if p (pick t.offers.places i) then closePlace i .cancelled t else t) =
          { t with offers := { t.offers with places := qs } } ∧
          ∀ j, pick qs j = if j = i then cancelledPlace p t.cycle.fleet (pick t.offers.places j)
            else pick t.offers.places j := by
        by_cases h : p (pick t.offers.places i) = true
        · refine ⟨put t.offers.places i (closedAs i .cancelled t), ?_, ?_⟩
          · rw [if_pos h, closePlace_eq i (by decide)]
            rfl
          · intro j
            rw [pick_put]
            split
            · rename_i e
              rw [e]
              unfold cancelledPlace
              rw [if_pos h]
              rfl
            · rfl
        · refine ⟨t.offers.places, by rw [if_neg h], ?_⟩
          intro j
          split
          · rename_i e
            rw [e]
            unfold cancelledPlace
            rw [if_neg h]
          · rfl
      rw [hq]
      obtain ⟨ps, hps, hj⟩ := ih hl.2 { t with offers := { t.offers with places := qs } }
      refine ⟨ps, hps, ?_⟩
      intro j
      rw [hj, hp]
      by_cases h1 : j = i
      · rw [h1]
        simp [hl.1]
      · simp [h1]
  obtain ⟨ps, h, hj⟩ := key places8 (by decide) s
  refine ⟨ps, h, ?_⟩
  intro j
  rw [hj, if_pos (by revert j; decide)]

theorem cancelWhere_frame (p : OfferPlace → Bool) (s : State) :
    Frame [.offers] nothing s (cancelWhere p s) := by
  obtain ⟨ps, h, -⟩ := cancelWhere_eq p s
  rw [h]
  exact .of_keeps (fun p hp => by cases p <;> first | rfl | exact absurd (by decide) hp | exact ⟨rfl, rfl⟩) rfl

theorem offers_frame (o : OfferManager) (s : State) : Frame [.offers] nothing s { s with offers := o } :=
  .of_keeps (fun p hp => by cases p <;> first | rfl | exact absurd (by decide) hp | exact ⟨rfl, rfl⟩) rfl

theorem closeOffDuty_frame (s : State) : Frame [.offers] nothing s (closeOffDuty s) :=
  ((cancelWhere_frame _ s).then (offers_frame _ _)).mono (by decide) fun _ => id

theorem closeEmergencyGate_frame (s : State) : Frame [.offers] nothing s (closeEmergencyGate s) :=
  ((cancelWhere_frame _ s).then (offers_frame _ _)).mono (by decide) fun _ => id

theorem setLatch_frame (s : State) : Frame [.offers, .posCopy, .queue] nothing s (setLatch s) :=
  (((cancelWhere_frame _ s).then (offers_frame _ _)).then (statusTrigger_frame _)).mono (by decide) fun _ => id

theorem removeAccept_frame (n : Nat) (s : State) :
    Frame [.posCopy, .queue, .note] nothing s (removeAccept n s) := by
  obtain ⟨c, q, m, h⟩ := removeAccept_eq n s
  rw [h]
  exact .of_keeps (fun p hp => by cases p <;> first | rfl | exact absurd (by decide) hp | exact ⟨rfl, rfl⟩) rfl

/-- R112: the end of a held acceptance. -/
theorem endAcceptance_frame (i : Place) (o : ReqOutcome) (s : State) :
    Frame [.ram, .attention, .offers, .posCopy, .queue, .note] (heldAcceptBytes s) s
      (endAcceptance i o s) := by
  have h1 : Frame [.ram, .attention] (heldAcceptBytes s) s (match s.offers.heldAccept with
      | some slot => completeRequest slot o i.val s
      | none => s) := by
    split
    · rename_i slot hs
      exact (completeRequest_frame slot o i.val s).mono (fun _ => id) fun x hx => ⟨slot, hs, hx⟩
    · exact Frame.refl_of s
  unfold endAcceptance
  dsimp only
  exact ((h1.then (offers_frame _ _)).then (removeAccept_frame _ _)).mono (by decide) fun _ => id

theorem answerDecline_frame (n r : Nat) (s : State) :
    Frame [.posCopy, .queue, .mail] nothing s (answerDecline n r s) := admitController_frame _ _ s

theorem countDrop_frame (s : State) : Frame [.offers, .attention] nothing s (countDrop s) :=
  .of_keeps (fun p hp => by cases p <;> first | rfl | exact absurd (by decide) hp | exact ⟨rfl, rfl⟩ | exact News.offer_bit (n := .dropped) (by decide) s.port.attention) rfl

theorem enterOffer_frame (i : Place) (p : OfferPlace) (s : State) :
    Frame [.offers, .chime, .mail] nothing s (enterOffer i p s) := by
  unfold enterOffer
  dsimp only
  split <;> exact .of_keeps (fun p hp => by cases p <;> first | rfl | exact absurd (by decide) hp | exact ⟨rfl, rfl⟩) rfl

theorem placeOffer_frame (d : Bool) (p : OfferPlace) (s : State) :
    Frame [.offers, .chime, .mail, .attention, .posCopy, .queue] nothing s (placeOffer d p s) := by
  unfold placeOffer
  split
  · exact (enterOffer_frame _ p s).mono (by decide) fun _ => id
  · split
    · split
      · exact (((closePlace_frame _ _ s).then (countDrop_frame _)).then (enterOffer_frame _ p _)).mono
          (by decide) fun _ => id
      · exact ((countDrop_frame s).then (answerDecline_frame _ _ _)).mono (by decide) fun _ => id
    · exact (countDrop_frame s).mono (by decide) fun _ => id

theorem takeOffer_frame (d : Bool) (p : OfferPlace) (s : State) :
    Frame [.offers, .chime, .mail, .attention, .posCopy, .queue] nothing s (takeOffer d p s) := by
  have ha : ∀ n r, Frame [.offers, .chime, .mail, .attention, .posCopy, .queue] nothing s (answerDecline n r s) :=
    fun n r => (answerDecline_frame n r s).mono (by decide) fun _ => id
  unfold takeOffer judgeOffer
  repeat' split
  all_goals first | exact Frame.refl_of s | exact ha _ _ | exact placeOffer_frame d p s

theorem awardHere_frame (n : Nat) (s : State) :
    Frame [.offers, .mail, .ram, .attention, .posCopy, .queue, .note] (heldAcceptBytes s) s
      (awardHere n s) := by
  unfold awardHere
  split
  · split
    · exact ((awardPlace_frame _ s).trans (endAcceptance_frame _ _ _)).mono (by decide)
        fun x hx => hx.elim False.elim id
    · split
      · exact ((answerDecline_frame _ _ s).then (closePlace_frame _ _ _)).mono (by decide) fun _ => False.elim
      · exact (awardPlace_frame _ s).mono (by decide) fun _ => False.elim
    · exact Frame.refl_of s
  · split
    · exact Frame.refl_of s
    · exact (answerDecline_frame _ _ s).mono (by decide) fun _ => False.elim

/-- R112: a closing and the end of the acceptance it held. -/
theorem closeAccepting_frame (i : Place) {st : PlaceState} (h : st ≠ .expired) (o : ReqOutcome) (s : State) :
    Frame [.offers, .ram, .attention, .posCopy, .queue, .note] (heldAcceptBytes s) s
      (endAcceptance i o (closePlace i st s)) := by
  rw [closePlace_eq i h]
  exact ((setPlace_frame _ _ s).trans (endAcceptance_frame i o _)).mono (by decide)
    fun x hx => hx.elim False.elim id

theorem closePlace_frame' (i : Place) {st : PlaceState} (h : st ≠ .expired) (s : State) :
    Frame [.offers] nothing s (closePlace i st s) := by
  rw [closePlace_eq i h]
  exact setPlace_frame _ _ s

theorem awardElsewhere_frame (n : Nat) (s : State) :
    Frame [.offers, .ram, .attention, .posCopy, .queue, .note] (heldAcceptBytes s) s
      (awardElsewhere n s) := by
  unfold awardElsewhere
  split
  · split
    · exact closeAccepting_frame _ (by decide) _ s
    · exact (closePlace_frame' _ (by decide) s).mono (by decide) fun _ => False.elim
    · exact Frame.refl_of s
  · exact Frame.refl_of s

theorem takeAward_frame (n c : Nat) (s : State) :
    Frame [.offers, .mail, .ram, .attention, .posCopy, .queue, .note] (heldAcceptBytes s) s
      (takeAward n c s) :=
  (awardHere_frame n s).ite ((awardElsewhere_frame n s).mono (by decide) fun _ => id)

theorem takeWithdraw_frame (n : Nat) (s : State) :
    Frame [.offers, .ram, .attention, .posCopy, .queue, .note] (heldAcceptBytes s) s
      (takeWithdraw n s) := by
  unfold takeWithdraw
  split
  · split
    · exact closeAccepting_frame _ (by decide) _ s
    · exact (closePlace_frame' _ (by decide) s).mono (by decide) fun _ => False.elim
  · exact Frame.refl_of s

theorem unanswered_frame (i : Place) (s : State) :
    Frame [.offers, .ram, .attention, .posCopy, .queue, .note] (heldAcceptBytes s) s (unanswered i s) :=
  closeAccepting_frame i (by decide) _ s

theorem takeUndelivered_frame (n : Nat) (s : State) :
    Frame [.offers, .ram, .attention, .posCopy, .queue, .note] (heldAcceptBytes s) s
      (takeUndelivered n s) := by
  unfold takeUndelivered
  split
  · split
    · exact unanswered_frame _ s
    · exact Frame.refl_of s
  · exact Frame.refl_of s

theorem undeliveredTaken_frame (s : State) :
    Frame [.mail, .offers, .ram, .attention, .posCopy, .queue, .note] (heldAcceptBytes s) s
      (undeliveredTaken s) := by
  unfold undeliveredTaken
  split
  · exact Frame.refl_of s
  · exact ((mail_frame _ s).trans (takeUndelivered_frame _ _)).mono (by decide)
      fun x hx => hx.elim False.elim id

theorem deadlineExpired_frame (i : Place) (s : State) :
    Frame [.offers, .mail, .posCopy, .queue] nothing s (deadlineExpired i s) := by
  unfold deadlineExpired
  dsimp only
  have h := (closePlace_frame i .expired s).then (offers_frame
    { (closePlace i .expired s).offers with expiries := expiriesAfter (closePlace i .expired s).offers } _)
  split
  · exact (h.then (setLatch_frame _)).mono (by decide) fun _ => id
  · exact h.mono (by decide) fun _ => id

theorem closeBaseGate_frame (s : State) : Frame [.offers, .posCopy, .queue] nothing s (closeBaseGate s) :=
  (((cancelWhere_frame _ s).then (offers_frame _ _)).then (statusTrigger_frame _)).mono (by decide) fun _ => id

theorem suspendCab_frame (a b : Nat) (s : State) :
    Frame [.offers, .posCopy, .queue] nothing s (suspendCab a b s) := by
  unfold suspendCab
  dsimp only
  split
  · exact (offers_frame _ s).mono (by decide) fun _ => id
  · exact ((offers_frame _ s).then (closeBaseGate_frame _)).mono (by decide) fun _ => id

theorem endSuspension_frame (s : State) : Frame [.offers, .posCopy, .queue] nothing s (endSuspension s) :=
  ((offers_frame _ s).then (statusTrigger_frame _)).mono (by decide) fun _ => id

theorem resumeCab_frame (s : State) : Frame [.offers, .posCopy, .queue] nothing s (resumeCab s) :=
  (endSuspension_frame s).ite (Frame.refl_of s)

theorem startJob_frame (s : State) : Frame [.offers] nothing s (startJob s) := by
  unfold startJob
  split
  · exact closePlace_frame' _ (by decide) s
  · exact Frame.refl_of s

theorem clearLatch_frame (s : State) : Frame [.offers, .posCopy, .queue] nothing s (clearLatch s) := by
  unfold clearLatch
  dsimp only
  split
  · exact ((offers_frame _ s).then (statusTrigger_frame _)).mono (by decide) fun _ => id
  · exact (offers_frame _ s).mono (by decide) fun _ => id

theorem changeZone_frame (z : Nat) (s : State) : Frame [.offers, .posCopy, .queue] nothing s (changeZone z s) :=
  (((cancelWhere_frame _ s).then (offers_frame _ _)).then (statusTrigger_frame _)).mono (by decide) fun _ => id

theorem admitHost_frame (kind : Uplink) (tail : List Byte) (origin : Option Slot) (s : State) :
    Frame [.posCopy, .queue] nothing s (admitHost kind tail origin s) := by
  obtain ⟨c, q, h⟩ := admitHost_eq kind tail origin s
  rw [h]
  exact queueCopy_frame s c q

theorem keepAcceptance_frame (slot : Slot) (i : Place) (s : State) :
    Frame [.posCopy, .queue, .offers] nothing s (keepAcceptance slot i s) := by
  unfold keepAcceptance
  dsimp only
  exact (((admitHost_frame _ _ _ s).then (setPlace_frame _ _ _)).then (offers_frame _ _)).mono (by decide)
    fun _ => id

theorem acceptOffer_frame (slot : Slot) (s : State) :
    Frame [.ram, .attention, .posCopy, .queue, .offers] (outcomeBytes slot) s (acceptOffer slot s) := by
  unfold acceptOffer
  split
  · exact (completeRequest_frame _ _ _ s).mono (by decide) fun _ => id
  · split
    · exact (completeRequest_frame _ _ _ s).mono (by decide) fun _ => id
    · exact (keepAcceptance_frame _ _ s).mono (by decide) fun _ => False.elim

/-- An effect and then a completion. -/
theorem Frame.completing {a : List Part} {s t : State} (h : Frame a nothing s t) (i : Slot) (o : ReqOutcome)
    (d : Nat) : Frame (a ++ [.ram, .attention]) (outcomeBytes i) s (completeRequest i o d t) :=
  (h.trans (completeRequest_frame i o d t)).mono (fun _ => id) fun _ hx => hx.elim False.elim id

theorem finishDecline_frame (slot : Slot) (i : Place) (s : State) :
    Frame [.offers, .ram, .attention] (outcomeBytes slot) s (finishDecline slot i s) := by
  unfold finishDecline
  have hs : declineState (pick s.offers.places i) ≠ .expired := by
    unfold declineState
    split <;> decide
  exact (((closePlace_frame' i hs s).then (offers_frame _ _)).completing _ _ _).mono (by decide) fun _ => id

theorem declineOffer_frame (slot : Slot) (s : State) :
    Frame [.posCopy, .queue, .offers, .ram, .attention] (outcomeBytes slot) s (declineOffer slot s) := by
  have hc : ∀ o d, Frame [.posCopy, .queue, .offers, .ram, .attention] (outcomeBytes slot) s
      (completeRequest slot o d s) := fun o d => (completeRequest_frame _ _ _ s).mono (by decide) fun _ => id
  unfold declineOffer
  split
  · exact hc _ _
  · dsimp only
    split
    · exact hc _ _
    · split
      · exact (finishDecline_frame _ _ s).mono (by decide) fun _ => id
      · split
        · exact ((admitHost_frame _ _ _ s).trans (finishDecline_frame _ _ _)).mono (by decide)
            fun _ hx => hx.elim False.elim id
        · exact hc _ _

theorem resumeOffers_frame (slot : Slot) (s : State) :
    Frame [.offers, .posCopy, .queue, .ram, .attention] (outcomeBytes slot) s (resumeOffers slot s) :=
  (clearLatch_frame s).completing _ _ _

theorem setZone_frame (slot : Slot) (s : State) :
    Frame [.offers, .posCopy, .queue, .ram, .attention] (outcomeBytes slot) s (setZone slot s) := by
  have hc : ∀ o d, Frame [.offers, .posCopy, .queue, .ram, .attention] (outcomeBytes slot) s
      (completeRequest slot o d s) := fun o d => (completeRequest_frame _ _ _ s).mono (by decide) fun _ => id
  unfold setZone
  dsimp only
  split
  · exact hc _ _
  · split
    · exact hc _ _
    · exact (changeZone_frame _ s).completing _ _ _

theorem resetOffers_frame (s : State) : Frame [.offers] nothing s (resetOffers s) :=
  ((cancelWhere_frame _ s).then (offers_frame _ _)).mono (by decide) fun _ => id

/-! ### The Fare Meter -/

theorem startWindow_frame (s : State) : Frame [.limiter] nothing s (startWindow s) :=
  .of_keeps (fun p hp => by cases p <;> first | rfl | exact absurd (by decide) hp | exact ⟨rfl, rfl⟩) rfl

theorem fareLimiter_frame (f : FareMeter) (l : Limiter) (s : State) :
    Frame [.fare, .limiter] nothing s { s with fare := f, limiter := l } :=
  .of_keeps (fun p hp => by cases p <;> first | rfl | exact absurd (by decide) hp | exact ⟨rfl, rfl⟩) rfl

theorem shiftPulse_eq (s : State) : ∃ f l, shiftPulse s = { s with fare := f, limiter := l } := by
  unfold shiftPulse
  dsimp only
  split
  · exact ⟨_, _, rfl⟩
  · exact ⟨s.fare, _, rfl⟩

theorem clampedPulse_eq (s : State) : ∃ f, clampedPulse s = { s with fare := f } := by
  unfold clampedPulse
  split
  · exact ⟨s.fare, rfl⟩
  · exact ⟨_, rfl⟩

theorem countedPulse_eq (s : State) : ∃ f l, countedPulse s = { s with fare := f, limiter := l } := by
  unfold countedPulse
  split
  · exact shiftPulse_eq _
  · exact shiftPulse_eq s

theorem distancePulse_eq (s : State) : ∃ f l, distancePulse s = { s with fare := f, limiter := l } := by
  unfold distancePulse
  dsimp only
  split
  · exact ⟨s.fare, _, rfl⟩
  · split
    · exact countedPulse_eq _
    · obtain ⟨f, h⟩ := clampedPulse_eq { s with limiter := { s.limiter with window := s.limiter.window + 1 } }
      rw [h]
      exact ⟨f, _, rfl⟩

theorem distancePulse_frame (s : State) : Frame [.fare, .limiter] nothing s (distancePulse s) := by
  obtain ⟨f, l, h⟩ := distancePulse_eq s
  rw [h]
  exact fareLimiter_frame f l s

theorem meterTick_frame (s : State) : Frame [.due, .fare] nothing s (meterTick s) := by
  unfold meterTick
  dsimp only
  split <;> exact .of_keeps (fun p hp => by cases p <;> first | rfl | exact absurd (by decide) hp | exact ⟨rfl, rfl⟩) rfl

theorem fare_frame (f : FareMeter) (s : State) : Frame [.fare] nothing s { s with fare := f } :=
  .of_keeps (fun p hp => by cases p <;> first | rfl | exact absurd (by decide) hp | exact ⟨rfl, rfl⟩) rfl

theorem setMark_frame (m : Mark) (s : State) : Frame [.fare, .ram] nothing s (setMark m s) := by
  unfold setMark
  split
  · exact Frame.refl_of s
  · exact (fare_frame _ s).then (rewriteMeter_frame _)

theorem markTaken_frame (s : State) : Frame [.mail, .fare, .ram] nothing s (markTaken s) := by
  unfold markTaken
  split
  · exact Frame.refl_of s
  · exact (mail_frame _ s).then (setMark_frame _ _)

theorem addToShift_frame (a : Addition) (s : State) : Frame [.fare] nothing s (addToShift a s) :=
  (fare_frame _ s).ite (Frame.refl_of s)

theorem additionTaken_frame (s : State) : Frame [.mail, .fare] nothing s (additionTaken s) := by
  unfold additionTaken
  split
  · exact Frame.refl_of s
  · exact (mail_frame _ s).then (addToShift_frame _ _)

theorem fareTakesEmergency_frame (s : State) :
    Frame [.mail, .fare, .ram] nothing s (fareTakesEmergency s) := by
  unfold fareTakesEmergency
  have h : Frame [.mail, .fare, .ram] nothing s (if s.mail.marks.contains .emergency then
      setMark .emergency { s with mail := { s.mail with marks := s.mail.marks.erase .emergency } } else s) :=
    ((mail_frame _ s).then (setMark_frame _ _)).ite (Frame.refl_of s)
  generalize (if s.mail.marks.contains .emergency then
      setMark .emergency { s with mail := { s.mail with marks := s.mail.marks.erase .emergency } } else s) = t at h
  dsimp only
  split
  · exact ((h.then (mail_frame _ t)).then (addToShift_frame _ _)).mono (by decide) fun _ => id
  · exact h

theorem judgeLamp_frame (s : State) : Frame [.lampTaken] nothing s (judgeLamp s) :=
  .of_keeps (fun p hp => by cases p <;> first | rfl | exact absurd (by decide) hp | exact ⟨rfl, rfl⟩) rfl

theorem gateTakesChange_frame (s : State) : Frame [.mail, .offers, .ram] nothing s (gateTakesChange s) := by
  unfold gateTakesChange
  split
  · exact Frame.refl_of s
  · dsimp only
    split
    · exact ((mail_frame _ s).then (closeEmergencyGate_frame _)).mono (by decide) fun _ => id
    · exact ((mail_frame _ s).then (offers_frame _ _)).mono (by decide) fun _ => id

theorem lampTakesChange_frame (s : State) : Frame [.mail, .lampTaken] nothing s (lampTakesChange s) :=
  (mail_frame _ s).then (judgeLamp_frame _)

theorem takesChange_frame (n : Neighbour) (s : State) :
    Frame [.mail, .offers, .fare, .ram, .lampTaken] nothing s (takesChange n s) := by
  cases n
  · exact (gateTakesChange_frame s).mono (by decide) fun _ => id
  · exact (fareTakesEmergency_frame s).mono (by decide) fun _ => id
  · exact (lampTakesChange_frame s).mono (by decide) fun _ => id

/-- What EMERGENCY_STATE_CHANGE can do: nothing where no neighbour waits, else the part of one that does. -/
theorem changeTaken_cases (s : State) :
    (s.mail.waiting = [] ∧ changeTaken s = s) ∨
    ∃ n, n ∈ s.mail.waiting ∧ changeTaken s = takesChange n { s with free := s.free + 1 } := by
  unfold changeTaken
  generalize Config.freeNeighbour s.free = k
  match hw : s.mail.waiting with
  | [] => exact .inl ⟨rfl, rfl⟩
  | [n] => exact .inr ⟨n, by simp, rfl⟩
  | n :: m :: rest =>
    refine .inr ⟨_, ?_, rfl⟩
    have h : k % ((m :: rest).length + 1) < (n :: m :: rest).length :=
      Nat.mod_lt _ (Nat.succ_pos _)
    rw [List.getD_eq_getElem _ _ h]
    exact List.getElem_mem h

theorem changeTaken_frame (s : State) :
    Frame [.mail, .offers, .fare, .ram, .lampTaken, .free] nothing s (changeTaken s) := by
  obtain ⟨-, h⟩ | ⟨n, -, h⟩ := changeTaken_cases s
  · rw [h]; exact Frame.refl_of s
  · rw [h]; exact ((free_frame _ s).then (takesChange_frame n _)).mono (by decide) fun _ => id

theorem selectTariff_frame (i : Slot) (s : State) :
    Frame [.fare, .ram, .attention] (outcomeBytes i) s (selectTariff i s) := by
  unfold selectTariff
  dsimp only
  repeat' split
  · exact (completeRequest_frame _ _ _ s).mono (by decide) fun _ => id
  · exact (fare_frame _ s).completing _ _ _
  · exact (completeRequest_frame _ _ _ s).mono (by decide) fun _ => id
  · exact (fare_frame _ s).completing _ _ _

theorem addExtra_frame (i : Slot) (s : State) :
    Frame [.fare, .ram, .attention] (outcomeBytes i) s (addExtra i s) := by
  unfold addExtra
  dsimp only
  repeat' split
  · exact (completeRequest_frame _ _ _ s).mono (by decide) fun _ => id
  · exact (completeRequest_frame _ _ _ s).mono (by decide) fun _ => id
  · exact (completeRequest_frame _ _ _ s).mono (by decide) fun _ => id
  · exact (fare_frame _ s).completing _ _ _

/-! ### Fare records -/

theorem recordRuns_inside {h : HeldRecord} {r : Nat × List Byte} (hr : r ∈ recordRuns h) :
    2 ≤ r.1 ∧ r.1 + r.2.length ≤ 128 := by
  unfold recordRuns at hr
  cases hk : h.record <;> rw [hk] at hr <;> simp at hr
  · obtain rfl | rfl | rfl := hr <;> simp
  · obtain rfl | rfl | rfl | rfl := hr <;> simp

/-- R6, R154: a record written into its slot touches the slot alone. -/
theorem writeRuns_frame (base : Nat) (rs : List (Nat × List Byte)) (m : Memory)
    (h : ∀ r ∈ rs, r.1 + r.2.length ≤ 128) :
    (Memory.wf m = true → Memory.wf (writeRuns base rs m) = true) ∧
    ∀ a, ¬ bytesAt base 128 a → Memory.get (writeRuns base rs m) a = Memory.get m a := by
  induction rs generalizing m with
  | nil => exact ⟨id, fun _ _ => rfl⟩
  | cons r rs ih =>
    obtain ⟨h1, h2⟩ := ih (Memory.write m (base + r.1) r.2) fun x hx => h x (List.mem_cons_of_mem _ hx)
    have hr := h r List.mem_cons_self
    refine ⟨fun w => h1 (Memory.wf_write w _ _), fun a ha => ?_⟩
    change Memory.get (writeRuns base rs (Memory.write m (base + r.1) r.2)) a = _
    rw [h2 a ha]
    apply Memory.get_write_other
    unfold bytesAt at ha
    omega

theorem wf_presentRecord {m : Memory} (w : Memory.wf m = true) (i : Slot) (h : HeldRecord) :
    Memory.wf (presentRecord i h m) = true := by
  unfold presentRecord
  exact Memory.wf_write ((writeRuns_frame _ _ _ fun r hr => (recordRuns_inside hr).2).1 w) _ _

theorem get_presentRecord_other (i : Slot) (h : HeldRecord) (m : Memory) (a : Nat) (ha : ¬ recordBytes i a) :
    Memory.get (presentRecord i h m) a = Memory.get m a := by
  unfold presentRecord
  rw [Memory.get_write_other, (writeRuns_frame _ _ _ fun r hr => (recordRuns_inside hr).2).2 a ha]
  unfold recordBytes bytesAt at ha
  rw [handWord_length]
  omega

theorem storeRam_frame (i : Slot) (h : HeldRecord) (st : RecordStore) (s : State) :
    Frame [.store, .ram] (recordBytes i) s { s with store := st, ram := presentRecord i h s.ram } := by
  refine .of_stores (fun p hp hb => by
      cases p <;> first | rfl | exact absurd (by decide) hp | exact ⟨rfl, rfl⟩ | exact absurd rfl hb)
    (fun a hs => get_presentRecord_other _ _ _ _ hs) (fun x hx => ?_) fun m => wf_presentRecord m _ _
  unfold recordBytes bytesAt recordBase at hx
  omega

theorem postRecord_frame (i : Slot) (r : FareRecord) (s : State) :
    Frame [.store, .ram, .attention, .posCopy, .queue, .note] (recordBytes i) s (postRecord i r s) := by
  unfold postRecord
  exact ((storeRam_frame i _ _ s).then (setNews_frame .record _)).then (reportFeed_frame _)

theorem store_frame (st : RecordStore) (s : State) : Frame [.store] nothing s { s with store := st } :=
  .of_keeps (fun p hp => by cases p <;> first | rfl | exact absurd (by decide) hp | exact ⟨rfl, rfl⟩) rfl

theorem collectRecord_frame (i : Slot) (s : State) : Frame [.store] nothing s (collectRecord i s) :=
  store_frame _ s

theorem reportDoneTaken_frame (s : State) :
    Frame [.mail, .store, .note, .posCopy, .queue] nothing s (reportDoneTaken s) := by
  unfold reportDoneTaken
  split
  · exact Frame.refl_of s
  · unfold reportIsDone
    dsimp only
    refine Frame.mono (Frame.then (a := [.mail, .store, .note]) ?_ (reportFeed_frame _)) (by decide) fun _ => id
    exact .of_keeps (fun p hp => by cases p <;> first | rfl | exact absurd (by decide) hp | exact ⟨rfl, rfl⟩) rfl

theorem meterChanged_frame (s : State) :
    Frame [.posCopy, .queue, .attention] nothing s (meterChanged s) :=
  (statusTrigger_frame s).then (setNews_frame .meter _)

theorem limiter_frame (l : Limiter) (s : State) : Frame [.limiter] nothing s { s with limiter := l } :=
  .of_keeps (fun p hp => by cases p <;> first | rfl | exact absurd (by decide) hp | exact ⟨rfl, rfl⟩) rfl

theorem forgetRemainder_frame (k : Nat) (s : State) : Frame [.limiter] nothing s (forgetRemainder k s) :=
  (Frame.refl_of s).ite (limiter_frame _ s)

theorem meterStop_frame (i : Slot) (s : State) :
    Frame [.fare, .posCopy, .queue, .attention, .ram] (outcomeBytes i) s (meterStop i s) :=
  ((((fare_frame _ s).then (meterChanged_frame _)).completing _ _ _).mono (by decide) fun _ => id).ite
    ((completeRequest_frame _ _ _ s).mono (by decide) fun _ => id)

theorem meterResume_frame (i : Slot) (s : State) :
    Frame [.fare, .posCopy, .queue, .attention, .ram] (outcomeBytes i) s (meterResume i s) :=
  ((((fare_frame _ s).then (meterChanged_frame _)).completing _ _ _).mono (by decide) fun _ => id).ite
    ((completeRequest_frame _ _ _ s).mono (by decide) fun _ => id)

theorem hire_frame (n : Nat) (s : State) :
    Frame [.offers, .fare, .limiter, .posCopy, .queue, .attention] nothing s (hire n s) := by
  unfold hire
  dsimp only
  exact ((((startJob_frame s).then (fare_frame _ _)).then (forgetRemainder_frame _ _)).then
    (meterChanged_frame _))

theorem meterHire_frame (i : Slot) (s : State) :
    Frame [.offers, .fare, .limiter, .posCopy, .queue, .attention, .ram] (outcomeBytes i) s
      (meterHire i s) := by
  have hc : ∀ o d, Frame [.offers, .fare, .limiter, .posCopy, .queue, .attention, .ram] (outcomeBytes i) s
      (completeRequest i o d s) := fun o d => (completeRequest_frame _ _ _ s).mono (by decide) fun _ => id
  unfold meterHire
  dsimp only
  split
  · exact hc _ _
  · split
    · exact hc _ _
    · split
      · exact hc _ _
      · exact ((hire_frame _ s).completing _ _ _).mono (by decide) fun _ => id

theorem addTripToShift_frame (r : TripRecord) (s : State) : Frame [.fare] nothing s (addTripToShift r s) :=
  (fare_frame _ s).ite (Frame.refl_of s)

theorem closeTrip_frame (s : State) :
    Frame [.fare, .limiter, .posCopy, .queue, .attention] nothing s (closeTrip s) :=
  ((fare_frame _ s).then (forgetRemainder_frame _ _)).then (meterChanged_frame _)

/-- The bytes of every fare record slot. -/
def allRecordBytes : Nat → Prop := fun x => 0x1100 ≤ x ∧ x < 0x1900

theorem recordBytes_all {i : Slot} {x : Nat} (h : recordBytes i x) : allRecordBytes x := by
  have := i.isLt
  unfold recordBytes bytesAt recordBase at h
  unfold allRecordBytes
  omega

theorem meterClear_frame (i : Slot) (s : State) :
    Frame [.store, .ram, .attention, .posCopy, .queue, .note, .fare, .limiter]
      (fun x => outcomeBytes i x ∨ allRecordBytes x) s (meterClear i s) := by
  have hc : ∀ o d, Frame [.store, .ram, .attention, .posCopy, .queue, .note, .fare, .limiter]
      (fun x => outcomeBytes i x ∨ allRecordBytes x) s
      (completeRequest i o d s) := fun o d => (completeRequest_frame _ _ _ s).mono (by decide) fun _ => .inl
  unfold meterClear
  split
  · exact hc _ _
  · split
    · exact hc _ _
    · rename_i p _
      dsimp only
      refine ((((postRecord_frame p _ s).then (addTripToShift_frame _ _)).then (closeTrip_frame _)).trans
        (completeRequest_frame i _ _ _)).mono (by decide) ?_
      exact fun x hx => hx.elim (fun h => .inr (recordBytes_all h)) .inl

theorem openShift_frame (s : State) :
    Frame [.fare, .limiter, .offers, .posCopy, .queue] nothing s (openShift s) :=
  ((fareLimiter_frame _ _ s).then (offers_frame _ _)).then (statusTrigger_frame _)

theorem dutyOn_frame (i : Slot) (s : State) :
    Frame [.fare, .limiter, .offers, .posCopy, .queue, .ram, .attention] (outcomeBytes i) s (dutyOn i s) :=
  ((completeRequest_frame _ _ _ s).mono (by decide) fun _ => id).ite ((openShift_frame s).completing _ _ _)

theorem closeShift_frame (p : Slot) (s : State) :
    Frame [.store, .ram, .attention, .posCopy, .queue, .note, .fare, .offers] (recordBytes p) s
      (closeShift p s) := by
  unfold closeShift
  dsimp only
  exact ((((postRecord_frame p _ s).then (fare_frame _ _)).then (closeOffDuty_frame _)).then
    (statusTrigger_frame _)).mono (by decide) fun _ => id

theorem dutyOff_frame (i : Slot) (s : State) :
    Frame [.store, .ram, .attention, .posCopy, .queue, .note, .fare, .offers]
      (fun x => outcomeBytes i x ∨ allRecordBytes x) s (dutyOff i s) := by
  have hc : ∀ o d, Frame [.store, .ram, .attention, .posCopy, .queue, .note, .fare, .offers]
      (fun x => outcomeBytes i x ∨ allRecordBytes x) s
      (completeRequest i o d s) := fun o d => (completeRequest_frame _ _ _ s).mono (by decide) fun _ => .inl
  unfold dutyOff
  split
  · exact hc _ _
  · split
    · exact hc _ _
    · rename_i p _
      exact ((closeShift_frame p s).trans (completeRequest_frame i _ _ _)).mono (by decide)
        fun x hx => hx.elim (fun h => .inr (recordBytes_all h)) .inl

/-! ### The Message Manager -/

theorem messageBytes_length (n : Nat) (m : Incoming) : (messageBytes n m).length = 70 := by
  simp [messageBytes]

theorem wf_presentMessage {r : Memory} (w : Memory.wf r = true) (i : Slot) (n : Nat) (m : Incoming) :
    Memory.wf (presentMessage i n m r) = true := by
  unfold presentMessage
  exact Memory.wf_write (Memory.wf_write w _ _) _ _

theorem get_presentMessage_other (i : Slot) (n : Nat) (m : Incoming) (r : Memory) (a : Nat)
    (ha : ¬ bytesAt (boxBase i) 96 a) : Memory.get (presentMessage i n m r) a = Memory.get r a := by
  unfold bytesAt at ha
  unfold presentMessage
  rw [Memory.get_write_other _ _ _ _ (by rw [handWord_length]; omega),
    Memory.get_write_other _ _ _ _ (by rw [messageBytes_length]; omega)]

theorem storeMessage_frame (i : Slot) (m : Incoming) (s : State) :
    Frame [.ram, .msgs] (bytesAt (boxBase i) 96) s (storeMessage i m s) := by
  refine .of_stores (fun p hp hb => by
      cases p <;> first | rfl | exact absurd (by decide) hp | exact ⟨rfl, rfl⟩ | exact absurd rfl hb)
    (fun a hs => get_presentMessage_other _ _ _ _ _ hs) (fun x hx => ?_) fun w => wf_presentMessage w _ _ _
  unfold bytesAt boxBase at hx
  omega

theorem answerDelivered_frame (n : Nat) (s : State) :
    Frame [.posCopy, .queue, .mail] nothing s (answerDelivered n s) := admitController_frame _ _ s

theorem acceptMessage_frame (i : Slot) (m : Incoming) (s : State) :
    Frame [.ram, .msgs, .attention, .posCopy, .queue, .mail, .chime] (bytesAt (boxBase i) 96) s
      (acceptMessage i m s) := by
  unfold acceptMessage
  dsimp only
  have h := (storeMessage_frame i m s).then (setNews_frame .message _)
  generalize setNews .message (storeMessage i m s) = t at h
  have h2 : Frame [.posCopy, .queue, .mail] nothing t (if m.directed then answerDelivered m.number t else t) :=
    (answerDelivered_frame _ t).ite (Frame.refl_of t)
  generalize (if m.directed then answerDelivered m.number t else t) = u at h2
  exact (h.then h2).then ((requestChime_frame u).ite (Frame.refl_of u))

theorem msgs_frame (m : MessageManager) (s : State) : Frame [.msgs] nothing s { s with msgs := m } :=
  .of_keeps (fun p hp => by cases p <;> first | rfl | exact absurd (by decide) hp | exact ⟨rfl, rfl⟩) rfl

theorem refuseMessage_frame (m : Incoming) (s : State) :
    Frame [.msgs, .posCopy, .queue, .attention] nothing s (refuseMessage m s) := by
  unfold refuseMessage
  split
  · split
    · exact Frame.refl_of s
    · exact ((msgs_frame _ s).then (statusTrigger_frame _)).mono (by decide) fun _ => id
  · exact ((msgs_frame _ s).then (setNews_frame .dropped _)).mono (by decide) fun _ => id

/-- The bytes of every Message Box slot. -/
def allBoxBytes : Nat → Prop := fun x => 0x0B00 ≤ x ∧ x < 0x1100

theorem boxBytes_all {i : Slot} {x : Nat} (h : bytesAt (boxBase i) 96 x) : allBoxBytes x := by
  have := i.isLt
  unfold bytesAt boxBase at h
  unfold allBoxBytes
  omega

theorem takeMessage_frame (m : Incoming) (s : State) :
    Frame [.ram, .msgs, .attention, .posCopy, .queue, .mail, .chime] allBoxBytes s (takeMessage m s) := by
  unfold takeMessage
  split
  · exact ((answerDelivered_frame _ s).mono (by decide) fun _ => False.elim).ite (Frame.refl_of s)
  · split
    · exact (acceptMessage_frame _ m s).mono (by decide) fun _ => boxBytes_all
    · exact (refuseMessage_frame m s).mono (by decide) fun _ => False.elim

theorem stopReminder_frame (s : State) : Frame [.msgs] nothing s (stopReminder s) :=
  (Frame.refl_of s).ite (msgs_frame _ s)

theorem clearRnr_frame (s : State) : Frame [.msgs, .posCopy, .queue] nothing s (clearRnr s) :=
  ((msgs_frame _ s).then (statusTrigger_frame _)).ite (Frame.refl_of s)

theorem takeReturn_frame (i : Slot) (d : Byte) (s : State) :
    Frame [.msgs, .posCopy, .queue, .mail] nothing s (takeReturn i d s) := by
  unfold takeReturn
  dsimp only
  obtain ⟨t, ht, h⟩ : ∃ t, Frame [.msgs] nothing s t ∧ { s with msgs := { s.msgs with
      boxes := put s.msgs.boxes i { pick s.msgs.boxes i with held := false } } } = t := ⟨_, msgs_frame _ s, rfl⟩
  rw [h]
  have h2 : Frame [.posCopy, .queue, .mail] nothing t
      (if owesReceipt (pick s.msgs.boxes i) d then
        admitController .msgReceipt (be 2 (pick s.msgs.boxes i).number) t else t) :=
    (admitController_frame _ _ t).ite (Frame.refl_of t)
  exact (((ht.then h2).then (clearRnr_frame _)).then (stopReminder_frame _)).mono (by decide) fun _ => id

theorem reminderExpired_frame (s : State) : Frame [.msgs, .attention, .chime] nothing s (reminderExpired s) :=
  .of_keeps (fun p hp => by cases p <;> first | rfl | exact absurd (by decide) hp | exact ⟨rfl, rfl⟩ | exact News.offer_bit (n := .reminder) (by decide) s.port.attention) rfl

theorem keepSend_frame (i : Slot) (tail : List Byte) (s : State) :
    Frame [.posCopy, .queue, .msgs] nothing s (keepSend i tail s) := by
  unfold keepSend
  dsimp only
  exact (admitHost_frame _ _ _ s).then (msgs_frame _ _)

theorem sendMessage_frame (i : Slot) (s : State) :
    Frame [.posCopy, .queue, .msgs, .ram, .attention] (outcomeBytes i) s (sendMessage i s) := by
  unfold sendMessage
  dsimp only
  split
  · exact (completeRequest_frame _ _ _ s).mono (by decide) fun _ => id
  · split
    · exact (keepSend_frame _ _ s).mono (by decide) fun _ => False.elim
    · exact (completeRequest_frame _ _ _ s).mono (by decide) fun _ => id

theorem takeSendNotice_frame (n : SendNotice) (s : State) :
    Frame [.msgs, .ram, .attention] (outcomeBytes n.slot) s (takeSendNotice n s) := by
  unfold takeSendNotice
  dsimp only
  split
  · exact (msgs_frame _ s).completing _ _ _
  · exact Frame.refl_of s

/-- The bytes of every request slot. -/
def allRequestBytes : Nat → Prop := fun x => ∃ i, outcomeBytes i x

theorem sendNoticeTaken_frame (s : State) :
    Frame [.mail, .msgs, .ram, .attention] allRequestBytes s (sendNoticeTaken s) := by
  unfold sendNoticeTaken
  split
  · exact Frame.refl_of s
  · rename_i n _ _
    exact ((mail_frame _ s).trans (takeSendNotice_frame n _)).mono (by decide)
      fun x hx => hx.elim False.elim fun h => ⟨_, h⟩

/-! ### The memory port -/

theorem writeWord_length (v : Word) : (le 2 v.toNat).length = 2 := by simp

theorem wf_writeWord {m : Memory} (w : Memory.wf m = true) (a : Nat) (v : Word) :
    Memory.wf (Memory.writeWord m a v) = true := by
  unfold Memory.writeWord
  exact Memory.wf_write w _ _

theorem get_writeWord_other (m : Memory) (off : Nat) (v : Word) (a : Nat) (ha : ¬ bytesAt off 2 a) :
    Memory.get (Memory.writeWord m off v) a = Memory.get m a := by
  unfold bytesAt at ha
  unfold Memory.writeWord
  rw [Memory.get_write_other _ _ _ _ (by rw [writeWord_length]; omega)]

/-- A word stored reads back. -/
theorem readWord_writeWord {m : Memory} (w : Memory.wf m = true) (a : Nat) (v : Word) :
    Memory.readWord (Memory.writeWord m a v) a = v.toNat := by
  unfold Memory.readWord Memory.writeWord
  have e := Memory.read_write_same w a (le 2 v.toNat)
  rw [writeWord_length] at e
  rw [e, leNat_le]
  exact Nat.mod_eq_of_lt v.isLt

theorem readWord_congr {m n : Memory} {a : Nat} (h : ∀ x, bytesAt a 2 x → Memory.get m x = Memory.get n x) :
    Memory.readWord m a = Memory.readWord n a := by
  unfold Memory.readWord
  rw [Memory.read_congr fun k hk => h _ (by unfold bytesAt; omega)]

/-- A word that lies in no board slot's contents. -/
def offBoards (off : Nat) : Prop := off + 2 ≤ 0x0802 ∨ 0x0B00 ≤ off

theorem storeWord_inside {off : Nat} (h : offBoards off) (v : Word) (s : State) :
    Frame [.ram] (bytesAt off 2) s (storeWord off v s) := by
  refine .of_stores (fun p hp hb => by
      cases p <;> first | rfl | exact absurd (by decide) hp | exact ⟨rfl, rfl⟩ | exact absurd rfl hb)
    (fun a hs => get_writeWord_other _ _ _ _ hs) (fun x hx => ?_) fun w => wf_writeWord w _ _
  unfold bytesAt at hx
  unfold offBoards at h
  omega

theorem storeWord_frame (off : Nat) (v : Word) (s : State) :
    Frame [.ram, .boards] (bytesAt off 2) s (storeWord off v s) where
  keeps p hp := by cases p <;> first | rfl | exact absurd (by decide) hp | exact ⟨rfl, rfl⟩
  ram a _ hs := get_writeWord_other _ _ _ _ hs
  wf w := wf_writeWord w _ _

theorem notePosition_frame (v : Word) (s : State) : Frame [.posWritten] nothing s (notePosition v s) := by
  unfold notePosition
  split
  · exact .of_keeps (fun p hp => by cases p <;> first | rfl | exact absurd (by decide) hp | exact ⟨rfl, rfl⟩) rfl
  · exact Frame.refl_of s

theorem positionWrite_inside {off : Nat} (h : offBoards off) (v : Word) (s : State) :
    Frame [.ram, .posWritten] (bytesAt off 2) s (positionWrite off v s) :=
  ((storeWord_inside h v s).then (notePosition_frame v _)).ite
    ((storeWord_inside h v s).mono (by decide) fun _ => id)

theorem slotDataWrite_inside (base : Nat) {off : Nat} (h : offBoards off) (v : Word) (s : State) :
    Frame [.ram, .faults, .attention] (bytesAt off 2) s (slotDataWrite base off v s) :=
  ((storeWord_inside h v s).mono (by decide) fun _ => id).ite
    ((exchangeFault_frame off s).mono (by decide) fun _ => False.elim)

theorem positionWrite_frame (off : Nat) (v : Word) (s : State) :
    Frame [.ram, .boards, .posWritten] (bytesAt off 2) s (positionWrite off v s) :=
  ((storeWord_frame off v s).then (notePosition_frame v _)).ite
    ((storeWord_frame off v s).mono (by decide) fun _ => id)

theorem slotDataWrite_frame (base off : Nat) (v : Word) (s : State) :
    Frame [.ram, .boards, .faults, .attention] (bytesAt off 2) s (slotDataWrite base off v s) :=
  ((storeWord_frame off v s).mono (by decide) fun _ => id).ite
    ((exchangeFault_frame off s).mono (by decide) fun _ => False.elim)

theorem appendOrder_frame (i : Slot) (s : State) : Frame [.order] nothing s (appendOrder i s) :=
  .of_keeps (fun p hp => by cases p <;> first | rfl | exact absurd (by decide) hp | exact ⟨rfl, rfl⟩) rfl

theorem handWrite_frame {a : List Part} {base : Nat} (hb : offBoards base) (v : Word) {f : State → State}
    (s : State) (h : ∀ t, Frame a nothing t (f t)) :
    Frame ([.ram, .faults, .attention] ++ a) (bytesAt base 2) s (handWrite base v f s) := by
  unfold handWrite
  split
  · refine ((storeWord_inside hb v s).then (h _)).mono ?_ fun _ => id
    intro r hr
    simp only [List.mem_append, List.mem_cons] at *
    tauto
  · exact (exchangeFault_frame base s).mono (by simp) fun _ => False.elim

theorem requestHand_frame (i : Slot) (v : Word) (s : State) :
    Frame [.ram, .faults, .attention, .order] (bytesAt (requestBase i) 2) s (requestHand i v s) :=
  handWrite_frame (by have := i.isLt; unfold offBoards requestBase; omega) v s (appendOrder_frame i)

theorem boxHand_frame (i : Slot) (v : Word) (s : State) :
    Frame [.ram, .faults, .attention, .msgs, .posCopy, .queue, .mail] (bytesAt (boxBase i) 2) s
      (boxHand i v s) :=
  handWrite_frame (by unfold offBoards boxBase; omega) v s (takeReturn_frame i (highByte v))

theorem recordHand_frame (i : Slot) (v : Word) (s : State) :
    Frame [.ram, .faults, .attention, .store] (bytesAt (recordBase i) 2) s (recordHand i v s) :=
  handWrite_frame (by unfold offBoards recordBase; omega) v s (collectRecord_frame i)

theorem maskWrite_frame (v : Word) (s : State) : Frame [.attnMask] nothing s (maskWrite v s) :=
  .of_keeps (fun p hp => by cases p <;> first | rfl | exact absurd (by decide) hp | exact ⟨rfl, rfl⟩) rfl

theorem readAttention_frame (s : State) : Frame [.attention, .offerNews, .pins] nothing s (readAttention s) :=
  .of_keeps (fun p hp => by cases p <;> first | rfl | exact absurd (by decide) hp | exact ⟨rfl, rfl⟩) rfl

/-! ### The Settings Unit -/

theorem takeUpSettings_frame (w : Settings) (s : State) :
    Frame [.settings, .cycle, .offers, .fare, .msgs, .queue, .store, .limiter, .lampTaken] nothing s
      (takeUpSettings w s) := by
  unfold takeUpSettings
  refine (Frame.then (a := [.settings, .cycle, .offers, .fare, .msgs, .queue, .store]) ?_
    (startWindow_frame _)).then (judgeLamp_frame _)
  exact .of_keeps (fun p hp => by cases p <;> first | rfl | exact absurd (by decide) hp | exact ⟨rfl, rfl⟩) rfl

theorem queueFree_frame (q : TransmitQueue) (n : Nat) (s : State) :
    Frame [.queue, .free] nothing s { s with queue := q, free := n } :=
  .of_keeps (fun p hp => by cases p <;> first | rfl | exact absurd (by decide) hp | exact ⟨rfl, rfl⟩) rfl

theorem enterRunning_frame (w : Settings) (s : State) :
    Frame [.settings, .cycle, .offers, .fare, .msgs, .queue, .store, .limiter, .lampTaken, .posCopy, .note,
      .free] nothing s (enterRunning w s) := by
  unfold enterRunning eitherOrder
  dsimp only
  exact ((((takeUpSettings_frame w s).then (statusTrigger_frame _)).then (reportFeed_frame _)).then
    (queueFree_frame _ _ _)).mono (by decide) fun _ => id

theorem settings_frame (u : SettingsUnit) (s : State) : Frame [.settings] nothing s { s with settings := u } :=
  .of_keeps (fun p hp => by cases p <;> first | rfl | exact absurd (by decide) hp | exact ⟨rfl, rfl⟩) rfl

theorem runWrite_frame (s : State) :
    Frame [.settings, .cycle, .offers, .fare, .msgs, .queue, .store, .limiter, .lampTaken, .posCopy, .note,
      .free, .ram, .attention] nothing s (runWrite s) := by
  unfold runWrite
  refine Frame.mono (Frame.then (a := [.settings, .cycle, .offers, .fare, .msgs, .queue, .store, .limiter,
    .lampTaken, .posCopy, .note, .free]) ?_ ((rewritePart_frame _).then (setNews_frame .settings _)))
    (by decide) fun _ => id
  split
  · exact (settings_frame _ s).mono (by decide) fun _ => id
  · exact enterRunning_frame _ s

theorem changeSettings_frame (w : Settings) (s : State) :
    Frame [.settings, .fare, .msgs, .queue, .store, .limiter, .lampTaken, .posCopy, .note] nothing s
      (changeSettings w s) := by
  unfold changeSettings
  dsimp only
  have h : Frame [.settings, .fare, .msgs, .queue, .store, .limiter, .lampTaken] nothing s
      (adoptSettings w s) := by
    unfold adoptSettings
    dsimp only
    refine (Frame.then (a := [.settings, .fare, .msgs, .queue, .store]) ?_ (forgetRemainder_frame _ _)).then
      (judgeLamp_frame _)
    exact .of_keeps (fun p hp => by cases p <;> first | rfl | exact absurd (by decide) hp | exact ⟨rfl, rfl⟩) rfl
  split
  · exact (h.then (reportFeed_frame _)).mono (by decide) fun _ => id
  · exact h.mono (by decide) fun _ => id

theorem replaceSettings_frame (i : Slot) (s : State) :
    Frame [.settings, .fare, .msgs, .queue, .store, .limiter, .lampTaken, .posCopy, .note, .ram, .attention]
      (outcomeBytes i) s (replaceSettings i s) := by
  unfold replaceSettings
  split
  · exact (completeRequest_frame _ _ _ s).mono (by decide) fun _ => id
  · split
    · exact (completeRequest_frame _ _ _ s).mono (by decide) fun _ => id
    · exact (changeSettings_frame _ s).completing _ _ _

theorem completions_frame (l : List Slot) (s : State) :
    Frame [.ram, .attention] allRequestBytes s
      (l.foldl (fun t i => completeRequest i .cancelled 0 t) s) := by
  induction l generalizing s with
  | nil => exact Frame.refl_of s
  | cons i l ih =>
    exact ((completeRequest_frame i .cancelled 0 s).trans (ih _)).mono (by decide)
      fun x hx => hx.elim (fun h => ⟨i, h⟩) id

/-- The bytes that the completion of every slot at CTL stores. -/
def openOutcomeBytes (s : State) : Nat → Prop :=
  fun x => ∃ i : Slot, heldByCtl s.ram (requestBase i) = true ∧ outcomeBytes i x

theorem outcomeBytes_inside {i : Slot} {x : Nat} (h : outcomeBytes i x) :
    requestBase i ≤ x ∧ x < requestBase i + 64 := by
  unfold outcomeBytes bytesAt at h
  omega

/-- The completion of one slot leaves every other slot alone. -/
theorem completeRequest_hand {i j : Slot} (h : j ≠ i) (o : ReqOutcome) (d : Nat) (s : State) :
    handAt (completeRequest i o d s).ram (requestBase j) = handAt s.ram (requestBase j) := by
  apply (completeRequest_frame i o d s).hand (request_not_controller (i := j) (by omega) (by omega))
  intro hx
  have e := outcomeBytes_inside hx
  have := Fin.val_ne_of_ne h
  unfold requestBase at e
  omega

theorem heldByCtl_completed {i : Slot} {o : ReqOutcome} {d : Nat} {now : Stamp} {s : State}
    (h : completed i o d now s) : heldByCtl s.ram (requestBase i) = false := by
  have e : Memory.get s.ram (requestBase i) = handApp := by
    have h1 := h.1
    simp only [Memory.read, handWord, List.cons.injEq] at h1
    exact h1.1
  unfold heldByCtl handAt
  rw [e]
  decide

/-- R20: the completions store to the slots at CTL alone. -/
theorem completions_frame' (l : List Slot) (s : State) :
    Frame [.ram, .attention] (openOutcomeBytes s) s
      (l.foldl (fun t i => completeRequest i .cancelled 0 t) s) := by
  induction l generalizing s with
  | nil => exact Frame.refl_of s
  | cons i l ih =>
    rw [List.foldl_cons]
    cases h : heldByCtl s.ram (requestBase i) with
    | false =>
      rw [completeRequest_other h]
      exact ih s
    | true =>
      refine ((completeRequest_frame i .cancelled 0 s).trans (ih _)).mono (by decide) ?_
      rintro x (hx | ⟨j, hj, hx⟩)
      · exact ⟨i, h, hx⟩
      · by_cases e : j = i
        · exact ⟨i, h, e ▸ hx⟩
        · refine ⟨j, ?_, hx⟩
          unfold heldByCtl at *
          rwa [completeRequest_hand e] at hj

/-- R20: an outcome stays through further completions. -/
theorem completions_keep {i : Slot} {o : ReqOutcome} {d : Nat} {now : Stamp} (l : List Slot) {s : State}
    (h : completed i o d now s) :
    completed i o d now (l.foldl (fun t i => completeRequest i .cancelled 0 t) s) := by
  refine completed_of_frame h (completions_frame' l s) ?_
  rintro x h1 h2 ⟨j, hj, hx⟩
  have e := outcomeBytes_inside hx
  by_cases hi : j = i
  · rw [hi, heldByCtl_completed h] at hj
    cases hj
  · have := Fin.val_ne_of_ne hi
    unfold requestBase at *
    omega

/-- R20: every slot of the list that stands at CTL completes CANCELLED. -/
theorem completions_completed {i : Slot} {l : List Slot} (hi : i ∈ l) {s : State}
    (hw : Memory.wf s.ram = true) (h : heldByCtl s.ram (requestBase i) = true) :
    completed i .cancelled 0 s.cycle.fleet (l.foldl (fun t i => completeRequest i .cancelled 0 t) s) := by
  induction l generalizing s with
  | nil => cases hi
  | cons j l ih =>
    rw [List.foldl_cons]
    have f := completeRequest_frame j .cancelled 0 s
    by_cases e : j = i
    · subst e
      exact completions_keep l (completeRequest_completed hw h _ _)
    · have hm : i ∈ l := by
        cases hi with
        | head => exact absurd rfl e
        | tail _ m => exact m
      have hc : (completeRequest j .cancelled 0 s).cycle = s.cycle := f.cycle (by decide)
      rw [← hc]
      refine ih hm (f.wf hw) ?_
      unfold heldByCtl at *
      rwa [completeRequest_hand (Ne.symm e)]

/-- R20: ATTENTION gains REQ_DONE where some slot of the list stands at CTL. -/
theorem completions_attention (l : List Slot) (s : State) :
    (l.foldl (fun t i => completeRequest i .cancelled 0 t) s).port.attention =
      s.port.attention ||| (if ∃ i ∈ l, heldByCtl s.ram (requestBase i) = true then News.reqDone.mask else 0) := by
  induction l generalizing s with
  | nil => simp
  | cons j l ih =>
    rw [List.foldl_cons, ih]
    by_cases h : heldByCtl s.ram (requestBase j) = true
    · rw [if_pos (c := ∃ i ∈ j :: l, heldByCtl s.ram (requestBase i) = true) ⟨j, by simp, h⟩,
        completeRequest_eq h]
      change (s.port.attention ||| News.reqDone.mask) ||| _ = _
      split
      · rw [BitVec.or_assoc, BitVec.or_self]
      · exact BitVec.or_zero
    · rw [completeRequest_other (by simpa using h)]
      simp [h]

theorem mem_cancelOrder (order : List Slot) (i : Slot) : i ∈ cancelOrder order := by
  unfold cancelOrder
  rw [List.mem_append, List.mem_filter]
  by_cases h : i ∈ order
  · exact .inl h
  · refine .inr ⟨?_, by simpa using h⟩
    have key : ∀ j : Slot, j ∈ slots16 := by decide
    exact key i

theorem order_frame (l : List Slot) (s : State) :
    Frame [.order] nothing s { s with port := { s.port with order := l } } :=
  .of_keeps (fun p hp => by cases p <;> first | rfl | exact absurd (by decide) hp | exact ⟨rfl, rfl⟩) rfl

theorem resetPort_frame (s : State) :
    Frame [.ram, .attention, .order] allRequestBytes s (resetPort s) :=
  (completions_frame _ s).then (order_frame [] _)

theorem resetLink_frame (s : State) : Frame [.link, .attention] nothing s (resetLink s) := by
  unfold resetLink
  refine Frame.mono (Frame.then (a := [.link]) ?_ (relink_frame _)) (by decide) fun _ => id
  exact .of_keeps (fun p hp => by cases p <;> first | rfl | exact absurd (by decide) hp | exact ⟨rfl, rfl⟩) rfl

theorem resetEmergency_frame (s : State) : Frame [.emergency] nothing s (resetEmergency s) :=
  .of_keeps (fun p hp => by cases p <;> first | rfl | exact absurd (by decide) hp | exact ⟨rfl, rfl⟩) rfl

theorem resetMessages_frame (s : State) : Frame [.msgs, .posCopy, .queue] nothing s (resetMessages s) := by
  unfold resetMessages
  dsimp only
  split
  · exact (msgs_frame _ s).mono (by decide) fun _ => id
  · exact (msgs_frame _ s).then (statusTrigger_frame _)

theorem note_frame (n : Option Nat) (s : State) : Frame [.note] nothing s { s with note := n } :=
  .of_keeps (fun p hp => by cases p <;> first | rfl | exact absurd (by decide) hp | exact ⟨rfl, rfl⟩) rfl

theorem resetStore_frame (s : State) : Frame [.note, .posCopy, .queue] nothing s (resetStore s) :=
  ((note_frame none s).then (reportFeed_frame _)).mono (by decide) fun _ => id

theorem resetQueue_frame (s : State) : Frame [.queue, .note, .posCopy] nothing s (resetQueue s) :=
  ((queue_frame _ s).then (resetStore_frame _)).mono (by decide) fun _ => id

theorem resetAroundQueue_frame (a b : Bool) (s : State) :
    Frame [.msgs, .posCopy, .queue, .note] nothing s (resetAroundQueue a b s) := by
  unfold resetAroundQueue
  cases a <;> cases b <;> dsimp only
  · exact (((resetQueue_frame s).then (resetMessages_frame _)).then (resetStore_frame _)).mono (by decide)
      fun _ => id
  · exact (((resetStore_frame s).then (resetQueue_frame _)).then (resetMessages_frame _)).mono (by decide)
      fun _ => id
  · exact (((resetMessages_frame s).then (resetQueue_frame _)).then (resetStore_frame _)).mono (by decide)
      fun _ => id
  · exact (((resetMessages_frame s).then (resetStore_frame _)).then (resetQueue_frame _)).mono (by decide)
      fun _ => id

theorem queueNoteFree_frame (q : TransmitQueue) (n : Option Nat) (f : Nat) (s : State) :
    Frame [.queue, .note, .free] nothing s { s with queue := q, note := n, free := f } :=
  .of_keeps (fun p hp => by cases p <;> first | rfl | exact absurd (by decide) hp | exact ⟨rfl, rfl⟩) rfl

theorem resetFreely_frame (s : State) : Frame [.msgs, .posCopy, .queue, .note, .free] nothing s (resetFreely s) := by
  unfold resetFreely
  dsimp only
  exact ((resetAroundQueue_frame true true s).then (queueNoteFree_frame _ _ _ _)).mono (by decide) fun _ => id

theorem softReset_frame (s : State) :
    Frame [.ram, .attention, .order, .tx, .mail, .cycle, .link, .offers, .emergency, .msgs, .posCopy, .queue,
      .note, .free] allRequestBytes s (softReset s) :=
  ((((((resetPort_frame s).then (cutSending_frame .reset _)).then (resetTracker_frame _)).then
    (resetLink_frame _)).then (resetOffers_frame _)).then (resetEmergency_frame _)).then
      (resetFreely_frame _) |>.mono (by decide) fun _ => id

/-! ### The Supply Monitor and the time base -/

theorem supplySample_frame (x : Nat) (s : State) :
    Frame [.supply, .due, .attention, .tx, .mail] nothing s (supplySample x s) := by
  unfold supplySample
  dsimp only
  obtain ⟨u, hu, h⟩ : ∃ u, Frame [.supply, .due] nothing s u ∧
      { s with
        supply := s.supply.judged s.threshold (clampSample x)
        due := { s.due with supplySamples := s.due.supplySamples - 1 } } = u := ⟨_, by exact .of_keeps (fun p hp => by cases p <;> first | rfl | exact absurd (by decide) hp | exact ⟨rfl, rfl⟩) rfl, rfl⟩
  simp only [h]
  split
  · exact hu.mono (by decide) fun _ => id
  · unfold supplyChanged
    dsimp only
    split
    · refine ((hu.then (setNews_frame .supply u)).then
        ((cutSending_frame .supply _).then (mail_frame _ _))).mono (by decide) fun _ => id
    · exact (hu.then (setNews_frame .supply u)).mono (by decide) fun _ => id

theorem timeTick_frame (s : State) :
    Frame [.time, .cycle, .chime, .rx, .tx, .due, .offers, .msgs, .emergency, .queue] nothing s (timeTick s) := by
  unfold timeTick
  dsimp only
  split <;> exact .of_keeps (fun p hp => by cases p <;> first | rfl | exact absurd (by decide) hp | exact ⟨rfl, rfl⟩) rfl

end Sys2Proof.Machine
end

