-- ==== Sys2Proof/Laws/Commands.lean ====
section
/-! SUPPORT. Every command but the three of the supplies in one form: an occasion and an effect, published. -/

namespace Sys2Proof.Machine

/-- The occasion of a command (log entry 1). -/
def occasion (c : Instr) (s : State) : Bool :=
  match c with
  | .powerOn _ => false
  | .logicSupplyLoss => false
  | .backupSupplyLoss => false
  | .hostSlotDataWrite a v => writeActs (byteOffset a) v s
  | .fixedBlockWrite a v => writeActs (byteOffset a) v s
  | .positionBlockWrite _ => true
  | .requestHandover _ _ => true
  | .messageBoxReturn _ _ => true
  | .recordCollection _ _ => true
  | .attentionRead => true
  | .attnMaskWrite _ => true
  | .run v => controlActs v s
  | .softReset v => controlActs v s
  | .registerWrite a v => writeActs (byteOffset a) v s
  | .badRequest => headIs (fun c => !knownCodes.contains c) s
  | .dutyOn => headIs (· == 0x01) s
  | .dutyOff => headIs (· == 0x02) s
  | .setZone => headIs (· == 0x03) s
  | .sendStatus => headIs (· == 0x04) s
  | .meterHire => headIs (· == 0x10) s
  | .meterStop => headIs (· == 0x11) s
  | .meterResume => headIs (· == 0x12) s
  | .meterClear => headIs (· == 0x13) s
  | .selectTariff => headIs (· == 0x14) s
  | .addExtra => headIs (· == 0x15) s
  | .acceptOffer => headIs (· == 0x20) s
  | .declineOffer => headIs (· == 0x21) s
  | .resumeOffers => headIs (· == 0x22) s
  | .sendMessage => headIs (· == 0x30) s
  | .raiseEmergency => headIs (· == 0x40) s
  | .replaceSettings => headIs (· == 0x50) s
  | .clearLinkLog => headIs (· == 0x51) s
  | .headerLengthError _ => s.rx.asm == .header
  | .receiveOverrun _ => s.rx.asm == .hunt
  | .receiveFrameEnd payload _ => s.rx.asm == .body && payloadFits payload s
  | .receiveClockLoss => clockSilent s.rx
  | .beacon => (beaconAtTracker s).isSome
  | .beaconAtLink => beaconForLink s
  | .jobOffer => (offerAtManager s).isSome
  | .jobAward => (awardAtManager s).isSome
  | .jobWithdraw => (withdrawAtManager s).isSome
  | .baseMessage => (messageAtManager s).isSome
  | .emergencyAck => holdsPlain .emergencyAck s
  | .emergencyClear => holdsPlain .emergencyClear s
  | .cabSuspend => (suspendAtManager s).isSome
  | .cabResume => holdsPlain .cabResume s
  | .beaconMissed => deadlineReached s
  | .slotStart => slotReached s
  | .keyingEnd => s.tx.shifter == .keying && decide (2 ≤ s.tx.keyed)
  | .frameSent => s.tx.shifter == .sending
  | .slotEnd => s.tx.shifter != .idle && decide (10 ≤ s.tx.keyed)
  | .sendReport => !s.mail.sendReports.isEmpty
  | .linkOutcome => (outcomeAtLink s).isSome
  | .receiveError => !s.mail.rxErrors.isEmpty
  | .beaconMissedReport => s.mail.linkReports.head? == some .beaconMissed
  | .syncLostReport => s.mail.linkReports.head? == some .syncLost
  | .queueOutcome => !s.mail.queueOuts.isEmpty
  | .statusTimerExpiry => s.queue.timer.due
  | .acceptUndelivered => !s.mail.undelivered.isEmpty
  | .heldSendCompletion => !s.mail.sendNotices.isEmpty
  | .reportDone => !s.mail.reportsDone.isEmpty
  | .offerDeadlineExpiry i => deadlineOut s.offers i
  | .awardWaitExpiry i => waitOut s.offers i
  | .baseSuspensionExpiry => s.offers.baseSuspended && s.offers.baseTimer.due
  | .chimePulseEnd => s.chime.high && s.chime.ticks == 0
  | .meterTick => decide (0 < s.due.meterTicks)
  | .distancePulse => s.running
  | .limiterWindowStart => decide (0 < s.due.windows)
  | .markEvent => !s.mail.marks.isEmpty
  | .shiftTotalAddition => !s.mail.additions.isEmpty
  | .reminderExpiry => s.msgs.reminder.due
  | .debouncedFallingEdge => decide (0 < s.due.inputSamples) && edgeNext s.emergency
  | .emergencyStateChange => !s.mail.waiting.isEmpty
  | .callOutcome => !s.mail.callOuts.isEmpty
  | .trackingTimerExpiry => s.emergency.kept.state == .acknowledged && s.emergency.tracking.due
  | .supplySample _ => decide (0 < s.due.supplySamples)
  | .timeBaseTick => true
  | .emergencyInputSample _ => decide (0 < s.due.inputSamples)
  | .syncFound _ => s.rx.asm == .hunt
  | .headerCollected _ => s.rx.asm == .header
  | .skipEnd bytes => s.rx.asm == .skip && skipComplete bytes

/-- What a command does where its occasion holds, before the end of the event. -/
def effect (c : Instr) (s : State) : State :=
  match c with
  | .powerOn _ => s
  | .logicSupplyLoss => s
  | .backupSupplyLoss => s
  | .hostSlotDataWrite a v => hostWrite (byteOffset a) v s
  | .fixedBlockWrite a v => hostWrite (byteOffset a) v s
  | .positionBlockWrite v => positionWrite positionBase v s
  | .requestHandover i v => requestHand i v s
  | .messageBoxReturn i v => boxHand i v s
  | .recordCollection i v => recordHand i v s
  | .attentionRead => readAttention s
  | .attnMaskWrite v => maskWrite v s
  | .run _ => controlWrite s
  | .softReset _ => controlWrite s
  | .registerWrite a v => hostWrite (byteOffset a) v s
  | .badRequest => takeHead (fun i t => completeRequest i .badRequest 0 t) s
  | .dutyOn => takeHead dutyOn s
  | .dutyOff => takeHead dutyOff s
  | .setZone => takeHead setZone s
  | .sendStatus => takeHead sendStatus s
  | .meterHire => takeHead meterHire s
  | .meterStop => takeHead meterStop s
  | .meterResume => takeHead meterResume s
  | .meterClear => takeHead meterClear s
  | .selectTariff => takeHead selectTariff s
  | .addExtra => takeHead addExtra s
  | .acceptOffer => takeHead acceptOffer s
  | .declineOffer => takeHead declineOffer s
  | .resumeOffers => takeHead resumeOffers s
  | .sendMessage => takeHead sendMessage s
  | .raiseEmergency => takeHead raiseEmergency s
  | .replaceSettings => takeHead replaceSettings s
  | .clearLinkLog => takeHead clearLinkLog s
  | .headerLengthError h => headerTaken h s
  | .receiveOverrun bits => receiveBits bits s
  | .receiveFrameEnd payload crc => frameEnded payload crc s
  | .receiveClockLoss => clockLost s
  | .beacon => match beaconAtTracker s with
      | some (h, .beacon _ cycle secs interval slots acks) =>
        takeBeacon (Config.freeLink s.free) h cycle secs interval slots acks { s with free := s.free + 1 }
      | _ => s
  | .beaconAtLink => relink { takenByLink s with link := s.link.goodBeacon }
  | .jobOffer => match offerAtManager s with
      | some (directed, p) => takeOffer directed p (takenByOwner s)
      | none => s
  | .jobAward => match awardAtManager s with
      | some (number, cab) => takeAward number cab (takenByOwner s)
      | none => s
  | .jobWithdraw => match withdrawAtManager s with
      | some number => takeWithdraw number (takenByOwner s)
      | none => s
  | .baseMessage => match messageAtManager s with
      | some m => takeMessage m (takenByOwner s)
      | none => s
  | .emergencyAck => match heldForOwner s with
      | some h => takeAck h.stamp (takenByOwner s)
      | none => s
  | .emergencyClear => takeClear (takenByOwner s)
  | .cabSuspend => match suspendAtManager s with
      | some (reason, minutes) => suspendCab reason minutes (takenByOwner s)
      | none => s
  | .cabResume => resumeCab (takenByOwner s)
  | .beaconMissed => match s.cycle.deadline with
    | some d => missBeacon d s
    | none => s
  | .slotStart => startSlot s
  | .keyingEnd => { s with tx := { s.tx with shifter := .sending } }
  | .frameSent => mailSendReport .sent { s with tx := { s.tx with shifter := .idle } }
  | .slotEnd => cutSending .slotEnd s
  | .sendReport => sendReportTaken s
  | .linkOutcome => match outcomeAtLink s with
      | some (q, o) => linkTakesOutcome q o (dropLinkReport s)
      | none => s
  | .receiveError => match s.mail.rxErrors with
      | e :: rest =>
       loggedChange (LinkUnit.downError e.linkError) { s with mail := { s.mail with rxErrors := rest } }
      | [] => s
  | .beaconMissedReport => linkTakesMiss (dropLinkReport s)
  | .syncLostReport => linkTakesSyncLost (dropLinkReport s)
  | .queueOutcome => queueOutcomeTaken s
  | .statusTimerExpiry => statusExpired s
  | .acceptUndelivered => undeliveredTaken s
  | .heldSendCompletion => sendNoticeTaken s
  | .reportDone => reportDoneTaken s
  | .offerDeadlineExpiry i => deadlineExpired i s
  | .awardWaitExpiry i => unanswered i s
  | .baseSuspensionExpiry => endSuspension s
  | .chimePulseEnd => { s with chime := { s.chime with high := false } }
  | .meterTick => meterTick s
  | .distancePulse => distancePulse s
  | .limiterWindowStart => startWindow { s with due := { s.due with windows := s.due.windows - 1 } }
  | .markEvent => markTaken s
  | .shiftTotalAddition => additionTaken s
  | .reminderExpiry => reminderExpired s
  | .debouncedFallingEdge => inputSample true s
  | .emergencyStateChange => changeTaken s
  | .callOutcome => callOutcomeTaken s
  | .trackingTimerExpiry => trackingExpired s
  | .supplySample vsup => supplySample vsup s
  | .timeBaseTick => timeTick s
  | .emergencyInputSample low => inputSample low s
  | .syncFound bits => receiveBits bits s
  | .headerCollected h => headerTaken h s
  | .skipEnd _ => backToHunt s

/-- Every command but the three of the supplies: where the part is powered and the occasion holds its effect
is published (at a meter tick with the running fields), and else nothing changes. -/
theorem exec_effect {c : Instr} (h1 : ∀ v, c ≠ .powerOn v) (h2 : c ≠ .logicSupplyLoss)
    (h3 : c ≠ .backupSupplyLoss) (s : State) : exec c s =
      .next (if s.powered && occasion c s then publishWith (c == .meterTick) (effect c s) else s) := by
  cases c <;> first
    | exact absurd rfl (h1 _)
    | exact absurd rfl h2
    | exact absurd rfl h3
    | rfl

/-- ATTN_MASK, for the commands that may write it: ATTN_MASK_WRITE, and a host write by its address; the OFFER
bit, for ATTENTION_READ, which clears it. -/
def maskParts (c : Instr) : List Part :=
  match c with
  | .attnMaskWrite _ => [.attnMask]
  | .attentionRead => [.offerNews]
  | .hostSlotDataWrite a _ => if areaOf (byteOffset a) = .attnMask then [.attnMask] else []
  | .fixedBlockWrite a _ => if areaOf (byteOffset a) = .attnMask then [.attnMask] else []
  | .registerWrite a _ => if areaOf (byteOffset a) = .attnMask then [.attnMask] else []
  | _ => []

/-- What the effects may touch besides: everything but ATTN_MASK, the queue of waiting commands, the supply,
the retained copy, the contents of the board slots and OFFER news. -/
def workParts : List Part :=
  [.ram, .attention, .faults, .order, .posWritten, .posCopy, .settings, .rx, .tx, .time, .cycle,
   .queue, .link, .offers, .fare, .limiter, .store, .note, .msgs, .emergency, .supply, .mail, .due, .chime,
   .lampTaken, .pins, .free]

def anyByte : Nat → Prop := fun _ => True

theorem Frame.work {l a : List Part} {p : Nat → Prop} {s t : State} (h : Frame a p s t)
    (ha : ∀ r ∈ a, r ∈ workParts) : Frame (l ++ workParts) anyByte s t :=
  h.mono (fun r hr => List.mem_append_right _ (ha r hr)) fun _ _ => trivial

theorem controlWrite_work {l : List Part} (s : State) : Frame (l ++ workParts) anyByte s (controlWrite s) := by
  unfold controlWrite
  exact ((softReset_frame s).work (by decide)).ite ((runWrite_frame s).work (by decide))

/-- Where an offset lies by its area. -/
def Area.holds (off : Nat) : Area → Prop
  | .settings => off < 0x0100
  | .controllerBlock => (0x0100 ≤ off ∧ off < 0x0200) ∨ (0x0220 ≤ off ∧ off < 0x0240)
  | .position => 0x0200 ≤ off ∧ off < 0x0220
  | .request i o => off = requestBase i + o ∧ o < 64
  | .board => 0x0800 ≤ off ∧ off < 0x0B00
  | .box i o => off = boxBase i + o ∧ o < 96
  | .record i o => off = recordBase i + o ∧ o < 128
  | .ident => off = 0x3FF0
  | .control => off = 0x3FF2
  | .attention => off = 0x3FF4
  | .attnMask => off = 0x3FF6
  | .unused => (0x0240 ≤ off ∧ off < 0x0400) ∨ 0x1900 ≤ off

theorem areaOf_holds (off : Nat) : (areaOf off).holds off := by
  unfold areaOf
  by_cases h1 : off < 0x0100
  · rw [if_pos h1]; exact h1
  rw [if_neg h1]
  by_cases h2 : off < 0x0200
  · rw [if_pos h2]; unfold Area.holds; omega
  rw [if_neg h2]
  by_cases h3 : off < 0x0220
  · rw [if_pos h3]; unfold Area.holds; omega
  rw [if_neg h3]
  by_cases h4 : off < 0x0240
  · rw [if_pos h4]; unfold Area.holds; omega
  rw [if_neg h4]
  by_cases h5 : off < 0x0400
  · rw [if_pos h5]; unfold Area.holds; omega
  rw [if_neg h5]
  by_cases h6 : off < 0x0800
  · rw [if_pos h6]
    unfold Area.holds requestBase
    simp only [Fin.ofNat]
    omega
  rw [if_neg h6]
  by_cases h7 : off < 0x0B00
  · rw [if_pos h7]; unfold Area.holds; omega
  rw [if_neg h7]
  by_cases h8 : off < 0x1100
  · rw [if_pos h8]
    unfold Area.holds boxBase
    simp only [Fin.ofNat]
    omega
  rw [if_neg h8]
  by_cases h9 : off < 0x1900
  · rw [if_pos h9]
    unfold Area.holds recordBase
    simp only [Fin.ofNat]
    omega
  rw [if_neg h9]
  by_cases h10 : off < 0x3FF0
  · rw [if_pos h10]; unfold Area.holds; omega
  rw [if_neg h10]
  by_cases h11 : off = 0x3FF0
  · rw [if_pos h11]; exact h11
  rw [if_neg h11]
  by_cases h12 : off = 0x3FF2
  · rw [if_pos h12]; exact h12
  rw [if_neg h12]
  by_cases h13 : off = 0x3FF4
  · rw [if_pos h13]; exact h13
  rw [if_neg h13]
  by_cases h14 : off = 0x3FF6
  · rw [if_pos h14]; exact h14
  rw [if_neg h14]
  unfold Area.holds
  omega

theorem area_of {off : Nat} {r : Area} (h : areaOf off = r) : r.holds off := h ▸ areaOf_holds off

theorem hostWrite_work (off : Nat) (v : Word) (s : State) :
    Frame ((if areaOf off = .attnMask then [.attnMask] else []) ++ workParts) anyByte s (hostWrite off v s) := by
  generalize hl : (if areaOf off = .attnMask then [Part.attnMask] else []) = l
  unfold hostWrite
  split
  · rename_i e
    exact (storeWord_inside (by have h : off < 0x0100 := area_of e; unfold offBoards; omega) _ s).work (by decide)
  · rename_i e
    exact (positionWrite_inside (by
      have h : 0x0200 ≤ off ∧ off < 0x0220 := area_of e
      unfold offBoards
      omega) _ s).work (by decide)
  · exact (exchangeFault_frame _ s).work (by decide)
  · exact (exchangeFault_frame _ s).work (by decide)
  · rename_i i o e
    have h : offBoards off := by
      have h : off = requestBase i + o ∧ o < 64 := area_of e
      have := i.isLt
      unfold requestBase at h
      unfold offBoards
      omega
    exact ((requestHand_frame _ _ s).work (by decide)).ite ((slotDataWrite_inside _ h _ s).work (by decide))
  · rename_i i o e
    have h : offBoards off := by
      have h : off = boxBase i + o ∧ o < 96 := area_of e
      have := i.isLt
      unfold boxBase at h
      unfold offBoards
      omega
    exact ((boxHand_frame _ _ s).work (by decide)).ite ((slotDataWrite_inside _ h _ s).work (by decide))
  · rename_i i o e
    have h : offBoards off := by
      have h : off = recordBase i + o ∧ o < 128 := area_of e
      have := i.isLt
      unfold recordBase at h
      unfold offBoards
      omega
    exact ((recordHand_frame _ _ s).work (by decide)).ite ((slotDataWrite_inside _ h _ s).work (by decide))
  · exact controlWrite_work s
  · rename_i h
    rw [if_pos h] at hl
    exact hl ▸ (maskWrite_frame _ s).mono (by decide) fun _ _ => trivial
  · exact Frame.refl_of s
  · exact Frame.refl_of s
  · exact Frame.refl_of s

/-- R11: what the taking of a request does. -/
theorem takeHead_eq {judge : Slot → State → State} {s : State} {i : Slot} {rest : List Slot}
    (ho : s.port.order = i :: rest) : takeHead judge s =
      if s.running then judge i (s.taken rest) else completeRequest i .notRunning 0 (s.taken rest) := by
  unfold takeHead
  rw [ho]
  rfl

theorem Frame.any {l a : List Part} {p : Nat → Prop} {s t u : State} (h : Frame (l ++ workParts) anyByte s t)
    (k : Frame a p t u) (ha : ∀ r ∈ a, r ∈ workParts) : Frame (l ++ workParts) anyByte s u :=
  (h.trans k).mono (fun r hr => (List.mem_append.1 hr).elim id fun m => List.mem_append_right _ (ha r m))
    fun _ _ => trivial

theorem takeHead_work {l a : List Part} {p : Slot → Nat → Prop} {judge : Slot → State → State}
    (h : ∀ i t, Frame a (p i) t (judge i t)) (ha : ∀ r ∈ a, r ∈ workParts) (s : State) :
    Frame (l ++ workParts) anyByte s (takeHead judge s) := by
  cases ho : s.port.order with
  | nil =>
    unfold takeHead
    rw [ho]
    exact Frame.refl_of s
  | cons i rest =>
    rw [takeHead_eq ho]
    have ht : Frame (l ++ workParts) anyByte s (s.taken rest) := (taken_frame s rest).work (by decide)
    exact (ht.any (h i _) ha).ite (ht.any (completeRequest_frame _ _ _ _) (by decide))

/-- Every effect leaves the queue of waiting commands, the supply and the retained copy alone, and keeps the
canonical form of the RAM. -/
theorem effect_frame (c : Instr) (s : State) : Frame (maskParts c ++ workParts) anyByte s (effect c s) := by
  have hown : ∀ {l a : List Part} {p : Nat → Prop} {u : State}, Frame a p (takenByOwner s) u →
      (∀ r ∈ a, r ∈ workParts) → Frame (l ++ workParts) anyByte s u := fun k ha =>
    ((takenByOwner_frame s).work (by decide)).any k ha
  unfold effect
  split
  · exact Frame.refl_of s
  · exact Frame.refl_of s
  · exact Frame.refl_of s
  · exact hostWrite_work _ _ s
  · exact hostWrite_work _ _ s
  · exact (positionWrite_inside (by unfold offBoards positionBase; omega) _ s).work (by decide)
  · exact (requestHand_frame _ _ s).work (by decide)
  · exact (boxHand_frame _ _ s).work (by decide)
  · exact (recordHand_frame _ _ s).work (by decide)
  · exact (readAttention_frame s).mono (b := [.offerNews] ++ workParts) (by decide) fun _ _ => trivial
  · exact (maskWrite_frame _ s).mono (b := [.attnMask] ++ workParts) (by decide) fun _ _ => trivial
  · exact controlWrite_work s
  · exact controlWrite_work s
  · exact hostWrite_work _ _ s
  · exact takeHead_work (fun i t => completeRequest_frame i .badRequest 0 t) (by decide) s
  · exact takeHead_work dutyOn_frame (by decide) s
  · exact takeHead_work dutyOff_frame (by decide) s
  · exact takeHead_work setZone_frame (by decide) s
  · exact takeHead_work (fun i t => (statusTrigger_frame t).completing i .done 0) (by decide) s
  · exact takeHead_work meterHire_frame (by decide) s
  · exact takeHead_work meterStop_frame (by decide) s
  · exact takeHead_work meterResume_frame (by decide) s
  · exact takeHead_work meterClear_frame (by decide) s
  · exact takeHead_work selectTariff_frame (by decide) s
  · exact takeHead_work addExtra_frame (by decide) s
  · exact takeHead_work acceptOffer_frame (by decide) s
  · exact takeHead_work declineOffer_frame (by decide) s
  · exact takeHead_work resumeOffers_frame (by decide) s
  · exact takeHead_work sendMessage_frame (by decide) s
  · exact takeHead_work (fun i t => (trigger_frame .host t).completing i .done _) (by decide) s
  · exact takeHead_work replaceSettings_frame (by decide) s
  · exact takeHead_work (fun i t => ((link_frame _ t).then (rewriteLink_frame _)).completing i .done 0)
      (by decide) s
  · exact (headerTaken_frame _ s).work (by decide)
  · exact (receiveBits_frame _ s).work (by decide)
  · exact (frameEnded_frame _ _ s).work (by decide)
  · exact (clockLost_frame s).work (by decide)
  · split
    · exact ((free_frame _ s).then (takeBeacon_frame _ _ _ _ _ _ _ _)).work (by decide)
    · exact Frame.refl_of s
  · exact (((takenByLink_frame s).then (link_frame _ _)).then (relink_frame _)).work (by decide)
  · split
    · exact hown (takeOffer_frame _ _ _) (by decide)
    · exact Frame.refl_of s
  · split
    · exact hown (takeAward_frame _ _ _) (by decide)
    · exact Frame.refl_of s
  · split
    · exact hown (takeWithdraw_frame _ _) (by decide)
    · exact Frame.refl_of s
  · split
    · exact hown (takeMessage_frame _ _) (by decide)
    · exact Frame.refl_of s
  · split
    · exact hown (takeAck_frame _ _) (by decide)
    · exact Frame.refl_of s
  · exact hown (takeClear_frame _) (by decide)
  · split
    · exact hown (suspendCab_frame _ _ _) (by decide)
    · exact Frame.refl_of s
  · exact hown (resumeCab_frame _) (by decide)
  · split
    · exact (missBeacon_frame _ s).work (by decide)
    · exact Frame.refl_of s
  · exact (startSlot_frame s).work (by decide)
  · exact (tx_frame _ s).work (by decide)
  · exact ((tx_frame _ s).then (mail_frame _ _)).work (by decide)
  · exact (cutSending_frame _ s).work (by decide)
  · exact (sendReportTaken_frame s).work (by decide)
  · split
    · exact ((mail_frame _ s).then (linkTakesOutcome_frame _ _ _)).work (by decide)
    · exact Frame.refl_of s
  · split
    · exact ((mail_frame _ s).then (loggedChange_frame _ _)).work (by decide)
    · exact Frame.refl_of s
  · exact ((mail_frame _ s).then (loggedChange_frame _ _)).work (by decide)
  · exact (((mail_frame _ s).then (link_frame _ _)).then (relink_frame _)).work (by decide)
  · exact (queueOutcomeTaken_frame s).work (by decide)
  · exact (statusExpired_frame s).work (by decide)
  · exact (undeliveredTaken_frame s).work (by decide)
  · exact (sendNoticeTaken_frame s).work (by decide)
  · exact (reportDoneTaken_frame s).work (by decide)
  · exact (deadlineExpired_frame _ s).work (by decide)
  · exact (unanswered_frame _ s).work (by decide)
  · exact (endSuspension_frame s).work (by decide)
  · exact (chime_frame _ s).work (by decide)
  · exact (meterTick_frame s).work (by decide)
  · exact (distancePulse_frame s).work (by decide)
  · exact ((due_frame _ s).then (startWindow_frame _)).work (by decide)
  · exact (markTaken_frame s).work (by decide)
  · exact (additionTaken_frame s).work (by decide)
  · exact (reminderExpired_frame s).work (by decide)
  · exact (inputSample_frame _ s).work (by decide)
  · exact (changeTaken_frame s).work (by decide)
  · exact (callOutcomeTaken_frame s).work (by decide)
  · exact (trackingExpired_frame s).work (by decide)
  · exact (supplySample_frame _ s).work (by decide)
  · exact (timeTick_frame s).work (by decide)
  · exact (inputSample_frame _ s).work (by decide)
  · exact (receiveBits_frame _ s).work (by decide)
  · exact (headerTaken_frame _ s).work (by decide)
  · exact (backToHunt_frame s).work (by decide)

theorem maskParts_subset (c : Instr) : ∀ r ∈ maskParts c, r ∈ [Part.attnMask, Part.offerNews] := by
  have mask : ∀ (b : Prop) [Decidable b], ∀ r ∈ (if b then [Part.attnMask] else []),
      r ∈ [Part.attnMask, Part.offerNews] := by
    intro b _ r hr
    split at hr
    · exact List.mem_singleton.1 hr ▸ List.mem_cons_self
    · cases hr
  cases c <;> first
    | exact mask _
    | exact fun r hr => absurd hr List.not_mem_nil
    | exact fun r hr => by rw [List.mem_singleton.1 hr]; decide

/-- A part that no effect touches. -/
theorem effect_keeps {p : Part} (c : Instr) (s : State) (h : p ∉ [Part.attnMask, Part.offerNews] ++ workParts) :
    p.same s (effect c s) :=
  (effect_frame c s).keeps p fun m => h ((List.mem_append.1 m).elim
    (fun m => List.mem_append_left _ (maskParts_subset c p m)) (List.mem_append_right _))

/-- ATTENTION_READ alone touches OFFER news before the end of the event. -/
theorem effect_offerNews {c : Instr} (hc : c ≠ .attentionRead) (s : State) :
    (effect c s).port.attention.getLsbD 1 = s.port.attention.getLsbD 1 := by
  refine (effect_frame c s).keeps .offerNews fun m => ?_
  obtain m | m := List.mem_append.1 m
  · have mask : ∀ (b : Prop) [Decidable b], Part.offerNews ∉ (if b then [Part.attnMask] else []) := by
      intro b _
      split <;> decide
    cases c <;> first
      | exact absurd rfl hc
      | exact absurd m List.not_mem_nil
      | exact mask _ m
      | exact absurd (List.mem_singleton.1 m) (by decide)
  · exact absurd m (by decide)

/-- No effect touches the contents of a board slot. -/
theorem effect_boardByte (c : Instr) (s : State) (i : Place) {a : Nat} (h1 : boardBase i + 2 ≤ a)
    (h2 : a < boardBase i + 96) : Memory.get (effect c s).ram a = Memory.get s.ram a := by
  have h : boardBytes (effect c s).ram = boardBytes s.ram := effect_keeps (p := .boards) c s (by decide)
  have mem : ∀ i : Place, i ∈ places8 := by decide
  have e := List.map_inj_left.1 h i (mem i)
  have e := List.getElem_of_eq e (i := a - (boardBase i + 2)) (by simp; omega)
  rw [Memory.getElem_read, Memory.getElem_read] at e
  rwa [show boardBase i + 2 + (a - (boardBase i + 2)) = a by omega] at e

/-- So a slot is stale after an effect by what the table then holds. -/
theorem effect_boards (c : Instr) (s : State) (o : OfferManager) (i : Place) :
    boardStale o (effect c s).ram i = boardStale o s.ram i :=
  boardStale_congr fun _ => effect_boardByte c s i

/-- All a command other than those of the supplies can answer. -/
theorem exec_cases {c : Instr} {s t : State} (h1 : ∀ v, c ≠ .powerOn v) (h2 : c ≠ .logicSupplyLoss)
    (h3 : c ≠ .backupSupplyLoss) (h : exec c s = .next t) :
    t = s ∨ (s.powered = true ∧ occasion c s = true ∧
      t = publishWith (c == .meterTick) (effect c s)) := by
  rw [exec_effect h1 h2 h3] at h
  split at h
  · rename_i hc
    simp only [Bool.and_eq_true] at hc
    exact .inr ⟨hc.1, hc.2, (Host.Outcome.next.inj h).symm⟩
  · exact .inl (Host.Outcome.next.inj h).symm

/-- R98, R121: from a state whose boards are shown, a command other than those of the supplies gains OFFER
exactly where it leaves some board slot stale in a RUNNING part, and ATTENTION_READ alone clears it. -/
theorem exec_offerNews {c : Instr} {s t : State} (h1 : ∀ v, c ≠ .powerOn v) (h2 : c ≠ .logicSupplyLoss)
    (h3 : c ≠ .backupSupplyLoss) (hs : s.boardsShown) (h : exec c s = .next t) :
    t.port.attention.getLsbD 1 = true ↔
      (s.port.attention.getLsbD 1 = true ∧ ¬ (s.powered = true ∧ c = .attentionRead)) ∨
      (t.running = true ∧ ∃ i, boardStale t.offers s.ram i = true) := by
  have fresh : ¬ (s.running = true ∧ ∃ i, boardStale s.offers s.ram i = true) :=
    fun ⟨hr, i, hi⟩ => by rw [hs hr i] at hi; cases hi
  have mem : ∀ i : Place, i ∈ places8 := by decide
  have stale : (publishWith (c == .meterTick) (effect c s)).running = true ∧
      (∃ i, boardStale (publishWith (c == .meterTick) (effect c s)).offers s.ram i = true) ↔
      ((effect c s).running && places8.any (boardStale (effect c s).offers (effect c s).ram)) = true := by
    rw [running_of_settings (publishWith_settings _ _), publishWith_offers, Bool.and_eq_true, List.any_eq_true]
    simp only [effect_boards, mem, true_and]
  rw [exec_effect h1 h2 h3, Host.Outcome.next.injEq] at h
  split at h
  · rename_i ho
    rw [Bool.and_eq_true] at ho
    subst h
    rw [stale, publishWith_offerBit, Bool.or_eq_true]
    by_cases hc : c = .attentionRead
    · subst hc
      simp [effect, readAttention, ho.1]
    · rw [effect_offerNews hc, and_iff_left fun k => hc k.2]
  · rename_i ho
    subst h
    rw [or_iff_left fresh, and_iff_left]
    rintro ⟨hp, rfl⟩
    exact ho (by rw [hp]; rfl)

/-- R8, R98, R121: what such a command leaves of a board slot: it is rewritten once, under its change count, where
the slot is left stale in a RUNNING part, and left alone everywhere else. -/
theorem exec_boardSlot {c : Instr} {s t : State} (h1 : ∀ v, c ≠ .powerOn v) (h2 : c ≠ .logicSupplyLoss)
    (h3 : c ≠ .backupSupplyLoss) (hw : s.Inv) (hs : s.boardsShown) (h : exec c s = .next t) (i : Place) :
    if t.running = true ∧ boardStale t.offers s.ram i = true then countUp (boardBase i + 2) s t
    else ∀ a, bytesAt (boardBase i + 2) 94 a → Memory.get t.ram a = Memory.get s.ram a := by
  obtain rfl | ⟨-, -, rfl⟩ := exec_cases h1 h2 h3 h
  · rw [if_neg fun ⟨hr, hi⟩ => by rw [hs hr i] at hi; cases hi]
    exact fun _ _ => rfl
  rw [running_of_settings (publishWith_settings _ _), publishWith_offers]
  have hw := wf_refreshBlocks ((effect_frame c s).wf hw) (c == .meterTick) (effect c s)
  have hb : ∀ a, boardBase i + 2 ≤ a → a < boardBase i + 96 → Memory.get
      (refreshBlocks (c == .meterTick) (effect c s) (effect c s).ram) a = Memory.get s.ram a := fun a ha hb => by
    rw [get_refreshBlocks_outside _ _ _ _ (by unfold boardBase at *; omega), effect_boardByte c s i ha hb]
  have hc := boardStale_congr (o := (effect c s).offers) hb
  obtain ⟨k1, k2⟩ := refreshBoards_slot hw (effect c s).offers i
  rw [hc] at k1 k2
  unfold countUp bytesAt
  rw [publishWith_ram]
  by_cases hr : (effect c s).running = true
  · rw [if_pos hr, hr]
    by_cases hi : boardStale (effect c s).offers s.ram i = true
    · rw [if_pos ⟨rfl, hi⟩, k1 hi, readWord_eq (n := s.ram) (hb _ (by omega) (by omega)) (hb _ (by omega) (by omega))]
    · rw [if_neg fun h => hi h.2]
      exact fun a ha => (k2 (by simpa using hi) a ha.1 (by omega)).trans (hb a ha.1 (by omega))
  · rw [if_neg hr, if_neg fun h => hr h.1]
    exact fun a ha => hb a ha.1 (by omega)

/-- All a step can answer. -/
theorem step_cases {s t : State} (h : step s = .next t) :
    (s.pending = [] ∧ t = s) ∨
    ∃ c rest, s.pending = c :: rest ∧ exec c { s with pending := rest } = .next t := by
  unfold step at h
  split at h
  · rename_i hp
    exact .inl ⟨hp, (Host.Outcome.next.inj h).symm⟩
  · rename_i c rest hp
    exact .inr ⟨c, rest, hp, h⟩

end Sys2Proof.Machine
end

