-- ==== Sys2Proof/Laws/Areas.lean ====
section
/-! SUPPORT. Where each area of the exchange window lies (R1), and what a host write does by the row's own kind of
address. -/

namespace Sys2Proof.Machine

/-- A data word of a slot: the host write is R4's, and its two bytes lie in no controller's block. -/
theorem slotData_write {a : WordAddr} (h : slotDataAddr a = true) (v : Word) (s : State) :
    hostWrite (byteOffset a) v s = slotDataWrite (slotBase a) (byteOffset a) v s ∧
    writeActs (byteOffset a) v s = true ∧
    (∀ t, hostRead a t = BitVec.ofNat 16 (Memory.readWord t.ram (byteOffset a))) ∧
    ¬ controllerByte (byteOffset a) ∧ ¬ controllerByte (byteOffset a + 1) := by
  have hev : byteOffset a % 2 = 0 := by unfold byteOffset; omega
  unfold slotDataAddr at h
  unfold hostWrite writeActs hostRead slotBase controllerByte
  split at h <;> rename_i e
  · rename_i i o
    have ha : byteOffset a = requestBase i + o ∧ o < 64 := area_of e
    have hi := i.isLt
    unfold requestBase at ha
    simp only [bne_iff_ne] at h
    simp only [e]
    exact ⟨by rw [if_neg h], trivial, fun _ => trivial, by omega, by omega⟩
  · rename_i i o
    have ha : byteOffset a = boxBase i + o ∧ o < 96 := area_of e
    have hi := i.isLt
    unfold boxBase at ha
    simp only [bne_iff_ne] at h
    simp only [e]
    exact ⟨by rw [if_neg h], trivial, fun _ => trivial, by omega, by omega⟩
  · rename_i i o
    have ha : byteOffset a = recordBase i + o ∧ o < 128 := area_of e
    have hi := i.isLt
    unfold recordBase at ha
    simp only [bne_iff_ne] at h
    simp only [e]
    exact ⟨by rw [if_neg h], trivial, fun _ => trivial, by omega, by omega⟩
  · cases h

/-- A fixed block or a board slot: the host write is R2's or R9's. -/
theorem fixedBlock_write {a : WordAddr} (h : fixedBlockAddr a = true) (v : Word) (s : State) :
    hostWrite (byteOffset a) v s = (if hostBlock a = true then positionWrite (byteOffset a) v s
      else exchangeFault (byteOffset a) s) ∧
    writeActs (byteOffset a) v s = true ∧
    (hostBlock a = true →
      (∀ t, hostRead a t = BitVec.ofNat 16 (Memory.readWord t.ram (byteOffset a))) ∧
      ¬ controllerByte (byteOffset a) ∧ ¬ controllerByte (byteOffset a + 1)) := by
  have hev : byteOffset a % 2 = 0 := by unfold byteOffset; omega
  unfold fixedBlockAddr at h
  unfold hostWrite writeActs hostRead hostBlock controllerByte
  split at h <;> rename_i e
  · have ha : byteOffset a < 0x0100 := area_of e
    have hb : positionBase = 0x0200 := rfl
    simp only [e]
    refine ⟨?_, trivial, fun _ => ⟨fun _ => trivial, by omega, by omega⟩⟩
    unfold positionWrite
    simp only [if_true]
    rw [if_neg (by omega)]
  · have ha : 0x0200 ≤ byteOffset a ∧ byteOffset a < 0x0220 := area_of e
    simp only [e]
    exact ⟨rfl, trivial, fun _ => ⟨fun _ => trivial, by omega, by omega⟩⟩
  · simp [e]
  · simp [e]
  · cases h

/-- IDENT, ATTENTION or an unused area: a host write changes nothing. -/
theorem register_write {a : WordAddr} (h : registerAddr a = true) (v : Word) (s : State) :
    writeActs (byteOffset a) v s = false := by
  unfold registerAddr at h
  unfold writeActs
  split at h <;> rename_i e <;> simp_all

/-! ### Hands written -/

/-- The low byte of a word stored is the byte at its offset. -/
theorem hand_storeWord {s : State} (h : Memory.wf s.ram = true) (base : Nat) (v : Word) :
    handAt (storeWord base v s).ram base = lowByte v := by
  unfold handAt storeWord Memory.writeWord
  have e := Memory.get_write_same h base (le 2 v.toNat) 0 (by simp)
  rw [Nat.add_zero] at e
  rw [e]
  simp only [le]
  unfold lowByte
  apply BitVec.eq_of_toNat_eq
  simp

/-- A word stored stands after what follows, where that stores nothing. -/
theorem readWord_stored {s u : State} {a : List Part} {base : Nat} {v : Word} (h : Memory.wf s.ram = true)
    (f : Frame a nothing (storeWord base v s) u) (h0 : ¬ controllerByte base)
    (h1 : ¬ controllerByte (base + 1)) : Memory.readWord (publish u).ram base = v.toNat := by
  have g := f.publish
  rw [readWord_eq (n := (storeWord base v s).ram) (g.ram _ h0 id) (g.ram _ h1 id)]
  exact readWord_writeWord h base v

theorem request_hand_free (i : Slot) : ¬ controllerByte (requestBase i) ∧ ¬ controllerByte (requestBase i + 1) :=
  ⟨request_not_controller (i := i) (by omega) (by omega), request_not_controller (i := i) (by omega) (by omega)⟩

theorem box_hand_free (i : Slot) : ¬ controllerByte (boxBase i) ∧ ¬ controllerByte (boxBase i + 1) := by
  have := i.isLt
  unfold controllerByte boxBase
  omega

theorem record_hand_free (i : Slot) : ¬ controllerByte (recordBase i) ∧ ¬ controllerByte (recordBase i + 1) := by
  have := i.isLt
  unfold controllerByte recordBase
  omega

end Sys2Proof.Machine
end

