-- ==== Sys2Proof/Laws/Uplink.lean ====
section
/-! SUPPORT. The payloads and the frame bits that the model makes are those that section 13.4, R32, R44 and R199
spell. -/

namespace Sys2Proof.Machine

/-- R9: a position taken touches the last good copy alone. -/
theorem takePosition_spelled (s : State) :
    takePosition s = { s with port := { s.port with posCopy := positionTaken s } } := by
  unfold takePosition positionTaken readPosition field2 field4 positionBase Memory.readWord
  cases s.port.posWritten with
  | none => rfl
  | some second =>
    dsimp only
    split <;> rfl

/-! ### Payloads -/

theorem laid_word (v : Nat) : laid 1 3 [(1, 2, v)] = be 2 v := by simp [laid, List.range', be, le]

theorem laid_word_byte (v r : Nat) : laid 1 4 [(1, 2, v), (3, 1, r)] = be 2 v ++ [byte r] := by
  simp [laid, List.range', be, le, byte]

theorem laid_two_bytes (x y : Nat) : laid 1 3 [(1, 1, x), (2, 1, y)] = [byte x, byte y] := by
  simp [laid, List.range', byte]

theorem dutyByte_code (s : State) : dutyByte s = s.fare.duty.code := by
  unfold dutyByte
  cases s.fare.duty <;> rfl

theorem meterByte_code (s : State) : meterByte s = s.fare.meter.code := by
  unfold meterByte
  cases s.fare.meter <;> rfl

/-- Flags packed from bit n on, as a sum of their bits. -/
theorem flagBits_sum (l : List Bool) (n : Nat) :
    2 ^ n * flagBits l = ((l.zipIdx n).map fun x => bitAt x.2 x.1).sum := by
  induction l generalizing n with
  | nil => rfl
  | cons b l ih =>
    rw [List.zipIdx_cons, List.map_cons, List.sum_cons, ← ih (n + 1), flagBits, bitAt]
    cases b <;> simp [pow_succ] <;> ring

theorem flagBits_bits (l : List Bool) : flagBits l = (l.zipIdx.map fun x => bitAt x.2 x.1).sum := by
  rw [← flagBits_sum l 0, pow_zero, one_mul]

theorem statusTail_spelled (s : State) : statusTail s = statusBytes s := by
  unfold statusTail statusBytes positionRows positionFields positionAge
  rw [dutyByte_code, meterByte_code, flagBits_bits]
  cases s.port.posCopy <;> simp [laid, List.range', be, le, byte, Nat.div_div_eq_div_mul, Nat.add_assoc, List.replicate]

theorem callPayload_spelled (s : State) : callPayload s = callBytes s := by
  unfold callPayload callBytes positionRows positionFields positionAge
  have h1 : sourceByte s = s.emergency.kept.source.code := by
    unfold sourceByte
    cases s.emergency.kept.source <;> rfl
  have h2 : s.supply.state.code = if s.supply.state = .low then 1 else 0 := by cases s.supply.state <;> rfl
  rw [meterByte_code, h1, h2]
  cases s.port.posCopy <;> simp [laid, List.range', be, le, byte, Nat.div_div_eq_div_mul, List.replicate]

theorem reportTail_spelled (h : HeldRecord) : reportTail h = reportBytes h := by
  unfold reportTail reportBytes timeFlags clamp16 Marks.code Totals.reportSatFlags
  cases h.record with
  | trip r =>
    have hp : padTo 4 (r.segments.map fun g => byte g.tariff) =
        (List.range 4).map fun n => byte (((r.segments.map (·.tariff))[n]?).getD 0) := by
      unfold padTo
      rcases r.segments with _ | ⟨a, _ | ⟨b, _ | ⟨c, _ | ⟨d, l⟩⟩⟩⟩ <;> simp [List.range_succ, byte, List.replicate]
    simp only [hp, flagBits_bits]
    simp [laid, List.range', be, le, byte, Nat.div_div_eq_div_mul, Nat.add_assoc, List.range_succ]
  | shift r =>
    simp only [flagBits_bits]
    simp [laid, List.range', be, le, byte, Nat.div_div_eq_div_mul, Nat.add_assoc]

/-! ### The check and the frame -/

theorem bitsOf_eq (bytes : List Byte) : bitsOf bytes = bytes.flatMap byteBits := by
  unfold bitsOf byteBits
  rfl

theorem crcBit_spelled (r : Word) (b : Bool) : crcBit r b = checkBit r b := by
  unfold crcBit checkBit
  have h : r.msb = r.getLsbD 15 := by simp [BitVec.msb_eq_getLsbD_last]
  rw [h]
  cases r.getLsbD 15 <;> cases b <;> rfl

theorem crcOver_spelled (r : Word) (bytes : List Byte) : crcOver r bytes = checkOver r bytes := by
  unfold crcOver checkOver
  rw [bitsOf_eq, List.foldl_flatMap, funext₂ crcBit_spelled]

theorem kindByte_code (k : Uplink) : kindByte k = k.code := by cases k <;> rfl

theorem frameBits_spelled (kind : Uplink) (cab : Nat) (payload : List Byte) :
    frameBits kind cab payload = sentBits kind cab payload := by
  have hh : laid 0 4 [(0, 1, kindByte kind), (1, 1, payload.length), (2, 2, cab)] =
      [byte kind.code, byte payload.length] ++ be 2 cab := by
    rw [kindByte_code]
    simp [laid, List.range', be, le, byte]
  have hc : ∀ v, laid 0 2 [(0, 2, v)] = be 2 v := fun v => by simp [laid, List.range', be, le]
  unfold frameBits sentBits crc crcStart syncPattern
  dsimp only
  rw [hh, hc, bitsOf_eq, ← crcOver_spelled]
  simp [List.flatMap_append]

end Sys2Proof.Machine
end

