-- ==== Sys2Proof/Laws/Exact.lean ====
section
/-! SUPPORT. What each operation of the Transmit Queue answers, in the terms of Safety.lean: the queue, the
report note, the position copy and the mail after a status trigger, an admission, a report's offer, a removal
and an outcome. -/

namespace Sys2Proof.Machine

theorem enqueue_eq (kind : Uplink) (tail : List Byte) (origin : Option Slot) (now : Stamp) (q : TransmitQueue) :
    q.enqueue kind tail origin now = joined kind tail origin now q := rfl

theorem placeStatus_eq (tail : List Byte) (now : Stamp) (q : TransmitQueue) :
    placeStatus tail now q = withStatus tail now q := rfl

/-! ### The status-pending mark (R77) -/

theorem resolvePending_same {s : State} (h : s.queue.resolvable = false) : resolvePending s = s := by
  unfold resolvePending
  rw [h]
  rfl

theorem resolvable_of_clear {q : TransmitQueue} (h : q.pending = false) : q.resolvable = false := by
  unfold TransmitQueue.resolvable
  rw [h]
  rfl

/-- A mark that stands fast keeps standing behind an entry that is no status. -/
theorem resolvable_joined {q : TransmitQueue} (h : q.resolvable = false) {kind : Uplink}
    (hk : kind ≠ .cabStatus) (tail : List Byte) (origin : Option Slot) (now : Stamp) :
    (joined kind tail origin now q).resolvable = false := by
  cases hp : q.pending with
  | false => exact resolvable_of_clear hp
  | true =>
    unfold TransmitQueue.resolvable TransmitQueue.statusEntry at *
    rw [hp, Bool.true_and] at h
    have e : (joined kind tail origin now q).entries.find? (fun e => e.kind == .cabStatus) =
        q.entries.find? (fun e => e.kind == .cabStatus) := by
      simp [joined, List.find?_append, hk]
    rw [e]
    generalize q.entries.find? (fun e => e.kind == .cabStatus) = d at h
    cases d with
    | some d =>
      have : d.inFlight = true := by simpa using h
      simp [this]
    | none =>
      have : 12 ≤ q.entries.length := by simpa using h
      simp [joined]
      omega

theorem resolvable_withStatus {q : TransmitQueue} (h : q.resolvable = false) (tail : List Byte) (now : Stamp) :
    (withStatus tail now q).resolvable = false := by
  unfold withStatus
  unfold TransmitQueue.resolvable at h
  split
  · rename_i e he
    rw [he] at h
    split
    · rename_i hf
      unfold TransmitQueue.resolvable
      change (true && (match q.statusEntry with
        | some e => !e.inFlight
        | none => decide (q.entries.length < 12))) = false
      rw [he]
      simpa using hf
    · rename_i hf
      apply resolvable_of_clear
      simpa [hf] using h
  · rename_i he
    rw [he] at h
    split
    · rename_i hl
      apply resolvable_of_clear
      change q.pending = false
      simpa [hl] using h
    · rename_i hl
      unfold TransmitQueue.resolvable
      change (true && (match q.statusEntry with
        | some e => !e.inFlight
        | none => decide (q.entries.length < 12))) = false
      rw [he]
      simpa using hl

theorem resolvable_withoutMark (tail : List Byte) (now : Stamp) (q : TransmitQueue) :
    (withoutMark tail now q).resolvable = false := by
  unfold withoutMark
  split
  · rename_i h
    exact resolvable_of_clear (placeStatus_resolves h tail now)
  · rename_i h
    simpa using h

/-- R77: the mark resolved where it can be. -/
theorem resolvePending_exact (s : State) : resolvePending s =
    { s with
      port := { s.port with posCopy := positionAfter s.queue s }
      queue := withoutMark (statusBytes (resolvePending s)) s.cycle.fleet s.queue } := by
  unfold resolvePending withoutMark positionAfter
  simp only [statusTail_spelled]
  split
  · rw [takePosition_spelled]
    rfl
  · rfl

/-! ### Status triggers (R76) -/

theorem statusTrigger_exact {s : State} (hr : s.running = true) (h : s.queue.resolvable = false) :
    statusTrigger s = { takePosition s with
      queue := withStatus (statusBytes (takePosition s)) s.cycle.fleet s.queue } := by
  rw [statusTrigger_running hr, placeStatus_eq, statusTail_spelled]
  exact resolvePending_same (resolvable_withStatus h _ _)

theorem statusPlaced_trigger {s : State} (hr : s.running = true) (h : s.queue.resolvable = false) :
    statusPlaced s.queue s (statusTrigger s) := by
  rw [statusTrigger_exact hr h, takePosition_spelled]
  exact ⟨rfl, rfl⟩

/-! ### Admissions (R73 to R75) -/

theorem admitHost_exact {s : State} (h : s.queue.resolvable = false) {kind : Uplink} (hk : kind ≠ .cabStatus)
    (tail : List Byte) (origin : Option Slot) : admitHost kind tail origin s =
      { s with queue := joined kind tail origin s.cycle.fleet s.queue } :=
  resolvePending_same (resolvable_joined h hk _ _ _)

/-- R157: the Record Store's offer. -/
theorem reportFeed_exact {s : State} (h : s.queue.resolvable = false) : reportFeed s =
    { s with
      queue := (fed s.running s.store s.note s.cycle.fleet s.queue).1
      note := (fed s.running s.store s.note s.cycle.fleet s.queue).2 } := by
  unfold fed
  by_cases hf : s.feedReady = true
  · have hc : s.running = true ∧ s.store.reports = true ∧ s.note = none ∧ s.queue.roomForReport = true := by
      simpa [State.feedReady, and_assoc] using hf
    rw [if_pos hc]
    cases hr : s.store.firstUnreported with
    | none => rw [reportFeed_none (.inr hr)]
    | some r =>
      rw [reportFeed_some hf hr, reportTail_spelled]
      exact resolvePending_same (resolvable_joined h (reportKind_ne _) _ _ _)
  · have hc : ¬ (s.running = true ∧ s.store.reports = true ∧ s.note = none ∧ s.queue.roomForReport = true) := by
      simpa [State.feedReady, and_assoc] using hf
    rw [if_neg hc, reportFeed_none (.inl (by simpa using hf))]

theorem resolvable_fed {q : TransmitQueue} (h : q.resolvable = false) (running : Bool) (st : RecordStore)
    (note : Option Nat) (now : Stamp) : (fed running st note now q).1.resolvable = false := by
  unfold fed
  split
  · split
    · exact resolvable_joined h (reportKind_ne _) _ _ _
    · exact h
  · exact h

/-! ### A controller's frame (R73, R74) -/

/-- R74: the entry displaced is a status that is not in flight, or a DRIVER_MESSAGE while every status is in
flight. -/
theorem displaceable_kind {q : TransmitQueue} {e : Entry} (h : displaceable q = some e) :
    (e.kind = .cabStatus ∧ e.inFlight = false) ∨
    (e.kind = .driverMessage ∧ ∀ d ∈ q.entries, d.kind = .cabStatus → d.inFlight = true) := by
  unfold displaceable at h
  split at h
  · rename_i d hd
    obtain rfl := Option.some.inj h
    exact .inl (by simpa using List.find?_some hd)
  · rename_i hd
    right
    have hc := List.find?_some h
    refine ⟨?_, ?_⟩
    · cases hk : e.kind <;> simp [hk, Uplink.cls] at hc ⊢
    · intro d hm hk
      simpa [hk] using (List.find?_eq_none.1 hd) d hm

theorem remove_length {q : TransmitQueue} (h : q.lawful) {e : Entry} (he : e ∈ q.entries) :
    (q.remove e.id).entries.length + 1 = q.entries.length := by
  have hn : q.entries.Nodup := List.Nodup.of_map _ h.2.2.2.1
  have hp : (q.remove e.id).entries = q.entries.erase e := by
    unfold TransmitQueue.remove
    rw [hn.erase_eq_filter]
    apply List.filter_congr
    intro x hx
    by_cases hi : x.id = e.id
    · rw [entry_of_id h hx he hi, bne_self_eq_false, bne_self_eq_false]
    · have hn : x ≠ e := fun c => hi (congrArg _ c)
      rw [bne_iff_ne.2 hi, bne_iff_ne.2 hn]
  have : 0 < q.entries.length := List.length_pos_of_mem he
  rw [hp, List.length_erase_of_mem he]
  omega

/-- A full queue stays full of what is not resolvable when one entry has made way. -/
theorem resolvable_displaced {q : TransmitQueue} (h : q.lawful) (hf : ¬ q.entries.length < 12) {e : Entry}
    (he : displaceable q = some e) {kind : Uplink} (hk : kind ≠ .cabStatus) (tail : List Byte) (now : Stamp) :
    (joined kind tail none now
      { q.remove e.id with pending := q.pending || e.kind == .cabStatus }).resolvable = false := by
  have hm := displaceable_mem he
  have hl := remove_length h hm
  unfold TransmitQueue.resolvable
  cases hs : (joined kind tail none now
      { q.remove e.id with pending := q.pending || e.kind == .cabStatus }).statusEntry with
  | none =>
    dsimp only
    have : ¬ (joined kind tail none now
      { q.remove e.id with pending := q.pending || e.kind == .cabStatus }).entries.length < 12 := by
      simp only [joined, List.length_append, List.length_singleton]
      omega
    simp [this]
  | some d =>
    dsimp only
    obtain ⟨hd, hdk⟩ := mem_statusEntry hs
    simp only [joined, List.mem_append, List.mem_singleton] at hd
    obtain hd | rfl := hd
    · simp only [TransmitQueue.remove, List.mem_filter] at hd
      obtain ⟨hk, hi⟩ | ⟨hk, hall⟩ := displaceable_kind he
      · have h1 := statusEntry_unique h hd.1 hdk
        have h2 := statusEntry_unique h hm hk
        rw [h1] at h2
        obtain rfl := Option.some.inj h2
        exact absurd hd.2 (by simp)
      · simp [hall d hd.1 hdk]
    · exact absurd hdk hk

theorem admitController_exact {s : State} (h : s.queueSound) {kind : Uplink} (hk : kind ≠ .cabStatus)
    (tail : List Byte) (hr : s.running = true) : admitController kind tail s =
      { s with
        queue := withController kind tail s.cycle.fleet s.queue
        mail := { s.mail with sendNotices := s.mail.sendNotices ++ displacedNotice s.queue } } := by
  unfold admitController withController displacedNotice
  rw [hr, if_neg (by simp)]
  split
  · rename_i hl
    rw [List.append_nil]
    exact resolvePending_same (resolvable_joined h.2 hk _ _ _)
  · rename_i hl
    cases he : displaceable s.queue with
    | none => simp
    | some e =>
      dsimp only
      have key := resolvable_displaced h.1 hl he hk tail s.cycle.fleet
      obtain ⟨hc, -⟩ | ⟨hc, -⟩ := displaceable_kind he
      · simp only [hc, displace, if_true, List.append_nil]
        simp only [hc, beq_self_eq_true, Bool.or_true] at key ⊢
        exact resolvePending_same key
      · have hne : (Uplink.driverMessage == Uplink.cabStatus) = false := rfl
        simp only [hc, displace, tellMaker, reduceCtorEq, if_false]
        simp only [hc, hne, Bool.or_false] at key ⊢
        cases ho : e.origin with
        | none =>
          simp only [List.append_nil]
          exact resolvePending_same key
        | some i =>
          exact resolvePending_same key

theorem askedFor_admitController {s : State} (h : s.queueSound) {kind : Uplink} (hk : kind ≠ .cabStatus)
    (tail : List Byte) : askedFor kind tail s (admitController kind tail s) := by
  unfold askedFor
  cases hr : s.running with
  | true =>
    rw [admitController_exact h hk tail hr, if_pos rfl]
    exact ⟨rfl, rfl, rfl⟩
  | false =>
    unfold admitController
    rw [hr]
    exact ⟨rfl, rfl, rfl⟩

/-! ### Removals and outcomes (R79 to R81) -/

theorem afterRemoval_exact (before : TransmitQueue) (s : State) :
    settledAfter s.cycle.fleet before s.queue s (afterRemoval before s) ∧
    (afterRemoval before s).port.posCopy = positionAfter s.queue s := by
  have hp := resolvePending_exact s
  have hq : (resolvePending s).queue.resolvable = false := by
    rw [hp]
    exact resolvable_withoutMark _ _ _
  unfold afterRemoval noticeOfRoom settledAfter
  generalize resolvePending s = r at hp hq
  have hr : reportFeed r = _ := reportFeed_exact hq
  have hst : r.store = s.store ∧ r.note = s.note ∧ r.running = s.running ∧ r.cycle = s.cycle := by
    rw [hp]
    exact ⟨rfl, rfl, rfl, rfl⟩
  obtain ⟨h1, h2, h3, h4⟩ := hst
  have hq' : r.queue = withoutMark (statusBytes r) s.cycle.fleet s.queue := congrArg State.queue hp
  have hpos : r.port.posCopy = positionAfter s.queue s := congrArg (fun u => u.port.posCopy) hp
  by_cases hc : before.roomForReport = false ∧ r.queue.roomForReport = true
  · have hc' : (!before.roomForReport && r.queue.roomForReport) = true := by simp [hc.1, hc.2]
    rw [if_pos hc']
    have ht : statusBytes (reportFeed r) = statusBytes r := by
      rw [hr]
      rfl
    rw [ht, ← hq']
    dsimp only
    rw [if_pos hc, hr]
    refine ⟨?_, hpos⟩
    dsimp only
    rw [h1, h2, h3, h4]
  · have hc' : (!before.roomForReport && r.queue.roomForReport) ≠ true := by
      simpa using hc
    rw [if_neg hc', ← hq']
    dsimp only
    rw [if_neg hc, h2]
    exact ⟨rfl, hpos⟩

/-- R80: the mail after an entry's maker has been told. -/
def Mail.told (e : Entry) (done : Bool) (m : Mail) : Mail :=
  { m with
    undelivered := m.undelivered ++ (if done = false ∧ e.kind = .jobAccept then [e.key] else [])
    sendNotices := m.sendNotices ++
      (match e.origin with
       | some i => if e.kind = .driverMessage then [{ slot := i, seq := e.seq, done := done }] else []
       | none => [])
    reportsDone := m.reportsDone ++ (if done = true ∧ e.kind.isReport = true then [e.key] else []) }

theorem tellMaker_exact (e : Entry) (done : Bool) (s : State) :
    tellMaker e done s = { s with mail := s.mail.told e done } := by
  unfold tellMaker Mail.told
  cases hk : e.kind <;> cases done <;> cases ho : e.origin <;>
    simp [Uplink.isReport, mailUndelivered, mailSendNotice, mailReportDone]

/-- R79, R80: the entry and its maker after an outcome. -/
theorem entryTakesOutcome_exact (e : Entry) (o : FrameOutcome) (s : State) : entryTakesOutcome e o s =
    { s with queue := withOutcome e o s.queue, mail := withTold e o s.mail } := by
  have ho : e.origin = none ∨ ∃ i, e.origin = some i := by
    cases e.origin <;> simp
  by_cases hl : attemptLimit e.kind.cls = some (min 255 (e.attempts + 1)) <;> cases o <;>
    obtain ho | ⟨i, ho⟩ := ho <;>
    simp [entryTakesOutcome, attemptMissed, Entry.missed, bump, hl, ho, tellMaker_exact, withOutcome, withTold,
      Mail.told, TransmitQueue.remove, TransmitQueue.update, FrameOutcome.callResult,
      (by decide : (FrameOutcome.missed == FrameOutcome.acknowledged) = false)]
  rfl

/-! ### A run of outcomes (R71) -/

/-- The state that a turn of the queue leaves, where `s` was before it. -/
def State.turned (s : State) (r : QueueTurn) : State :=
  { s with
    queue := r.queue
    note := r.note
    mail := r.mail
    port := { s.port with posCopy := if r.taken then positionTaken s else s.port.posCopy } }

theorem turned_start (s : State) : s.turned (.start s) = s := rfl

/-- The bytes of the cab's status once a position has been taken. -/
def freshStatus (s : State) : List Byte := statusBytes { s with port := { s.port with posCopy := positionTaken s } }

/-- R9: a position taken again is the same. -/
theorem positionTaken_again (s : State) (c : Option PositionCopy) (h : c = positionTaken s ∨ c = s.port.posCopy) :
    positionTaken { s with port := { s.port with posCopy := c } } = positionTaken s := by
  unfold positionTaken at *
  dsimp only
  cases hw : s.port.posWritten with
  | none => simpa [hw] using h
  | some second =>
    dsimp only
    split
    · rfl
    · rename_i hc
      simpa [hw, hc] using h

theorem positionTaken_turned (s : State) (r : QueueTurn) : positionTaken (s.turned r) = positionTaken s :=
  positionTaken_again s _ (by cases r.taken <;> simp)

/-- R77: in a turn the mark is resolved with the status that a taken position gives. -/
theorem resolvePending_turned (s : State) (r : QueueTurn) : resolvePending (s.turned r) =
    s.turned { r with
      queue := withoutMark (freshStatus s) s.cycle.fleet r.queue
      taken := r.taken || r.queue.resolvable } := by
  rw [resolvePending_exact]
  by_cases h : r.queue.resolvable = true
  · have hp : positionAfter r.queue (s.turned r) = positionTaken s := by
      unfold positionAfter
      rw [if_pos h, positionTaken_turned]
    have hs : statusBytes (resolvePending (s.turned r)) = freshStatus s := by
      rw [resolvePending_exact]
      change statusBytes { s with port := { s.port with posCopy := positionAfter r.queue (s.turned r) } } = _
      rw [hp]
      rfl
    rw [hs]
    change { s.turned r with
      port := { s.port with posCopy := positionAfter r.queue (s.turned r) }
      queue := withoutMark (freshStatus s) s.cycle.fleet r.queue } = _
    rw [hp]
    unfold State.turned
    simp [h]
  · have hn : ∀ tail, withoutMark tail s.cycle.fleet r.queue = r.queue := fun _ => if_neg h
    rw [show withoutMark (statusBytes (resolvePending (s.turned r))) (s.turned r).cycle.fleet (s.turned r).queue =
      r.queue from hn _]
    unfold positionAfter State.turned
    simp [h, hn]

theorem queueTakesOutcome_turned (s : State) (r : QueueTurn) (x : Nat × FrameOutcome) :
    queueTakesOutcome x.1 x.2 (s.turned r) = s.turned (r.after (freshStatus s) s.cycle.fleet s x) := by
  unfold queueTakesOutcome QueueTurn.after
  change (match r.queue.find x.1 with | none => _ | some e => _) = _
  cases r.queue.find x.1 with
  | none => rfl
  | some e =>
    dsimp only
    rw [entryTakesOutcome_exact]
    change afterRemoval r.queue (s.turned { r with
      queue := withOutcome e x.2 r.queue, mail := withTold e x.2 r.mail }) = _
    unfold afterRemoval noticeOfRoom
    rw [resolvePending_turned]
    dsimp only
    generalize hq : withoutMark (freshStatus s) s.cycle.fleet (withOutcome e x.2 r.queue) = q
    have hr : q.resolvable = false := hq ▸ resolvable_withoutMark _ _ _
    change (if (!r.queue.roomForReport && q.roomForReport) = true then _ else _) = _
    by_cases hc : r.queue.roomForReport = false ∧ q.roomForReport = true
    · rw [if_pos (by simp [hc.1, hc.2]), if_pos hc, reportFeed_exact hr]
      rfl
    · rw [if_neg (by simpa using hc), if_neg hc]

theorem drainQueueOuts_turned (l : List (Nat × FrameOutcome)) (s : State) (r : QueueTurn) :
    drainQueueOuts l (s.turned r) = s.turned (l.foldl (QueueTurn.after (freshStatus s) s.cycle.fleet s) r) := by
  induction l generalizing r with
  | nil => rfl
  | cons x l ih => rw [drainQueueOuts, queueTakesOutcome_turned, ih, List.foldl_cons]

/-- A position once taken stays taken. -/
theorem turns_taken (tail : List Byte) (now : Stamp) (s : State) (l : List (Nat × FrameOutcome)) {r : QueueTurn}
    (h : r.taken = true) : (l.foldl (QueueTurn.after tail now s) r).taken = true := by
  induction l generalizing r with
  | nil => exact h
  | cons x l ih =>
    refine ih ?_
    unfold QueueTurn.after
    split
    · exact h
    · simp [h]

/-- Where no position is taken, no status is made, and its bytes do not matter. -/
theorem turns_untaken (tail tail' : List Byte) (now : Stamp) (s : State) (l : List (Nat × FrameOutcome))
    (r : QueueTurn) (h : (l.foldl (QueueTurn.after tail now s) r).taken = false) :
    l.foldl (QueueTurn.after tail' now s) r = l.foldl (QueueTurn.after tail now s) r := by
  induction l generalizing r with
  | nil => rfl
  | cons x l ih =>
    rw [List.foldl_cons] at h ⊢
    have hx : r.after tail' now s x = r.after tail now s x := by
      have ht : (r.after tail now s x).taken = false := by
        by_contra hc
        rw [turns_taken _ _ _ _ (by simpa using hc)] at h
        cases h
      unfold QueueTurn.after at ht ⊢
      split
      · rfl
      · rename_i e he
        rw [he] at ht
        have hn : (withOutcome e x.2 r.queue).resolvable = false := by simp_all
        simp only [withoutMark, hn]
        rfl
    rw [hx, List.foldl_cons]
    exact ih _ h

end Sys2Proof.Machine
end

