-- ==== Sys2Proof/Laws/Hands.lean ====
section
/-! SUPPORT. The hands of the slots and the requests that wait or are held: what leaves them alone, and what the
operations that move them do. -/

namespace Sys2Proof.Machine

/-! ### What leaves the open requests alone -/

/-- The hand word of a Message Box slot or a fare record slot. -/
def outHand (b : Nat) : Prop := (∃ i : Slot, b = boxBase i) ∨ ∃ i : Slot, b = recordBase i

/-- The list, the note of the held acceptance, the held sends and the hands of the request and board slots are
as before; the hand of another slot is as before or legal. -/
structure Quiet (s t : State) : Prop where
  wf    : Memory.wf s.ram = true → Memory.wf t.ram = true
  order : t.port.order = s.port.order
  held  : t.offers.heldAccept = s.offers.heldAccept
  sends : t.msgs.sends = s.msgs.sends
  hands : ∀ i : Slot, handAt t.ram (requestBase i) = handAt s.ram (requestBase i)
  board : ∀ i : Place, handAt t.ram (boardBase i) = handAt s.ram (boardBase i)
  out   : Memory.wf s.ram = true → ∀ b, outHand b → handAt t.ram b = handAt s.ram b ∨
    handAt t.ram b = handApp ∨ handAt t.ram b = handCtl

theorem Quiet.refl (s : State) : Quiet s s :=
  ⟨id, rfl, rfl, rfl, fun _ => rfl, fun _ => rfl, fun _ _ _ => .inl rfl⟩

theorem Quiet.trans {s t u : State} (h : Quiet s t) (k : Quiet t u) : Quiet s u where
  wf m := k.wf (h.wf m)
  order := k.order.trans h.order
  held := k.held.trans h.held
  sends := k.sends.trans h.sends
  hands i := (k.hands i).trans (h.hands i)
  board i := (k.board i).trans (h.board i)
  out m b hb := (k.out (h.wf m) b hb).elim (fun e => by rw [e]; exact h.out m b hb) .inr

theorem Quiet.ite {s t u : State} {c : Prop} [Decidable c] (h : Quiet s t) (k : Quiet s u) :
    Quiet s (if c then t else u) := by
  split <;> assumption

theorem request_hand_byte (i : Slot) : ¬ controllerByte (requestBase i) := (request_hand_free i).1

theorem board_hand_byte (i : Place) : ¬ controllerByte (boardBase i) := by
  have := i.isLt
  unfold controllerByte boardBase
  omega

theorem out_hand_byte {b : Nat} (h : outHand b) : ¬ controllerByte b := by
  obtain ⟨i, rfl⟩ | ⟨i, rfl⟩ := h
  · exact (box_hand_free i).1
  · exact (record_hand_free i).1

/-- What stores nothing outside the controller's bytes, and leaves the three lists alone, is quiet. -/
theorem Frame.quiet {a : List Part} {s t : State} (f : Frame a nothing s t) (ho : Part.order ∉ a)
    (hh : t.offers.heldAccept = s.offers.heldAccept) (hs : t.msgs.sends = s.msgs.sends) : Quiet s t where
  wf := f.wf
  order := f.order ho
  held := hh
  sends := hs
  hands i := f.hand (request_hand_byte i) id
  board i := f.hand (board_hand_byte i) id
  out _ _ hb := .inl (f.hand (out_hand_byte hb) id)

/-- The same where the Offer Manager and the Message Manager are left alone. -/
theorem Frame.quiet' {a : List Part} {s t : State} (f : Frame a nothing s t) (ho : Part.order ∉ a)
    (hh : Part.offers ∉ a) (hs : Part.msgs ∉ a) : Quiet s t :=
  f.quiet ho (by rw [f.offers hh]) (by rw [f.msgs hs])

theorem publishWith_quiet (full : Bool) (s : State) : Quiet s (publishWith full s) :=
  (publishWith_frame full s).quiet' (by decide) (by decide) (by decide)

/-! ### The Offer Manager -/

theorem setPlace_quiet (i : Place) (p : OfferPlace) (s : State) : Quiet s (setPlace i p s) :=
  (setPlace_frame i p s).quiet (by decide) rfl rfl

theorem closePlace_quiet (i : Place) (st : PlaceState) (s : State) : Quiet s (closePlace i st s) := by
  refine (closePlace_frame i st s).quiet (by decide) ?_ ?_ <;>
  · unfold closePlace
    dsimp only
    split <;> rfl

theorem awardPlace_quiet (i : Place) (s : State) : Quiet s (awardPlace i s) :=
  (awardPlace_frame i s).quiet (by decide) rfl rfl

theorem cancelWhere_quiet (p : OfferPlace → Bool) (s : State) : Quiet s (cancelWhere p s) := by
  obtain ⟨ps, h, -⟩ := cancelWhere_eq p s
  exact (cancelWhere_frame p s).quiet (by decide) (by rw [h]) (by rw [h])

theorem offers_quiet (o : OfferManager) (s : State) (h : o.heldAccept = s.offers.heldAccept) :
    Quiet s { s with offers := o } := (offers_frame o s).quiet (by decide) h rfl

theorem statusTrigger_quiet (s : State) : Quiet s (statusTrigger s) :=
  (statusTrigger_frame s).quiet' (by decide) (by decide) (by decide)

theorem closeOffDuty_quiet (s : State) : Quiet s (closeOffDuty s) := by
  unfold closeOffDuty
  have h := cancelWhere_quiet OfferPlace.presented s
  generalize cancelWhere OfferPlace.presented s = t at h
  exact h.trans (offers_quiet _ t (by rfl))

theorem closeEmergencyGate_quiet (s : State) : Quiet s (closeEmergencyGate s) := by
  unfold closeEmergencyGate
  have h := cancelWhere_quiet OfferPlace.presented s
  generalize cancelWhere OfferPlace.presented s = t at h
  exact h.trans (offers_quiet _ t (by rfl))

theorem setLatch_quiet (s : State) : Quiet s (setLatch s) := by
  unfold setLatch
  have h := cancelWhere_quiet OfferPlace.presentedZone s
  generalize cancelWhere OfferPlace.presentedZone s = t at h
  exact (h.trans (offers_quiet _ t (by rfl))).trans (statusTrigger_quiet _)

theorem changeZone_quiet (z : Nat) (s : State) : Quiet s (changeZone z s) := by
  unfold changeZone
  have h := cancelWhere_quiet OfferPlace.presentedZone s
  generalize cancelWhere OfferPlace.presentedZone s = t at h
  exact (h.trans (offers_quiet _ t (by rfl))).trans (statusTrigger_quiet _)

theorem closeBaseGate_quiet (s : State) : Quiet s (closeBaseGate s) := by
  unfold closeBaseGate
  have h := cancelWhere_quiet OfferPlace.presented s
  generalize cancelWhere OfferPlace.presented s = t at h
  exact (h.trans (offers_quiet _ t (by rfl))).trans (statusTrigger_quiet _)

theorem suspendCab_quiet (a b : Nat) (s : State) : Quiet s (suspendCab a b s) := by
  unfold suspendCab
  dsimp only
  split
  · exact offers_quiet _ _ (by rfl)
  · exact (offers_quiet _ s (by rfl)).trans (closeBaseGate_quiet _)

theorem endSuspension_quiet (s : State) : Quiet s (endSuspension s) :=
  (offers_quiet _ s (by rfl)).trans (statusTrigger_quiet _)

theorem clearLatch_quiet (s : State) : Quiet s (clearLatch s) := by
  unfold clearLatch
  dsimp only
  split
  · exact (offers_quiet _ s (by rfl)).trans (statusTrigger_quiet _)
  · exact offers_quiet _ s (by rfl)

theorem startJob_quiet (s : State) : Quiet s (startJob s) := by
  unfold startJob
  split
  · exact closePlace_quiet _ _ s
  · exact .refl s

theorem deadlineExpired_quiet (i : Place) (s : State) : Quiet s (deadlineExpired i s) := by
  unfold deadlineExpired
  dsimp only
  have h := (closePlace_quiet i .expired s).trans (offers_quiet
    { (closePlace i .expired s).offers with expiries := expiriesAfter (closePlace i .expired s).offers } _ rfl)
  split
  · exact h.trans (setLatch_quiet _)
  · exact h

theorem answerDecline_quiet (n r : Nat) (s : State) : Quiet s (answerDecline n r s) :=
  (answerDecline_frame n r s).quiet' (by decide) (by decide) (by decide)

theorem countDrop_quiet (s : State) : Quiet s (countDrop s) := (countDrop_frame s).quiet (by decide) rfl rfl

theorem enterOffer_quiet (i : Place) (p : OfferPlace) (s : State) : Quiet s (enterOffer i p s) := by
  refine (enterOffer_frame i p s).quiet (by decide) ?_ ?_ <;>
  · unfold enterOffer
    dsimp only
    split <;> rfl

theorem placeOffer_quiet (d : Bool) (p : OfferPlace) (s : State) : Quiet s (placeOffer d p s) := by
  unfold placeOffer
  split
  · exact enterOffer_quiet _ p s
  · split
    · split
      · exact ((closePlace_quiet _ _ s).trans (countDrop_quiet _)).trans (enterOffer_quiet _ _ _)
      · exact (countDrop_quiet s).trans (answerDecline_quiet _ _ _)
    · exact countDrop_quiet s

theorem takeOffer_quiet (d : Bool) (p : OfferPlace) (s : State) : Quiet s (takeOffer d p s) := by
  unfold takeOffer judgeOffer
  split_ifs <;> first
    | exact .refl s
    | exact answerDecline_quiet _ _ s
    | exact placeOffer_quiet _ _ s

/-! ### The Message Manager -/

theorem msgs_quiet (m : MessageManager) (s : State) (h : m.sends = s.msgs.sends) :
    Quiet s { s with msgs := m } := (msgs_frame m s).quiet (by decide) rfl h

theorem Memory.hand_of_write {m : Memory} (hm : m.wf = true) (a : Nat) (h : Byte) :
    handAt (Memory.write m a (handWord h)) a = h := by
  have e := Memory.get_write_same hm a (handWord h) 0 (by rw [handWord_length]; decide)
  rw [Nat.add_zero] at e
  exact e

theorem boxBytes_hands {i : Slot} {b : Nat} (h : bytesAt (boxBase i) 96 b) :
    (∀ j, b ≠ requestBase j) ∧ (∀ j, b ≠ boardBase j) ∧ ∀ j, b ≠ recordBase j := by
  have := i.isLt
  unfold bytesAt boxBase at h
  unfold requestBase boardBase recordBase
  refine ⟨fun j => ?_, fun j => ?_, fun j => ?_⟩ <;> omega

theorem storeMessage_quiet (i : Slot) (m : Incoming) (s : State) : Quiet s (storeMessage i m s) where
  wf := (storeMessage_frame i m s).wf
  order := rfl
  held := rfl
  sends := rfl
  hands j := (storeMessage_frame i m s).hand (request_hand_byte j) fun h => (boxBytes_hands h).1 j rfl
  board j := (storeMessage_frame i m s).hand (board_hand_byte j) fun h => (boxBytes_hands h).2.1 j rfl
  out w b hb := by
    obtain ⟨j, rfl⟩ | ⟨j, rfl⟩ := hb
    · by_cases e : j = i
      · subst e
        refine .inr (.inl ?_)
        unfold storeMessage presentMessage
        exact Memory.hand_of_write (Memory.wf_write w _ _) _ _
      · refine .inl ((storeMessage_frame i m s).hand (box_hand_free j).1 ?_)
        have := Fin.val_ne_of_ne e
        unfold bytesAt boxBase
        omega
    · exact .inl ((storeMessage_frame i m s).hand (record_hand_free j).1 fun h => (boxBytes_hands h).2.2 j rfl)

theorem answerDelivered_quiet (n : Nat) (s : State) : Quiet s (answerDelivered n s) :=
  (answerDelivered_frame n s).quiet' (by decide) (by decide) (by decide)

theorem setNews_quiet (n : News) (s : State) (h : n ≠ .offer := by decide) : Quiet s (setNews n s) :=
  (setNews_frame n s h).quiet' (by decide) (by decide) (by decide)

theorem requestChime_quiet (s : State) : Quiet s (requestChime s) :=
  (requestChime_frame s).quiet' (by decide) (by decide) (by decide)

theorem takeMessage_quiet (m : Incoming) (s : State) : Quiet s (takeMessage m s) := by
  unfold takeMessage
  split
  · exact (answerDelivered_quiet _ s).ite (.refl s)
  · split
    · rename_i j _
      unfold acceptMessage
      dsimp only
      have h := (storeMessage_quiet j m s).trans (setNews_quiet .message _)
      generalize setNews .message (storeMessage j m s) = t at h
      have k : Quiet t (if m.directed then answerDelivered m.number t else t) :=
        (answerDelivered_quiet _ t).ite (.refl t)
      generalize (if m.directed then answerDelivered m.number t else t) = u at k
      exact (h.trans k).trans ((requestChime_quiet u).ite (.refl u))
    · unfold refuseMessage
      split
      · split
        · exact .refl s
        · exact (msgs_quiet _ s (by rfl)).trans (statusTrigger_quiet _)
      · exact (msgs_quiet _ s (by rfl)).trans (setNews_quiet .dropped _)

theorem clearRnr_quiet (s : State) : Quiet s (clearRnr s) :=
  ((msgs_quiet _ s (by rfl)).trans (statusTrigger_quiet _)).ite (.refl s)

theorem stopReminder_quiet (s : State) : Quiet s (stopReminder s) := (Quiet.refl s).ite (msgs_quiet _ s (by rfl))

theorem takeReturn_quiet (i : Slot) (d : Byte) (s : State) : Quiet s (takeReturn i d s) := by
  unfold takeReturn
  dsimp only
  obtain ⟨t, ht, h⟩ : ∃ t, Quiet s t ∧ { s with msgs := { s.msgs with
      boxes := put s.msgs.boxes i { pick s.msgs.boxes i with held := false } } } = t :=
    ⟨_, msgs_quiet _ s (by rfl), rfl⟩
  rw [h]
  have h2 : Quiet t (if owesReceipt (pick s.msgs.boxes i) d then
      admitController .msgReceipt (be 2 (pick s.msgs.boxes i).number) t else t) :=
    ((admitController_frame _ _ t).quiet' (by decide) (by decide) (by decide)).ite (.refl t)
  exact ((ht.trans h2).trans (clearRnr_quiet _)).trans (stopReminder_quiet _)

/-! ### The Fare Meter and the Record Store -/

theorem recordBytes_hands {i : Slot} {b : Nat} (h : recordBytes i b) :
    (∀ j, b ≠ requestBase j) ∧ (∀ j, b ≠ boardBase j) ∧ ∀ j, b ≠ boxBase j := by
  unfold recordBytes bytesAt recordBase at h
  unfold requestBase boardBase boxBase
  refine ⟨fun j => ?_, fun j => ?_, fun j => ?_⟩ <;> omega

theorem presentRecord_hand {m : Memory} (w : Memory.wf m = true) (i : Slot) (h : HeldRecord) :
    handAt (presentRecord i h m) (recordBase i) = handApp := by
  unfold presentRecord
  exact Memory.hand_of_write ((writeRuns_frame _ _ _ fun r hr => (recordRuns_inside hr).2).1 w) _ _

theorem storeRam_quiet (i : Slot) (h : HeldRecord) (st : RecordStore) (s : State) :
    Quiet s { s with store := st, ram := presentRecord i h s.ram } where
  wf := (storeRam_frame i h st s).wf
  order := rfl
  held := rfl
  sends := rfl
  hands j := (storeRam_frame i h st s).hand (request_hand_byte j) fun h => (recordBytes_hands h).1 j rfl
  board j := (storeRam_frame i h st s).hand (board_hand_byte j) fun h => (recordBytes_hands h).2.1 j rfl
  out w b hb := by
    obtain ⟨j, rfl⟩ | ⟨j, rfl⟩ := hb
    · exact .inl ((storeRam_frame i h st s).hand (box_hand_free j).1 fun h => (recordBytes_hands h).2.2 j rfl)
    · by_cases e : j = i
      · subst e
        exact .inr (.inl (presentRecord_hand w _ _))
      · refine .inl ((storeRam_frame i h st s).hand (record_hand_free j).1 ?_)
        have := Fin.val_ne_of_ne e
        unfold recordBytes bytesAt recordBase
        omega

theorem reportFeed_quiet (s : State) : Quiet s (reportFeed s) :=
  (reportFeed_frame s).quiet' (by decide) (by decide) (by decide)

theorem postRecord_quiet (i : Slot) (r : FareRecord) (s : State) : Quiet s (postRecord i r s) := by
  unfold postRecord
  exact ((storeRam_quiet i _ _ s).trans (setNews_quiet .record _)).trans (reportFeed_quiet _)

theorem fare_quiet (f : FareMeter) (s : State) : Quiet s { s with fare := f } :=
  (fare_frame f s).quiet' (by decide) (by decide) (by decide)

theorem meterChanged_quiet (s : State) : Quiet s (meterChanged s) :=
  (meterChanged_frame s).quiet' (by decide) (by decide) (by decide)

theorem forgetRemainder_quiet (k : Nat) (s : State) : Quiet s (forgetRemainder k s) :=
  (forgetRemainder_frame k s).quiet' (by decide) (by decide) (by decide)

theorem closeShift_quiet (p : Slot) (s : State) : Quiet s (closeShift p s) := by
  unfold closeShift
  dsimp only
  exact (((postRecord_quiet p _ s).trans (fare_quiet _ _)).trans (closeOffDuty_quiet _)).trans
    (statusTrigger_quiet _)

theorem openShift_quiet (s : State) : Quiet s (openShift s) :=
  (((fareLimiter_frame _ _ s).quiet' (by decide) (by decide) (by decide)).trans
    (offers_quiet _ _ (by rfl))).trans (statusTrigger_quiet _)

theorem closeTrip_quiet (s : State) : Quiet s (closeTrip s) :=
  (closeTrip_frame s).quiet' (by decide) (by decide) (by decide)

theorem hire_quiet (n : Nat) (s : State) : Quiet s (hire n s) := by
  unfold hire
  dsimp only
  exact (((startJob_quiet s).trans (fare_quiet _ _)).trans (forgetRemainder_quiet _ _)).trans
    (meterChanged_quiet _)

theorem gateTakesChange_quiet (s : State) : Quiet s (gateTakesChange s) := by
  unfold gateTakesChange
  split
  · exact .refl s
  · rename_i leaving rest _
    exact Quiet.trans ((mail_frame { s.mail with gateChanges := rest } s).quiet' (by decide) (by decide) (by decide))
      (Quiet.ite (closeEmergencyGate_quiet _) (offers_quiet _ _ (by rfl)))

theorem takesChange_quiet (n : Neighbour) (s : State) : Quiet s (takesChange n s) := by
  cases n
  · exact gateTakesChange_quiet s
  · exact (fareTakesEmergency_frame s).quiet' (by decide) (by decide) (by decide)
  · exact (lampTakesChange_frame s).quiet' (by decide) (by decide) (by decide)

theorem changeTaken_quiet (s : State) : Quiet s (changeTaken s) := by
  obtain ⟨-, h⟩ | ⟨n, -, h⟩ := changeTaken_cases s
  · rw [h]; exact .refl s
  · rw [h]
    exact ((free_frame _ s).quiet' (by decide) (by decide) (by decide)).trans (takesChange_quiet n _)

theorem timeTick_quiet (s : State) : Quiet s (timeTick s) := by
  refine (timeTick_frame s).quiet (by decide) ?_ ?_ <;>
  · unfold timeTick
    dsimp only
    split <;> rfl

theorem reminderExpired_quiet (s : State) : Quiet s (reminderExpired s) :=
  (reminderExpired_frame s).quiet (by decide) rfl rfl

theorem runWrite_quiet (s : State) : Quiet s (runWrite s) := by
  unfold runWrite
  refine Quiet.trans ?_ (((rewritePart_frame _).then (setNews_frame .settings _)).quiet' (by decide) (by decide)
    (by decide))
  split
  · exact (settings_frame _ s).quiet' (by decide) (by decide) (by decide)
  · unfold enterRunning eitherOrder
    dsimp only
    have h : Quiet s (takeUpSettings (readSettings s.ram) s) :=
      (takeUpSettings_frame _ s).quiet (by decide) rfl rfl
    generalize takeUpSettings (readSettings s.ram) s = t at h
    exact (h.trans ((statusTrigger_quiet t).trans (reportFeed_quiet _))).trans
      ((queueFree_frame _ _ _).quiet' (by decide) (by decide) (by decide))

theorem changeSettings_quiet (w : Settings) (s : State) : Quiet s (changeSettings w s) := by
  have h : Quiet s (adoptSettings w s) := by
    unfold adoptSettings
    dsimp only
    refine Quiet.trans ?_ ((judgeLamp_frame _).quiet' (by decide) (by decide) (by decide))
    refine Quiet.trans ?_ (forgetRemainder_quiet _ _)
    exact ⟨id, rfl, rfl, rfl, fun _ => rfl, fun _ => rfl, fun _ _ _ => .inl rfl⟩
  unfold changeSettings
  dsimp only
  split
  · exact h.trans (reportFeed_quiet _)
  · exact h

/-! ### What moves the requests -/

/-- The hands of the slots stay legal, and the requests that wait or are held stay sound. -/
structure Orderly (s t : State) : Prop where
  wf    : Memory.wf s.ram = true → Memory.wf t.ram = true
  legal : Memory.wf s.ram = true → s.handsLegal → t.handsLegal
  sound : Memory.wf s.ram = true → s.requestsSound → t.requestsSound

theorem Orderly.trans {s t u : State} (h : Orderly s t) (k : Orderly t u) : Orderly s u where
  wf m := k.wf (h.wf m)
  legal m l := k.legal (h.wf m) (h.legal m l)
  sound m l := k.sound (h.wf m) (h.sound m l)

theorem Orderly.ite {s t u : State} {c : Prop} [Decidable c] (h : Orderly s t) (k : Orderly s u) :
    Orderly s (if c then t else u) := by
  split <;> assumption

theorem Quiet.openRequests {s t : State} (h : Quiet s t) : t.openRequests = s.openRequests := by
  unfold State.openRequests
  rw [h.order, h.held, h.sends]

theorem Quiet.ctl {s t : State} (h : Quiet s t) (i : Slot) :
    heldByCtl t.ram (requestBase i) = heldByCtl s.ram (requestBase i) := by
  unfold heldByCtl
  rw [h.hands i]

theorem Quiet.sound {s t : State} (h : Quiet s t) (hs : s.requestsSound) : t.requestsSound := by
  unfold State.requestsSound at *
  rw [h.openRequests]
  exact ⟨hs.1, fun i hi => by rw [h.ctl]; exact hs.2 i hi⟩

theorem legal_of {x y : Byte} (h : y = x ∨ y = handApp ∨ y = handCtl) (k : x = handApp ∨ x = handCtl) :
    y = handApp ∨ y = handCtl := h.elim (fun e => e ▸ k) id

theorem Quiet.orderly {s t : State} (h : Quiet s t) : Orderly s t where
  wf := h.wf
  sound _ := h.sound
  legal m l := by
    obtain ⟨l1, l2, l3, l4⟩ := l
    refine ⟨fun i => ?_, fun i => ?_, fun i => ?_, fun i => ?_⟩
    · rw [h.hands i]
      exact l1 i
    · exact legal_of (h.out m _ (.inl ⟨i, rfl⟩)) (l2 i)
    · exact legal_of (h.out m _ (.inr ⟨i, rfl⟩)) (l3 i)
    · rw [h.board i]
      exact l4 i

theorem Orderly.refl (s : State) : Orderly s s := (Quiet.refl s).orderly

/-- The bytes of a completion lie in its own slot. -/
theorem outcome_hands {i : Slot} {b : Nat} (h : outcomeBytes i b) :
    (∀ j, b ≠ boardBase j) ∧ ¬ outHand b := by
  have h1 := outcomeBytes_inside h
  have hi := i.isLt
  unfold requestBase at h1
  unfold boardBase outHand boxBase recordBase
  refine ⟨fun j => by omega, ?_⟩
  rintro (⟨j, rfl⟩ | ⟨j, rfl⟩) <;> omega

theorem completeRequest_app {i : Slot} {s : State} (w : Memory.wf s.ram = true)
    (h : heldByCtl s.ram (requestBase i) = true) (o : ReqOutcome) (d : Nat) :
    handAt (completeRequest i o d s).ram (requestBase i) = handApp := by
  rw [completeRequest_eq h]
  unfold setNews writeOutcome
  exact Memory.hand_of_write (Memory.wf_write w _ _) _ _

theorem completeRequest_legal {i : Slot} {s : State} (w : Memory.wf s.ram = true) (l : s.handsLegal)
    (o : ReqOutcome) (d : Nat) : (completeRequest i o d s).handsLegal := by
  have f := completeRequest_frame i o d s
  obtain ⟨l1, l2, l3, l4⟩ := l
  refine ⟨fun j => ?_, fun j => ?_, fun j => ?_, fun j => ?_⟩
  · by_cases e : j = i
    · subst e
      cases h : heldByCtl s.ram (requestBase j) with
      | true => exact .inl (completeRequest_app w h o d)
      | false =>
        rw [completeRequest_other h]
        exact l1 j
    · rw [completeRequest_hand e]
      exact l1 j
  · rw [f.hand (box_hand_free j).1 fun h => (outcome_hands h).2 (.inl ⟨j, rfl⟩)]
    exact l2 j
  · rw [f.hand (record_hand_free j).1 fun h => (outcome_hands h).2 (.inr ⟨j, rfl⟩)]
    exact l3 j
  · rw [f.hand (board_hand_byte j) fun h => (outcome_hands h).1 j rfl]
    exact l4 j

theorem completeRequest_open (i : Slot) (o : ReqOutcome) (d : Nat) (s : State) :
    (completeRequest i o d s).openRequests = s.openRequests := by
  unfold completeRequest
  split <;> rfl

/-- R12: the completion of a slot that is on no list any more. -/
theorem completeRequest_sound {i : Slot} {s : State} (hs : s.requestsSound) (hi : i ∉ s.openRequests)
    (o : ReqOutcome) (d : Nat) : (completeRequest i o d s).requestsSound := by
  unfold State.requestsSound at *
  rw [completeRequest_open]
  refine ⟨hs.1, fun j hj => ?_⟩
  have e : j ≠ i := fun e => hi (e ▸ hj)
  unfold heldByCtl
  rw [completeRequest_hand e]
  exact hs.2 j hj

/-- A slot at CTL that is on no list. -/
structure Loose (i : Slot) (s : State) : Prop where
  notOpen : i ∉ s.openRequests
  ctl     : heldByCtl s.ram (requestBase i) = true

theorem Quiet.loose {s t : State} (h : Quiet s t) {i : Slot} (l : Loose i s) : Loose i t :=
  ⟨by rw [h.openRequests]; exact l.notOpen, by rw [h.ctl]; exact l.ctl⟩

/-- What a judge does with the slot it was given: the hands stay legal, and the requests sound where the slot
was loose. -/
structure SlotJudged (i : Slot) (s t : State) : Prop where
  wf    : Memory.wf s.ram = true → Memory.wf t.ram = true
  legal : Memory.wf s.ram = true → s.handsLegal → t.handsLegal
  sound : Memory.wf s.ram = true → Loose i s → s.requestsSound → t.requestsSound

theorem SlotJudged.ite {i : Slot} {s t u : State} {c : Prop} [Decidable c] (h : SlotJudged i s t) (k : SlotJudged i s u) :
    SlotJudged i s (if c then t else u) := by
  split <;> assumption

/-- A request completed after what leaves the requests alone. -/
theorem Quiet.completing {s t : State} (h : Quiet s t) (i : Slot) (o : ReqOutcome) (d : Nat) :
    SlotJudged i s (completeRequest i o d t) where
  wf m := (completeRequest_frame i o d t).wf (h.wf m)
  legal m l := completeRequest_legal (h.wf m) (h.orderly.legal m l) o d
  sound _ l hs := completeRequest_sound (h.sound hs) (h.loose l).notOpen o d

theorem completing (i : Slot) (o : ReqOutcome) (d : Nat) (s : State) : SlotJudged i s (completeRequest i o d s) :=
  (Quiet.refl s).completing i o d

theorem admitHost_quiet (kind : Uplink) (tail : List Byte) (origin : Option Slot) (s : State) :
    Quiet s (admitHost kind tail origin s) :=
  (admitHost_frame kind tail origin s).quiet' (by decide) (by decide) (by decide)

/-- R13: an acceptance kept. -/
theorem keepAcceptance_judged (i : Slot) (j : Place) (s : State) : SlotJudged i s (keepAcceptance i j s) := by
  obtain ⟨u, hu, he⟩ : ∃ u, Quiet s u ∧
      keepAcceptance i j s = { u with offers := { u.offers with heldAccept := some i, expiries := 0 } } :=
    ⟨_, (admitHost_quiet _ _ _ s).trans (setPlace_quiet j _ _), rfl⟩
  have hf : Frame [.offers] nothing u (keepAcceptance i j s) := by
    rw [he]
    exact offers_frame _ u
  have hq : ∀ k : Slot, heldByCtl (keepAcceptance i j s).ram (requestBase k) = heldByCtl s.ram (requestBase k) := by
    intro k
    rw [he]
    exact hu.ctl k
  refine ⟨fun m => hf.wf (hu.wf m), fun m l => ?_, fun m l hs => ?_⟩
  · have := hu.orderly.legal m l
    rw [he]
    exact this
  · have ho : (keepAcceptance i j s).openRequests = s.port.order ++ [i] ++ s.msgs.sends.map (·.slot) := by
      rw [he, ← hu.order, ← hu.sends]
      rfl
    have hn := l.notOpen
    have hd := hs.1
    unfold State.requestsSound
    rw [ho]
    unfold State.openRequests at hn hd
    simp only [List.mem_append, not_or] at hn
    simp only [List.nodup_append] at hd
    refine ⟨?_, fun k hk => ?_⟩
    · simp only [List.nodup_append, List.mem_append, List.mem_singleton, List.nodup_singleton]
      refine ⟨⟨hd.1.1, trivial, ?_⟩, hd.2.1, ?_⟩
      · rintro a ha b rfl e
        exact hn.1.1 (e ▸ ha)
      · rintro a (ha | rfl) b hb e
        · exact hd.2.2 a (List.mem_append_left _ ha) b hb e
        · exact hn.2 (e ▸ hb)
    · rw [hq]
      simp only [List.mem_append, List.mem_singleton] at hk
      obtain (hk | rfl) | hk := hk
      · exact hs.2 k (by unfold State.openRequests; simp [hk])
      · exact l.ctl
      · exact hs.2 k (by unfold State.openRequests; exact List.mem_append_right _ hk)

/-- R13: a send kept. -/
theorem keepSend_judged (i : Slot) (tail : List Byte) (s : State) : SlotJudged i s (keepSend i tail s) := by
  obtain ⟨u, hu, he⟩ : ∃ u, Quiet s u ∧ keepSend i tail s = { u with msgs := { u.msgs with
      sends := u.msgs.sends ++ [{ slot := i, seq := s.queue.nextSeq }] } } :=
    ⟨_, admitHost_quiet _ _ _ s, rfl⟩
  have hf : Frame [.msgs] nothing u (keepSend i tail s) := by
    rw [he]
    exact msgs_frame _ u
  have hq : ∀ k : Slot, heldByCtl (keepSend i tail s).ram (requestBase k) = heldByCtl s.ram (requestBase k) := by
    intro k
    rw [he]
    exact hu.ctl k
  refine ⟨fun m => hf.wf (hu.wf m), fun m l => ?_, fun m l hs => ?_⟩
  · have := hu.orderly.legal m l
    rw [he]
    exact this
  · have ho : (keepSend i tail s).openRequests = s.openRequests ++ [i] := by
      rw [← hu.openRequests, he]
      simp [State.openRequests]
    have hd := hs.1
    unfold State.requestsSound
    rw [ho]
    refine ⟨?_, fun k hk => ?_⟩
    · rw [List.nodup_append]
      refine ⟨hd, List.nodup_singleton _, ?_⟩
      rintro a ha b hb e
      rw [List.mem_singleton] at hb
      exact l.notOpen (hb ▸ e ▸ ha)
    · rw [hq]
      rw [List.mem_append, List.mem_singleton] at hk
      obtain hk | rfl := hk
      · exact hs.2 k hk
      · exact l.ctl

/-- R11: a request taken by its owner. -/
theorem takeHead_orderly {judge : Slot → State → State} (h : ∀ i t, SlotJudged i t (judge i t)) (s : State) :
    Orderly s (takeHead judge s) := by
  cases ho : s.port.order with
  | nil =>
    unfold takeHead
    rw [ho]
    exact .refl s
  | cons i rest =>
    rw [takeHead_eq ho]
    have key : ∀ t, SlotJudged i (s.taken rest) t → Orderly s t := by
      intro t j
      refine ⟨j.wf, j.legal, fun m hs => j.sound m ?_ ?_⟩
      · have hd := hs.1
        unfold State.openRequests at hd
        rw [ho, List.cons_append, List.cons_append, List.nodup_cons] at hd
        exact ⟨hd.1, hs.2 i (by unfold State.openRequests; rw [ho]; simp)⟩
      · have hd := hs.1
        unfold State.openRequests at hd
        rw [ho, List.cons_append, List.cons_append, List.nodup_cons] at hd
        refine ⟨hd.2, fun k hk => hs.2 k ?_⟩
        unfold State.openRequests at *
        rw [ho, List.cons_append, List.cons_append]
        exact List.mem_cons_of_mem _ hk
    exact key _ ((h i _).ite (completing _ _ _ _))

/-! ### The judges -/

theorem dutyOn_judged (i : Slot) (s : State) : SlotJudged i s (dutyOn i s) :=
  (completing _ _ _ s).ite ((openShift_quiet s).completing _ _ _)

theorem dutyOff_judged (i : Slot) (s : State) : SlotJudged i s (dutyOff i s) := by
  unfold dutyOff
  split
  · exact completing _ _ _ s
  · split
    · exact completing _ _ _ s
    · exact (closeShift_quiet _ s).completing _ _ _

theorem setZone_judged (i : Slot) (s : State) : SlotJudged i s (setZone i s) :=
  (completing _ _ _ s).ite ((completing _ _ _ s).ite ((changeZone_quiet _ s).completing _ _ _))

theorem meterHire_judged (i : Slot) (s : State) : SlotJudged i s (meterHire i s) :=
  (completing _ _ _ s).ite ((completing _ _ _ s).ite ((completing _ _ _ s).ite
    ((hire_quiet _ s).completing _ _ _)))

theorem meterStop_judged (i : Slot) (s : State) : SlotJudged i s (meterStop i s) :=
  (((fare_quiet _ s).trans (meterChanged_quiet _)).completing _ _ _).ite (completing _ _ _ s)

theorem meterResume_judged (i : Slot) (s : State) : SlotJudged i s (meterResume i s) :=
  (((fare_quiet _ s).trans (meterChanged_quiet _)).completing _ _ _).ite (completing _ _ _ s)

theorem meterClear_judged (i : Slot) (s : State) : SlotJudged i s (meterClear i s) := by
  unfold meterClear
  split
  · exact completing _ _ _ s
  · split
    · exact completing _ _ _ s
    · dsimp only
      exact (((postRecord_quiet _ _ s).trans ((addTripToShift_frame _ _).quiet' (by decide) (by decide)
        (by decide))).trans (closeTrip_quiet _)).completing _ _ _

theorem selectTariff_judged (i : Slot) (s : State) : SlotJudged i s (selectTariff i s) :=
  (completing _ _ _ s).ite (((fare_quiet _ s).completing _ _ _).ite ((completing _ _ _ s).ite
    ((fare_quiet _ s).completing _ _ _)))

theorem addExtra_judged (i : Slot) (s : State) : SlotJudged i s (addExtra i s) :=
  (completing _ _ _ s).ite ((completing _ _ _ s).ite ((completing _ _ _ s).ite
    ((fare_quiet _ s).completing _ _ _)))

theorem acceptOffer_judged (i : Slot) (s : State) : SlotJudged i s (acceptOffer i s) := by
  unfold acceptOffer
  split
  · exact completing _ _ _ s
  · split
    · exact completing _ _ _ s
    · exact keepAcceptance_judged _ _ s

theorem finishDecline_judged {s t : State} (h : Quiet s t) (i : Slot) (j : Place) :
    SlotJudged i s (finishDecline i j t) :=
  ((h.trans (closePlace_quiet _ _ _)).trans (offers_quiet _ _ (by rfl))).completing _ _ _

theorem declineOffer_judged (i : Slot) (s : State) : SlotJudged i s (declineOffer i s) := by
  unfold declineOffer
  split
  · exact completing _ _ _ s
  · dsimp only
    split
    · exact completing _ _ _ s
    · split
      · exact finishDecline_judged (.refl s) _ _
      · split
        · exact finishDecline_judged (admitHost_quiet _ _ _ s) _ _
        · exact completing _ _ _ s

theorem resumeOffers_judged (i : Slot) (s : State) : SlotJudged i s (resumeOffers i s) :=
  (clearLatch_quiet s).completing _ _ _

theorem sendMessage_judged (i : Slot) (s : State) : SlotJudged i s (sendMessage i s) :=
  (completing _ _ _ s).ite ((keepSend_judged _ _ s).ite (completing _ _ _ s))

theorem trigger_quiet (src : TriggerSource) (s : State) : Quiet s (trigger src s) :=
  (trigger_frame src s).quiet' (by decide) (by decide) (by decide)

theorem raiseEmergency_judged (i : Slot) (s : State) : SlotJudged i s (raiseEmergency i s) :=
  (trigger_quiet .host s).completing _ _ _

theorem replaceSettings_judged (i : Slot) (s : State) : SlotJudged i s (replaceSettings i s) := by
  unfold replaceSettings
  split
  · exact completing _ _ _ s
  · split
    · exact completing _ _ _ s
    · exact (changeSettings_quiet _ s).completing _ _ _

/-! ### What ends a held request -/

/-- R112: the end of an acceptance. -/
theorem endAcceptance_orderly (j : Place) (o : ReqOutcome) (s : State) : Orderly s (endAcceptance j o s) := by
  obtain ⟨c, hc⟩ : ∃ c, c = (match s.offers.heldAccept with
      | some slot => completeRequest slot o j.val s
      | none => s) := ⟨_, rfl⟩
  have hq : Quiet { c with offers := { c.offers with heldAccept := none } } (endAcceptance j o s) := by
    rw [hc]
    unfold endAcceptance
    exact (removeAccept_frame _ _).quiet' (by decide) (by decide) (by decide)
  refine ⟨fun m => hq.wf ?_, fun m l => hq.orderly.legal ?_ ?_, fun m hs => hq.sound ?_⟩
  · change Memory.wf c.ram = true
    rw [hc]
    split
    · exact (completeRequest_frame _ _ _ s).wf m
    · exact m
  · change Memory.wf c.ram = true
    rw [hc]
    split
    · exact (completeRequest_frame _ _ _ s).wf m
    · exact m
  · change c.handsLegal
    rw [hc]
    split
    · exact completeRequest_legal m l _ _
    · exact l
  · have hd := hs.1
    have h2 := hs.2
    unfold State.openRequests at hd h2
    have ho : ({ c with offers := { c.offers with heldAccept := none } } : State).openRequests =
        s.port.order ++ s.msgs.sends.map (·.slot) := by
      have e1 : c.port.order = s.port.order := by
        rw [hc]
        split
        · exact (completeRequest_frame _ _ _ s).order (by decide)
        · rfl
      have e2 : c.msgs = s.msgs := by
        rw [hc]
        split
        · exact (completeRequest_frame _ _ _ s).msgs (by decide)
        · rfl
      unfold State.openRequests
      dsimp only
      rw [e1, e2]
      simp
    unfold State.requestsSound
    rw [ho]
    simp only [List.nodup_append, List.mem_append] at hd h2
    refine ⟨?_, fun k hk => ?_⟩
    · rw [List.nodup_append]
      exact ⟨hd.1.1, hd.2.1, fun a ha b hb => hd.2.2 a (.inl ha) b hb⟩
    · rw [List.mem_append] at hk
      change heldByCtl c.ram (requestBase k) = true
      have hs' : heldByCtl s.ram (requestBase k) = true := h2 k (hk.elim (fun h => .inl (.inl h)) .inr)
      rw [hc]
      split
      · rename_i slot e
        rw [e] at hd
        have hne : k ≠ slot := by
          rintro rfl
          obtain hk | hk := hk
          · exact hd.1.2.2 k hk k (by simp) rfl
          · exact hd.2.2 k (.inr (by simp)) k hk rfl
        unfold heldByCtl
        rw [completeRequest_hand hne]
        exact hs'
      · exact hs'

theorem awardHere_orderly (n : Nat) (s : State) : Orderly s (awardHere n s) := by
  unfold awardHere
  split
  · split
    · exact (awardPlace_quiet _ s).orderly.trans (endAcceptance_orderly _ _ _)
    · exact ((answerDecline_quiet _ _ s).trans (closePlace_quiet _ _ _)).orderly.ite (awardPlace_quiet _ s).orderly
    · exact .refl s
  · exact (Orderly.refl s).ite (answerDecline_quiet _ _ s).orderly

theorem closeEnding_orderly (i : Place) (st : PlaceState) (o : ReqOutcome) (s : State) :
    Orderly s (endAcceptance i o (closePlace i st s)) :=
  (closePlace_quiet i st s).orderly.trans (endAcceptance_orderly _ _ _)

theorem awardElsewhere_orderly (n : Nat) (s : State) : Orderly s (awardElsewhere n s) := by
  unfold awardElsewhere
  split
  · split
    · exact closeEnding_orderly _ _ _ s
    · exact (closePlace_quiet _ _ s).orderly
    · exact .refl s
  · exact .refl s

theorem takeWithdraw_orderly (n : Nat) (s : State) : Orderly s (takeWithdraw n s) := by
  unfold takeWithdraw
  split
  · exact (closeEnding_orderly _ _ _ s).ite (closePlace_quiet _ _ s).orderly
  · exact .refl s

theorem mail_quiet (m : Mail) (s : State) : Quiet s { s with mail := m } :=
  (mail_frame m s).quiet' (by decide) (by decide) (by decide)

theorem undeliveredTaken_orderly (s : State) : Orderly s (undeliveredTaken s) := by
  unfold undeliveredTaken
  split
  · exact .refl s
  · rename_i n rest _
    have h := (mail_quiet { s.mail with undelivered := rest } s).orderly
    generalize ({ s with mail := { s.mail with undelivered := rest } } : State) = t at h
    refine h.trans ?_
    unfold takeUndelivered
    split
    · exact (closeEnding_orderly _ _ _ t).ite (.refl t)
    · exact .refl t

/-- R172: the completion of a held send. -/
theorem takeSendNotice_orderly (n : SendNotice) (s : State) : Orderly s (takeSendNotice n s) := by
  unfold takeSendNotice
  dsimp only
  split
  · rename_i hc
    rw [List.contains_iff_mem] at hc
    obtain ⟨u, hu⟩ : ∃ u, u = ({ s with msgs := { s.msgs with
        sends := s.msgs.sends.erase { slot := n.slot, seq := n.seq } } } : State) := ⟨_, rfl⟩
    rw [← hu]
    have hf : Frame [.msgs] nothing s u := hu ▸ msgs_frame _ s
    refine ⟨fun m => (completeRequest_frame _ _ _ u).wf (hf.wf m), fun m l => ?_, fun m hs => ?_⟩
    · refine completeRequest_legal (hf.wf m) ?_ _ _
      rw [hu]
      exact l
    · have hp : s.openRequests.Perm (n.slot :: u.openRequests) := by
        rw [hu]
        unfold State.openRequests
        dsimp only
        have := (List.perm_cons_erase hc).map HeldSend.slot
        rw [List.map_cons] at this
        exact (this.append_left _).trans List.perm_middle
      have hd := hp.nodup_iff.1 hs.1
      rw [List.nodup_cons] at hd
      refine completeRequest_sound ⟨hd.2, fun k hk => ?_⟩ hd.1 _ _
      have := hs.2 k (hp.mem_iff.2 (List.mem_cons_of_mem _ hk))
      rw [hu]
      exact this
  · exact .refl s

theorem sendNoticeTaken_orderly (s : State) : Orderly s (sendNoticeTaken s) := by
  unfold sendNoticeTaken
  split
  · exact .refl s
  · rename_i n rest _
    exact (mail_quiet { s.mail with sendNotices := rest } s).orderly.trans (takeSendNotice_orderly n _)

/-! ### The memory port -/

/-- A word stored where no hand stands. -/
theorem storeWord_quiet {off : Nat} (v : Word) (s : State) (h1 : ∀ i, requestBase i ≠ off)
    (h2 : ∀ i, boardBase i ≠ off) (h3 : ∀ b, outHand b → b ≠ off) (he : off % 2 = 0) :
    Quiet s (storeWord off v s) where
  wf := (storeWord_frame off v s).wf
  order := rfl
  held := rfl
  sends := rfl
  hands i := (storeWord_frame off v s).hand (request_hand_byte i) fun h => by
    have := h1 i
    unfold bytesAt requestBase at *
    omega
  board i := (storeWord_frame off v s).hand (board_hand_byte i) fun h => by
    have := h2 i
    unfold bytesAt boardBase at *
    omega
  out _ b hb := .inl ((storeWord_frame off v s).hand (out_hand_byte hb) fun h => by
    have := h3 b hb
    unfold bytesAt at h
    obtain ⟨i, rfl⟩ | ⟨i, rfl⟩ := hb
    · unfold boxBase at *
      omega
    · unfold recordBase at *
      omega)

theorem exchangeFault_quiet (off : Nat) (s : State) : Quiet s (exchangeFault off s) :=
  (exchangeFault_frame off s).quiet' (by decide) (by decide) (by decide)

theorem notePosition_quiet (v : Word) (s : State) : Quiet s (notePosition v s) :=
  (notePosition_frame v s).quiet' (by decide) (by decide) (by decide)

/-- R2, R9: a word stored below the slots. -/
theorem storeLow_quiet {off : Nat} (v : Word) (s : State) (h : off < 0x0240) (he : off % 2 = 0) :
    Quiet s (storeWord off v s) := by
  refine storeWord_quiet v s (fun i => ?_) (fun i => ?_) (fun b hb => ?_) he
  · unfold requestBase
    omega
  · unfold boardBase
    omega
  · obtain ⟨i, rfl⟩ | ⟨i, rfl⟩ := hb
    · unfold boxBase
      omega
    · unfold recordBase
      omega

theorem positionWrite_quiet {off : Nat} (v : Word) (s : State) (h : off < 0x0240) (he : off % 2 = 0) :
    Quiet s (positionWrite off v s) :=
  ((storeLow_quiet v s h he).trans (notePosition_quiet _ _)).ite (storeLow_quiet v s h he)

/-- R5, R10: a request handed over. -/
theorem requestHand_orderly (i : Slot) (v : Word) (s : State) : Orderly s (requestHand i v s) := by
  unfold requestHand handWrite
  split
  · rename_i hc
    have f := (storeWord_frame (requestBase i) v s).then (appendOrder_frame i _)
    have hh : Memory.wf s.ram = true →
        handAt (appendOrder i (storeWord (requestBase i) v s)).ram (requestBase i) = handCtl := fun m =>
      (hand_storeWord m _ v).trans hc.1
    have ho : ∀ j : Slot, j ≠ i → handAt (appendOrder i (storeWord (requestBase i) v s)).ram (requestBase j) =
        handAt s.ram (requestBase j) := fun j e => f.hand (request_hand_byte j) fun h => by
      have := Fin.val_ne_of_ne e
      unfold bytesAt requestBase at h
      omega
    refine ⟨f.wf, fun m l => ?_, fun m hs => ?_⟩
    · obtain ⟨l1, l2, l3, l4⟩ := l
      have hb : ∀ b, bytesAt (requestBase i) 2 b → requestBase i ≤ b ∧ b < requestBase i + 64 := by
        unfold bytesAt
        omega
      have hi := i.isLt
      refine ⟨fun j => ?_, fun j => ?_, fun j => ?_, fun j => ?_⟩
      · by_cases e : j = i
        · exact .inr (e ▸ hh m)
        · rw [ho j e]
          exact l1 j
      · rw [f.hand (box_hand_free j).1 fun h => by have := hb _ h; unfold boxBase requestBase at this; omega]
        exact l2 j
      · rw [f.hand (record_hand_free j).1 fun h => by have := hb _ h; unfold recordBase requestBase at this; omega]
        exact l3 j
      · rw [f.hand (board_hand_byte j) fun h => by have := hb _ h; unfold boardBase requestBase at this; omega]
        exact l4 j
    · have hopen : (appendOrder i (storeWord (requestBase i) v s)).openRequests.Perm (i :: s.openRequests) := by
        unfold State.openRequests appendOrder storeWord
        dsimp only
        rw [List.append_assoc, List.append_assoc, List.append_assoc]
        exact List.perm_middle
      have hni : i ∉ s.openRequests := by
        intro h
        have h1 := hs.2 i h
        have h2 := hc.2
        unfold heldByCtl heldByApp at *
        rw [beq_iff_eq] at h1 h2
        rw [h1] at h2
        exact absurd h2 (by decide)
      refine ⟨hopen.nodup_iff.2 (List.nodup_cons.2 ⟨hni, hs.1⟩), fun k hk => ?_⟩
      obtain rfl | hk := List.mem_cons.1 (hopen.mem_iff.1 hk)
      · unfold heldByCtl
        rw [hh m]
        rfl
      · have e : k ≠ i := fun e => hni (e ▸ hk)
        unfold heldByCtl
        rw [ho k e]
        exact hs.2 k hk
  · exact (exchangeFault_quiet _ s).orderly

/-- R5: the hand of a Message Box slot or a fare record slot written to CTL. -/
theorem storeHand_quiet {b : Nat} (hb : outHand b) {v : Word} (hv : lowByte v = handCtl) (s : State) :
    Quiet s (storeWord b v s) where
  wf := (storeWord_frame b v s).wf
  order := rfl
  held := rfl
  sends := rfl
  hands i := (storeWord_frame b v s).hand (request_hand_byte i) fun h => by
    unfold bytesAt requestBase at h
    obtain ⟨j, rfl⟩ | ⟨j, rfl⟩ := hb
    · unfold boxBase at h
      omega
    · unfold recordBase at h
      omega
  board i := (storeWord_frame b v s).hand (board_hand_byte i) fun h => by
    unfold bytesAt boardBase at h
    obtain ⟨j, rfl⟩ | ⟨j, rfl⟩ := hb
    · unfold boxBase at h
      omega
    · unfold recordBase at h
      omega
  out m c hc := by
    by_cases e : c = b
    · subst e
      exact .inr (.inr ((hand_storeWord m c v).trans hv))
    · refine .inl ((storeWord_frame b v s).hand (out_hand_byte hc) fun h => ?_)
      unfold bytesAt at h
      obtain ⟨j, rfl⟩ | ⟨j, rfl⟩ := hb <;> obtain ⟨k, rfl⟩ | ⟨k, rfl⟩ := hc <;>
        (simp only [boxBase, recordBase] at *; omega)

theorem handWrite_quiet {b : Nat} (hb : outHand b) (v : Word) {f : State → State} (h : ∀ t, Quiet t (f t))
    (s : State) : Quiet s (handWrite b v f s) := by
  unfold handWrite
  split
  · rename_i hc
    exact (storeHand_quiet hb hc.1 s).trans (h _)
  · exact exchangeFault_quiet _ s

theorem boxHand_quiet (i : Slot) (v : Word) (s : State) : Quiet s (boxHand i v s) :=
  handWrite_quiet (.inl ⟨i, rfl⟩) v (takeReturn_quiet i _) s

theorem recordHand_quiet (i : Slot) (v : Word) (s : State) : Quiet s (recordHand i v s) :=
  handWrite_quiet (.inr ⟨i, rfl⟩) v
    (fun t => (collectRecord_frame i t).quiet' (by decide) (by decide) (by decide)) s

/-- R4: a data word of a slot. -/
theorem slotDataWrite_quiet {base off : Nat} (v : Word) (s : State) (h1 : ∀ i, requestBase i ≠ off)
    (h2 : ∀ i, boardBase i ≠ off) (h3 : ∀ b, outHand b → b ≠ off) (he : off % 2 = 0) :
    Quiet s (slotDataWrite base off v s) :=
  (storeWord_quiet v s h1 h2 h3 he).ite (exchangeFault_quiet _ s)

/-- R28: the soft reset leaves no request open. -/
theorem softReset_orderly (s : State) : Orderly s (softReset s) := by
  obtain ⟨c, hc⟩ : ∃ c, c = (cancelOrder s.port.order).foldl (fun t i => completeRequest i .cancelled 0 t) s :=
    ⟨_, rfl⟩
  have hw : Memory.wf s.ram = true → Memory.wf c.ram = true := fun m => hc ▸ (completions_frame _ s).wf m
  have hl : Memory.wf s.ram = true → s.handsLegal → c.handsLegal := by
    intro m l
    rw [hc]
    generalize cancelOrder s.port.order = is
    clear hc hw
    induction is generalizing s with
    | nil => exact l
    | cons i is ih => exact ih _ ((completeRequest_frame _ _ _ s).wf m) (completeRequest_legal m l _ _)
  obtain ⟨u, hu⟩ : ∃ u, u = resetEmergency (resetOffers (resetLink (resetTracker (cutSending .reset
    (resetPort s))))) := ⟨_, rfl⟩
  have hr : softReset s = resetFreely u := by
    rw [hu]
    rfl
  have f1 : Frame [.order, .tx, .mail, .cycle, .link, .attention, .offers, .emergency, .msgs, .posCopy, .queue,
      .note, .free] nothing c (softReset s) := by
    have f := (((((order_frame [] c).then (cutSending_frame .reset _)).then (resetTracker_frame _)).then
      (resetLink_frame _)).then (resetOffers_frame _)).then (resetEmergency_frame _)
    have e : ({ c with port := { c.port with order := [] } } : State) = resetPort s := by
      rw [hc]
      rfl
    rw [e, ← hu] at f
    rw [hr]
    exact (f.then (resetFreely_frame u)).mono (by decide) fun _ => id
  have ho : (softReset s).openRequests = [] := by
    have h1 : u.port.order = [] := by
      have f := ((((cutSending_frame .reset (resetPort s)).then (resetTracker_frame _)).then
        (resetLink_frame _)).then (resetOffers_frame _)).then (resetEmergency_frame _)
      rw [hu, f.order (by decide)]
      rfl
    have h2 : u.offers.heldAccept = none := by
      rw [hu]
      rfl
    have h3 : (resetFreely u).msgs.sends = [] := by
      have f := (resetQueue_frame (resetStore (resetMessages u))).msgs (by decide)
      have g := (resetStore_frame (resetMessages u)).msgs (by decide)
      have e : (resetFreely u).msgs = (resetMessages u).msgs := by
        rw [← g, ← f]
        rfl
      rw [e]
      unfold resetMessages
      dsimp only
      split
      · rfl
      · rw [(statusTrigger_frame _).msgs (by decide)]
        rfl
    unfold State.openRequests
    rw [hr, (resetFreely_frame u).order (by decide), (resetFreely_frame u).offers (by decide), h1, h2, h3]
    rfl
  refine ⟨fun m => f1.wf (hw m), fun m l => ?_, fun m _ => ?_⟩
  · obtain ⟨l1, l2, l3, l4⟩ := hl m l
    refine ⟨fun i => ?_, fun i => ?_, fun i => ?_, fun i => ?_⟩
    · rw [f1.hand (request_hand_byte i) id]
      exact l1 i
    · rw [f1.hand (box_hand_free i).1 id]
      exact l2 i
    · rw [f1.hand (record_hand_free i).1 id]
      exact l3 i
    · rw [f1.hand (board_hand_byte i) id]
      exact l4 i
  · unfold State.requestsSound
    rw [ho]
    exact ⟨List.nodup_nil, fun i hi => nomatch hi⟩

theorem hostWrite_orderly (a : WordAddr) (v : Word) (s : State) : Orderly s (hostWrite (byteOffset a) v s) := by
  have he : byteOffset a % 2 = 0 := by
    unfold byteOffset
    omega
  have ha := areaOf_holds (byteOffset a)
  unfold hostWrite
  split <;> rename_i e <;> rw [e] at ha <;> unfold Area.holds at ha
  · exact (storeLow_quiet v s (by omega) he).orderly
  · exact (positionWrite_quiet v s (by omega) he).orderly
  · exact (exchangeFault_quiet _ s).orderly
  · exact (exchangeFault_quiet _ s).orderly
  · rename_i i o
    have hi := i.isLt
    split
    · exact requestHand_orderly _ _ s
    · refine (slotDataWrite_quiet v s (fun j => ?_) (fun j => ?_) (fun b hb => ?_) he).orderly
      · unfold requestBase at *
        omega
      · unfold requestBase boardBase at *
        omega
      · obtain ⟨j, rfl⟩ | ⟨j, rfl⟩ := hb <;> (unfold requestBase boxBase recordBase at *; omega)
  · rename_i i o
    have hi := i.isLt
    split
    · exact (boxHand_quiet _ _ s).orderly
    · refine (slotDataWrite_quiet v s (fun j => ?_) (fun j => ?_) (fun b hb => ?_) he).orderly
      · unfold requestBase boxBase at *
        omega
      · unfold boxBase boardBase at *
        omega
      · obtain ⟨j, rfl⟩ | ⟨j, rfl⟩ := hb <;> (unfold boxBase recordBase at *; omega)
  · rename_i i o
    have hi := i.isLt
    split
    · exact (recordHand_quiet _ _ s).orderly
    · refine (slotDataWrite_quiet v s (fun j => ?_) (fun j => ?_) (fun b hb => ?_) he).orderly
      · unfold requestBase recordBase at *
        omega
      · unfold recordBase boardBase at *
        omega
      · obtain ⟨j, rfl⟩ | ⟨j, rfl⟩ := hb <;> (unfold boxBase recordBase at *; omega)
  · unfold controlWrite
    exact (softReset_orderly s).ite (runWrite_quiet s).orderly
  · exact ((maskWrite_frame _ s).quiet' (by decide) (by decide) (by decide)).orderly
  · exact .refl s
  · exact .refl s
  · exact .refl s

/-! ### Every effect -/

theorem Frame.orderly {a : List Part} {s t : State} (f : Frame a nothing s t) (ho : Part.order ∉ a)
    (hh : Part.offers ∉ a) (hs : Part.msgs ∉ a) : Orderly s t := (f.quiet' ho hh hs).orderly

theorem takenByOwner_orderly {s u : State} (h : Orderly (takenByOwner s) u) : Orderly s u :=
  ((takenByOwner_frame s).orderly (by decide) (by decide) (by decide)).trans h

/-- Every effect of a command keeps the hands legal and the requests sound. -/
theorem effect_orderly (c : Instr) (s : State) : Orderly s (effect c s) := by
  unfold effect
  split
  · exact .refl s
  · exact .refl s
  · exact .refl s
  · exact hostWrite_orderly _ _ s
  · exact hostWrite_orderly _ _ s
  · exact (positionWrite_quiet _ s (by decide) (by decide)).orderly
  · exact requestHand_orderly _ _ s
  · exact (boxHand_quiet _ _ s).orderly
  · exact (recordHand_quiet _ _ s).orderly
  · exact (readAttention_frame s).orderly (by decide) (by decide) (by decide)
  · exact (maskWrite_frame _ s).orderly (by decide) (by decide) (by decide)
  · exact (softReset_orderly s).ite (runWrite_quiet s).orderly
  · exact (softReset_orderly s).ite (runWrite_quiet s).orderly
  · exact hostWrite_orderly _ _ s
  · exact takeHead_orderly (fun i t => completing i .badRequest 0 t) s
  · exact takeHead_orderly dutyOn_judged s
  · exact takeHead_orderly dutyOff_judged s
  · exact takeHead_orderly setZone_judged s
  · exact takeHead_orderly (fun i t => (statusTrigger_quiet t).completing i .done 0) s
  · exact takeHead_orderly meterHire_judged s
  · exact takeHead_orderly meterStop_judged s
  · exact takeHead_orderly meterResume_judged s
  · exact takeHead_orderly meterClear_judged s
  · exact takeHead_orderly selectTariff_judged s
  · exact takeHead_orderly addExtra_judged s
  · exact takeHead_orderly acceptOffer_judged s
  · exact takeHead_orderly declineOffer_judged s
  · exact takeHead_orderly resumeOffers_judged s
  · exact takeHead_orderly sendMessage_judged s
  · exact takeHead_orderly raiseEmergency_judged s
  · exact takeHead_orderly replaceSettings_judged s
  · exact takeHead_orderly (fun i t => Quiet.completing (((link_frame _ t).then (rewriteLink_frame _)).quiet'
      (by decide) (by decide) (by decide)) i .done 0) s
  · exact (headerTaken_frame _ s).orderly (by decide) (by decide) (by decide)
  · exact (receiveBits_frame _ s).orderly (by decide) (by decide) (by decide)
  · exact (frameEnded_frame _ _ s).orderly (by decide) (by decide) (by decide)
  · exact (clockLost_frame s).orderly (by decide) (by decide) (by decide)
  · split
    · exact ((free_frame _ s).then (takeBeacon_frame _ _ _ _ _ _ _ _)).orderly (by decide) (by decide) (by decide)
    · exact .refl s
  · exact (((takenByLink_frame s).then (link_frame _ _)).then (relink_frame _)).orderly (by decide) (by decide)
      (by decide)
  · split
    · exact takenByOwner_orderly (takeOffer_quiet _ _ _).orderly
    · exact .refl s
  · split
    · exact takenByOwner_orderly ((awardHere_orderly _ _).ite (awardElsewhere_orderly _ _))
    · exact .refl s
  · split
    · exact takenByOwner_orderly (takeWithdraw_orderly _ _)
    · exact .refl s
  · split
    · exact takenByOwner_orderly (takeMessage_quiet _ _).orderly
    · exact .refl s
  · split
    · exact takenByOwner_orderly ((takeAck_frame _ _).orderly (by decide) (by decide) (by decide))
    · exact .refl s
  · exact takenByOwner_orderly ((takeClear_frame _).orderly (by decide) (by decide) (by decide))
  · split
    · exact takenByOwner_orderly (suspendCab_quiet _ _ _).orderly
    · exact .refl s
  · exact takenByOwner_orderly ((endSuspension_quiet _).ite (.refl _)).orderly
  · split
    · exact (missBeacon_frame _ s).orderly (by decide) (by decide) (by decide)
    · exact .refl s
  · exact (startSlot_frame s).orderly (by decide) (by decide) (by decide)
  · exact (tx_frame _ s).orderly (by decide) (by decide) (by decide)
  · exact ((tx_frame _ s).then (mail_frame _ _)).orderly (by decide) (by decide) (by decide)
  · exact (cutSending_frame _ s).orderly (by decide) (by decide) (by decide)
  · exact (sendReportTaken_frame s).orderly (by decide) (by decide) (by decide)
  · split
    · exact ((mail_frame _ s).then (linkTakesOutcome_frame _ _ _)).orderly (by decide) (by decide) (by decide)
    · exact .refl s
  · split
    · exact ((mail_frame _ s).then (loggedChange_frame _ _)).orderly (by decide) (by decide) (by decide)
    · exact .refl s
  · exact ((mail_frame _ s).then (loggedChange_frame _ _)).orderly (by decide) (by decide) (by decide)
  · exact (((mail_frame _ s).then (link_frame _ _)).then (relink_frame _)).orderly (by decide) (by decide)
      (by decide)
  · exact (queueOutcomeTaken_frame s).orderly (by decide) (by decide) (by decide)
  · exact (statusExpired_frame s).orderly (by decide) (by decide) (by decide)
  · exact undeliveredTaken_orderly s
  · exact sendNoticeTaken_orderly s
  · exact (reportDoneTaken_frame s).orderly (by decide) (by decide) (by decide)
  · exact (deadlineExpired_quiet _ s).orderly
  · exact closeEnding_orderly _ _ _ s
  · exact (endSuspension_quiet s).orderly
  · exact (chime_frame _ s).orderly (by decide) (by decide) (by decide)
  · exact (meterTick_frame s).orderly (by decide) (by decide) (by decide)
  · exact (distancePulse_frame s).orderly (by decide) (by decide) (by decide)
  · exact ((due_frame _ s).then (startWindow_frame _)).orderly (by decide) (by decide) (by decide)
  · exact (markTaken_frame s).orderly (by decide) (by decide) (by decide)
  · exact (additionTaken_frame s).orderly (by decide) (by decide) (by decide)
  · exact (reminderExpired_quiet s).orderly
  · exact (inputSample_frame _ s).orderly (by decide) (by decide) (by decide)
  · exact (changeTaken_quiet s).orderly
  · exact (callOutcomeTaken_frame s).orderly (by decide) (by decide) (by decide)
  · exact (trackingExpired_frame s).orderly (by decide) (by decide) (by decide)
  · exact (supplySample_frame _ s).orderly (by decide) (by decide) (by decide)
  · exact (timeTick_quiet s).orderly
  · exact (inputSample_frame _ s).orderly (by decide) (by decide) (by decide)
  · exact (receiveBits_frame _ s).orderly (by decide) (by decide) (by decide)
  · exact (headerTaken_frame _ s).orderly (by decide) (by decide) (by decide)
  · exact (backToHunt_frame s).orderly (by decide) (by decide) (by decide)

end Sys2Proof.Machine
end

