-- ==== Sys2Proof/Laws/Sound.lean ====
section
/-! SUPPORT. What every effect keeps of the Transmit Queue: at most 12 entries, one status, one report, an identity
each, and a status-pending mark that cannot be resolved (R70, R73, R77). -/

namespace Sys2Proof.Machine

/-- A sound queue stays sound. -/
def KeepsQueue (s t : State) : Prop := s.queueSound → t.queueSound

theorem KeepsQueue.refl (s : State) : KeepsQueue s s := id

theorem KeepsQueue.trans {s t u : State} (h : KeepsQueue s t) (k : KeepsQueue t u) : KeepsQueue s u := fun q =>
  k (h q)

theorem KeepsQueue.ite {s t u : State} {c : Prop} [Decidable c] (h : KeepsQueue s t) (k : KeepsQueue s u) :
    KeepsQueue s (if c then t else u) := by
  split <;> assumption

theorem Frame.keepsQueue {a : List Part} {p : Nat → Prop} {s t : State} (f : Frame a p s t) (h : Part.queue ∉ a) :
    KeepsQueue s t := fun q => queueSound_of_queue q (f.queue h)

theorem statusTrigger_keepsQueue (s : State) : KeepsQueue s (statusTrigger s) := queueSound_statusTrigger

theorem reportFeed_keepsQueue (s : State) : KeepsQueue s (reportFeed s) := queueSound_reportFeed

theorem completeRequest_keepsQueue (i : Slot) (o : ReqOutcome) (d : Nat) (s : State) :
    KeepsQueue s (completeRequest i o d s) := (completeRequest_frame i o d s).keepsQueue (by decide)

theorem KeepsQueue.completing {s t : State} (h : KeepsQueue s t) (i : Slot) (o : ReqOutcome) (d : Nat) :
    KeepsQueue s (completeRequest i o d t) := h.trans (completeRequest_keepsQueue i o d t)

theorem fare_keepsQueue (f : FareMeter) (s : State) : KeepsQueue s { s with fare := f } :=
  (fare_frame f s).keepsQueue (by decide)

theorem takenByOwner_keepsQueue {s u : State} (h : KeepsQueue (takenByOwner s) u) : KeepsQueue s u :=
  ((takenByOwner_frame s).keepsQueue (by decide)).trans h

/-- The queue's timer has no part in it. -/
theorem timer_keepsQueue {s t : State} (h : ∃ r, t.queue = { s.queue with timer := r }) : KeepsQueue s t := by
  obtain ⟨r, h⟩ := h
  intro q
  unfold State.queueSound at *
  rw [h]
  exact q

/-! ### The judges -/

theorem takeHead_keepsQueue {judge : Slot → State → State} (h : ∀ i t, t.running = true → KeepsQueue t (judge i t))
    (s : State) : KeepsQueue s (takeHead judge s) := by
  cases ho : s.port.order with
  | nil =>
    unfold takeHead
    rw [ho]
    exact .refl s
  | cons i rest =>
    rw [takeHead_eq ho]
    have ht : KeepsQueue s (s.taken rest) := (taken_frame s rest).keepsQueue (by decide)
    split
    · rename_i hr
      exact ht.trans (h i _ hr)
    · exact ht.completing _ _ _

theorem openShift_keepsQueue (s : State) : KeepsQueue s (openShift s) :=
  (((fareLimiter_frame _ _ s).then (offers_frame _ _)).keepsQueue (by decide)).trans (statusTrigger_keepsQueue _)

theorem postRecord_keepsQueue (i : Slot) (r : FareRecord) (s : State) : KeepsQueue s (postRecord i r s) := by
  unfold postRecord
  exact (((storeRam_frame i _ _ s).then (setNews_frame .record _)).keepsQueue (by decide)).trans
    (reportFeed_keepsQueue _)

theorem closeShift_keepsQueue (p : Slot) (s : State) : KeepsQueue s (closeShift p s) := by
  unfold closeShift
  dsimp only
  exact ((postRecord_keepsQueue p _ s).trans (((fare_frame _ _).then (closeOffDuty_frame _)).keepsQueue
    (by decide))).trans (statusTrigger_keepsQueue _)

theorem dutyOff_keepsQueue (i : Slot) (s : State) : KeepsQueue s (dutyOff i s) := by
  unfold dutyOff
  split
  · exact completeRequest_keepsQueue _ _ _ s
  · split
    · exact completeRequest_keepsQueue _ _ _ s
    · exact (closeShift_keepsQueue _ s).completing _ _ _

theorem cancelled_keepsQueue (p : OfferPlace → Bool) (s : State) : KeepsQueue s (cancelWhere p s) :=
  (cancelWhere_frame p s).keepsQueue (by decide)

theorem changeZone_keepsQueue (z : Nat) (s : State) : KeepsQueue s (changeZone z s) :=
  (((cancelWhere_frame _ s).then (offers_frame _ _)).keepsQueue (by decide)).trans (statusTrigger_keepsQueue _)

theorem setLatch_keepsQueue (s : State) : KeepsQueue s (setLatch s) :=
  (((cancelWhere_frame _ s).then (offers_frame _ _)).keepsQueue (by decide)).trans (statusTrigger_keepsQueue _)

theorem closeBaseGate_keepsQueue (s : State) : KeepsQueue s (closeBaseGate s) :=
  (((cancelWhere_frame _ s).then (offers_frame _ _)).keepsQueue (by decide)).trans (statusTrigger_keepsQueue _)

theorem meterChanged_keepsQueue (s : State) : KeepsQueue s (meterChanged s) :=
  (statusTrigger_keepsQueue s).trans ((setNews_frame .meter _).keepsQueue (by decide))

theorem hire_keepsQueue (n : Nat) (s : State) : KeepsQueue s (hire n s) := by
  unfold hire
  dsimp only
  exact ((((startJob_frame s).then (fare_frame _ _)).then (forgetRemainder_frame _ _)).keepsQueue
    (by decide)).trans (meterChanged_keepsQueue _)

theorem closeTrip_keepsQueue (s : State) : KeepsQueue s (closeTrip s) :=
  (((fare_frame _ s).then (forgetRemainder_frame _ _)).keepsQueue (by decide)).trans (meterChanged_keepsQueue _)

theorem meterHire_keepsQueue (i : Slot) (s : State) : KeepsQueue s (meterHire i s) :=
  (completeRequest_keepsQueue _ _ _ s).ite ((completeRequest_keepsQueue _ _ _ s).ite
    ((completeRequest_keepsQueue _ _ _ s).ite ((hire_keepsQueue _ s).completing _ _ _)))

theorem meterClear_keepsQueue (i : Slot) (s : State) : KeepsQueue s (meterClear i s) := by
  unfold meterClear
  split
  · exact completeRequest_keepsQueue _ _ _ s
  · split
    · exact completeRequest_keepsQueue _ _ _ s
    · dsimp only
      exact (((postRecord_keepsQueue _ _ s).trans ((addTripToShift_frame _ _).keepsQueue (by decide))).trans
        (closeTrip_keepsQueue _)).completing _ _ _

theorem hostMayAdmit_true {s : State} (h : hostMayAdmit s = true) : s.queue.entries.length < 8 := by
  unfold hostMayAdmit at h
  simp only [Bool.and_eq_true, decide_eq_true_eq] at h
  exact h.2

theorem acceptRefusal_none {i : Place} {s : State} (h : acceptRefusal i s = none) : hostMayAdmit s = true := by
  unfold acceptRefusal at h
  split_ifs at h
  rename_i hm
  simpa using hm

theorem acceptOffer_keepsQueue (i : Slot) (s : State) : KeepsQueue s (acceptOffer i s) := by
  unfold acceptOffer
  split
  · exact completeRequest_keepsQueue _ _ _ s
  · split
    · exact completeRequest_keepsQueue _ _ _ s
    · rename_i j _ _ hr
      intro q
      have h := queueSound_admitHost (kind := .jobAccept) q (hostMayAdmit_true (acceptRefusal_none hr)) (by decide)
        rfl (be 2 (pick s.offers.places j).number) (some i)
      exact queueSound_of_queue h rfl

theorem finishDecline_keepsQueue (i : Slot) (j : Place) (s : State) : KeepsQueue s (finishDecline i j s) :=
  (finishDecline_frame i j s).keepsQueue (by decide)

theorem declineOffer_keepsQueue (i : Slot) (s : State) : KeepsQueue s (declineOffer i s) := by
  unfold declineOffer
  split
  · exact completeRequest_keepsQueue _ _ _ s
  · dsimp only
    split
    · exact completeRequest_keepsQueue _ _ _ s
    · split
      · exact finishDecline_keepsQueue _ _ s
      · split
        · rename_i hm
          exact KeepsQueue.trans (fun q => queueSound_admitHost q (hostMayAdmit_true hm) (by decide) rfl _ _)
            (finishDecline_keepsQueue _ _ _)
        · exact completeRequest_keepsQueue _ _ _ s

theorem clearLatch_keepsQueue (s : State) : KeepsQueue s (clearLatch s) := by
  unfold clearLatch
  dsimp only
  have h := (offers_frame { s.offers with latch := false, expiries := 0 } s).keepsQueue (by decide)
  split
  · exact h.trans (statusTrigger_keepsQueue _)
  · exact h

theorem sendMessage_keepsQueue (i : Slot) (s : State) : KeepsQueue s (sendMessage i s) := by
  unfold sendMessage
  dsimp only
  split
  · exact completeRequest_keepsQueue _ _ _ s
  · split
    · rename_i hm
      intro q
      exact queueSound_of_queue (queueSound_admitHost (kind := .driverMessage) q (hostMayAdmit_true hm) (by decide)
        rfl _ (some i)) rfl
    · exact completeRequest_keepsQueue _ _ _ s

theorem changeSettings_keepsQueue (w : Settings) (s : State) : KeepsQueue s (changeSettings w s) := by
  have h : KeepsQueue s (adoptSettings w s) := by
    refine timer_keepsQueue ⟨Timer.start w.status, ?_⟩
    unfold adoptSettings
    dsimp only
    rw [(judgeLamp_frame _).queue (by decide), (forgetRemainder_frame _ _).queue (by decide)]
  unfold changeSettings
  dsimp only
  split
  · exact h.trans (reportFeed_keepsQueue _)
  · exact h

theorem replaceSettings_keepsQueue (i : Slot) (s : State) : KeepsQueue s (replaceSettings i s) := by
  unfold replaceSettings
  split
  · exact completeRequest_keepsQueue _ _ _ s
  · split
    · exact completeRequest_keepsQueue _ _ _ s
    · exact (changeSettings_keepsQueue _ s).completing _ _ _

/-! ### The blocks that ask the queue for frames -/

theorem answerDecline_keepsQueue (n r : Nat) (s : State) : KeepsQueue s (answerDecline n r s) := fun q =>
  queueSound_admitController q (by decide) rfl _

theorem answerDelivered_keepsQueue (n : Nat) (s : State) : KeepsQueue s (answerDelivered n s) := fun q =>
  queueSound_admitController q (by decide) rfl _

theorem removeAccept_keepsQueue (n : Nat) (s : State) : KeepsQueue s (removeAccept n s) := fun q =>
  queueSound_removeAccept q n

theorem endAcceptance_keepsQueue (j : Place) (o : ReqOutcome) (s : State) : KeepsQueue s (endAcceptance j o s) := by
  unfold endAcceptance
  dsimp only
  refine KeepsQueue.trans ?_ (removeAccept_keepsQueue _ _)
  refine fun q => queueSound_of_queue q ?_
  dsimp only
  split
  · exact (completeRequest_frame _ _ _ s).queue (by decide)
  · rfl

theorem closePlace_keepsQueue (i : Place) (st : PlaceState) (s : State) : KeepsQueue s (closePlace i st s) :=
  (closePlace_frame i st s).keepsQueue (by decide)

theorem awardPlace_keepsQueue (i : Place) (s : State) : KeepsQueue s (awardPlace i s) :=
  (awardPlace_frame i s).keepsQueue (by decide)

theorem closeEnding_keepsQueue (i : Place) (st : PlaceState) (o : ReqOutcome) (s : State) :
    KeepsQueue s (endAcceptance i o (closePlace i st s)) :=
  (closePlace_keepsQueue i st s).trans (endAcceptance_keepsQueue _ _ _)

theorem placeOffer_keepsQueue (d : Bool) (p : OfferPlace) (s : State) : KeepsQueue s (placeOffer d p s) := by
  unfold placeOffer
  split
  · exact (enterOffer_frame _ p s).keepsQueue (by decide)
  · split
    · split
      · exact (((closePlace_frame _ _ s).then (countDrop_frame _)).then (enterOffer_frame _ _ _)).keepsQueue
          (by decide)
      · exact ((countDrop_frame s).keepsQueue (by decide)).trans (answerDecline_keepsQueue _ _ _)
    · exact (countDrop_frame s).keepsQueue (by decide)

theorem takeOffer_keepsQueue (d : Bool) (p : OfferPlace) (s : State) : KeepsQueue s (takeOffer d p s) := by
  unfold takeOffer judgeOffer
  split_ifs <;> first
    | exact .refl s
    | exact answerDecline_keepsQueue _ _ s
    | exact placeOffer_keepsQueue _ _ s

theorem takeAward_keepsQueue (n c : Nat) (s : State) : KeepsQueue s (takeAward n c s) := by
  unfold takeAward awardHere awardElsewhere
  split
  · split
    · split
      · exact (awardPlace_keepsQueue _ s).trans (endAcceptance_keepsQueue _ _ _)
      · exact ((answerDecline_keepsQueue _ _ s).trans (closePlace_keepsQueue _ _ _)).ite
          (awardPlace_keepsQueue _ s)
      · exact .refl s
    · exact (KeepsQueue.refl s).ite (answerDecline_keepsQueue _ _ s)
  · split
    · split
      · exact closeEnding_keepsQueue _ _ _ s
      · exact closePlace_keepsQueue _ _ s
      · exact .refl s
    · exact .refl s

theorem takeWithdraw_keepsQueue (n : Nat) (s : State) : KeepsQueue s (takeWithdraw n s) := by
  unfold takeWithdraw
  split
  · exact (closeEnding_keepsQueue _ _ _ s).ite (closePlace_keepsQueue _ _ s)
  · exact .refl s

theorem undeliveredTaken_keepsQueue (s : State) : KeepsQueue s (undeliveredTaken s) := by
  unfold undeliveredTaken
  split
  · exact .refl s
  · rename_i n rest _
    have h := (mail_frame { s.mail with undelivered := rest } s).keepsQueue (by decide)
    generalize ({ s with mail := { s.mail with undelivered := rest } } : State) = t at h
    refine h.trans ?_
    unfold takeUndelivered
    split
    · exact (closeEnding_keepsQueue _ _ _ t).ite (.refl t)
    · exact .refl t

theorem deadlineExpired_keepsQueue (i : Place) (s : State) : KeepsQueue s (deadlineExpired i s) := by
  unfold deadlineExpired
  dsimp only
  have h := ((closePlace_frame i .expired s).then (offers_frame
    { (closePlace i .expired s).offers with expiries := expiriesAfter (closePlace i .expired s).offers } _)).keepsQueue
      (by decide)
  split
  · exact h.trans (setLatch_keepsQueue _)
  · exact h

theorem suspendCab_keepsQueue (a b : Nat) (s : State) : KeepsQueue s (suspendCab a b s) := by
  unfold suspendCab
  dsimp only
  split
  · exact (offers_frame _ s).keepsQueue (by decide)
  · exact ((offers_frame _ s).keepsQueue (by decide)).trans (closeBaseGate_keepsQueue _)

theorem endSuspension_keepsQueue (s : State) : KeepsQueue s (endSuspension s) :=
  ((offers_frame _ s).keepsQueue (by decide)).trans (statusTrigger_keepsQueue _)

theorem takeMessage_keepsQueue (m : Incoming) (s : State) : KeepsQueue s (takeMessage m s) := by
  unfold takeMessage
  split
  · exact (answerDelivered_keepsQueue _ s).ite (.refl s)
  · split
    · rename_i j _
      unfold acceptMessage
      dsimp only
      have h := ((storeMessage_frame j m s).then (setNews_frame .message _)).keepsQueue (by decide)
      generalize setNews .message (storeMessage j m s) = t at h
      have k : KeepsQueue t (if m.directed then answerDelivered m.number t else t) :=
        (answerDelivered_keepsQueue _ t).ite (.refl t)
      generalize (if m.directed then answerDelivered m.number t else t) = u at k
      exact (h.trans k).trans (((requestChime_frame u).keepsQueue (by decide)).ite (.refl u))
    · unfold refuseMessage
      split
      · split
        · exact .refl s
        · exact ((msgs_frame _ s).keepsQueue (by decide)).trans (statusTrigger_keepsQueue _)
      · exact ((msgs_frame _ s).then (setNews_frame .dropped _)).keepsQueue (by decide)

theorem takeReturn_keepsQueue (i : Slot) (d : Byte) (s : State) : KeepsQueue s (takeReturn i d s) := by
  unfold takeReturn
  dsimp only
  obtain ⟨t, ht, h⟩ : ∃ t, Frame [.msgs] nothing s t ∧ { s with msgs := { s.msgs with
      boxes := put s.msgs.boxes i { pick s.msgs.boxes i with held := false } } } = t :=
    ⟨_, msgs_frame _ s, rfl⟩
  rw [h]
  have h2 : KeepsQueue t (if owesReceipt (pick s.msgs.boxes i) d then
      admitController .msgReceipt (be 2 (pick s.msgs.boxes i).number) t else t) :=
    KeepsQueue.ite (fun q => queueSound_admitController q (by decide) rfl _) (.refl t)
  refine ((ht.keepsQueue (by decide)).trans h2).trans (KeepsQueue.trans (t := clearRnr _) ?_
    ((stopReminder_frame _).keepsQueue (by decide)))
  unfold clearRnr
  exact KeepsQueue.ite (((msgs_frame _ _).keepsQueue (by decide)).trans (statusTrigger_keepsQueue _)) (.refl _)

theorem boxHand_keepsQueue (i : Slot) (v : Word) (s : State) : KeepsQueue s (boxHand i v s) := by
  unfold boxHand handWrite
  split
  · exact ((storeWord_frame _ _ s).keepsQueue (by decide)).trans (takeReturn_keepsQueue _ _ _)
  · exact (exchangeFault_frame _ s).keepsQueue (by decide)

theorem reportDoneTaken_keepsQueue (s : State) : KeepsQueue s (reportDoneTaken s) := by
  unfold reportDoneTaken
  split
  · exact .refl s
  · unfold reportIsDone
    dsimp only
    exact KeepsQueue.trans (fun q => queueSound_of_queue q (by rfl)) (reportFeed_keepsQueue _)

/-! ### The Cycle Tracker -/

/-- R62: the in-flight mark makes no status-pending mark resolvable. -/
theorem markInFlight_keepsQueue (id : Nat) (s : State) : KeepsQueue s (markInFlight id s) := by
  intro q
  have hl : (markInFlight id s).queue.lawful :=
    lawful_update q.1 id (fun e => { e with inFlight := true }) (fun _ => rfl) (fun _ => rfl)
  refine ⟨hl, ?_⟩
  have h2 := q.2
  unfold TransmitQueue.resolvable at *
  change (s.queue.pending && _) = false
  cases hp : s.queue.pending with
  | false => rfl
  | true =>
    rw [hp] at h2
    rw [Bool.true_and] at *
    cases he : s.queue.statusEntry with
    | none =>
      rw [he] at h2
      have hn : (markInFlight id s).queue.statusEntry = none := by
        unfold TransmitQueue.statusEntry
        rw [List.find?_eq_none]
        intro x hx
        obtain ⟨y, hy, rfl⟩ := List.mem_map.1 (show x ∈ s.queue.entries.map _ from hx)
        have := no_statusEntry he y hy
        split <;> simpa using this
      rw [hn]
      change decide ((s.queue.entries.map _).length < 12) = false
      rw [List.length_map]
      exact h2
    | some e =>
      rw [he] at h2
      obtain ⟨hm, hk⟩ := mem_statusEntry he
      have hx : (if e.id = id then { e with inFlight := true } else e) ∈ (markInFlight id s).queue.entries :=
        List.mem_map_of_mem (f := fun x : Entry => if x.id = id then { x with inFlight := true } else x) hm
      rw [statusEntry_unique hl hx (by split <;> exact hk)]
      simp only [Bool.not_eq_false'] at *
      split
      · rfl
      · exact h2

theorem startSlot_keepsQueue (s : State) : KeepsQueue s (startSlot s) := by
  unfold startSlot
  split
  · split
    · exact (cycle_frame _ s).keepsQueue (by decide)
    · exact (markInFlight_keepsQueue _ s).trans ((requestSend_frame _ _ _).keepsQueue (by decide))
  · exact ((cycle_frame _ s).keepsQueue (by decide)).ite ((requestSend_frame _ _ s).keepsQueue (by decide))

theorem takeDeliveries_keepsQueue (s : State) : KeepsQueue s (takeDeliveries s) := by
  unfold takeDeliveries
  dsimp only
  exact (((mail_frame _ s).then (drainCallOuts_frame _ _)).then (mail_frame _ _)).keepsQueue (by decide) |>.trans
    (fun q => queueSound_drainQueueOuts _ q)

theorem takeBeacon_keepsQueue (first : Bool) (h : HeldFrame) (a b c d : Nat) (acks : List Nat) (s : State) :
    KeepsQueue s (takeBeacon first h a b c d acks s) := by
  unfold takeBeacon
  dsimp only
  have h1 : KeepsQueue s (takenByOwner s) := (takenByOwner_frame s).keepsQueue (by decide)
  generalize takenByOwner s = t at h1
  have h2 : KeepsQueue t (if t.cycle.synced then settleByBeacon acks t else t) :=
    ((settleByBeacon_frame acks t).keepsQueue (by decide)).ite (.refl t)
  generalize (if t.cycle.synced then settleByBeacon acks t else t) = u at h2
  have h3 := (h1.trans h2).trans ((storeBeacon_frame h.endInstant a b c d u).keepsQueue (by decide))
  generalize storeBeacon h.endInstant a b c d u = v at h3
  exact h3.trans ((takeDeliveries_keepsQueue v).trans
    (((linkBeforeChoice_frame _ _).keepsQueue (by decide)).trans ((chooseFrame_frame _).keepsQueue (by decide))))

theorem queueOutcomeTaken_keepsQueue (s : State) : KeepsQueue s (queueOutcomeTaken s) := by
  unfold queueOutcomeTaken
  split
  · exact .refl s
  · exact KeepsQueue.trans (fun q => queueSound_of_queue q (by rfl)) (fun q => queueSound_queueTakesOutcome q _ _)

theorem statusExpired_keepsQueue (s : State) : KeepsQueue s (statusExpired s) := by
  unfold statusExpired
  exact KeepsQueue.trans (timer_keepsQueue ⟨Timer.start s.working.status, rfl⟩) (statusTrigger_keepsQueue _)

/-! ### RUN and the soft reset -/

theorem runWrite_keepsQueue (s : State) : KeepsQueue s (runWrite s) := by
  unfold runWrite
  refine KeepsQueue.trans ?_ (((rewritePart_frame _).then (setNews_frame .settings _)).keepsQueue (by decide))
  split
  · exact (settings_frame _ s).keepsQueue (by decide)
  · unfold enterRunning eitherOrder
    dsimp only
    have h : KeepsQueue s (takeUpSettings (readSettings s.ram) s) := timer_keepsQueue ⟨_, rfl⟩
    generalize takeUpSettings (readSettings s.ram) s = t at h
    intro q
    have k1 := ((statusTrigger_keepsQueue t).trans (reportFeed_keepsQueue _)) (h q)
    have k2 := ((reportFeed_keepsQueue t).trans (statusTrigger_keepsQueue _)) (h q)
    unfold State.queueSound at *
    dsimp only
    split
    · exact k1
    · exact k2

theorem resetMessages_keepsQueue (s : State) : KeepsQueue s (resetMessages s) := by
  unfold resetMessages
  dsimp only
  have h := (msgs_frame (s.msgs.softReset (boxFull s.ram) (anyBoxAtApp s.ram) s.working.reminder) s).keepsQueue
    (by decide)
  split
  · exact h
  · exact h.trans (statusTrigger_keepsQueue _)

theorem resetStore_keepsQueue (s : State) : KeepsQueue s (resetStore s) :=
  ((note_frame none s).keepsQueue (by decide)).trans (reportFeed_keepsQueue _)

theorem resetQueue_keepsQueue (s : State) : KeepsQueue s (resetQueue s) := by
  refine KeepsQueue.trans (fun _ => ⟨⟨?_, ?_, ?_, ?_, ?_⟩, rfl⟩) (resetStore_keepsQueue _)
  · exact Nat.zero_le _
  · exact Nat.zero_le _
  · exact Nat.zero_le _
  · exact List.nodup_nil
  · exact fun _ h => nomatch h

theorem resetAroundQueue_keepsQueue (a b : Bool) (s : State) : KeepsQueue s (resetAroundQueue a b s) := by
  unfold resetAroundQueue
  cases a <;> cases b
  · exact ((resetQueue_keepsQueue s).trans (resetMessages_keepsQueue _)).trans (resetStore_keepsQueue _)
  · exact ((resetStore_keepsQueue s).trans (resetQueue_keepsQueue _)).trans (resetMessages_keepsQueue _)
  · exact ((resetMessages_keepsQueue s).trans (resetQueue_keepsQueue _)).trans (resetStore_keepsQueue _)
  · exact ((resetMessages_keepsQueue s).trans (resetStore_keepsQueue _)).trans (resetQueue_keepsQueue _)

theorem softReset_keepsQueue (s : State) : KeepsQueue s (softReset s) := by
  have h := ((((((resetPort_frame s).then (cutSending_frame .reset _)).then (resetTracker_frame _)).then
    (resetLink_frame _)).then (resetOffers_frame _)).then (resetEmergency_frame _)).keepsQueue (by decide)
  unfold softReset
  generalize resetEmergency (resetOffers (resetLink (resetTracker (cutSending .reset (resetPort s))))) = t at h
  intro q
  unfold resetFreely
  dsimp only
  exact queueSound_of_queue
    (resetAroundQueue_keepsQueue (Config.freeOrder t.free) (Config.freeOrder (t.free + 1)) t (h q)) rfl

theorem controlWrite_keepsQueue (s : State) : KeepsQueue s (controlWrite s) :=
  (softReset_keepsQueue s).ite (runWrite_keepsQueue s)

theorem hostWrite_keepsQueue (off : Nat) (v : Word) (s : State) : KeepsQueue s (hostWrite off v s) := by
  unfold hostWrite
  split
  · exact (storeWord_frame _ _ s).keepsQueue (by decide)
  · exact (positionWrite_frame _ _ s).keepsQueue (by decide)
  · exact (exchangeFault_frame _ s).keepsQueue (by decide)
  · exact (exchangeFault_frame _ s).keepsQueue (by decide)
  · exact ((requestHand_frame _ _ s).keepsQueue (by decide)).ite ((slotDataWrite_frame _ _ _ s).keepsQueue (by decide))
  · exact (boxHand_keepsQueue _ _ s).ite ((slotDataWrite_frame _ _ _ s).keepsQueue (by decide))
  · exact ((recordHand_frame _ _ s).keepsQueue (by decide)).ite ((slotDataWrite_frame _ _ _ s).keepsQueue (by decide))
  · exact controlWrite_keepsQueue s
  · exact (maskWrite_frame _ s).keepsQueue (by decide)
  · exact .refl s
  · exact .refl s
  · exact .refl s

theorem timeTick_keepsQueue (s : State) : KeepsQueue s (timeTick s) := by
  unfold timeTick
  dsimp only
  split
  · exact timer_keepsQueue ⟨_, rfl⟩
  · exact fun q => queueSound_of_queue q rfl

/-! ### Every effect -/

theorem effect_keepsQueue (c : Instr) (s : State) : KeepsQueue s (effect c s) := by
  unfold effect
  split
  · exact .refl s
  · exact .refl s
  · exact .refl s
  · exact hostWrite_keepsQueue _ _ s
  · exact hostWrite_keepsQueue _ _ s
  · exact (positionWrite_frame _ _ s).keepsQueue (by decide)
  · exact (requestHand_frame _ _ s).keepsQueue (by decide)
  · exact boxHand_keepsQueue _ _ s
  · exact (recordHand_frame _ _ s).keepsQueue (by decide)
  · exact (readAttention_frame s).keepsQueue (by decide)
  · exact (maskWrite_frame _ s).keepsQueue (by decide)
  · exact controlWrite_keepsQueue s
  · exact controlWrite_keepsQueue s
  · exact hostWrite_keepsQueue _ _ s
  · exact takeHead_keepsQueue (fun i t _ => completeRequest_keepsQueue i .badRequest 0 t) s
  · exact takeHead_keepsQueue (fun i t _ => (completeRequest_keepsQueue _ _ _ t).ite
      ((openShift_keepsQueue t).completing i _ _)) s
  · exact takeHead_keepsQueue (fun i t _ => dutyOff_keepsQueue i t) s
  · exact takeHead_keepsQueue (fun i t _ => (completeRequest_keepsQueue _ _ _ t).ite
      ((completeRequest_keepsQueue _ _ _ t).ite ((changeZone_keepsQueue _ t).completing i _ _))) s
  · exact takeHead_keepsQueue (fun i t _ => (statusTrigger_keepsQueue t).completing i .done 0) s
  · exact takeHead_keepsQueue (fun i t _ => meterHire_keepsQueue i t) s
  · exact takeHead_keepsQueue (fun i t _ => (((fare_keepsQueue _ t).trans (meterChanged_keepsQueue _)).completing
      i _ _).ite (completeRequest_keepsQueue _ _ _ t)) s
  · exact takeHead_keepsQueue (fun i t _ => (((fare_keepsQueue _ t).trans (meterChanged_keepsQueue _)).completing
      i _ _).ite (completeRequest_keepsQueue _ _ _ t)) s
  · exact takeHead_keepsQueue (fun i t _ => meterClear_keepsQueue i t) s
  · exact takeHead_keepsQueue (fun i t _ => (selectTariff_frame i t).keepsQueue (by decide)) s
  · exact takeHead_keepsQueue (fun i t _ => (addExtra_frame i t).keepsQueue (by decide)) s
  · exact takeHead_keepsQueue (fun i t _ => acceptOffer_keepsQueue i t) s
  · exact takeHead_keepsQueue (fun i t _ => declineOffer_keepsQueue i t) s
  · exact takeHead_keepsQueue (fun i t _ => (clearLatch_keepsQueue t).completing i _ _) s
  · exact takeHead_keepsQueue (fun i t _ => sendMessage_keepsQueue i t) s
  · exact takeHead_keepsQueue (fun i t _ => ((trigger_frame .host t).keepsQueue (by decide)).completing i _ _) s
  · exact takeHead_keepsQueue (fun i t _ => replaceSettings_keepsQueue i t) s
  · exact takeHead_keepsQueue (fun i t _ => KeepsQueue.completing (((link_frame _ t).then
      (rewriteLink_frame _)).keepsQueue (by decide)) i .done 0) s
  · exact (headerTaken_frame _ s).keepsQueue (by decide)
  · exact (receiveBits_frame _ s).keepsQueue (by decide)
  · exact (frameEnded_frame _ _ s).keepsQueue (by decide)
  · exact (clockLost_frame s).keepsQueue (by decide)
  · split
    · exact ((free_frame _ s).keepsQueue (by decide)).trans (takeBeacon_keepsQueue _ _ _ _ _ _ _ _)
    · exact .refl s
  · exact (((takenByLink_frame s).then (link_frame _ _)).then (relink_frame _)).keepsQueue (by decide)
  · split
    · exact takenByOwner_keepsQueue (takeOffer_keepsQueue _ _ _)
    · exact .refl s
  · split
    · exact takenByOwner_keepsQueue (takeAward_keepsQueue _ _ _)
    · exact .refl s
  · split
    · exact takenByOwner_keepsQueue (takeWithdraw_keepsQueue _ _)
    · exact .refl s
  · split
    · exact takenByOwner_keepsQueue (takeMessage_keepsQueue _ _)
    · exact .refl s
  · split
    · exact takenByOwner_keepsQueue ((takeAck_frame _ _).keepsQueue (by decide))
    · exact .refl s
  · exact takenByOwner_keepsQueue ((takeClear_frame _).keepsQueue (by decide))
  · split
    · exact takenByOwner_keepsQueue (suspendCab_keepsQueue _ _ _)
    · exact .refl s
  · exact takenByOwner_keepsQueue ((endSuspension_keepsQueue _).ite (.refl _))
  · split
    · exact (missBeacon_frame _ s).keepsQueue (by decide)
    · exact .refl s
  · exact startSlot_keepsQueue s
  · exact (tx_frame _ s).keepsQueue (by decide)
  · exact ((tx_frame _ s).then (mail_frame _ _)).keepsQueue (by decide)
  · exact (cutSending_frame _ s).keepsQueue (by decide)
  · exact (sendReportTaken_frame s).keepsQueue (by decide)
  · split
    · exact ((mail_frame _ s).then (linkTakesOutcome_frame _ _ _)).keepsQueue (by decide)
    · exact .refl s
  · split
    · exact ((mail_frame _ s).then (loggedChange_frame _ _)).keepsQueue (by decide)
    · exact .refl s
  · exact ((mail_frame _ s).then (loggedChange_frame _ _)).keepsQueue (by decide)
  · exact (((mail_frame _ s).then (link_frame _ _)).then (relink_frame _)).keepsQueue (by decide)
  · exact queueOutcomeTaken_keepsQueue s
  · exact statusExpired_keepsQueue s
  · exact undeliveredTaken_keepsQueue s
  · exact (sendNoticeTaken_frame s).keepsQueue (by decide)
  · exact reportDoneTaken_keepsQueue s
  · exact deadlineExpired_keepsQueue _ s
  · exact closeEnding_keepsQueue _ _ _ s
  · exact endSuspension_keepsQueue s
  · exact (chime_frame _ s).keepsQueue (by decide)
  · exact (meterTick_frame s).keepsQueue (by decide)
  · exact (distancePulse_frame s).keepsQueue (by decide)
  · exact ((due_frame _ s).then (startWindow_frame _)).keepsQueue (by decide)
  · exact (markTaken_frame s).keepsQueue (by decide)
  · exact (additionTaken_frame s).keepsQueue (by decide)
  · exact (reminderExpired_frame s).keepsQueue (by decide)
  · exact (inputSample_frame _ s).keepsQueue (by decide)
  · exact (changeTaken_frame s).keepsQueue (by decide)
  · exact (callOutcomeTaken_frame s).keepsQueue (by decide)
  · exact (trackingExpired_frame s).keepsQueue (by decide)
  · exact (supplySample_frame _ s).keepsQueue (by decide)
  · exact timeTick_keepsQueue s
  · exact (inputSample_frame _ s).keepsQueue (by decide)
  · exact (receiveBits_frame _ s).keepsQueue (by decide)
  · exact (headerTaken_frame _ s).keepsQueue (by decide)
  · exact (backToHunt_frame s).keepsQueue (by decide)

end Sys2Proof.Machine
end

