-- ==== Sys2Proof/Laws/FareSound.lean ====
section
/-! SUPPORT. What every effect keeps of an open trip: each accumulator below its threshold in force, the fare, the
segments and the extras within their bounds, under a working copy that has passed validation (R125), and the
fare the saturated sum of what was charged (R129). -/

namespace Sys2Proof.Machine

/-! ### The bounds of a trip -/

/-- What a tariff in range gives the thresholds. -/
theorem Tariff.inRange_spec {t : Tariff} (h : t.inRange = true) :
    t.flagFall ≤ 9999 ∧ (t.d0 = 0 ↔ t.t0 = 0) ∧ 10 ≤ t.ud ∧ 1 ≤ t.ut := by
  unfold Tariff.inRange at h
  simp only [Bool.and_eq_true, decide_eq_true_eq, beq_iff_eq] at h
  obtain ⟨⟨⟨⟨⟨⟨⟨⟨⟨⟨h1, h2⟩, h3⟩, h4⟩, h5⟩, h6⟩, h7⟩, h8⟩, h9⟩, h10⟩, h11⟩ := h
  refine ⟨h2, ?_, h8, h10⟩
  constructor
  · intro e
    rw [e] at h5
    simpa using h5.symm
  · intro e
    rw [e] at h5
    simpa using h5

/-- R21: the amount of a tariff in range. -/
theorem Tariff.inRange_amount {t : Tariff} (h : t.inRange = true) : 1 ≤ t.amount ∧ t.amount ≤ 9999 := by
  unfold Tariff.inRange at h
  simp only [Bool.and_eq_true, decide_eq_true_eq, beq_iff_eq] at h
  obtain ⟨⟨⟨⟨⟨⟨⟨⟨⟨⟨-, -⟩, -⟩, -⟩, -⟩, h6⟩, h7⟩, -⟩, -⟩, -⟩, -⟩ := h
  exact ⟨h6, h7⟩

theorem mul_ge {a b c d : Nat} (h : a ≤ c) (k : b ≤ d) : a * b ≤ c * d := Nat.mul_le_mul h k

/-- The distance threshold of a running phase is at least 10000, that of an initial one at least 1000 where it is
not 0. -/
theorem Trip.distThreshold_ge {t : Trip} (h : t.bounded) : 1000 ≤ t.distThreshold ∧
    10000 ≤ t.par.tariff.ud * t.par.k := by
  obtain ⟨h1, h2, -, h3, -⟩ := h
  have hu := mul_ge (Tariff.inRange_spec h1).2.2.1 h2
  refine ⟨?_, by omega⟩
  unfold Trip.distThreshold at *
  split at h3 <;> rename_i hd
  · rw [if_pos hd]
    omega
  · rw [if_neg hd]
    have h0 : 1 ≤ t.par.tariff.d0 := by
      by_contra e
      have : t.par.tariff.d0 = 0 := by omega
      rw [this] at h3
      omega
    have := mul_ge h0 h2
    omega

/-- R128, R131: a tick keeps a trip within its bounds. -/
theorem Trip.tick_bounded {t : Trip} (h : t.bounded) : t.tick.bounded := by
  have hd := t.distThreshold_ge h
  have h' := h
  obtain ⟨h1, h2, h3, h4, h5, h6, h7, h8, h9⟩ := h
  obtain ⟨-, -, hu, ht⟩ := Tariff.inRange_spec h1
  have hx : 0 < t.par.tariff.ut * 10 := by omega
  unfold Trip.tick
  dsimp only
  have e : ∀ a b : Nat, Trip.timeThreshold { t with atime := a, ticks := b } = t.timeThreshold := fun _ _ => rfl
  split
  · rename_i he
    rw [e] at he
    unfold Trip.timeStep
    dsimp only
    have hu' : 0 < t.par.tariff.ud * t.par.k := by omega
    unfold Trip.distThreshold Trip.timeThreshold at *
    split <;> rename_i hr
    · unfold Trip.charge Trip.addFare satAdd maxFare
      refine ⟨h1, h2, h3, ?_, ?_, Nat.min_le_left _ _, h7, h8, h9⟩
      · unfold Trip.distThreshold
        dsimp only
        by_cases hb : t.par.tariff.double = true
        · rw [if_pos hb]
          exact h4
        · rw [if_neg hb]
          omega
      · unfold Trip.timeThreshold
        dsimp only
        rw [if_pos hr]
        exact hx
    · unfold Trip.leaveByTime
      refine ⟨h1, h2, h3, ?_, ?_, h6, h7, h8, h9⟩
      · unfold Trip.distThreshold
        dsimp only
        cases hb : t.par.tariff.double <;> cases hc : t.distRunning <;> simp_all
      · unfold Trip.timeThreshold
        dsimp only
        rw [if_pos rfl]
        exact hx
  · rename_i he
    rw [e] at he
    refine ⟨h1, h2, h3, h4, ?_, h6, h7, h8, h9⟩
    rw [e]
    change t.atime + 1 < t.timeThreshold
    have he' : t.atime + 1 ≠ t.timeThreshold := he
    omega

/-- R127, R130: a pulse keeps a trip within its bounds. -/
theorem Trip.pulse_bounded {t : Trip} (h : t.bounded) : t.pulse.bounded := by
  have hd := t.distThreshold_ge h
  obtain ⟨h1, h2, h3, h4, h5, h6, h7, h8, h9⟩ := h
  obtain ⟨-, -, hu, ht⟩ := Tariff.inRange_spec h1
  have hx : 0 < t.par.tariff.ut * 10 := by omega
  unfold Trip.pulse
  dsimp only
  have e : ∀ a b : Nat, Trip.distThreshold { t with adist := a, pulses := b } = t.distThreshold := fun _ _ => rfl
  rw [e]
  split
  · rename_i he
    unfold Trip.distanceStep
    dsimp only
    rw [e]
    split <;> rename_i hr
    · unfold Trip.charge Trip.addFare satAdd maxFare
      have hdt : t.distThreshold = t.par.tariff.ud * t.par.k := by
        unfold Trip.distThreshold
        rw [if_pos hr]
      refine ⟨h1, h2, h3, ?_, ?_, Nat.min_le_left _ _, h7, h8, h9⟩
      · unfold Trip.distThreshold
        dsimp only
        rw [if_pos hr, ← hdt]
        omega
      · unfold Trip.timeThreshold at *
        dsimp only
        split <;> (split at h5 <;> split <;> simp_all <;> omega)
    · unfold Trip.leaveByDistance
      refine ⟨h1, h2, h3, ?_, ?_, h6, h7, h8, h9⟩
      · unfold Trip.distThreshold
        dsimp only
        rw [if_pos rfl]
        unfold Trip.distThreshold at *
        rw [if_neg hr] at *
        omega
      · unfold Trip.timeThreshold at *
        dsimp only
        cases hb : t.par.tariff.double <;> cases hc : t.timeRunning <;> simp_all
  · exact ⟨h1, h2, h3, by rw [e]; change t.adist + 1000 < t.distThreshold; omega, h5, h6, h7, h8, h9⟩

/-- A trip's marks, its clamped pulses and its counts have no part in its bounds. -/
theorem Trip.bounded_marks {t : Trip} (h : t.bounded) (m : Marks) (c : Nat) :
    ({ t with marks := m, clamped := c } : Trip).bounded := h

/-- R137: an extra keeps a trip within its bounds where there is room for it. -/
theorem Trip.addExtra_bounded {t : Trip} (h : t.bounded) (hx : t.extras.length < 8) (code amount : Nat) :
    (t.addExtra code amount).bounded := by
  obtain ⟨h1, h2, h3, h4, h5, h6, h7, h8, h9⟩ := h
  refine ⟨h1, h2, h3, h4, h5, Nat.min_le_left _ _, h7, h8, ?_⟩
  simp [Trip.addExtra]
  omega

/-- R136: a switch keeps a trip within its bounds where there is room for the segment. -/
theorem Trip.switchTariff_bounded {t : Trip} (h : t.bounded) (hx : t.segments.length < 4) (n : Nat) {p : Tariff}
    (hp : p.inRange = true) (now : Stamp) : (t.switchTariff n p now).bounded := by
  obtain ⟨h1, h2, h3, h4, h5, h6, h7, h8, h9⟩ := h
  obtain ⟨-, -, hu, ht⟩ := Tariff.inRange_spec hp
  have hk := mul_ge hu h2
  refine ⟨hp, h2, h3, ?_, ?_, h6, ?_, ?_, h9⟩
  · change 0 < p.ud * t.par.k
    omega
  · change 0 < p.ut * 10
    omega
  · simp [Trip.switchTariff]
  · simp [Trip.switchTariff]
    omega

/-! ### The law of the fare (R129) -/

/-- What law R129 speaks of: a trip that agrees on it keeps the law. -/
theorem Trip.lawful_of_eq {t u : Trip} (h : t.lawful) (h1 : u.opening = t.opening) (h2 : u.extras = t.extras)
    (h3 : u.extrasTotal = t.extrasTotal) (h4 : u.fare = t.fare) (h5 : u.increments = t.increments)
    (h6 : u.segments = t.segments) (h7 : u.par = t.par) (h8 : u.marks.saturated = t.marks.saturated) :
    u.lawful := by
  unfold Trip.lawful at *
  rw [h1, h2, h3, h4, h5, h6, h7, h8]
  exact h

/-- R129: an increment charged under a tariff in range. -/
theorem Trip.charge_lawful {t : Trip} (h : t.lawful) (hr : t.par.tariff.inRange = true) : t.charge.lawful := by
  obtain ⟨ha, hb⟩ := Tariff.inRange_amount hr
  obtain ⟨h1, h2, h3, c, h4, h5, h6, h7⟩ := h
  have hf : t.charge.fare = min 999999 (t.fare + t.par.tariff.amount) := rfl
  have hi : t.charge.increments = min 4294967295 (t.increments + 1) := rfl
  have hs : t.charge.marks.saturated =
      (t.marks.saturated || min 999999 (t.fare + t.par.tariff.amount) == 999999) := rfl
  refine ⟨h1, h2, ?_, c + t.par.tariff.amount, ?_, ?_, ?_, ?_⟩
  · rw [hs, hf, Bool.or_eq_true, beq_iff_eq, h3]
    omega
  · change t.charge.fare = min 999999 (t.opening + (c + t.par.tariff.amount) + t.extrasTotal)
    rw [hf, h4]
    omega
  · rw [hi]
    omega
  · rw [hi]
    omega
  · intro hn hl
    rw [hi] at hn ⊢
    have hm : min 4294967295 (t.increments + 1) = t.increments + 1 := by omega
    rw [hm, h7 (by omega) hl]
    exact (Nat.succ_mul _ _).symm

theorem Trip.pulse_lawful {t : Trip} (h : t.lawful) (hb : t.bounded) : t.pulse.lawful := by
  unfold Trip.pulse
  dsimp only
  split
  · unfold Trip.distanceStep
    dsimp only
    split
    · refine Trip.charge_lawful ?_ hb.1
      exact Trip.lawful_of_eq h rfl rfl rfl rfl rfl rfl rfl rfl
    · exact Trip.lawful_of_eq h rfl rfl rfl rfl rfl rfl rfl rfl
  · exact Trip.lawful_of_eq h rfl rfl rfl rfl rfl rfl rfl rfl

theorem Trip.tick_lawful {t : Trip} (h : t.lawful) (hb : t.bounded) : t.tick.lawful := by
  unfold Trip.tick
  dsimp only
  split
  · unfold Trip.timeStep
    dsimp only
    split
    · refine Trip.charge_lawful ?_ hb.1
      exact Trip.lawful_of_eq h rfl rfl rfl rfl rfl rfl rfl rfl
    · exact Trip.lawful_of_eq h rfl rfl rfl rfl rfl rfl rfl rfl
  · exact Trip.lawful_of_eq h rfl rfl rfl rfl rfl rfl rfl rfl

/-- R137: an extra is charged in full. -/
theorem Trip.addExtra_lawful {t : Trip} (h : t.lawful) (code amount : Nat) : (t.addExtra code amount).lawful := by
  obtain ⟨h1, h2, h3, c, h4, h5⟩ := h
  have hf : (t.addExtra code amount).fare = min 999999 (t.fare + amount) := rfl
  have hs : (t.addExtra code amount).marks.saturated =
      (t.marks.saturated || min 999999 (t.fare + amount) == 999999) := rfl
  refine ⟨?_, h2, ?_, c, ?_, h5⟩
  · simp [Trip.addExtra, h1]
  · rw [hs, hf, Bool.or_eq_true, beq_iff_eq, h3]
    omega
  · change (t.addExtra code amount).fare = min 999999 (t.opening + c + (t.extrasTotal + amount))
    rw [hf, h4]
    omega

/-- R136: a switch charges nothing; two segments are then open. -/
theorem Trip.switchTariff_lawful {t : Trip} (h : t.lawful) (hb : t.bounded) (n : Nat) (p : Tariff) (now : Stamp) :
    (t.switchTariff n p now).lawful := by
  obtain ⟨h1, h2, h3, c, h4, h5, h6, -⟩ := h
  refine ⟨h1, h2, h3, c, h4, h5, h6, fun _ hl => ?_⟩
  have hs := hb.2.2.2.2.2.2.1
  have hl : (t.segments ++ [{ tariff := n, fare := t.fare, start := now : Segment }]).length = 1 := hl
  rw [List.length_append, List.length_singleton] at hl
  omega

/-! ### A valid working copy (R22) -/

theorem checks_pass {m : Memory} (h : firstFailing m = none) : ∀ c ∈ settingsChecks m, c.2 = true := by
  unfold firstFailing at h
  rw [Option.map_eq_none_iff, List.find?_eq_none] at h
  intro c hc
  simpa using h c hc

theorem readTariff_sound {m : Memory} {n : Nat} (h : ∀ c ∈ tariffChecks m n, c.2 = true) :
    (readTariff m n).sound := by
  intro he
  unfold readTariff at *
  dsimp only at he
  rw [beq_iff_eq] at he
  unfold tariffChecks at h
  dsimp only at h
  rw [if_neg (by rw [he]; simp)] at h
  simp only [List.mem_cons, List.not_mem_nil, or_false, forall_eq_or_imp, forall_eq, within, Bool.and_eq_true,
    decide_eq_true_eq, beq_iff_eq] at h
  unfold Tariff.inRange
  simp only [Bool.and_eq_true, decide_eq_true_eq, beq_iff_eq]
  obtain ⟨-, a1, a2, a3, a4, a5, a6, a7⟩ := h
  exact ⟨⟨⟨⟨⟨⟨⟨⟨⟨⟨a1, a2⟩, a3⟩, a4.1⟩, a4.2⟩, a5.1⟩, a5.2⟩, a6.1⟩, a6.2⟩, a7.1⟩, a7.2⟩

/-- R22: a Settings Block that passes reads as a valid working copy. -/
theorem readSettings_sound {m : Memory} (h : firstFailing m = none) : (readSettings m).sound := by
  have hc := checks_pass h
  unfold settingsChecks at hc
  have g : ∀ c ∈ [(0x04, within 1000 50000 (field2 m 0x04)), (0x06, within 60 300 (field2 m 0x06))],
      c.2 = true := fun c hm => hc c (by simp at hm ⊢; tauto)
  simp [within] at g
  have t1 : ∀ c ∈ tariffChecks m 1, c.2 = true := fun c hm => hc c (by simp [hm])
  have t2 : ∀ c ∈ tariffChecks m 2, c.2 = true := fun c hm => hc c (by simp [hm])
  have t3 : ∀ c ∈ tariffChecks m 3, c.2 = true := fun c hm => hc c (by simp [hm])
  have t4 : ∀ c ∈ tariffChecks m 4, c.2 = true := fun c hm => hc c (by simp [hm])
  refine ⟨g.1.1, g.1.2, g.2.1, g.2.2, ?_, readTariff_sound t1, readTariff_sound t2, readTariff_sound t3,
    readTariff_sound t4⟩
  have := t1 (tariffBase 1, field1 m (tariffBase 1) == 1) (by
    unfold tariffChecks
    simp)
  exact this

/-- R122: an enabled tariff of a valid working copy is in range. -/
theorem tariffEnabled_inRange {w : Settings} (h : w.sound) {n : Nat} (he : tariffEnabled w n = true) :
    (w.tariff n).inRange = true := by
  obtain ⟨-, -, -, -, -, h1, h2, h3, h4⟩ := h
  unfold tariffEnabled within at he
  simp only [Bool.and_eq_true, decide_eq_true_eq] at he
  obtain ⟨⟨ha, hb⟩, he⟩ := he
  match n, ha, hb with
  | 1, _, _ => exact h1 he
  | 2, _, _ => exact h2 he
  | 3, _, _ => exact h3 he
  | 4, _, _ => exact h4 he

/-! ### Effects -/

/-- R129: the law of the open trip. -/
def State.openLaw (s : State) : Prop := s.fare.meter ≠ .vacant → s.fare.trip.lawful

/-- A sound working copy and a bounded trip stay so, and the trip keeps law R129. -/
def KeepsFare (s t : State) : Prop := s.fareSound → t.fareSound ∧ (s.openLaw → t.openLaw)

theorem KeepsFare.refl (s : State) : KeepsFare s s := fun q => ⟨q, id⟩

theorem KeepsFare.trans {s t u : State} (h : KeepsFare s t) (k : KeepsFare t u) : KeepsFare s u := fun q =>
  ⟨(k (h q).1).1, fun l => (k (h q).1).2 ((h q).2 l)⟩

theorem KeepsFare.ite {s t u : State} {c : Prop} [Decidable c] (h : KeepsFare s t) (k : KeepsFare s u) :
    KeepsFare s (if c then t else u) := by
  split <;> assumption

theorem fareSound_of_eq {s t : State} (h : s.fareSound) (h1 : t.settings.working = s.settings.working)
    (h2 : t.fare.meter = s.fare.meter) (h3 : t.fare.trip = s.fare.trip) : t.fareSound := by
  unfold State.fareSound at *
  rw [h1, h2, h3]
  exact h

theorem keepsFare_of_eq {s t : State} (h1 : t.settings.working = s.settings.working)
    (h2 : t.fare.meter = s.fare.meter) (h3 : t.fare.trip = s.fare.trip) : KeepsFare s t := fun q =>
  ⟨fareSound_of_eq q h1 h2 h3, fun l => by
    unfold State.openLaw at *
    rwa [h2, h3]⟩

theorem Frame.keepsFare {a : List Part} {p : Nat → Prop} {s t : State} (f : Frame a p s t) (h : Part.fare ∉ a)
    (h' : Part.settings ∉ a) : KeepsFare s t :=
  keepsFare_of_eq (by rw [f.settings h']) (by rw [f.fare h]) (by rw [f.fare h])

theorem KeepsFare.completing {s t : State} (h : KeepsFare s t) (i : Slot) (o : ReqOutcome) (d : Nat) :
    KeepsFare s (completeRequest i o d t) :=
  h.trans ((completeRequest_frame i o d t).keepsFare (by decide) (by decide))

theorem completeRequest_keepsFare (i : Slot) (o : ReqOutcome) (d : Nat) (s : State) :
    KeepsFare s (completeRequest i o d s) := (KeepsFare.refl s).completing i o d

theorem takeHead_keepsFare {judge : Slot → State → State} (h : ∀ i t, t.running = true → KeepsFare t (judge i t))
    (s : State) : KeepsFare s (takeHead judge s) := by
  cases ho : s.port.order with
  | nil =>
    unfold takeHead
    rw [ho]
    exact .refl s
  | cons i rest =>
    rw [takeHead_eq ho]
    have ht : KeepsFare s (s.taken rest) := (taken_frame s rest).keepsFare (by decide) (by decide)
    split
    · rename_i hr
      exact ht.trans (h i _ hr)
    · exact ht.completing _ _ _

/-- A change of the Fare Meter that leaves the meter state and the trip alone. -/
theorem fareOther_keepsFare {f : FareMeter} {s : State} (h : f.meter = s.fare.meter) (h' : f.trip = s.fare.trip) :
    KeepsFare s { s with fare := f } := keepsFare_of_eq rfl h h'

/-- A change of an open trip alone. -/
theorem fareTrip_keepsFare {t : Trip} {s : State}
    (h : s.fare.meter ≠ .vacant → s.fareSound → s.fare.trip.bounded → t.bounded ∧ (s.fare.trip.lawful → t.lawful)) :
    KeepsFare s { s with fare := { s.fare with trip := t } } := fun q =>
  ⟨⟨q.1, fun hm => (h hm q (q.2 hm)).1⟩, fun l hm => (h hm q (q.2 hm)).2 (l hm)⟩

theorem openShift_keepsFare (s : State) : KeepsFare s (openShift s) := by
  unfold openShift
  refine KeepsFare.trans ?_ ((statusTrigger_frame _).keepsFare (by decide) (by decide))
  exact keepsFare_of_eq rfl rfl rfl

theorem closeShift_keepsFare (p : Slot) (s : State) : KeepsFare s (closeShift p s) := by
  unfold closeShift
  dsimp only
  have h := (postRecord_frame p (.shift (shiftRecord s.fare s.cycle.fleet)) s).keepsFare (by decide) (by decide)
  generalize postRecord p (.shift (shiftRecord s.fare s.cycle.fleet)) s = t at h
  refine (h.trans (fareOther_keepsFare (f := { t.fare with duty := .off }) rfl rfl)).trans ?_
  exact ((closeOffDuty_frame _).then (statusTrigger_frame _)).keepsFare (by decide) (by decide)

theorem dutyOff_keepsFare (i : Slot) (s : State) : KeepsFare s (dutyOff i s) := by
  unfold dutyOff
  split
  · exact completeRequest_keepsFare _ _ _ s
  · split
    · exact completeRequest_keepsFare _ _ _ s
    · exact (closeShift_keepsFare _ s).completing _ _ _

theorem meterChanged_keepsFare (s : State) : KeepsFare s (meterChanged s) :=
  (meterChanged_frame s).keepsFare (by decide) (by decide)

/-- R148: a change between HIRED and STOPPED. -/
theorem meterMoves_keepsFare {a b : MeterState} (s : State) (h : s.fare.meter = a) (ha : a ≠ .vacant) :
    KeepsFare s (meterChanged { s with fare := { s.fare with meter := b } }) := by
  refine KeepsFare.trans (fun q => ?_) (meterChanged_keepsFare _)
  exact ⟨⟨q.1, fun _ => q.2 (h ▸ ha)⟩, fun l _ => l (h ▸ ha)⟩

theorem meterStop_keepsFare (i : Slot) (s : State) : KeepsFare s (meterStop i s) := by
  unfold meterStop
  split
  · rename_i h
    exact (meterMoves_keepsFare s h (by decide)).completing _ _ _
  · exact completeRequest_keepsFare _ _ _ s

theorem meterResume_keepsFare (i : Slot) (s : State) : KeepsFare s (meterResume i s) := by
  unfold meterResume
  split
  · rename_i h
    exact (meterMoves_keepsFare s h (by decide)).completing _ _ _
  · exact completeRequest_keepsFare _ _ _ s

/-- R126: a trip opened under an enabled tariff is within its bounds. -/
theorem openTrip_bounded {s : State} (q : s.fareSound) {n : Nat} (h : tariffEnabled s.working n = true) :
    (openTrip n s).bounded := by
  cases hw : s.settings.working with
  | none =>
    have e : s.working = {} := by
      unfold State.working
      rw [hw]
      rfl
    rw [e] at h
    unfold tariffEnabled within at h
    simp only [Bool.and_eq_true, decide_eq_true_eq] at h
    obtain ⟨⟨ha, hb⟩, he⟩ := h
    match n, ha, hb with
    | 1, _, _ => cases he
    | 2, _, _ => cases he
    | 3, _, _ => cases he
    | 4, _, _ => cases he
  | some w =>
    have e : s.working = w := by
      unfold State.working
      rw [hw]
      rfl
    have hs := q.1 w hw
    rw [e] at h
    have hr := tariffEnabled_inRange hs h
    obtain ⟨hf, h0, hu, ht⟩ := Tariff.inRange_spec hr
    have hk := mul_ge hu hs.1
    unfold openTrip
    rw [e]
    refine ⟨hr, hs.1, hs.2.1, ?_, ?_, ?_, ?_, ?_, ?_⟩
    · unfold Trip.distThreshold
      dsimp only
      by_cases hi : (w.tariff n).hasInitial = false
      · rw [if_pos (by rw [hi]; rfl)]
        omega
      · rw [if_neg (by simpa using hi)]
        unfold Tariff.hasInitial at hi
        simp only [Bool.not_eq_false, Bool.and_eq_true, bne_iff_ne] at hi
        have := mul_ge (Nat.one_le_iff_ne_zero.2 hi.1) hs.1
        omega
    · unfold Trip.timeThreshold
      dsimp only
      by_cases hi : (w.tariff n).hasInitial = false
      · rw [if_pos (by rw [hi]; rfl)]
        omega
      · rw [if_neg (by simpa using hi)]
        unfold Tariff.hasInitial at hi
        simp only [Bool.not_eq_false, Bool.and_eq_true, bne_iff_ne] at hi
        omega
    · change (w.tariff n).flagFall ≤ 999999
      omega
    · exact Nat.le_refl 1
    · change 1 ≤ 4
      omega
    · exact Nat.zero_le _

/-- R126, R129: a trip opens at its flag fall. -/
theorem openTrip_lawful {s : State} (q : s.fareSound) {n : Nat} (h : tariffEnabled s.working n = true) :
    (openTrip n s).lawful := by
  have hf := (Tariff.inRange_spec (openTrip_bounded q h).1).1
  have e : (openTrip n s).par.tariff = s.working.tariff n := rfl
  rw [e] at hf
  refine ⟨rfl, hf, ?_, 0, ?_, Nat.le_refl 0, fun _ => Nat.zero_le _, fun _ _ => (Nat.zero_mul _).symm⟩
  · change false = true ↔ (s.working.tariff n).flagFall = 999999
    constructor
    · intro h
      cases h
    · intro h
      omega
  · change (s.working.tariff n).flagFall = min 999999 ((s.working.tariff n).flagFall + 0 + 0)
    omega

theorem hire_keepsFare {n : Nat} (s : State) (h : tariffEnabled s.working n = true) : KeepsFare s (hire n s) := by
  unfold hire
  dsimp only
  refine KeepsFare.trans (fun q => ?_) (meterChanged_keepsFare _)
  have k := (forgetRemainder_frame (kInForce s.fare s.settings.working) { startJob s with
    fare := { (startJob s).fare with
      meter := .hired, trip := openTrip n s, nextTrip := wrapNext 65535 1 (startJob s).fare.nextTrip } }).keepsFare
    (by decide) (by decide) ⟨?_, fun _ => openTrip_bounded q h⟩
  · exact ⟨k.1, fun _ => k.2 fun _ => openTrip_lawful q h⟩
  · rw [show (({ startJob s with fare := _ } : State)).settings = s.settings from
      (startJob_frame s).settings (by decide)]
    exact q.1

theorem meterHire_keepsFare (i : Slot) (s : State) : KeepsFare s (meterHire i s) := by
  unfold meterHire
  dsimp only
  split
  · exact completeRequest_keepsFare _ _ _ s
  · split
    · exact completeRequest_keepsFare _ _ _ s
    · split
      · exact completeRequest_keepsFare _ _ _ s
      · rename_i h
        exact (hire_keepsFare s (by simpa using (not_or.1 h).2)).completing _ _ _

theorem closeTrip_keepsFare (s : State) : KeepsFare s (closeTrip s) := by
  unfold closeTrip
  refine KeepsFare.trans (fun q => ?_) (meterChanged_keepsFare _)
  have k := (forgetRemainder_frame (kInForce s.fare s.settings.working) { s with
    fare := { s.fare with meter := .vacant, trip := {} } }).keepsFare (by decide) (by decide)
    ⟨q.1, fun h => absurd rfl h⟩
  exact ⟨k.1, fun _ => k.2 fun h => absurd rfl h⟩

theorem meterClear_keepsFare (i : Slot) (s : State) : KeepsFare s (meterClear i s) := by
  unfold meterClear
  split
  · exact completeRequest_keepsFare _ _ _ s
  · split
    · exact completeRequest_keepsFare _ _ _ s
    · rename_i p _
      dsimp only
      refine KeepsFare.completing ?_ _ _ _
      have h := (postRecord_frame p (.trip (tripRecord s.fare.trip s.cycle.fleet)) s).keepsFare (by decide)
        (by decide)
      generalize postRecord p (.trip (tripRecord s.fare.trip s.cycle.fleet)) s = t at h
      generalize tripRecord s.fare.trip s.cycle.fleet = r
      have k : KeepsFare t (addTripToShift r t) := KeepsFare.ite (fareOther_keepsFare (by rfl) (by rfl)) (.refl t)
      exact (h.trans k).trans (closeTrip_keepsFare _)

theorem working_sound {s : State} (q : s.fareSound) {n : Nat} (h : tariffEnabled s.working n = true) :
    (s.working.tariff n).inRange = true := (openTrip_bounded q h).1

theorem selectTariff_keepsFare (i : Slot) (s : State) : KeepsFare s (selectTariff i s) := by
  unfold selectTariff
  dsimp only
  split
  · exact completeRequest_keepsFare _ _ _ s
  · rename_i he
    split
    · exact (fareOther_keepsFare (by rfl) (by rfl)).completing _ _ _
    · split
      · exact completeRequest_keepsFare _ _ _ s
      · rename_i hl
        refine KeepsFare.completing (fareTrip_keepsFare fun _ q hb => ?_) _ _ _
        exact ⟨Trip.switchTariff_bounded hb (by omega) _ (working_sound q (by simpa using he)) _,
          fun l => Trip.switchTariff_lawful l hb _ _ _⟩

theorem addExtra_keepsFare (i : Slot) (s : State) : KeepsFare s (addExtra i s) := by
  unfold addExtra
  dsimp only
  split
  · exact completeRequest_keepsFare _ _ _ s
  · split
    · exact completeRequest_keepsFare _ _ _ s
    · split
      · exact completeRequest_keepsFare _ _ _ s
      · rename_i hl
        refine KeepsFare.completing (fareTrip_keepsFare fun _ _ hb => ?_) _ _ _
        exact ⟨Trip.addExtra_bounded hb (by omega) _ _, fun l => Trip.addExtra_lawful l _ _⟩

theorem changeSettings_keepsFare {w : Settings} (hw : w.sound) (s : State) : KeepsFare s (changeSettings w s) := by
  have h : KeepsFare s (adoptSettings w s) := by
    unfold adoptSettings
    dsimp only
    refine KeepsFare.trans (fun q => ?_) (((forgetRemainder_frame _ _).then (judgeLamp_frame _)).keepsFare
      (by decide) (by decide))
    refine ⟨⟨fun v hv => ?_, q.2⟩, id⟩
    have e : w = v := Option.some.inj hv
    exact e ▸ hw
  unfold changeSettings
  dsimp only
  split
  · exact h.trans ((reportFeed_frame _).keepsFare (by decide) (by decide))
  · exact h

theorem replaceSettings_keepsFare (i : Slot) (s : State) : KeepsFare s (replaceSettings i s) := by
  unfold replaceSettings
  split
  · exact completeRequest_keepsFare _ _ _ s
  · split
    · exact completeRequest_keepsFare _ _ _ s
    · rename_i h
      exact (changeSettings_keepsFare (readSettings_sound h) s).completing _ _ _

theorem runWrite_keepsFare (s : State) : KeepsFare s (runWrite s) := by
  unfold runWrite
  refine KeepsFare.trans ?_ (((rewritePart_frame _).then (setNews_frame .settings _)).keepsFare (by decide) (by decide))
  split
  · exact keepsFare_of_eq rfl rfl rfl
  · rename_i hf
    unfold enterRunning eitherOrder
    dsimp only
    have h : KeepsFare s (takeUpSettings (readSettings s.ram) s) := by
      intro q
      refine ⟨⟨fun v hv => ?_, q.2⟩, id⟩
      have e : readSettings s.ram = v := Option.some.inj hv
      exact e ▸ readSettings_sound hf
    generalize takeUpSettings (readSettings s.ram) s = t at h
    exact h.trans ((((statusTrigger_frame t).then (reportFeed_frame _)).then (queueFree_frame _ _ _)).keepsFare
      (by decide) (by decide))

theorem controlWrite_keepsFare (s : State) : KeepsFare s (controlWrite s) :=
  ((softReset_frame s).keepsFare (by decide) (by decide)).ite (runWrite_keepsFare s)

theorem hostWrite_keepsFare (off : Nat) (v : Word) (s : State) : KeepsFare s (hostWrite off v s) := by
  unfold hostWrite
  split
  · exact (storeWord_frame _ _ s).keepsFare (by decide) (by decide)
  · exact (positionWrite_frame _ _ s).keepsFare (by decide) (by decide)
  · exact (exchangeFault_frame _ s).keepsFare (by decide) (by decide)
  · exact (exchangeFault_frame _ s).keepsFare (by decide) (by decide)
  · exact ((requestHand_frame _ _ s).keepsFare (by decide) (by decide)).ite
      ((slotDataWrite_frame _ _ _ s).keepsFare (by decide) (by decide))
  · exact ((boxHand_frame _ _ s).keepsFare (by decide) (by decide)).ite
      ((slotDataWrite_frame _ _ _ s).keepsFare (by decide) (by decide))
  · exact ((recordHand_frame _ _ s).keepsFare (by decide) (by decide)).ite
      ((slotDataWrite_frame _ _ _ s).keepsFare (by decide) (by decide))
  · exact controlWrite_keepsFare s
  · exact (maskWrite_frame _ s).keepsFare (by decide) (by decide)
  · exact .refl s
  · exact .refl s
  · exact .refl s

theorem shiftPulse_keepsFare (s : State) : KeepsFare s (shiftPulse s) := by
  unfold shiftPulse
  dsimp only
  split <;> exact keepsFare_of_eq rfl rfl rfl

theorem countedPulse_keepsFare (s : State) : KeepsFare s (countedPulse s) := by
  unfold countedPulse
  split
  · exact KeepsFare.trans (t := { s with fare := { s.fare with trip := s.fare.trip.pulse } })
      (fareTrip_keepsFare fun _ _ hb => ⟨Trip.pulse_bounded hb, fun l => Trip.pulse_lawful l hb⟩) (shiftPulse_keepsFare _)
  · exact shiftPulse_keepsFare s

theorem clampedPulse_keepsFare (s : State) : KeepsFare s (clampedPulse s) := by
  unfold clampedPulse
  split
  · exact .refl s
  · exact fareTrip_keepsFare fun _ _ hb =>
      ⟨Trip.bounded_marks hb _ _, fun l => Trip.lawful_of_eq l rfl rfl rfl rfl rfl rfl rfl rfl⟩

theorem distancePulse_keepsFare (s : State) : KeepsFare s (distancePulse s) := by
  have h : ∀ u : State → State, (∀ t, KeepsFare t (u t)) →
      KeepsFare s (u { s with limiter := { s.limiter with window := s.limiter.window + 1 } }) := fun u hu =>
    ((limiter_frame _ s).keepsFare (by decide) (by decide)).trans (hu _)
  unfold distancePulse
  dsimp only
  split
  · exact h id KeepsFare.refl
  · split
    · exact h countedPulse countedPulse_keepsFare
    · exact h clampedPulse clampedPulse_keepsFare

theorem meterTick_keepsFare (s : State) : KeepsFare s (meterTick s) := by
  unfold meterTick
  dsimp only
  split
  · exact KeepsFare.trans ((due_frame _ s).keepsFare (by decide) (by decide))
      (fareTrip_keepsFare fun _ _ hb => ⟨Trip.tick_bounded hb, fun l => Trip.tick_lawful l hb⟩)
  · exact (due_frame _ s).keepsFare (by decide) (by decide)

theorem Marks.add_saturated (k : Marks) (m : Mark) : (k.add m).saturated = k.saturated := by cases m <;> rfl

theorem setMark_keepsFare (m : Mark) (s : State) : KeepsFare s (setMark m s) := by
  unfold setMark
  split
  · exact .refl s
  · refine KeepsFare.trans ?_ ((rewriteMeter_frame _).keepsFare (by decide) (by decide))
    exact fareTrip_keepsFare fun _ _ hb => ⟨Trip.bounded_marks hb _ s.fare.trip.clamped,
      fun l => Trip.lawful_of_eq l rfl rfl rfl rfl rfl rfl rfl (Marks.add_saturated _ m)⟩

theorem addToShift_keepsFare (a : Addition) (s : State) : KeepsFare s (addToShift a s) :=
  KeepsFare.ite (fareOther_keepsFare (by rfl) (by rfl)) (.refl s)

theorem markTaken_keepsFare (s : State) : KeepsFare s (markTaken s) := by
  unfold markTaken
  split
  · exact .refl s
  · rename_i m rest _
    exact ((mail_frame { s.mail with marks := rest } s).keepsFare (by decide) (by decide)).trans
      (setMark_keepsFare m _)

theorem additionTaken_keepsFare (s : State) : KeepsFare s (additionTaken s) := by
  unfold additionTaken
  split
  · exact .refl s
  · rename_i a rest _
    exact ((mail_frame { s.mail with additions := rest } s).keepsFare (by decide) (by decide)).trans
      (addToShift_keepsFare a _)

theorem fareTakesEmergency_keepsFare (s : State) : KeepsFare s (fareTakesEmergency s) := by
  unfold fareTakesEmergency
  dsimp only
  have h : KeepsFare s (if s.mail.marks.contains .emergency then
      setMark .emergency { s with mail := { s.mail with marks := s.mail.marks.erase .emergency } } else s) :=
    KeepsFare.ite (((mail_frame _ s).keepsFare (by decide) (by decide)).trans (setMark_keepsFare _ _)) (.refl s)
  generalize (if s.mail.marks.contains .emergency then
      setMark .emergency { s with mail := { s.mail with marks := s.mail.marks.erase .emergency } } else s) = t at h
  exact h.trans (KeepsFare.ite
    (((mail_frame _ t).keepsFare (by decide) (by decide)).trans (addToShift_keepsFare _ _)) (.refl t))

theorem takesChange_keepsFare (n : Neighbour) (s : State) : KeepsFare s (takesChange n s) := by
  cases n
  · exact (gateTakesChange_frame s).keepsFare (by decide) (by decide)
  · exact fareTakesEmergency_keepsFare s
  · exact (lampTakesChange_frame s).keepsFare (by decide) (by decide)

theorem changeTaken_keepsFare (s : State) : KeepsFare s (changeTaken s) := by
  obtain ⟨-, h⟩ | ⟨n, -, h⟩ := changeTaken_cases s
  · rw [h]; exact .refl s
  · rw [h]; exact ((free_frame _ s).keepsFare (by decide) (by decide)).trans (takesChange_keepsFare n _)

/-- Every effect keeps an open trip within its bounds and under law R129. -/
theorem effect_keepsFare (c : Instr) (s : State) : KeepsFare s (effect c s) := by
  have own : ∀ {a : List Part} {p : Nat → Prop} {u : State}, Frame a p (takenByOwner s) u → Part.fare ∉ a →
      Part.settings ∉ a → KeepsFare s u := fun f h k =>
    ((takenByOwner_frame s).keepsFare (by decide) (by decide)).trans (f.keepsFare h k)
  unfold effect
  split
  · exact .refl s
  · exact .refl s
  · exact .refl s
  · exact hostWrite_keepsFare _ _ s
  · exact hostWrite_keepsFare _ _ s
  · exact (positionWrite_frame _ _ s).keepsFare (by decide) (by decide)
  · exact (requestHand_frame _ _ s).keepsFare (by decide) (by decide)
  · exact (boxHand_frame _ _ s).keepsFare (by decide) (by decide)
  · exact (recordHand_frame _ _ s).keepsFare (by decide) (by decide)
  · exact (readAttention_frame s).keepsFare (by decide) (by decide)
  · exact (maskWrite_frame _ s).keepsFare (by decide) (by decide)
  · exact controlWrite_keepsFare s
  · exact controlWrite_keepsFare s
  · exact hostWrite_keepsFare _ _ s
  · exact takeHead_keepsFare (fun i t _ => completeRequest_keepsFare i .badRequest 0 t) s
  · exact takeHead_keepsFare (fun i t _ => (completeRequest_keepsFare _ _ _ t).ite
      ((openShift_keepsFare t).completing i _ _)) s
  · exact takeHead_keepsFare (fun i t _ => dutyOff_keepsFare i t) s
  · exact takeHead_keepsFare (fun i t _ => (setZone_frame i t).keepsFare (by decide) (by decide)) s
  · exact takeHead_keepsFare (fun i t _ =>
      ((statusTrigger_frame t).keepsFare (by decide) (by decide)).completing i .done 0) s
  · exact takeHead_keepsFare (fun i t _ => meterHire_keepsFare i t) s
  · exact takeHead_keepsFare (fun i t _ => meterStop_keepsFare i t) s
  · exact takeHead_keepsFare (fun i t _ => meterResume_keepsFare i t) s
  · exact takeHead_keepsFare (fun i t _ => meterClear_keepsFare i t) s
  · exact takeHead_keepsFare (fun i t _ => selectTariff_keepsFare i t) s
  · exact takeHead_keepsFare (fun i t _ => addExtra_keepsFare i t) s
  · exact takeHead_keepsFare (fun i t _ => (acceptOffer_frame i t).keepsFare (by decide) (by decide)) s
  · exact takeHead_keepsFare (fun i t _ => (declineOffer_frame i t).keepsFare (by decide) (by decide)) s
  · exact takeHead_keepsFare (fun i t _ => (resumeOffers_frame i t).keepsFare (by decide) (by decide)) s
  · exact takeHead_keepsFare (fun i t _ => (sendMessage_frame i t).keepsFare (by decide) (by decide)) s
  · exact takeHead_keepsFare (fun i t _ => ((trigger_frame .host t).keepsFare (by decide) (by decide)).completing
      i _ _) s
  · exact takeHead_keepsFare (fun i t _ => replaceSettings_keepsFare i t) s
  · exact takeHead_keepsFare (fun i t _ => KeepsFare.completing (((link_frame _ t).then
      (rewriteLink_frame _)).keepsFare (by decide) (by decide)) i .done 0) s
  · exact (headerTaken_frame _ s).keepsFare (by decide) (by decide)
  · exact (receiveBits_frame _ s).keepsFare (by decide) (by decide)
  · exact (frameEnded_frame _ _ s).keepsFare (by decide) (by decide)
  · exact (clockLost_frame s).keepsFare (by decide) (by decide)
  · split
    · exact ((free_frame _ s).then (takeBeacon_frame _ _ _ _ _ _ _ _)).keepsFare (by decide) (by decide)
    · exact .refl s
  · exact (((takenByLink_frame s).then (link_frame _ _)).then (relink_frame _)).keepsFare (by decide) (by decide)
  · split
    · exact own (takeOffer_frame _ _ _) (by decide) (by decide)
    · exact .refl s
  · split
    · exact own (takeAward_frame _ _ _) (by decide) (by decide)
    · exact .refl s
  · split
    · exact own (takeWithdraw_frame _ _) (by decide) (by decide)
    · exact .refl s
  · split
    · exact own (takeMessage_frame _ _) (by decide) (by decide)
    · exact .refl s
  · split
    · exact own (takeAck_frame _ _) (by decide) (by decide)
    · exact .refl s
  · exact own (takeClear_frame _) (by decide) (by decide)
  · split
    · exact own (suspendCab_frame _ _ _) (by decide) (by decide)
    · exact .refl s
  · exact own (resumeCab_frame _) (by decide) (by decide)
  · split
    · exact (missBeacon_frame _ s).keepsFare (by decide) (by decide)
    · exact .refl s
  · exact (startSlot_frame s).keepsFare (by decide) (by decide)
  · exact (tx_frame _ s).keepsFare (by decide) (by decide)
  · exact ((tx_frame _ s).then (mail_frame _ _)).keepsFare (by decide) (by decide)
  · exact (cutSending_frame _ s).keepsFare (by decide) (by decide)
  · exact (sendReportTaken_frame s).keepsFare (by decide) (by decide)
  · split
    · exact ((mail_frame _ s).then (linkTakesOutcome_frame _ _ _)).keepsFare (by decide) (by decide)
    · exact .refl s
  · split
    · exact ((mail_frame _ s).then (loggedChange_frame _ _)).keepsFare (by decide) (by decide)
    · exact .refl s
  · exact ((mail_frame _ s).then (loggedChange_frame _ _)).keepsFare (by decide) (by decide)
  · exact (((mail_frame _ s).then (link_frame _ _)).then (relink_frame _)).keepsFare (by decide) (by decide)
  · exact (queueOutcomeTaken_frame s).keepsFare (by decide) (by decide)
  · exact (statusExpired_frame s).keepsFare (by decide) (by decide)
  · exact (undeliveredTaken_frame s).keepsFare (by decide) (by decide)
  · exact (sendNoticeTaken_frame s).keepsFare (by decide) (by decide)
  · exact (reportDoneTaken_frame s).keepsFare (by decide) (by decide)
  · exact (deadlineExpired_frame _ s).keepsFare (by decide) (by decide)
  · exact (unanswered_frame _ s).keepsFare (by decide) (by decide)
  · exact (endSuspension_frame s).keepsFare (by decide) (by decide)
  · exact (chime_frame _ s).keepsFare (by decide) (by decide)
  · exact meterTick_keepsFare s
  · exact distancePulse_keepsFare s
  · exact ((due_frame _ s).then (startWindow_frame _)).keepsFare (by decide) (by decide)
  · exact markTaken_keepsFare s
  · exact additionTaken_keepsFare s
  · exact (reminderExpired_frame s).keepsFare (by decide) (by decide)
  · exact (inputSample_frame _ s).keepsFare (by decide) (by decide)
  · exact changeTaken_keepsFare s
  · exact (callOutcomeTaken_frame s).keepsFare (by decide) (by decide)
  · exact (trackingExpired_frame s).keepsFare (by decide) (by decide)
  · exact (supplySample_frame _ s).keepsFare (by decide) (by decide)
  · exact (timeTick_frame s).keepsFare (by decide) (by decide)
  · exact (inputSample_frame _ s).keepsFare (by decide) (by decide)
  · exact (receiveBits_frame _ s).keepsFare (by decide) (by decide)
  · exact (headerTaken_frame _ s).keepsFare (by decide) (by decide)
  · exact (backToHunt_frame s).keepsFare (by decide) (by decide)

end Sys2Proof.Machine
end

