-- ==== Sys2Proof/Laws/PowerOn.lean ====
section
/-! SUPPORT. The exchange RAM as power-on leaves it (R18, R19): its canonical form, its hands, and its blocks. -/

namespace Sys2Proof.Machine

/-- Bases whose hand words do not overlap. -/
def Apart {α : Type} (base : α → Nat) : Prop := ∀ i j, i ≠ j → base i + 2 ≤ base j ∨ base j + 2 ≤ base i

theorem request_apart : Apart requestBase := by
  intro i j h
  have := Fin.val_ne_of_ne h
  unfold requestBase
  omega

theorem board_apart : Apart boardBase := by
  intro i j h
  have := Fin.val_ne_of_ne h
  unfold boardBase
  omega

theorem box_apart : Apart boxBase := by
  intro i j h
  have := Fin.val_ne_of_ne h
  unfold boxBase
  omega

theorem wf_writeHands {α : Type} (base : α → Nat) (h : Byte) (is : List α) {m : Memory}
    (hm : Memory.wf m = true) : Memory.wf (writeHands base h is m) = true := by
  unfold writeHands
  induction is generalizing m with
  | nil => exact hm
  | cons i is ih => exact ih (Memory.wf_write hm _ _)

theorem get_writeHands_other {α : Type} (base : α → Nat) (h : Byte) (is : List α) (m : Memory) (a : Nat)
    (ha : ∀ i ∈ is, ¬ bytesAt (base i) 2 a) : Memory.get (writeHands base h is m) a = Memory.get m a := by
  unfold writeHands
  induction is generalizing m with
  | nil => rfl
  | cons i is ih =>
    rw [List.foldl_cons, ih _ fun j hj => ha j (List.mem_cons_of_mem _ hj)]
    apply Memory.get_write_other
    have := ha i List.mem_cons_self
    unfold bytesAt at this
    rw [handWord_length]
    omega

theorem hand_write {m : Memory} (hm : Memory.wf m = true) (a : Nat) (h : Byte) :
    handAt (Memory.write m a (handWord h)) a = h := by
  have e := Memory.get_write_same hm a (handWord h) 0 (by rw [handWord_length]; decide)
  rw [Nat.add_zero] at e
  exact e

theorem hand_writeHands {α : Type} [DecidableEq α] {base : α → Nat} (hb : Apart base) (h : Byte) (is : List α)
    {m : Memory} (hm : Memory.wf m = true) {i : α} (hi : i ∈ is) :
    handAt (writeHands base h is m) (base i) = h := by
  induction is generalizing m with
  | nil => cases hi
  | cons j is ih =>
    change handAt (writeHands base h is (Memory.write m (base j) (handWord h))) (base i) = h
    by_cases hm' : i ∈ is
    · exact ih (Memory.wf_write hm _ _) hm'
    · have hj : i = j := by
        cases hi with
        | head => rfl
        | tail _ k => exact absurd k hm'
      subst hj
      unfold handAt
      rw [get_writeHands_other]
      · exact hand_write hm _ _
      · intro k hk
        have hne : k ≠ i := fun e => hm' (e ▸ hk)
        have := hb k i hne
        unfold bytesAt
        omega

/-! ### The fare record slots -/

/-- One fare record slot at power-on. -/
def recordAtPowerOn (st : RecordStore) (i : Slot) (m : Memory) : Memory :=
  match pick st.places i with
  | some h =>
    if h.collected then Memory.write m (recordBase i) (handWord handCtl) else presentRecord i h m
  | none => Memory.write m (recordBase i) (handWord handCtl)

theorem writeRecordSlots_eq (st : RecordStore) (m : Memory) :
    writeRecordSlots st m = slots16.foldl (fun m i => recordAtPowerOn st i m) m := rfl

theorem wf_recordAtPowerOn (st : RecordStore) (i : Slot) {m : Memory} (hm : Memory.wf m = true) :
    Memory.wf (recordAtPowerOn st i m) = true := by
  unfold recordAtPowerOn
  split
  · split
    · exact Memory.wf_write hm _ _
    · exact wf_presentRecord hm _ _
  · exact Memory.wf_write hm _ _

theorem get_recordAtPowerOn_other (st : RecordStore) (i : Slot) (m : Memory) (a : Nat)
    (ha : ¬ recordBytes i a) : Memory.get (recordAtPowerOn st i m) a = Memory.get m a := by
  have h2 : a < recordBase i ∨ recordBase i + (handWord handCtl).length ≤ a := by
    unfold recordBytes bytesAt at ha
    rw [handWord_length]
    omega
  unfold recordAtPowerOn
  split
  · split
    · exact Memory.get_write_other _ _ _ _ h2
    · exact get_presentRecord_other _ _ _ _ ha
  · exact Memory.get_write_other _ _ _ _ h2

/-- R6, R154: a record presented stands at hand APP. -/
theorem hand_presentRecord {m : Memory} (hm : Memory.wf m = true) (i : Slot) (h : HeldRecord) :
    handAt (presentRecord i h m) (recordBase i) = handApp := by
  unfold presentRecord
  exact hand_write ((writeRuns_frame _ _ _ fun r hr => (recordRuns_inside hr).2).1 hm) _ _

/-- R19: a place that holds an uncollected record is presented again, every other slot stands at CTL. -/
theorem hand_recordAtPowerOn (st : RecordStore) (i : Slot) {m : Memory} (hm : Memory.wf m = true) :
    handAt (recordAtPowerOn st i m) (recordBase i) =
      if ((pick st.places i).any fun h => !h.collected) = true then handApp else handCtl := by
  unfold recordAtPowerOn
  split
  · rename_i h e
    rw [e]
    cases hc : h.collected
    · simp [hc, hand_presentRecord hm]
    · simp [hc, hand_write hm]
  · rename_i e
    rw [e]
    simp [hand_write hm]

theorem recordSlots_foldl (st : RecordStore) (l : List Slot) {m : Memory} (hm : Memory.wf m = true) :
    Memory.wf (l.foldl (fun m i => recordAtPowerOn st i m) m) = true ∧
    (∀ a, (∀ i ∈ l, ¬ recordBytes i a) →
      Memory.get (l.foldl (fun m i => recordAtPowerOn st i m) m) a = Memory.get m a) ∧
    ∀ i ∈ l, handAt (l.foldl (fun m i => recordAtPowerOn st i m) m) (recordBase i) =
      if ((pick st.places i).any fun h => !h.collected) = true then handApp else handCtl := by
  induction l generalizing m with
  | nil => exact ⟨hm, fun _ _ => rfl, fun _ h => nomatch h⟩
  | cons j l ih =>
    obtain ⟨h1, h2, h3⟩ := ih (wf_recordAtPowerOn st j hm)
    refine ⟨h1, fun a ha => ?_, fun i hi => ?_⟩
    · rw [List.foldl_cons, h2 a fun i hi => ha i (List.mem_cons_of_mem _ hi)]
      exact get_recordAtPowerOn_other _ _ _ _ (ha j List.mem_cons_self)
    · by_cases hm' : i ∈ l
      · exact h3 i hm'
      · have hj : i = j := by
          cases hi with
          | head => rfl
          | tail _ k => exact absurd k hm'
        subst hj
        rw [List.foldl_cons, ← hand_recordAtPowerOn st i hm]
        apply h2
        intro k hk
        have hne := Fin.val_ne_of_ne (fun e : k = i => hm' (e ▸ hk))
        unfold recordBytes bytesAt recordBase
        omega

/-! ### The whole RAM -/

theorem mem_slots16 (i : Slot) : i ∈ slots16 := by
  revert i
  decide

theorem mem_places8 (i : Place) : i ∈ places8 := by
  revert i
  decide

/-- R19: the RAM before the five blocks are written. -/
theorem handsAtPowerOn_spec (st : RecordStore) :
    Memory.wf (handsAtPowerOn st) = true ∧
    (∀ i : Slot, handAt (handsAtPowerOn st) (requestBase i) = handApp) ∧
    (∀ i : Place, handAt (handsAtPowerOn st) (boardBase i) = handCtl) ∧
    (∀ i : Slot, handAt (handsAtPowerOn st) (boxBase i) = handCtl) ∧
    (∀ i : Slot, handAt (handsAtPowerOn st) (recordBase i) =
      if ((pick st.places i).any fun h => !h.collected) = true then handApp else handCtl) ∧
    ∀ a, a < 0x0400 → Memory.get (handsAtPowerOn st) a = 0 := by
  have w0 : Memory.wf [] = true := rfl
  have w1 := wf_writeHands requestBase handApp slots16 w0
  have w2 := wf_writeHands boardBase handCtl places8 w1
  have w3 := wf_writeHands boxBase handCtl slots16 w2
  obtain ⟨r1, r2, r3⟩ := recordSlots_foldl st slots16 w3
  have hr : ∀ i : Slot, ∀ a, a < 0x1100 → ¬ recordBytes i a := by
    intro i a ha
    unfold recordBytes bytesAt recordBase
    omega
  unfold handsAtPowerOn
  rw [writeRecordSlots_eq]
  refine ⟨r1, fun i => ?_, fun i => ?_, fun i => ?_, fun i => r3 i (mem_slots16 i), fun a ha => ?_⟩
  · have := i.isLt
    unfold handAt
    rw [r2 _ fun j _ => hr j _ (by unfold requestBase; omega), get_writeHands_other, get_writeHands_other]
    · exact hand_writeHands request_apart _ _ w0 (mem_slots16 i)
    · intro j _
      unfold bytesAt boardBase requestBase
      omega
    · intro j _
      unfold bytesAt boxBase requestBase
      omega
  · have := i.isLt
    unfold handAt
    rw [r2 _ fun j _ => hr j _ (by unfold boardBase; omega), get_writeHands_other]
    · exact hand_writeHands board_apart _ _ w1 (mem_places8 i)
    · intro j _
      unfold bytesAt boxBase boardBase
      omega
  · have := i.isLt
    unfold handAt
    rw [r2 _ fun j _ => hr j _ (by unfold boxBase; omega)]
    exact hand_writeHands box_apart _ _ w2 (mem_slots16 i)
  · rw [r2 _ fun j _ => hr j _ (by omega), get_writeHands_other, get_writeHands_other, get_writeHands_other]
    · rfl
    · intro j _
      unfold bytesAt requestBase
      omega
    · intro j _
      unfold bytesAt boardBase
      omega
    · intro j _
      unfold bytesAt boxBase
      omega

/-- What the five blocks show once power-on has written them. -/
structure ShowsAtPowerOn (k : Kept) (r : RetainedResult) (p : SupplyMonitor) (m : Memory) : Prop where
  part      : shownFields partBase 12 m = partFields {} r p {} 0 0
  link      : shownFields linkBase 28 m = linkFields {} {} {}
  meter     : shownFields meterBase 62 m = meterFields k.fare {} none
  shift     : shownFields shiftBase 44 m = shiftFields k.fare k.store
  emergency : shownFields emergencyBase 18 m = emergencyFields { kept := k.emergency }
  counts    : ∀ a ∈ [partBase, linkBase, meterBase, shiftBase, emergencyBase], Memory.readWord m a = 2

/-- R18, R19, R96, R141, R161, R190: the RAM after power-on. -/
theorem ramAtPowerOn_spec (k : Kept) (r : RetainedResult) (p : SupplyMonitor) :
    Memory.wf (ramAtPowerOn k r p) = true ∧
    (∀ a, 0x0240 ≤ a → Memory.get (ramAtPowerOn k r p) a = Memory.get (handsAtPowerOn k.store) a) ∧
    ShowsAtPowerOn k r p (ramAtPowerOn k r p) := by
  obtain ⟨w0, -, -, -, -, z⟩ := handsAtPowerOn_spec k.store
  unfold ramAtPowerOn blocksAtPowerOn
  generalize handsAtPowerOn k.store = m at *
  have lp : (partFields {} r p {} 0 0).length = 12 := by simp [partFields]
  have ll : (linkFields {} {} {}).length = 28 := by simp [linkFields, headFields, headEntry]
  have lm : (meterFields k.fare {} none).length = 62 := by simp [meterFields, meterHead]
  have ls : (shiftFields k.fare k.store).length = 44 := by simp [shiftFields]
  have le : (emergencyFields { kept := k.emergency }).length = 18 := by simp [emergencyFields]
  generalize hfp : partFields {} r p {} 0 0 = fp at *
  generalize hfl : linkFields {} {} {} = fl at *
  generalize hfm : meterFields k.fare {} none = fm at *
  generalize hfs : shiftFields k.fare k.store = fs at *
  generalize hfe : emergencyFields { kept := k.emergency } = fe at *
  have b1 : partBase = 0x0100 := rfl
  have b2 : linkBase = 0x0140 := rfl
  have b3 : meterBase = 0x0180 := rfl
  have b4 : shiftBase = 0x01C0 := rfl
  have b5 : emergencyBase = 0x0220 := rfl
  have w1 := wf_rewriteBlock w0 partBase fp
  have w2 := wf_rewriteBlock w1 linkBase fl
  have w3 := wf_rewriteBlock w2 meterBase fm
  have w4 := wf_rewriteBlock w3 shiftBase fs
  have c0 : ∀ a, a < 0x0300 → Memory.readWord m a = 0 := by
    intro a ha
    unfold Memory.readWord
    simp [Memory.read, z a (by omega), z (a + 1) (by omega), leNat]
  have g : ∀ (c : Nat) (f : List Byte) (n : Memory) (a : Nat), a < c ∨ c + 2 + f.length ≤ a →
      Memory.get (rewriteBlock c f n) a = Memory.get n a := fun c f n a h => get_rewriteBlock_other n c f a h
  have sh : ∀ (c n c' : Nat) (f : List Byte) (q : Memory), c + 2 + n ≤ c' ∨ c' + 2 + f.length ≤ c + 2 →
      shownFields c n (rewriteBlock c' f q) = shownFields c n q := fun c n c' f q h =>
    shown_congr fun a h1 h2 => g c' f q a (by omega)
  have ct : ∀ (c c' : Nat) (f : List Byte) (q : Memory), c + 2 ≤ c' ∨ c' + 2 + f.length ≤ c →
      Memory.readWord (rewriteBlock c' f q) c = Memory.readWord q c := fun c c' f q h =>
    readWord_eq (g c' f q c (by omega)) (g c' f q (c + 1) (by omega))
  refine ⟨wf_rewriteBlock w4 emergencyBase fe, fun a ha => ?_, ⟨?_, ?_, ?_, ?_, ?_, ?_⟩⟩
  · rw [g _ _ _ _ (by omega), g _ _ _ _ (by omega), g _ _ _ _ (by omega), g _ _ _ _ (by omega), g _ _ _ _ (by omega)]
  · rw [sh _ _ _ _ _ (by omega), sh _ _ _ _ _ (by omega), sh _ _ _ _ _ (by omega), sh _ _ _ _ _ (by omega), ← lp,
      shown_rewriteBlock w0, hfp]
  · rw [sh _ _ _ _ _ (by omega), sh _ _ _ _ _ (by omega), sh _ _ _ _ _ (by omega), ← ll, shown_rewriteBlock w1, hfl]
  · rw [sh _ _ _ _ _ (by omega), sh _ _ _ _ _ (by omega), ← lm, shown_rewriteBlock w2, hfm]
  · rw [sh _ _ _ _ _ (by omega), ← ls, shown_rewriteBlock w3, hfs]
  · rw [← le, shown_rewriteBlock w4, hfe]
  · intro a ha
    simp only [List.mem_cons, List.not_mem_nil, or_false] at ha
    obtain rfl | rfl | rfl | rfl | rfl := ha
    · rw [ct _ _ _ _ (by omega), ct _ _ _ _ (by omega), ct _ _ _ _ (by omega), ct _ _ _ _ (by omega),
        count_rewriteBlock w0, c0 _ (by omega)]
    · rw [ct _ _ _ _ (by omega), ct _ _ _ _ (by omega), ct _ _ _ _ (by omega), count_rewriteBlock w1,
        ct _ _ _ _ (by omega), c0 _ (by omega)]
    · rw [ct _ _ _ _ (by omega), ct _ _ _ _ (by omega), count_rewriteBlock w2, ct _ _ _ _ (by omega),
        ct _ _ _ _ (by omega), c0 _ (by omega)]
    · rw [ct _ _ _ _ (by omega), count_rewriteBlock w3, ct _ _ _ _ (by omega), ct _ _ _ _ (by omega),
        ct _ _ _ _ (by omega), c0 _ (by omega)]
    · rw [count_rewriteBlock w4, ct _ _ _ _ (by omega), ct _ _ _ _ (by omega), ct _ _ _ _ (by omega),
        ct _ _ _ _ (by omega), c0 _ (by omega)]

/-! ### What stands in the slots (R6, R19) -/

/-- Runs that follow one another write their own bytes alone, and read back. -/
theorem writeRuns_spec (base : Nat) (rs : List (Nat × List Byte)) {m : Memory} (hm : Memory.wf m = true)
    (hp : rs.Pairwise fun r q => r.1 + r.2.length ≤ q.1) :
    Memory.wf (writeRuns base rs m) = true ∧
    (∀ a, (∀ r ∈ rs, ¬ bytesAt (base + r.1) r.2.length a) → Memory.get (writeRuns base rs m) a = Memory.get m a) ∧
    ∀ r ∈ rs, Memory.read (writeRuns base rs m) (base + r.1) r.2.length = r.2 := by
  induction rs generalizing m with
  | nil => exact ⟨hm, fun _ _ => rfl, fun _ h => nomatch h⟩
  | cons q rs ih =>
    obtain ⟨hq, hp⟩ := List.pairwise_cons.1 hp
    obtain ⟨h1, h2, h3⟩ := ih (Memory.wf_write hm (base + q.1) q.2) hp
    refine ⟨h1, fun a ha => (h2 a fun r hr => ha r (List.mem_cons_of_mem _ hr)).trans ?_, fun r hr => ?_⟩
    · apply Memory.get_write_other
      have := ha q List.mem_cons_self
      unfold bytesAt at this
      omega
    · obtain rfl | hr := List.mem_cons.1 hr
      · change Memory.read (writeRuns base rs (Memory.write m (base + r.1) r.2)) _ _ = _
        rw [Memory.read_congr fun k hk => h2 _ fun x hx => ?_, Memory.read_write_same hm]
        have := hq x hx
        unfold bytesAt
        omega
      · exact h3 r hr

theorem recordRuns_apart (h : HeldRecord) :
    (recordRuns h).Pairwise fun r q => r.1 + r.2.length ≤ q.1 := by
  unfold recordRuns
  cases h.record <;> simp

/-- R6: a record presented is the one its slot shows. -/
theorem presentRecord_spec {m : Memory} (hm : Memory.wf m = true) (i : Slot) (h : HeldRecord) :
    Memory.read (presentRecord i h m) (recordBase i) 2 = handWord handApp ∧
    (∀ r ∈ recordRuns h, Memory.read (presentRecord i h m) (recordBase i + r.1) r.2.length = r.2) ∧
    ∀ a, ¬ bytesAt (recordBase i) 2 a → (∀ r ∈ recordRuns h, ¬ bytesAt (recordBase i + r.1) r.2.length a) →
      Memory.get (presentRecord i h m) a = Memory.get m a := by
  obtain ⟨h1, h2, h3⟩ := writeRuns_spec (recordBase i) (recordRuns h) hm (recordRuns_apart h)
  unfold presentRecord
  refine ⟨?_, fun r hr => ?_, fun a ha hr => ?_⟩
  · exact Memory.read_write_same h1 (recordBase i) (handWord handApp)
  · have := (recordRuns_inside hr).1
    rw [Memory.read_congr fun k hk => Memory.get_write_other _ _ _ _ (by rw [handWord_length]; omega), h3 r hr]
  · rw [Memory.get_write_other _ _ _ _ (by rw [handWord_length]; unfold bytesAt at ha; omega), h2 a hr]

/-- The bytes of one fare record slot come from its own place. -/
theorem recordSlots_own (st : RecordStore) (i : Slot) {m : Memory} (hm : Memory.wf m = true) :
    ∃ n, Memory.wf n = true ∧ (∀ a, recordBytes i a → Memory.get n a = Memory.get m a) ∧
      ∀ a, recordBytes i a → Memory.get (writeRecordSlots st m) a = Memory.get (recordAtPowerOn st i n) a := by
  obtain ⟨l1, l2, hl, h1, h2⟩ : ∃ l1 l2, slots16 = l1 ++ i :: l2 ∧ i ∉ l1 ∧ i ∉ l2 := by
    have hn : slots16.Nodup := by decide
    obtain ⟨l1, l2, e⟩ := List.append_of_mem (mem_slots16 i)
    rw [e] at hn
    have hd := List.nodup_append.1 hn
    exact ⟨l1, l2, e, fun h => hd.2.2 _ h _ List.mem_cons_self rfl, (List.nodup_cons.1 hd.2.1).1⟩
  have apart : ∀ (l : List Slot), i ∉ l → ∀ a, recordBytes i a → ∀ j ∈ l, ¬ recordBytes j a := by
    intro l hl a ha j hj hb
    have := Fin.val_ne_of_ne fun e : j = i => hl (e ▸ hj)
    unfold recordBytes bytesAt recordBase at *
    omega
  obtain ⟨w, g, -⟩ := recordSlots_foldl st l1 hm
  refine ⟨_, w, fun a ha => g a (apart l1 h1 a ha), fun a ha => ?_⟩
  rw [writeRecordSlots_eq, hl, List.foldl_append, List.foldl_cons]
  exact (recordSlots_foldl st l2 (wf_recordAtPowerOn st i w)).2.1 a (apart l2 h2 a ha)

/-- R19: an uncollected record is shown in its slot again. -/
theorem ramAtPowerOn_presents (k : Kept) (r : RetainedResult) (p : SupplyMonitor) {i : Slot} {h : HeldRecord}
    (hi : pick k.store.places i = some h) (hc : h.collected = false) :
    Memory.read (ramAtPowerOn k r p) (recordBase i) 2 = handWord handApp ∧
    ∀ q ∈ recordRuns h, Memory.read (ramAtPowerOn k r p) (recordBase i + q.1) q.2.length = q.2 := by
  have w := wf_writeHands boxBase handCtl slots16
    (wf_writeHands boardBase handCtl places8 (wf_writeHands requestBase handApp slots16 (m := []) rfl))
  obtain ⟨n, wn, -, hn⟩ := recordSlots_own k.store i w
  have e : recordAtPowerOn k.store i n = presentRecord i h n := by
    unfold recordAtPowerOn
    rw [hi]
    dsimp only
    rw [hc]
    rfl
  rw [e] at hn
  have key : ∀ a c, recordBase i ≤ a → a + c ≤ recordBase i + 128 →
      Memory.read (ramAtPowerOn k r p) a c = Memory.read (presentRecord i h n) a c := fun a c h1 h2 =>
    Memory.read_congr fun x hx => by
      rw [(ramAtPowerOn_spec k r p).2.1 _ (by unfold recordBase at h1; omega)]
      exact hn _ (by unfold recordBytes bytesAt; omega)
  obtain ⟨s1, s2, -⟩ := presentRecord_spec wn i h
  refine ⟨(key _ _ (by omega) (by omega)).trans s1, fun q hq => ?_⟩
  obtain ⟨q1, q2⟩ := recordRuns_inside hq
  exact (key _ _ (by omega) (by omega)).trans (s2 q hq)

/-- R19: every byte that holds no hand, no field of a block and no field of a record shown again reads 0. -/
theorem ramAtPowerOn_zero (k : Kept) (r : RetainedResult) (p : SupplyMonitor) (a : Nat)
    (hs : ∀ i : Slot, ¬ bytesAt (requestBase i) 2 a ∧ ¬ bytesAt (boxBase i) 2 a ∧ ¬ bytesAt (recordBase i) 2 a)
    (hb : ∀ i : Place, ¬ bytesAt (boardBase i) 2 a)
    (hk : ∀ c ∈ [(partBase, 14), (linkBase, 30), (meterBase, 64), (shiftBase, 46), (emergencyBase, 20)],
      ¬ bytesAt c.1 c.2 a)
    (hr : ∀ (i : Slot) (h : HeldRecord), pick k.store.places i = some h → h.collected = false →
      ∀ q ∈ recordRuns h, ¬ bytesAt (recordBase i + q.1) q.2.length a) :
    Memory.get (ramAtPowerOn k r p) a = 0 := by
  have lp : (partFields {} r p {} 0 0).length = 12 := by simp [partFields]
  have ll : (linkFields {} {} {}).length = 28 := by simp [linkFields, headFields, headEntry]
  have lm : (meterFields k.fare {} none).length = 62 := by simp [meterFields, meterHead]
  have ls : (shiftFields k.fare k.store).length = 44 := by simp [shiftFields]
  have le : (emergencyFields { kept := k.emergency }).length = 18 := by simp [emergencyFields]
  have blocks : Memory.get (ramAtPowerOn k r p) a = Memory.get (handsAtPowerOn k.store) a := by
    have g : ∀ (c : Nat) (f : List Byte) (n : Memory), ¬ bytesAt c (2 + f.length) a →
        Memory.get (rewriteBlock c f n) a = Memory.get n a := fun c f n h =>
      get_rewriteBlock_other n c f a (by unfold bytesAt at h; omega)
    unfold ramAtPowerOn blocksAtPowerOn
    rw [g emergencyBase _ _ (by rw [le]; exact hk (emergencyBase, 20) (by simp)),
      g shiftBase _ _ (by rw [ls]; exact hk (shiftBase, 46) (by simp)),
      g meterBase _ _ (by rw [lm]; exact hk (meterBase, 64) (by simp)),
      g linkBase _ _ (by rw [ll]; exact hk (linkBase, 30) (by simp)),
      g partBase _ _ (by rw [lp]; exact hk (partBase, 14) (by simp))]
  have hands : Memory.get (writeHands boxBase handCtl slots16
      (writeHands boardBase handCtl places8 (writeHands requestBase handApp slots16 []))) a = 0 := by
    rw [get_writeHands_other _ _ _ _ _ fun i _ => (hs i).2.1, get_writeHands_other _ _ _ _ _ fun i _ => hb i,
      get_writeHands_other _ _ _ _ _ fun i _ => (hs i).1]
    rfl
  rw [blocks]
  unfold handsAtPowerOn
  have w := wf_writeHands boxBase handCtl slots16
    (wf_writeHands boardBase handCtl places8 (wf_writeHands requestBase handApp slots16 (m := []) rfl))
  by_cases h : ∃ i : Slot, recordBytes i a
  · obtain ⟨i, hi⟩ := h
    obtain ⟨n, wn, hn, hg⟩ := recordSlots_own k.store i w
    rw [hg a hi, ← hands, ← hn a hi]
    have hc : Memory.get (Memory.write n (recordBase i) (handWord handCtl)) a = Memory.get n a :=
      Memory.get_write_other _ _ _ _ (by
        have := (hs i).2.2
        unfold bytesAt at this
        rw [handWord_length]
        omega)
    unfold recordAtPowerOn
    split
    · rename_i x hx
      split
      · exact hc
      · rename_i hx'
        exact (presentRecord_spec wn i x).2.2 a (hs i).2.2 (hr i x hx (by simpa using hx'))
    · exact hc
  · rw [writeRecordSlots_eq, (recordSlots_foldl k.store slots16 w).2.1 a fun i _ hi => h ⟨i, hi⟩, hands]

end Sys2Proof.Machine
end

