-- ==== Sys2Proof/Laws/Tracker.lean ====
section
/-! SUPPORT. What every command keeps of the Cycle Tracker: no frame in flight without synchronisation (R53, R65,
R68). -/

namespace Sys2Proof.Machine

/-- A sound Cycle Tracker stays sound. -/
def KeepsTracker (s t : State) : Prop := s.trackerSound → t.trackerSound

theorem KeepsTracker.refl (s : State) : KeepsTracker s s := id

theorem KeepsTracker.trans {s t u : State} (h : KeepsTracker s t) (k : KeepsTracker t u) : KeepsTracker s u :=
  fun q => k (h q)

theorem KeepsTracker.ite {s t u : State} {c : Prop} [Decidable c] (h : KeepsTracker s t) (k : KeepsTracker s u) :
    KeepsTracker s (if c then t else u) := by
  split <;> assumption

/-- The two fields the invariant reads are those of another state. -/
theorem KeepsTracker.of_eq {s t : State} (h1 : t.cycle.synced = s.cycle.synced)
    (h2 : t.cycle.inFlight = s.cycle.inFlight) : KeepsTracker s t := by
  unfold KeepsTracker State.trackerSound
  rw [h1, h2]
  exact id

theorem KeepsTracker.of_synced {s t : State} (h : t.cycle.synced = true) : KeepsTracker s t := fun _ n => by
  rw [h] at n
  cases n

theorem KeepsTracker.of_none {s t : State} (h : t.cycle.inFlight.phase = .none) : KeepsTracker s t := fun _ _ => h

theorem Frame.keepsTracker {a : List Part} {p : Nat → Prop} {s t : State} (f : Frame a p s t)
    (h : Part.cycle ∉ a) : KeepsTracker s t := .of_eq (by rw [f.cycle h]) (by rw [f.cycle h])

theorem takenByOwner_keepsTracker {s u : State} (h : KeepsTracker (takenByOwner s) u) : KeepsTracker s u := h

theorem takeHead_keepsTracker {a : List Part} {p : Slot → Nat → Prop} {judge : Slot → State → State}
    (h : ∀ i t, Frame a (p i) t (judge i t)) (ha : Part.cycle ∉ a) (s : State) :
    KeepsTracker s (takeHead judge s) := by
  cases ho : s.port.order with
  | nil =>
    unfold takeHead
    rw [ho]
    exact .refl s
  | cons i rest =>
    rw [takeHead_eq ho]
    have ht : KeepsTracker s (s.taken rest) := (taken_frame s rest).keepsTracker (by decide)
    exact (ht.trans ((h i _).keepsTracker ha)).ite (ht.trans ((completeRequest_frame _ _ _ _).keepsTracker (by decide)))

/-! ### Settling leaves nothing in flight (R64 to R66, R68) -/

theorem settle_synced (o : FrameOutcome) (s : State) : (settle o s).cycle.synced = s.cycle.synced := by
  rw [settle_eq, deliver_eq]

theorem settle_phase (o : FrameOutcome) (s : State) : (settle o s).cycle.inFlight.phase = .none := by
  rw [settle_eq, deliver_eq]

theorem settleByMiss_phase (s : State) : (settleByMiss s).cycle.inFlight.phase = .none := by
  unfold settleByMiss
  cases h : s.cycle.inFlight.phase <;> simp only [missOutcome]
  · exact h
  · exact settle_phase _ _
  · exact settle_phase _ _
  · exact settle_phase _ _

theorem missBeacon_keepsTracker (d : Nat) (s : State) : KeepsTracker s (missBeacon d s) := by
  apply KeepsTracker.of_none
  have h := settleByMiss_phase (mailLink .beaconMissed { s with cycle := { s.cycle with missedRun := bump 3 s.cycle.missedRun } })
  unfold missBeacon loseSync
  dsimp only
  rw [cutSending_eq]
  split <;> exact h

theorem abandonFrame_phase (s : State) : (abandonFrame s).cycle.inFlight.phase = .none := by
  unfold abandonFrame
  split
  · assumption
  · exact settle_phase _ _

/-! ### Sending (R62, R63) -/

theorem requestSend_keepsTracker (kind : Uplink) (payload : List Byte) (s : State) :
    KeepsTracker s (requestSend kind payload s) := by
  unfold requestSend
  split
  · exact .of_none (settle_phase _ _)
  · rename_i h
    apply KeepsTracker.of_synced
    unfold sendRefused at h
    simp only [Bool.or_eq_true, not_or, Bool.not_eq_true, Bool.not_eq_false'] at h
    exact h.2

theorem startSlot_keepsTracker (s : State) : KeepsTracker s (startSlot s) := by
  unfold startSlot
  split
  · split
    · exact .of_none rfl
    · exact ((queue_frame _ s).keepsTracker (by decide)).trans (requestSend_keepsTracker _ _ _)
  · exact (KeepsTracker.of_none rfl).ite (requestSend_keepsTracker _ _ _)

theorem takeSendReport_keepsTracker (r : SendReport) (s : State) : KeepsTracker s (takeSendReport r s) := by
  unfold takeSendReport
  split
  · rename_i h
    split
    · exact fun q n => absurd (h.symm.trans (q n)) (by decide)
    · exact .of_none (settle_phase _ _)
    · exact .of_none (settle_phase _ _)
    · exact .refl s
    · exact .refl s
  · exact .refl s

theorem sendReportTaken_keepsTracker (s : State) : KeepsTracker s (sendReportTaken s) := by
  unfold sendReportTaken
  split
  · exact .refl s
  · exact ((mail_frame _ s).keepsTracker (by decide)).trans (takeSendReport_keepsTracker _ _)

/-! ### A good beacon (R50) -/

theorem chooseOrdinary_synced (s : State) : (chooseOrdinary s).cycle.synced = s.cycle.synced := by
  unfold chooseOrdinary
  split
  · rfl
  · split
    · split <;> rfl
    · rfl

theorem chooseFrame_synced (s : State) : (chooseFrame s).cycle.synced = s.cycle.synced := by
  have h : (askCall s).2.cycle.synced = s.cycle.synced := by
    unfold askCall
    dsimp only
    split <;> rfl
  unfold chooseFrame
  dsimp only
  split
  · split
    · have k := (makeCall_frame (askCall s).2).cycle (by decide)
      unfold chooseCall spacingRises skipFalls
      dsimp only
      rw [k, h]
    · rw [chooseOrdinary_synced]
      exact h
  · rw [chooseOrdinary_synced, h]

theorem takeBeacon_keepsTracker (first : Bool) (h : HeldFrame) (a b c d : Nat) (acks : List Nat) (s : State) :
    KeepsTracker s (takeBeacon first h a b c d acks s) := by
  apply KeepsTracker.of_synced
  unfold takeBeacon
  rw [chooseFrame_synced, (linkBeforeChoice_frame _ _).cycle (by decide), (takeDeliveries_frame _).cycle (by decide)]
  rfl

/-! ### RUN, the soft reset and the time base -/

theorem runWrite_keepsTracker (s : State) : KeepsTracker s (runWrite s) := by
  unfold runWrite
  refine KeepsTracker.trans ?_ (((rewritePart_frame _).then (setNews_frame .settings _)).keepsTracker (by decide))
  split
  · exact (settings_frame _ s).keepsTracker (by decide)
  · unfold enterRunning eitherOrder
    dsimp only
    have h : KeepsTracker s (takeUpSettings (readSettings s.ram) s) := .of_eq rfl rfl
    generalize takeUpSettings (readSettings s.ram) s = t at h
    have k := ((statusTrigger_frame t).then (reportFeed_frame _)).keepsTracker (by decide)
    exact h.trans k

theorem softReset_keepsTracker (s : State) : KeepsTracker s (softReset s) := by
  apply KeepsTracker.of_none
  unfold softReset
  have f (t : State) := ((((resetLink_frame t).then (resetOffers_frame _)).then
    (resetEmergency_frame _)).then (resetFreely_frame _)).cycle (by decide)
  rw [f]
  exact abandonFrame_phase _

theorem controlWrite_keepsTracker (s : State) : KeepsTracker s (controlWrite s) :=
  (softReset_keepsTracker s).ite (runWrite_keepsTracker s)

theorem hostWrite_keepsTracker (off : Nat) (v : Word) (s : State) : KeepsTracker s (hostWrite off v s) := by
  unfold hostWrite
  split
  · exact (storeWord_frame _ _ s).keepsTracker (by decide)
  · exact (positionWrite_frame _ _ s).keepsTracker (by decide)
  · exact (exchangeFault_frame _ s).keepsTracker (by decide)
  · exact (exchangeFault_frame _ s).keepsTracker (by decide)
  · exact ((requestHand_frame _ _ s).keepsTracker (by decide)).ite ((slotDataWrite_frame _ _ _ s).keepsTracker (by decide))
  · exact ((boxHand_frame _ _ s).keepsTracker (by decide)).ite ((slotDataWrite_frame _ _ _ s).keepsTracker (by decide))
  · exact ((recordHand_frame _ _ s).keepsTracker (by decide)).ite ((slotDataWrite_frame _ _ _ s).keepsTracker (by decide))
  · exact controlWrite_keepsTracker s
  · exact (maskWrite_frame _ s).keepsTracker (by decide)
  · exact .refl s
  · exact .refl s
  · exact .refl s

theorem timeTick_keepsTracker (s : State) : KeepsTracker s (timeTick s) := by
  unfold timeTick
  dsimp only
  split <;> exact .of_eq rfl rfl

/-! ### Every effect -/

theorem effect_keepsTracker (c : Instr) (s : State) : KeepsTracker s (effect c s) := by
  unfold effect
  split
  · exact .refl s
  · exact .refl s
  · exact .refl s
  · exact hostWrite_keepsTracker _ _ s
  · exact hostWrite_keepsTracker _ _ s
  · exact (positionWrite_frame _ _ s).keepsTracker (by decide)
  · exact (requestHand_frame _ _ s).keepsTracker (by decide)
  · exact (boxHand_frame _ _ s).keepsTracker (by decide)
  · exact (recordHand_frame _ _ s).keepsTracker (by decide)
  · exact (readAttention_frame s).keepsTracker (by decide)
  · exact (maskWrite_frame _ s).keepsTracker (by decide)
  · exact controlWrite_keepsTracker s
  · exact controlWrite_keepsTracker s
  · exact hostWrite_keepsTracker _ _ s
  · exact takeHead_keepsTracker (fun i t => completeRequest_frame i .badRequest 0 t) (by decide) s
  · exact takeHead_keepsTracker dutyOn_frame (by decide) s
  · exact takeHead_keepsTracker dutyOff_frame (by decide) s
  · exact takeHead_keepsTracker setZone_frame (by decide) s
  · exact takeHead_keepsTracker (fun i t => (statusTrigger_frame t).completing i .done 0) (by decide) s
  · exact takeHead_keepsTracker meterHire_frame (by decide) s
  · exact takeHead_keepsTracker meterStop_frame (by decide) s
  · exact takeHead_keepsTracker meterResume_frame (by decide) s
  · exact takeHead_keepsTracker meterClear_frame (by decide) s
  · exact takeHead_keepsTracker selectTariff_frame (by decide) s
  · exact takeHead_keepsTracker addExtra_frame (by decide) s
  · exact takeHead_keepsTracker acceptOffer_frame (by decide) s
  · exact takeHead_keepsTracker declineOffer_frame (by decide) s
  · exact takeHead_keepsTracker resumeOffers_frame (by decide) s
  · exact takeHead_keepsTracker sendMessage_frame (by decide) s
  · exact takeHead_keepsTracker (fun i t => (trigger_frame .host t).completing i .done _) (by decide) s
  · exact takeHead_keepsTracker replaceSettings_frame (by decide) s
  · exact takeHead_keepsTracker (fun i t => ((link_frame _ t).then (rewriteLink_frame _)).completing i .done 0)
      (by decide) s
  · exact (headerTaken_frame _ s).keepsTracker (by decide)
  · exact (receiveBits_frame _ s).keepsTracker (by decide)
  · exact (frameEnded_frame _ _ s).keepsTracker (by decide)
  · exact (clockLost_frame s).keepsTracker (by decide)
  · split
    · exact ((free_frame _ s).keepsTracker (by decide)).trans (takeBeacon_keepsTracker _ _ _ _ _ _ _ _)
    · exact .refl s
  · exact (((takenByLink_frame s).then (link_frame _ _)).then (relink_frame _)).keepsTracker (by decide)
  · split
    · exact takenByOwner_keepsTracker ((takeOffer_frame _ _ _).keepsTracker (by decide))
    · exact .refl s
  · split
    · exact takenByOwner_keepsTracker ((takeAward_frame _ _ _).keepsTracker (by decide))
    · exact .refl s
  · split
    · exact takenByOwner_keepsTracker ((takeWithdraw_frame _ _).keepsTracker (by decide))
    · exact .refl s
  · split
    · exact takenByOwner_keepsTracker ((takeMessage_frame _ _).keepsTracker (by decide))
    · exact .refl s
  · split
    · exact takenByOwner_keepsTracker ((takeAck_frame _ _).keepsTracker (by decide))
    · exact .refl s
  · exact takenByOwner_keepsTracker ((takeClear_frame _).keepsTracker (by decide))
  · split
    · exact takenByOwner_keepsTracker ((suspendCab_frame _ _ _).keepsTracker (by decide))
    · exact .refl s
  · exact takenByOwner_keepsTracker ((resumeCab_frame _).keepsTracker (by decide))
  · split
    · exact missBeacon_keepsTracker _ s
    · exact .refl s
  · exact startSlot_keepsTracker s
  · exact (tx_frame _ s).keepsTracker (by decide)
  · exact ((tx_frame _ s).then (mail_frame _ _)).keepsTracker (by decide)
  · exact (cutSending_frame _ s).keepsTracker (by decide)
  · exact sendReportTaken_keepsTracker s
  · split
    · exact ((mail_frame _ s).then (linkTakesOutcome_frame _ _ _)).keepsTracker (by decide)
    · exact .refl s
  · split
    · exact ((mail_frame _ s).then (loggedChange_frame _ _)).keepsTracker (by decide)
    · exact .refl s
  · exact ((mail_frame _ s).then (loggedChange_frame _ _)).keepsTracker (by decide)
  · exact (((mail_frame _ s).then (link_frame _ _)).then (relink_frame _)).keepsTracker (by decide)
  · exact (queueOutcomeTaken_frame s).keepsTracker (by decide)
  · exact (statusExpired_frame s).keepsTracker (by decide)
  · exact (undeliveredTaken_frame s).keepsTracker (by decide)
  · exact (sendNoticeTaken_frame s).keepsTracker (by decide)
  · exact (reportDoneTaken_frame s).keepsTracker (by decide)
  · exact (deadlineExpired_frame _ s).keepsTracker (by decide)
  · exact (unanswered_frame _ s).keepsTracker (by decide)
  · exact (endSuspension_frame s).keepsTracker (by decide)
  · exact (chime_frame _ s).keepsTracker (by decide)
  · exact (meterTick_frame s).keepsTracker (by decide)
  · exact (distancePulse_frame s).keepsTracker (by decide)
  · exact ((due_frame _ s).then (startWindow_frame _)).keepsTracker (by decide)
  · exact (markTaken_frame s).keepsTracker (by decide)
  · exact (additionTaken_frame s).keepsTracker (by decide)
  · exact (reminderExpired_frame s).keepsTracker (by decide)
  · exact (inputSample_frame _ s).keepsTracker (by decide)
  · exact (changeTaken_frame s).keepsTracker (by decide)
  · exact (callOutcomeTaken_frame s).keepsTracker (by decide)
  · exact (trackingExpired_frame s).keepsTracker (by decide)
  · exact (supplySample_frame _ s).keepsTracker (by decide)
  · exact timeTick_keepsTracker s
  · exact (inputSample_frame _ s).keepsTracker (by decide)
  · exact (receiveBits_frame _ s).keepsTracker (by decide)
  · exact (headerTaken_frame _ s).keepsTracker (by decide)
  · exact (backToHunt_frame s).keepsTracker (by decide)

end Sys2Proof.Machine
end

