-- ==== Sys2Proof/Laws/Promises.lean ====
section
/-! SUPPORT. Which commands touch the parts that the promises of R46, R88 and R97 speak of, and what every command
keeps of the Offer Table (R97). -/

namespace Sys2Proof.Machine

/-! ### Which commands touch what these promises speak of -/

/-- The parts these promises speak of. -/
def promiseParts : List Part := [.offers, .tx, .cycle, .supply, .settings, .link, .rx]

/-- Of those parts, two states agree on all but the ones named. -/
def Spares (l : List Part) (s t : State) : Prop := ∀ r ∈ promiseParts, r ∉ l → r.same s t

theorem Spares.refl {l : List Part} (s : State) : Spares l s s := fun r _ _ => (Frame.refl s).keeps r (by simp)

theorem Spares.all {s t : State} : Spares promiseParts s t := fun _ h n => absurd h n

theorem Frame.spares {a l : List Part} {p : Nat → Prop} {s t : State} (f : Frame a p s t)
    (h : ∀ r ∈ a, r ∈ promiseParts → r ∈ l) : Spares l s t := fun r hr n => f.keeps r fun m => n (h r m hr)

theorem Spares.own {a l : List Part} {p : Nat → Prop} {s t : State} (f : Frame a p (takenByOwner s) t)
    (h : ∀ r ∈ .rx :: a, r ∈ promiseParts → r ∈ l) : Spares l s t :=
  ((takenByOwner_frame s).trans f).spares h

theorem takeHead_spares {a l : List Part} {p : Slot → Nat → Prop} {judge : Slot → State → State}
    (h : ∀ i t, Frame a (p i) t (judge i t)) (ha : ∀ r ∈ a, r ∈ promiseParts → r ∈ l) (s : State) :
    Spares l s (takeHead judge s) := by
  cases ho : s.port.order with
  | nil =>
    unfold takeHead
    rw [ho]
    exact .refl s
  | cons i rest =>
    rw [takeHead_eq ho]
    have ht := taken_frame s rest
    split
    · refine (ht.trans (h i _)).spares fun r hr m => (List.mem_append.1 hr).elim (fun k => ?_) fun k => ha r k m
      rw [List.mem_singleton.1 k] at m
      exact absurd m (by decide)
    · refine (ht.trans (completeRequest_frame _ _ _ _)).spares fun r hr m => absurd hr fun k => ?_
      revert m k
      clear hr
      revert r
      decide

/-- Of those parts, the ones a command can touch; a host write may be one to CONTROL. -/
def touches (c : Instr) : List Part :=
  match c with
  | .hostSlotDataWrite _ _ => promiseParts
  | .fixedBlockWrite _ _ => promiseParts
  | .registerWrite _ _ => promiseParts
  | .run _ => promiseParts
  | .softReset _ => promiseParts
  | .dutyOn | .dutyOff | .setZone | .meterHire | .acceptOffer | .declineOffer | .resumeOffers => [.offers]
  | .replaceSettings => [.settings]
  | .clearLinkLog => [.link]
  | .headerLengthError _ | .receiveOverrun _ | .receiveFrameEnd _ _ | .receiveClockLoss | .syncFound _
  | .headerCollected _ | .skipEnd _ | .baseMessage | .emergencyAck | .emergencyClear => [.rx]
  | .beacon => [.rx, .cycle, .link]
  | .beaconAtLink => [.rx, .link]
  | .jobOffer | .jobAward | .jobWithdraw | .cabSuspend | .cabResume => [.rx, .offers]
  | .beaconMissed | .slotStart => [.cycle, .tx]
  | .keyingEnd | .frameSent | .slotEnd => [.tx]
  | .sendReport => [.cycle]
  | .linkOutcome | .receiveError | .beaconMissedReport | .syncLostReport => [.link]
  | .acceptUndelivered | .offerDeadlineExpiry _ | .awardWaitExpiry _ | .baseSuspensionExpiry
  | .emergencyStateChange => [.offers]
  | .supplySample _ => [.supply, .tx]
  | .timeBaseTick => [.cycle, .rx, .tx, .offers]
  | _ => []

theorem effect_touches (c : Instr) (s : State) : Spares (touches c) s (effect c s) := by
  unfold effect
  split
  · exact .refl s
  · exact .refl s
  · exact .refl s
  · exact .all
  · exact .all
  · exact (positionWrite_frame _ _ s).spares (by dsimp only [touches]; decide)
  · exact (requestHand_frame _ _ s).spares (by dsimp only [touches]; decide)
  · exact (boxHand_frame _ _ s).spares (by dsimp only [touches]; decide)
  · exact (recordHand_frame _ _ s).spares (by dsimp only [touches]; decide)
  · exact (readAttention_frame s).spares (by dsimp only [touches]; decide)
  · exact (maskWrite_frame _ s).spares (by dsimp only [touches]; decide)
  · exact .all
  · exact .all
  · exact .all
  · exact takeHead_spares (fun i t => completeRequest_frame i .badRequest 0 t) (by dsimp only [touches]; decide) s
  · exact takeHead_spares dutyOn_frame (by dsimp only [touches]; decide) s
  · exact takeHead_spares dutyOff_frame (by dsimp only [touches]; decide) s
  · exact takeHead_spares setZone_frame (by dsimp only [touches]; decide) s
  · exact takeHead_spares (fun i t => (statusTrigger_frame t).completing i .done 0) (by dsimp only [touches]; decide) s
  · exact takeHead_spares meterHire_frame (by dsimp only [touches]; decide) s
  · exact takeHead_spares meterStop_frame (by dsimp only [touches]; decide) s
  · exact takeHead_spares meterResume_frame (by dsimp only [touches]; decide) s
  · exact takeHead_spares meterClear_frame (by dsimp only [touches]; decide) s
  · exact takeHead_spares selectTariff_frame (by dsimp only [touches]; decide) s
  · exact takeHead_spares addExtra_frame (by dsimp only [touches]; decide) s
  · exact takeHead_spares acceptOffer_frame (by dsimp only [touches]; decide) s
  · exact takeHead_spares declineOffer_frame (by dsimp only [touches]; decide) s
  · exact takeHead_spares resumeOffers_frame (by dsimp only [touches]; decide) s
  · exact takeHead_spares sendMessage_frame (by dsimp only [touches]; decide) s
  · exact takeHead_spares (fun i t => (trigger_frame .host t).completing i .done _) (by dsimp only [touches]; decide) s
  · exact takeHead_spares replaceSettings_frame (by dsimp only [touches]; decide) s
  · exact takeHead_spares (fun i t => ((link_frame _ t).then (rewriteLink_frame _)).completing i .done 0)
      (by dsimp only [touches]; decide) s
  · exact (headerTaken_frame _ s).spares (by dsimp only [touches]; decide)
  · exact (receiveBits_frame _ s).spares (by dsimp only [touches]; decide)
  · exact (frameEnded_frame _ _ s).spares (by dsimp only [touches]; decide)
  · exact (clockLost_frame s).spares (by dsimp only [touches]; decide)
  · split
    · exact ((free_frame _ s).then (takeBeacon_frame _ _ _ _ _ _ _ _)).spares (by dsimp only [touches]; decide)
    · exact .refl s
  · exact (((takenByLink_frame s).then (link_frame _ _)).then (relink_frame _)).spares (by dsimp only [touches]; decide)
  · split
    · exact .own (takeOffer_frame _ _ _) (by dsimp only [touches]; decide)
    · exact .refl s
  · split
    · exact .own (takeAward_frame _ _ _) (by dsimp only [touches]; decide)
    · exact .refl s
  · split
    · exact .own (takeWithdraw_frame _ _) (by dsimp only [touches]; decide)
    · exact .refl s
  · split
    · exact .own (takeMessage_frame _ _) (by dsimp only [touches]; decide)
    · exact .refl s
  · split
    · exact .own (takeAck_frame _ _) (by dsimp only [touches]; decide)
    · exact .refl s
  · exact .own (takeClear_frame _) (by dsimp only [touches]; decide)
  · split
    · exact .own (suspendCab_frame _ _ _) (by dsimp only [touches]; decide)
    · exact .refl s
  · exact .own (resumeCab_frame _) (by dsimp only [touches]; decide)
  · split
    · exact (missBeacon_frame _ s).spares (by dsimp only [touches]; decide)
    · exact .refl s
  · exact (startSlot_frame s).spares (by dsimp only [touches]; decide)
  · exact (tx_frame _ s).spares (by dsimp only [touches]; decide)
  · exact ((tx_frame _ s).then (mail_frame _ _)).spares (by dsimp only [touches]; decide)
  · exact (cutSending_frame _ s).spares (by dsimp only [touches]; decide)
  · exact (sendReportTaken_frame s).spares (by dsimp only [touches]; decide)
  · split
    · exact ((mail_frame _ s).then (linkTakesOutcome_frame _ _ _)).spares (by dsimp only [touches]; decide)
    · exact .refl s
  · split
    · exact ((mail_frame _ s).then (loggedChange_frame _ _)).spares (by dsimp only [touches]; decide)
    · exact .refl s
  · exact ((mail_frame _ s).then (loggedChange_frame _ _)).spares (by dsimp only [touches]; decide)
  · exact (((mail_frame _ s).then (link_frame _ _)).then (relink_frame _)).spares (by dsimp only [touches]; decide)
  · exact (queueOutcomeTaken_frame s).spares (by dsimp only [touches]; decide)
  · exact (statusExpired_frame s).spares (by dsimp only [touches]; decide)
  · exact (undeliveredTaken_frame s).spares (by dsimp only [touches]; decide)
  · exact (sendNoticeTaken_frame s).spares (by dsimp only [touches]; decide)
  · exact (reportDoneTaken_frame s).spares (by dsimp only [touches]; decide)
  · exact (deadlineExpired_frame _ s).spares (by dsimp only [touches]; decide)
  · exact (unanswered_frame _ s).spares (by dsimp only [touches]; decide)
  · exact (endSuspension_frame s).spares (by dsimp only [touches]; decide)
  · exact (chime_frame _ s).spares (by dsimp only [touches]; decide)
  · exact (meterTick_frame s).spares (by dsimp only [touches]; decide)
  · exact (distancePulse_frame s).spares (by dsimp only [touches]; decide)
  · exact ((due_frame _ s).then (startWindow_frame _)).spares (by dsimp only [touches]; decide)
  · exact (markTaken_frame s).spares (by dsimp only [touches]; decide)
  · exact (additionTaken_frame s).spares (by dsimp only [touches]; decide)
  · exact (reminderExpired_frame s).spares (by dsimp only [touches]; decide)
  · exact (inputSample_frame _ s).spares (by dsimp only [touches]; decide)
  · exact (changeTaken_frame s).spares (by dsimp only [touches]; decide)
  · exact (callOutcomeTaken_frame s).spares (by dsimp only [touches]; decide)
  · exact (trackingExpired_frame s).spares (by dsimp only [touches]; decide)
  · exact (supplySample_frame _ s).spares (by dsimp only [touches]; decide)
  · exact (timeTick_frame s).spares (by dsimp only [touches]; decide)
  · exact (inputSample_frame _ s).spares (by dsimp only [touches]; decide)
  · exact (receiveBits_frame _ s).spares (by dsimp only [touches]; decide)
  · exact (headerTaken_frame _ s).spares (by dsimp only [touches]; decide)
  · exact (backToHunt_frame s).spares (by dsimp only [touches]; decide)

/-- A host write is one to CONTROL or leaves those parts alone. -/
theorem hostWrite_spares (off : Nat) (v : Word) (s : State) :
    hostWrite off v s = controlWrite s ∨ Spares [] s (hostWrite off v s) := by
  have ite : ∀ {c : Prop} [Decidable c] {t u : State}, Spares [] s t → Spares [] s u →
      Spares [] s (if c then t else u) := fun h k => by split <;> assumption
  unfold hostWrite
  split
  · exact .inr ((storeWord_frame _ _ s).spares (by decide))
  · exact .inr ((positionWrite_frame _ _ s).spares (by decide))
  · exact .inr ((exchangeFault_frame _ s).spares (by decide))
  · exact .inr ((exchangeFault_frame _ s).spares (by decide))
  · exact .inr (ite ((requestHand_frame _ _ s).spares (by decide)) ((slotDataWrite_frame _ _ _ s).spares (by decide)))
  · exact .inr (ite ((boxHand_frame _ _ s).spares (by decide)) ((slotDataWrite_frame _ _ _ s).spares (by decide)))
  · exact .inr (ite ((recordHand_frame _ _ s).spares (by decide)) ((slotDataWrite_frame _ _ _ s).spares (by decide)))
  · exact .inl rfl
  · exact .inr ((maskWrite_frame _ s).spares (by decide))
  · exact .inr (.refl s)
  · exact .inr (.refl s)
  · exact .inr (.refl s)

/-! ### The Offer Table (R97) -/

/-- The state of a place, and its number. -/
def State.placeState (s : State) (j : Place) : PlaceState := (pick s.offers.places j).state

/-- Every open entry was open with its number, and every taken one taken. -/
def Fewer (s t : State) : Prop := ∀ j : Place,
  ((t.placeState j).isOpen = true → (s.placeState j).isOpen = true ∧
    (pick t.offers.places j).number = (pick s.offers.places j).number) ∧
  ((t.placeState j).isTaken = true → (s.placeState j).isTaken = true)

/-- A sound table stays sound. -/
def KeepsOffers (s t : State) : Prop := s.offersSound → t.offersSound

theorem Fewer.of_places {s t : State} (h : t.offers.places = s.offers.places) : Fewer s t := fun j => by
  unfold State.placeState
  rw [h]
  exact ⟨fun k => ⟨k, rfl⟩, id⟩

theorem Fewer.refl (s : State) : Fewer s s := .of_places rfl

theorem Fewer.trans {s t u : State} (h : Fewer s t) (k : Fewer t u) : Fewer s u := fun j =>
  ⟨fun o => ⟨((h j).1 ((k j).1 o).1).1, ((k j).1 o).2.trans ((h j).1 ((k j).1 o).1).2⟩, fun o => (h j).2 ((k j).2 o)⟩

theorem Fewer.ite {s t u : State} {c : Prop} [Decidable c] (h : Fewer s t) (k : Fewer s u) :
    Fewer s (if c then t else u) := by
  split <;> assumption

theorem Fewer.keeps {s t : State} (h : Fewer s t) : KeepsOffers s t := fun q =>
  ⟨fun i j hi hj => q.1 i j ((h i).2 hi) ((h j).2 hj), fun i j hi hj e => by
    obtain ⟨oi, ni⟩ := (h i).1 hi
    obtain ⟨oj, nj⟩ := (h j).1 hj
    exact q.2 i j oi oj (ni.symm.trans (e.trans nj))⟩

theorem KeepsOffers.trans {s t u : State} (h : KeepsOffers s t) (k : KeepsOffers t u) : KeepsOffers s u :=
  fun q => k (h q)

theorem KeepsOffers.ite {s t u : State} {c : Prop} [Decidable c] (h : KeepsOffers s t) (k : KeepsOffers s u) :
    KeepsOffers s (if c then t else u) := by
  split <;> assumption

theorem Frame.fewer {a : List Part} {p : Nat → Prop} {s t : State} (f : Frame a p s t) (h : Part.offers ∉ a) :
    Fewer s t := .of_places (by rw [f.offers h])

theorem PlaceState.open_of_taken {x : PlaceState} (h : x.isTaken = true) : x.isOpen = true := by
  cases x <;> first | rfl | cases h

/-- A place whose entry closes, or changes within its bounds. -/
theorem setPlace_fewer {i : Place} {p : OfferPlace} {s : State}
    (h1 : p.state.isOpen = true → (s.placeState i).isOpen = true ∧ p.number = (pick s.offers.places i).number)
    (h2 : p.state.isTaken = true → (s.placeState i).isTaken = true) : Fewer s (setPlace i p s) := fun j => by
  have e : pick (setPlace i p s).offers.places j = if j = i then p else pick s.offers.places j :=
    pick_put s.offers.places i j p
  unfold State.placeState at *
  rw [e]
  split
  · rename_i hj
    rw [hj]
    exact ⟨h1, h2⟩
  · exact ⟨fun k => ⟨k, rfl⟩, id⟩

theorem closePlace_fewer (i : Place) {st : PlaceState} (h : st.isOpen = false) (s : State) :
    Fewer s (closePlace i st s) := by
  have k : Fewer s (setPlace i (closedAs i st s) s) := by
    refine setPlace_fewer (fun o => ?_) fun o => ?_
    · exact absurd (h.symm.trans o) (by decide)
    · exact absurd (h.symm.trans (PlaceState.open_of_taken o)) (by decide)
  by_cases e : st = .expired
  · subst e
    rw [closePlace_expired]
    exact k
  · rw [closePlace_eq i e]
    exact k

theorem cancelWhere_fewer (p : OfferPlace → Bool) (s : State) : Fewer s (cancelWhere p s) := by
  obtain ⟨ps, e, hp⟩ := cancelWhere_eq p s
  intro j
  rw [e]
  unfold State.placeState
  dsimp only
  rw [hp]
  unfold cancelledPlace
  split
  · exact ⟨fun h => absurd h (by decide : ¬ PlaceState.cancelled.isOpen = true),
      fun h => absurd h (by decide : ¬ PlaceState.cancelled.isTaken = true)⟩
  · exact ⟨fun h => ⟨h, rfl⟩, id⟩

theorem endAcceptance_fewer (i : Place) (o : ReqOutcome) (s : State) : Fewer s (endAcceptance i o s) := by
  have h1 : Fewer s (match s.offers.heldAccept with
      | some slot => completeRequest slot o i.val s
      | none => s) := by
    split
    · exact (completeRequest_frame _ o i.val s).fewer (by decide)
    · exact .refl s
  unfold endAcceptance
  dsimp only
  exact (h1.trans (.of_places rfl)).trans ((removeAccept_frame _ _).fewer (by decide))

theorem statusTrigger_fewer (s : State) : Fewer s (statusTrigger s) := (statusTrigger_frame s).fewer (by decide)

/-- A change of the Offer Manager's own fields, the table apart. -/
theorem Fewer.offers {s t : State} (h : Fewer s t) {o : OfferManager} (ho : o.places = t.offers.places) :
    Fewer s { t with offers := o } := h.trans (.of_places ho)

theorem Fewer.triggered {s t : State} (h : Fewer s t) : Fewer s (statusTrigger t) := h.trans (statusTrigger_fewer t)

theorem awardPlace_fewer {i : Place} {s : State} (h : (s.placeState i).isTaken = true) :
    Fewer s (awardPlace i s) := by
  have k : Fewer s (setPlace i { pick s.offers.places i with state := .awarded } s) :=
    setPlace_fewer (fun _ => ⟨PlaceState.open_of_taken h, rfl⟩) fun _ => h
  unfold awardPlace
  generalize setPlace i { pick s.offers.places i with state := .awarded } s = t at k
  exact k.trans (.of_places rfl)

theorem completing_fewer {s t : State} (h : Fewer s t) (i : Slot) (o : ReqOutcome) (d : Nat) :
    Fewer s (completeRequest i o d t) := h.trans ((completeRequest_frame _ _ _ _).fewer (by decide))

theorem takeHead_keepsOffers {judge : Slot → State → State} (h : ∀ i t, KeepsOffers t (judge i t)) (s : State) :
    KeepsOffers s (takeHead judge s) := by
  cases ho : s.port.order with
  | nil =>
    unfold takeHead
    rw [ho]
    exact id
  | cons i rest =>
    rw [takeHead_eq ho]
    have ht : Fewer s (s.taken rest) := (taken_frame s rest).fewer (by decide)
    exact (ht.keeps.trans (h i _)).ite (completing_fewer ht _ _ _).keeps

/-! #### Entries that open or are taken -/

theorem anyTaken_false {o : OfferManager} (h : o.anyTaken = false) (j : Place) :
    (pick o.places j).state.isTaken = false := by
  unfold OfferManager.anyTaken at h
  rw [List.any_eq_false] at h
  simpa using h j (by revert j; decide)

theorem findOpen_none {n : Nat} {o : OfferManager} (h : findOpen n o = none) (j : Place)
    (hj : (pick o.places j).state.isOpen = true) : (pick o.places j).number ≠ n := by
  unfold findOpen at h
  rw [List.find?_eq_none] at h
  have := h j (by clear hj; revert j; decide)
  simpa [hj] using this

theorem findOpen_some {n : Nat} {o : OfferManager} {i : Place} (h : findOpen n o = some i) :
    (pick o.places i).state.isOpen = true ∧ (pick o.places i).number = n := by
  have := List.find?_some h
  simpa using this

/-- R97: with no entry taken, one open entry may be taken. -/
theorem promote_keepsOffers {i : Place} {p : OfferPlace} {s : State} (ho : (s.placeState i).isOpen = true)
    (hn : p.number = (pick s.offers.places i).number) (ha : s.offers.anyTaken = false) :
    KeepsOffers s (setPlace i p s) := fun q => by
  have e : ∀ j, pick (setPlace i p s).offers.places j = if j = i then p else pick s.offers.places j := fun j =>
    pick_put s.offers.places i j p
  refine ⟨fun j k hj hk => ?_, fun j k hj hk => ?_⟩
  · rw [e] at hj hk
    split at hj <;> split at hk
    · simp_all
    · exact absurd hk (by rw [anyTaken_false ha]; decide)
    · exact absurd hj (by rw [anyTaken_false ha]; decide)
    · exact absurd hj (by rw [anyTaken_false ha]; decide)
  · rw [e, e]
    rw [e] at hj hk
    intro hx
    refine q.2 j k ?_ ?_ ?_
    · split at hj
      · rename_i h; rw [h]; exact ho
      · exact hj
    · split at hk
      · rename_i h; rw [h]; exact ho
      · exact hk
    · split at hx <;> split at hx <;> simp_all

/-- R97, R102: an entry of a number that no open entry carries may enter a place. -/
theorem enter_keepsOffers {i : Place} {p : OfferPlace} {s : State}
    (hn : ∀ j, (s.placeState j).isOpen = true → (pick s.offers.places j).number ≠ p.number)
    (ha : p.state.isTaken = true → s.offers.anyTaken = false) : KeepsOffers s (setPlace i p s) := fun q => by
  have e : ∀ j, pick (setPlace i p s).offers.places j = if j = i then p else pick s.offers.places j := fun j =>
    pick_put s.offers.places i j p
  refine ⟨fun j k hj hk => ?_, fun j k hj hk => ?_⟩
  · rw [e] at hj hk
    split at hj <;> split at hk
    · simp_all
    · exact absurd hk (by rw [anyTaken_false (ha hj)]; decide)
    · exact absurd hj (by rw [anyTaken_false (ha hk)]; decide)
    · exact q.1 j k hj hk
  · rw [e, e]
    rw [e] at hj hk
    intro hx
    split at hx <;> split at hx
    · simp_all
    · rw [if_neg (by assumption)] at hk
      exact absurd hx.symm (hn k hk)
    · rw [if_neg (by assumption)] at hj
      exact absurd hx (hn j hj)
    · rw [if_neg (by assumption)] at hj hk
      exact q.2 j k hj hk hx

/-! #### The Offer Manager's effects -/

theorem award_keepsOffers {i : Place} {s : State} (ho : (s.placeState i).isOpen = true)
    (ha : s.offers.anyTaken = false) : KeepsOffers s (awardPlace i s) := by
  have k : KeepsOffers s (setPlace i { pick s.offers.places i with state := .awarded } s) :=
    promote_keepsOffers ho rfl ha
  unfold awardPlace
  generalize setPlace i { pick s.offers.places i with state := .awarded } s = t at k
  exact k.trans (Fewer.of_places rfl).keeps

theorem awardHere_keepsOffers (n : Nat) (s : State) : KeepsOffers s (awardHere n s) := by
  unfold awardHere
  split
  · rename_i i hi
    have ho := (findOpen_some hi).1
    split
    · rename_i ha
      have k : Fewer s (awardPlace i s) := awardPlace_fewer (by unfold State.placeState; rw [ha]; rfl)
      exact (k.trans (endAcceptance_fewer _ _ _)).keeps
    · split
      · exact (((answerDecline_frame _ _ s).fewer (by decide)).trans (closePlace_fewer i rfl _)).keeps
      · rename_i hb
        simp only [Bool.or_eq_true, not_or, Bool.not_eq_true] at hb
        exact award_keepsOffers ho hb.1
    · exact id
  · split
    · exact id
    · exact ((answerDecline_frame _ _ s).fewer (by decide)).keeps

theorem awardElsewhere_fewer (n : Nat) (s : State) : Fewer s (awardElsewhere n s) := by
  unfold awardElsewhere
  split
  · split
    · exact (closePlace_fewer _ rfl s).trans (endAcceptance_fewer _ _ _)
    · exact closePlace_fewer _ rfl s
    · exact .refl s
  · exact .refl s

theorem takeWithdraw_fewer (n : Nat) (s : State) : Fewer s (takeWithdraw n s) := by
  unfold takeWithdraw
  split
  · exact Fewer.ite ((closePlace_fewer _ rfl s).trans (endAcceptance_fewer _ _ _)) (closePlace_fewer _ rfl s)
  · exact .refl s

theorem unanswered_fewer (i : Place) (s : State) : Fewer s (unanswered i s) :=
  (closePlace_fewer _ rfl s).trans (endAcceptance_fewer _ _ _)

theorem undeliveredTaken_fewer (s : State) : Fewer s (undeliveredTaken s) := by
  unfold undeliveredTaken takeUndelivered
  split
  · exact .refl s
  · rename_i n rest _
    have h := (mail_frame { s.mail with undelivered := rest } s).fewer (by decide)
    generalize ({ s with mail := { s.mail with undelivered := rest } } : State) = t at h
    split
    · exact h.trans (Fewer.ite (unanswered_fewer _ _) (.refl _))
    · exact h

theorem enterOffer_keepsOffers (i : Place) (p : OfferPlace) (s : State)
    (hn : ∀ j, (s.placeState j).isOpen = true → (pick s.offers.places j).number ≠ p.number)
    (ha : p.state.isTaken = true → s.offers.anyTaken = false) : KeepsOffers s (enterOffer i p s) := by
  have k : Fewer (setPlace i p s) (enterOffer i p s) := by
    unfold enterOffer
    dsimp only
    split <;> exact .of_places rfl
  exact (enter_keepsOffers hn ha).trans k.keeps

theorem anyTaken_of_fewer {s t : State} (h : Fewer s t) (ha : s.offers.anyTaken = false) :
    t.offers.anyTaken = false := by
  unfold OfferManager.anyTaken
  rw [List.any_eq_false]
  exact fun j _ k => absurd ((h j).2 k) (by unfold State.placeState; rw [anyTaken_false ha]; decide)

theorem placeOffer_keepsOffers (d : Bool) (p : OfferPlace) (s : State)
    (hn : ∀ j, (s.placeState j).isOpen = true → (pick s.offers.places j).number ≠ p.number)
    (ha : p.state.isTaken = true → s.offers.anyTaken = false) : KeepsOffers s (placeOffer d p s) := by
  have hc : ∀ t, Fewer t (countDrop t) := fun t => .of_places rfl
  unfold placeOffer
  split
  · exact enterOffer_keepsOffers _ p s hn ha
  · split
    · split
      · rename_i i _
        have h := (closePlace_fewer i (st := .dropped) rfl s).trans (hc _)
        refine h.keeps.trans (enterOffer_keepsOffers _ p _ (fun j hj => ?_) fun t => anyTaken_of_fewer h (ha t))
        rw [((h j).1 hj).2]
        exact hn j ((h j).1 hj).1
      · exact ((hc s).trans ((answerDecline_frame _ _ _).fewer (by decide))).keeps
    · exact (hc s).keeps

theorem takeOffer_keepsOffers (d : Bool) (p : OfferPlace) (s : State)
    (hp : p.state.isTaken = true → d = true ∧ p.assigned = true) : KeepsOffers s (takeOffer d p s) := by
  have hd : ∀ n r, KeepsOffers s (answerDecline n r s) := fun n r =>
    ((answerDecline_frame n r s).fewer (by decide)).keeps
  unfold takeOffer judgeOffer
  split
  · exact id
  · rename_i h1
    have hn : ∀ j, (s.placeState j).isOpen = true → (pick s.offers.places j).number ≠ p.number :=
      fun j => findOpen_none (by simpa using h1) j
    split
    · exact id
    · split
      · exact id
      · split
        · split
          · exact hd _ _
          · split
            · exact hd _ _
            · rename_i h2
              refine placeOffer_keepsOffers d p s hn fun t => ?_
              simp only [(hp t).2, Bool.true_and, Bool.or_eq_true, not_or, Bool.not_eq_true] at h2
              exact h2.2
        · rename_i h2
          exact KeepsOffers.ite (placeOffer_keepsOffers d p s hn fun t => absurd (hp t).1 h2) id

theorem offerTaken_keepsOffers {d : Bool} {p : OfferPlace} {s : State} (h : offerAtManager s = some (d, p))
    (t : State) : KeepsOffers t (takeOffer d p t) := by
  refine takeOffer_keepsOffers d p t fun k => ?_
  unfold offerAtManager at h
  split at h
  · split at h
    · cases h
      unfold newEntry at k ⊢
      dsimp only at k ⊢
      split at k
      · rename_i hc
        simpa using hc
      · cases k
    · cases h
  · cases h

theorem keepAcceptance_keepsOffers {slot : Slot} {i : Place} {s : State} (ho : (s.placeState i).isOpen = true)
    (ha : s.offers.anyTaken = false) : KeepsOffers s (keepAcceptance slot i s) := by
  have h : Fewer s (admitHost .jobAccept (be 2 (pick s.offers.places i).number) (some slot) s) :=
    (admitHost_frame _ _ _ s).fewer (by decide)
  have e : (admitHost .jobAccept (be 2 (pick s.offers.places i).number) (some slot) s).offers = s.offers :=
    (admitHost_frame _ _ _ s).offers (by decide)
  unfold keepAcceptance
  dsimp only
  generalize admitHost .jobAccept (be 2 (pick s.offers.places i).number) (some slot) s = t at h e
  refine (h.keeps.trans (promote_keepsOffers (i := i)
    (p := { pick s.offers.places i with state := .accepting, wait := s.working.awardWait }) ?_ ?_ ?_)).trans
    (((Fewer.refl _).offers (by rfl)).keeps)
  · unfold State.placeState
    rw [e]
    exact ho
  · rw [e]
  · rw [e]
    exact ha

theorem acceptOffer_keepsOffers (slot : Slot) (s : State) : KeepsOffers s (acceptOffer slot s) := by
  unfold acceptOffer
  split
  · exact (completing_fewer (.refl s) _ _ _).keeps
  · rename_i i hi
    split
    · exact (completing_fewer (.refl s) _ _ _).keeps
    · rename_i hr
      refine keepAcceptance_keepsOffers (findOpen_some hi).1 ?_
      unfold acceptRefusal at hr
      split_ifs at hr with h1 h2 h3 h4
      simpa using h4

theorem finishDecline_fewer (slot : Slot) (i : Place) (s : State) : Fewer s (finishDecline slot i s) := by
  have h : Fewer s (closePlace i (declineState (pick s.offers.places i)) s) :=
    closePlace_fewer i (by unfold declineState; split <;> rfl) s
  unfold finishDecline
  generalize closePlace i (declineState (pick s.offers.places i)) s = t at h
  exact completing_fewer (h.offers (by rfl)) _ _ _

theorem declineOffer_fewer (slot : Slot) (s : State) : Fewer s (declineOffer slot s) := by
  have hc : ∀ o d, Fewer s (completeRequest slot o d s) := completing_fewer (.refl s) slot
  unfold declineOffer
  split
  · exact hc _ _
  · dsimp only
    split
    · exact hc _ _
    · split
      · exact finishDecline_fewer _ _ s
      · split
        · exact ((admitHost_frame _ _ _ s).fewer (by decide)).trans (finishDecline_fewer _ _ _)
        · exact hc _ _

theorem setZone_fewer (slot : Slot) (s : State) : Fewer s (setZone slot s) := by
  have hc : ∀ o d, Fewer s (completeRequest slot o d s) := completing_fewer (.refl s) slot
  have h := cancelWhere_fewer OfferPlace.presentedZone s
  unfold setZone changeZone
  generalize cancelWhere OfferPlace.presentedZone s = t at h
  dsimp only
  split
  · exact hc _ _
  · split
    · exact hc _ _
    · exact completing_fewer (h.offers (by rfl)).triggered _ _ _

theorem closeOffDuty_fewer (s : State) : Fewer s (closeOffDuty s) := by
  have h := cancelWhere_fewer OfferPlace.presented s
  unfold closeOffDuty
  generalize cancelWhere OfferPlace.presented s = t at h
  exact h.offers (by rfl)

theorem closeEmergencyGate_fewer (s : State) : Fewer s (closeEmergencyGate s) := by
  have h := cancelWhere_fewer OfferPlace.presented s
  unfold closeEmergencyGate
  generalize cancelWhere OfferPlace.presented s = t at h
  exact h.offers (by rfl)

theorem resetOffers_fewer (s : State) : Fewer s (resetOffers s) := by
  have h := cancelWhere_fewer (fun p => p.state.isOpen) s
  unfold resetOffers
  generalize cancelWhere (fun p => p.state.isOpen) s = t at h
  exact h.offers (by rfl)

theorem setLatch_fewer (s : State) : Fewer s (setLatch s) := by
  have h := cancelWhere_fewer OfferPlace.presentedZone s
  unfold setLatch
  generalize cancelWhere OfferPlace.presentedZone s = t at h
  exact (h.offers (by rfl)).triggered

theorem deadlineExpired_fewer (i : Place) (s : State) : Fewer s (deadlineExpired i s) := by
  have h := closePlace_fewer i (st := .expired) rfl s
  unfold deadlineExpired
  generalize closePlace i .expired s = t at h
  have k : Fewer s { t with offers := { t.offers with expiries := expiriesAfter t.offers } } := h.offers (by rfl)
  exact Fewer.ite (k.trans (setLatch_fewer _)) k

theorem closeBaseGate_fewer (s : State) : Fewer s (closeBaseGate s) := by
  have h := cancelWhere_fewer OfferPlace.presented s
  unfold closeBaseGate
  generalize cancelWhere OfferPlace.presented s = t at h
  exact (h.offers (by rfl)).triggered

theorem suspendCab_fewer (a b : Nat) (s : State) : Fewer s (suspendCab a b s) := by
  unfold suspendCab
  dsimp only
  split
  · exact (Fewer.refl s).offers (by rfl)
  · exact ((Fewer.refl s).offers (by rfl)).trans (closeBaseGate_fewer _)

theorem endSuspension_fewer (s : State) : Fewer s (endSuspension s) := by
  unfold endSuspension
  exact ((Fewer.refl s).offers (by rfl)).triggered

theorem resumeOffers_fewer (slot : Slot) (s : State) : Fewer s (resumeOffers slot s) := by
  unfold resumeOffers clearLatch
  refine completing_fewer ?_ _ _ _
  dsimp only
  split
  · exact ((Fewer.refl s).offers (by rfl)).triggered
  · exact (Fewer.refl s).offers (by rfl)

theorem startJob_fewer (s : State) : Fewer s (startJob s) := by
  unfold startJob
  split
  · exact closePlace_fewer _ rfl s
  · exact .refl s

theorem meterHire_fewer (i : Slot) (s : State) : Fewer s (meterHire i s) := by
  have hc : ∀ o d, Fewer s (completeRequest i o d s) := completing_fewer (.refl s) i
  have h : Fewer s (hire (hireTariff s.fare.chosen (param1 s.ram i)) s) := by
    unfold hire
    dsimp only
    exact (((startJob_fewer s).trans ((fare_frame _ _).fewer (by decide))).trans
      ((forgetRemainder_frame _ _).fewer (by decide))).trans ((meterChanged_frame _).fewer (by decide))
  unfold meterHire
  dsimp only
  exact (hc _ _).ite ((hc _ _).ite ((hc _ _).ite (completing_fewer h _ _ _)))

theorem dutyOn_fewer (i : Slot) (s : State) : Fewer s (dutyOn i s) := by
  have h : Fewer s (openShift s) := by
    unfold openShift openOffDuty
    exact ((Fewer.trans (t := { s with fare := _, limiter := _ })
      ((fareLimiter_frame _ _ s).fewer (by decide)) (.refl _)).offers (by rfl)).triggered
  exact (completing_fewer (.refl s) _ _ _).ite (completing_fewer h _ _ _)

theorem dutyOff_fewer (i : Slot) (s : State) : Fewer s (dutyOff i s) := by
  unfold dutyOff
  split
  · exact completing_fewer (.refl s) _ _ _
  · split
    · exact completing_fewer (.refl s) _ _ _
    · rename_i p _
      refine completing_fewer ?_ _ _ _
      have h := (postRecord_frame p (.shift (shiftRecord s.fare s.cycle.fleet)) s).fewer (by decide)
      unfold closeShift
      generalize postRecord p (.shift (shiftRecord s.fare s.cycle.fleet)) s = t at h
      dsimp only
      have k := h.trans ((fare_frame { t.fare with duty := .off } t).fewer (by decide))
      exact (k.trans (closeOffDuty_fewer _)).triggered

theorem gateTakesChange_fewer (s : State) : Fewer s (gateTakesChange s) := by
  unfold gateTakesChange
  split
  · exact .refl s
  · rename_i leaving rest _
    have h := (mail_frame { s.mail with gateChanges := rest } s).fewer (by decide)
    generalize ({ s with mail := { s.mail with gateChanges := rest } } : State) = t at h
    exact h.trans (Fewer.ite (closeEmergencyGate_fewer t) ((Fewer.refl t).offers (by rfl)))

theorem takesChange_fewer (n : Neighbour) (s : State) : Fewer s (takesChange n s) := by
  cases n
  · exact gateTakesChange_fewer s
  · exact (fareTakesEmergency_frame s).fewer (by decide)
  · exact (lampTakesChange_frame s).fewer (by decide)

theorem changeTaken_fewer (s : State) : Fewer s (changeTaken s) := by
  obtain ⟨-, h⟩ | ⟨n, -, h⟩ := changeTaken_cases s
  · rw [h]; exact .refl s
  · rw [h]; exact ((free_frame _ s).fewer (by decide)).trans (takesChange_fewer n _)

theorem timeTick_fewer (s : State) : Fewer s (timeTick s) := by
  unfold timeTick
  dsimp only
  split
  · intro j
    have e : pick (s.offers.places.map OfferPlace.second) j = (pick s.offers.places j).second :=
      Vector.getElem_map _ _
    unfold State.placeState secondPasses
    dsimp only
    rw [e]
    unfold OfferPlace.second
    split <;> exact ⟨fun h => ⟨h, rfl⟩, id⟩
  · exact .of_places rfl

theorem runWrite_fewer (s : State) : Fewer s (runWrite s) := by
  unfold runWrite
  refine Fewer.trans ?_ (((rewritePart_frame _).then (setNews_frame .settings _)).fewer (by decide))
  split
  · exact (settings_frame _ s).fewer (by decide)
  · unfold enterRunning eitherOrder
    dsimp only
    have h : Fewer s (takeUpSettings (readSettings s.ram) s) := .of_places rfl
    generalize takeUpSettings (readSettings s.ram) s = t at h
    exact h.trans (((statusTrigger_frame t).then (reportFeed_frame _)).fewer (by decide))

theorem softReset_fewer (s : State) : Fewer s (softReset s) := by
  unfold softReset
  have f (t : State) := ((resetEmergency_frame t).then (resetFreely_frame _)).fewer (by decide)
  refine Fewer.trans ?_ (f _)
  have h := ((((resetPort_frame s).then (cutSending_frame .reset _)).then (resetTracker_frame _)).then
    (resetLink_frame _)).fewer (by decide)
  generalize resetLink (resetTracker (cutSending .reset (resetPort s))) = t at h
  exact h.trans (resetOffers_fewer t)

theorem controlWrite_fewer (s : State) : Fewer s (controlWrite s) := (softReset_fewer s).ite (runWrite_fewer s)

theorem Spares.fewer {l : List Part} {s t : State} (h : Spares l s t) (k : Part.offers ∉ l) : Fewer s t :=
  .of_places (by rw [(h .offers (by decide) k : t.offers = s.offers)])

theorem hostWrite_fewer (off : Nat) (v : Word) (s : State) : Fewer s (hostWrite off v s) := by
  obtain h | h := hostWrite_spares off v s
  · rw [h]
    exact controlWrite_fewer s
  · exact h.fewer (by decide)

/-- Every effect keeps the Offer Table sound. -/
theorem effect_keepsOffers (c : Instr) (s : State) : KeepsOffers s (effect c s) := by
  have own : Fewer s (takenByOwner s) := .of_places rfl
  cases c
  case hostSlotDataWrite => exact (hostWrite_fewer _ _ s).keeps
  case fixedBlockWrite => exact (hostWrite_fewer _ _ s).keeps
  case registerWrite => exact (hostWrite_fewer _ _ s).keeps
  case run => exact (controlWrite_fewer s).keeps
  case softReset => exact (controlWrite_fewer s).keeps
  case dutyOn => exact takeHead_keepsOffers (fun i t => (dutyOn_fewer i t).keeps) s
  case dutyOff => exact takeHead_keepsOffers (fun i t => (dutyOff_fewer i t).keeps) s
  case setZone => exact takeHead_keepsOffers (fun i t => (setZone_fewer i t).keeps) s
  case meterHire => exact takeHead_keepsOffers (fun i t => (meterHire_fewer i t).keeps) s
  case acceptOffer => exact takeHead_keepsOffers acceptOffer_keepsOffers s
  case declineOffer => exact takeHead_keepsOffers (fun i t => (declineOffer_fewer i t).keeps) s
  case resumeOffers => exact takeHead_keepsOffers (fun i t => (resumeOffers_fewer i t).keeps) s
  case jobOffer =>
    unfold effect
    dsimp only
    split
    · rename_i h
      exact own.keeps.trans (offerTaken_keepsOffers h _)
    · exact id
  case jobAward =>
    unfold effect
    dsimp only
    split
    · exact own.keeps.trans ((awardHere_keepsOffers _ _).ite (awardElsewhere_fewer _ _).keeps)
    · exact id
  case jobWithdraw =>
    unfold effect
    dsimp only
    split
    · exact (own.trans (takeWithdraw_fewer _ _)).keeps
    · exact id
  case cabSuspend =>
    unfold effect
    dsimp only
    split
    · exact (own.trans (suspendCab_fewer _ _ _)).keeps
    · exact id
  case cabResume => exact (own.trans ((endSuspension_fewer _).ite (.refl _))).keeps
  case acceptUndelivered => exact (undeliveredTaken_fewer s).keeps
  case offerDeadlineExpiry i => exact (deadlineExpired_fewer i s).keeps
  case awardWaitExpiry i => exact (unanswered_fewer i s).keeps
  case baseSuspensionExpiry => exact (endSuspension_fewer s).keeps
  case emergencyStateChange => exact (changeTaken_fewer s).keeps
  case timeBaseTick => exact (timeTick_fewer s).keeps
  all_goals exact ((effect_touches _ s).fewer (by dsimp only [touches]; decide)).keeps

end Sys2Proof.Machine
end

