-- ==== Sys2Proof/Laws/Radio.lean ====
section
/-! SUPPORT. What every command keeps of the sending (R46) and of the link state (R88). -/

namespace Sys2Proof.Machine

/-! ### RUNNING is left by no command -/

theorem replaceSettings_running (i : Slot) (s : State) : (replaceSettings i s).running = s.running := by
  have h : ∀ w, (changeSettings w s).running = s.running := fun w => by
    have k : (adoptSettings w s).running = s.running := by
      unfold adoptSettings
      dsimp only
      rw [((forgetRemainder_frame _ _).then (judgeLamp_frame _)).running (by decide)]
      rfl
    unfold changeSettings
    dsimp only
    split
    · rw [(reportFeed_frame _).running (by decide), k]
    · exact k
  unfold replaceSettings
  split
  · exact (completeRequest_frame _ _ _ s).running (by decide)
  · split
    · exact (completeRequest_frame _ _ _ s).running (by decide)
    · rw [(completeRequest_frame _ _ _ _).running (by decide), h]

theorem takeReplace_running (s : State) : (takeHead replaceSettings s).running = s.running := by
  cases ho : s.port.order with
  | nil =>
    unfold takeHead
    rw [ho]
  | cons i rest =>
    rw [takeHead_eq ho]
    split
    · exact replaceSettings_running i _
    · exact (completeRequest_frame _ _ _ _).running (by decide)

/-! ### The sending (R46) -/

/-- R44, R46: the shifter works only while the supply is OK and the part is RUNNING and synchronised. -/
def State.sendingSound (s : State) : Prop :=
  s.tx.shifter ≠ .idle → s.supply.state = .ok ∧ s.running = true ∧ s.cycle.synced = true

/-- A sound sending stays sound. -/
def KeepsSending (s t : State) : Prop := s.sendingSound → t.sendingSound

theorem KeepsSending.of_idle {s t : State} (h : t.tx.shifter = .idle) : KeepsSending s t := fun _ n => absurd h n

theorem KeepsSending.of_le {s t : State} (h1 : t.tx.shifter ≠ .idle → s.tx.shifter ≠ .idle)
    (h2 : t.supply = s.supply) (h3 : t.running = s.running) (h4 : s.cycle.synced = true → t.cycle.synced = true) :
    KeepsSending s t := fun q n => by
  obtain ⟨a, b, c⟩ := q (h1 n)
  rw [h2, h3]
  exact ⟨a, b, h4 c⟩

theorem Spares.keepsSending {l : List Part} {s t : State} (h : Spares l s t) (h1 : Part.tx ∉ l)
    (h2 : Part.supply ∉ l) (h3 : Part.settings ∉ l) (h4 : s.cycle.synced = true → t.cycle.synced = true) :
    KeepsSending s t :=
  .of_le (fun n => by rwa [(h .tx (by decide) h1 : t.tx = s.tx)] at n) (h .supply (by decide) h2)
    (by unfold State.running; rw [(h .settings (by decide) h3 : t.settings = s.settings)]) h4

theorem Spares.synced {l : List Part} {s t : State} (h : Spares l s t) (k : Part.cycle ∉ l) :
    s.cycle.synced = true → t.cycle.synced = true := fun n => by
  rwa [(h .cycle (by decide) k : t.cycle = s.cycle)]

theorem cutSending_idle (c : CutCause) (s : State) : (cutSending c s).tx.shifter = .idle := by
  rw [cutSending_eq]

theorem softReset_idle (s : State) : (softReset s).tx.shifter = .idle := by
  have f (t : State) := (((((resetTracker_frame t).then (resetLink_frame _)).then (resetOffers_frame _)).then
    (resetEmergency_frame _)).then (resetFreely_frame _)).tx (by decide)
  unfold softReset
  rw [f]
  exact cutSending_idle _ _

theorem controlWrite_keepsSending (s : State) : KeepsSending s (controlWrite s) := by
  unfold controlWrite
  split
  · exact .of_idle (softReset_idle s)
  · rename_i h
    refine fun q n => ?_
    rw [(runWrite_frame s).tx (by decide)] at n
    exact absurd (q n).2.1 h

theorem hostWrite_keepsSending (off : Nat) (v : Word) (s : State) : KeepsSending s (hostWrite off v s) := by
  obtain h | h := hostWrite_spares off v s
  · rw [h]
    exact controlWrite_keepsSending s
  · exact h.keepsSending (by decide) (by decide) (by decide) (h.synced (by decide))

theorem takeBeacon_synced (first : Bool) (h : HeldFrame) (a b c d : Nat) (acks : List Nat) (s : State) :
    (takeBeacon first h a b c d acks s).cycle.synced = true := by
  unfold takeBeacon
  rw [chooseFrame_synced, (linkBeforeChoice_frame _ _).cycle (by decide), (takeDeliveries_frame _).cycle (by decide)]
  rfl

theorem beacon_keepsSending (s : State) : KeepsSending s (effect .beacon s) := by
  refine (effect_touches .beacon s).keepsSending (by decide) (by decide) (by decide) fun hs => ?_
  unfold effect
  dsimp only
  split
  · exact takeBeacon_synced _ _ _ _ _ _ _ _
  · exact hs

theorem missBeacon_keepsSending (d : Nat) (s : State) : KeepsSending s (missBeacon d s) := by
  have f := ((mail_frame { s.mail with linkReports := s.mail.linkReports ++ [.beaconMissed] }
    { s with cycle := { s.cycle with missedRun := bump 3 s.cycle.missedRun } }).then (settleByMiss_frame _))
  have hs : ∀ t, (settleByMiss t).cycle.synced = t.cycle.synced := fun t => by
    unfold settleByMiss
    split
    · rfl
    · exact settle_synced _ _
  unfold missBeacon loseSync
  dsimp only
  split
  · exact .of_idle (cutSending_idle _ _)
  · refine .of_le (fun n => ?_) ?_ ?_ fun h => ?_
    · change (settleByMiss _).tx.shifter ≠ _ at n
      rwa [(settleByMiss_frame _).tx (by decide)] at n
    · exact (settleByMiss_frame _).supply (by decide)
    · exact (settleByMiss_frame _).running (by decide)
    · exact (hs _).trans h

theorem requestSend_keepsSending (kind : Uplink) (payload : List Byte) (s : State) :
    KeepsSending s (requestSend kind payload s) := by
  unfold requestSend
  split
  · exact .of_le (fun n => by rwa [(settle_frame _ _).tx (by decide)] at n) ((settle_frame _ s).supply (by decide))
      ((settle_frame _ s).running (by decide)) fun h => (settle_synced _ _).trans h
  · rename_i h
    simp only [sendRefused, Bool.or_eq_true, not_or, Bool.not_eq_true] at h
    obtain ⟨⟨⟨-, h2⟩, h3⟩, h4⟩ := h
    refine fun _ _ => ⟨?_, ?_, ?_⟩
    · change s.supply.state = .ok
      cases hx : s.supply.state
      · rfl
      · rw [hx] at h2
        cases h2
    · change s.running = true
      simpa using h3
    · change s.cycle.synced = true
      simpa using h4

theorem startSlot_keepsSending (s : State) : KeepsSending s (startSlot s) := by
  have hd : KeepsSending s (dropFrame s) := .of_le id rfl rfl id
  unfold startSlot
  split
  · split
    · exact hd
    · exact fun q => requestSend_keepsSending _ _ (markInFlight _ s) q
  · split
    · exact hd
    · exact requestSend_keepsSending _ _ s

theorem sendReportTaken_synced (s : State) (h : s.cycle.synced = true) : (sendReportTaken s).cycle.synced = true := by
  unfold sendReportTaken
  split
  · exact h
  · unfold takeSendReport
    split
    · split
      · exact h
      · exact (settle_synced _ _).trans h
      · exact (settle_synced _ _).trans h
      · exact h
      · exact h
    · exact h

theorem supplySample_keepsSending (v : Nat) (s : State) : KeepsSending s (supplySample v s) := by
  unfold supplySample
  dsimp only
  split
  · rename_i h
    intro q n
    obtain ⟨a, b⟩ := q n
    exact ⟨h.trans a, b⟩
  · rename_i h
    unfold supplyChanged
    dsimp only
    split
    · exact .of_idle (cutSending_idle _ _)
    · rename_i k
      intro q n
      obtain ⟨-, b⟩ := q n
      refine ⟨?_, b⟩
      change (s.supply.judged s.threshold (clampSample v)).state = .ok
      change ¬ (s.supply.judged s.threshold (clampSample v)).state = .low at k
      cases hx : (s.supply.judged s.threshold (clampSample v)).state
      · rfl
      · exact absurd hx k

theorem timeTick_keepsSending (s : State) : KeepsSending s (timeTick s) := by
  have h : s.tx.tick.shifter = s.tx.shifter := by
    unfold Transmitter.tick
    split <;> rfl
  unfold timeTick
  dsimp only
  split <;> exact .of_le (fun n => by change s.tx.tick.shifter ≠ _ at n; rwa [h] at n) rfl rfl id

theorem untouched_keepsSending (c : Instr) (s : State)
    (h : Part.tx ∉ touches c ∧ Part.supply ∉ touches c ∧ Part.settings ∉ touches c ∧ Part.cycle ∉ touches c) :
    KeepsSending s (effect c s) :=
  (effect_touches c s).keepsSending h.1 h.2.1 h.2.2.1 ((effect_touches c s).synced h.2.2.2)

/-- Every effect, where its occasion holds, keeps the sending sound. -/
theorem effect_keepsSending {c : Instr} {s : State} (ho : occasion c s = true) : KeepsSending s (effect c s) := by
  cases c
  case hostSlotDataWrite => exact hostWrite_keepsSending _ _ s
  case fixedBlockWrite => exact hostWrite_keepsSending _ _ s
  case registerWrite => exact hostWrite_keepsSending _ _ s
  case run => exact controlWrite_keepsSending s
  case softReset => exact controlWrite_keepsSending s
  case replaceSettings =>
    have h := effect_touches .replaceSettings s
    exact .of_le (fun n => by rwa [(h .tx (by decide) (by decide) : _ = s.tx)] at n)
      (h .supply (by decide) (by decide)) (takeReplace_running s) (h.synced (by decide))
  case beacon => exact beacon_keepsSending s
  case beaconMissed =>
    unfold effect
    dsimp only
    split
    · exact missBeacon_keepsSending _ s
    · exact id
  case slotStart => exact startSlot_keepsSending s
  case keyingEnd =>
    intro q _
    refine q fun n => ?_
    unfold occasion at ho
    rw [n] at ho
    cases ho
  case frameSent => exact .of_idle rfl
  case slotEnd => exact .of_idle (cutSending_idle _ s)
  case sendReport =>
    exact (effect_touches .sendReport s).keepsSending (by decide) (by decide) (by decide)
      (sendReportTaken_synced s)
  case supplySample v => exact supplySample_keepsSending v s
  case timeBaseTick => exact timeTick_keepsSending s
  all_goals exact untouched_keepsSending _ s (by dsimp only [touches]; decide)

/-! ### The link state (R88) -/

/-- A sound link state stays sound. -/
def KeepsLink (s t : State) : Prop := s.linkSound → t.linkSound

theorem deriveLink_eq (r : Bool) (l : LinkUnit) : deriveLink (!r) l = linkStateOf r l := by
  unfold deriveLink linkStateOf
  cases r <;> simp

theorem linkStateOf_state (r : Bool) (l : LinkUnit) (x : LinkState) :
    linkStateOf r { l with state := x } = linkStateOf r l := rfl

theorem KeepsLink.trans {s t u : State} (h : KeepsLink s t) (k : KeepsLink t u) : KeepsLink s u := fun q => k (h q)

theorem KeepsLink.of_eq {s t : State} (h1 : t.link = s.link) (h2 : t.running = s.running)
    (h3 : s.running = false → s.rx.held = none → t.rx.held = none) : KeepsLink s t := fun q => by
  unfold State.linkSound
  rw [h1, h2]
  exact ⟨q.1, fun n => ⟨(q.2 n).1, h3 n (q.2 n).2⟩⟩

theorem Frame.keepsLink {a : List Part} {p : Nat → Prop} {s t : State} (f : Frame a p s t) (h1 : Part.link ∉ a)
    (h2 : Part.settings ∉ a) (h3 : Part.rx ∉ a) : KeepsLink s t :=
  .of_eq (f.link h1) (f.running h2) fun _ n => by rwa [f.rx h3]

/-- R88: after the unit has derived its state afresh. -/
theorem relink_linkSound {s : State} (h : s.running = false → s.link.searching = true ∧ s.rx.held = none) :
    (relink s).linkSound := by
  have e : (relink s).link = { s.link with state := linkStateOf s.running s.link } := by
    rw [relink_eq, newsIf_link, deriveLink_eq]
  have r := (relink_frame s).running (by decide)
  unfold State.linkSound
  rw [r, e, (relink_frame s).rx (by decide)]
  exact ⟨rfl, h⟩

theorem loggedChange_linkSound {f : LinkUnit → LinkUnit} {s : State}
    (hf : s.link.searching = true → (f s.link).searching = true)
    (h : s.running = false → s.link.searching = true ∧ s.rx.held = none) : (loggedChange f s).linkSound := by
  unfold loggedChange
  refine relink_linkSound fun n => ?_
  have n' : s.running = false := by
    rw [← n]
    unfold State.running
    rw [newsIf_settings]
  rw [newsIf_link, newsIf_rx]
  exact ⟨hf (h n').1, (h n').2⟩

theorem downError_searching (e : LinkError) (l : LinkUnit) : (l.downError e).searching = l.searching := by
  unfold LinkUnit.downError LinkUnit.logged
  dsimp only
  split <;> rfl

theorem missed_searching (l : LinkUnit) : l.missed.searching = l.searching := by
  have h : l.missedUfc.searching = l.searching := by
    unfold LinkUnit.missedUfc LinkUnit.withdraw
    repeat' split
    all_goals rfl
  unfold LinkUnit.missed LinkUnit.logged
  dsimp only
  split <;> exact h

theorem linkTakes_keepsLink (r : LinkReport) (s : State) : KeepsLink s (linkTakes r s) := by
  intro q
  cases r with
  | beaconMissed => exact loggedChange_linkSound (fun h => (downError_searching _ _).trans h) q.2
  | syncLost => exact relink_linkSound fun n => ⟨rfl, (q.2 n).2⟩
  | outcome o f =>
    change (linkTakesOutcome o f s).linkSound
    unfold linkTakesOutcome
    split
    · split
      · exact relink_linkSound q.2
      · exact loggedChange_linkSound (fun h => (missed_searching _).trans h) q.2
      · exact q
    · exact q

theorem drainLinkReports_keepsLink (l : List LinkReport) (s : State) : KeepsLink s (drainLinkReports l s) := by
  induction l generalizing s with
  | nil => exact id
  | cons r l ih => exact (linkTakes_keepsLink r s).trans (ih _)

theorem linkBeforeChoice_keepsLink (first : Bool) (s : State) : KeepsLink s (linkBeforeChoice first s) := by
  unfold linkBeforeChoice
  split
  · exact id
  · split
    · exact KeepsLink.trans (t := { s with mail := { s.mail with linkReports := [] } })
        (.of_eq rfl rfl fun _ => id) (drainLinkReports_keepsLink _ _)
    · exact id

theorem takenByOwner_keepsLink (s : State) : KeepsLink s (takenByOwner s) :=
  .of_eq rfl rfl fun _ n => by
    unfold takenByOwner
    dsimp only
    rw [n]
    rfl

theorem own_keepsLink {a : List Part} {p : Nat → Prop} {s t : State} (f : Frame a p (takenByOwner s) t)
    (h1 : Part.link ∉ a) (h2 : Part.settings ∉ a) (h3 : Part.rx ∉ a) : KeepsLink s t :=
  (takenByOwner_keepsLink s).trans (f.keepsLink h1 h2 h3)

theorem takeBeacon_keepsLink (first : Bool) (h : HeldFrame) (a b c d : Nat) (acks : List Nat) (s : State) :
    KeepsLink s (takeBeacon first h a b c d acks s) := by
  have h1 : KeepsLink s (if (takenByOwner s).cycle.synced then settleByBeacon acks (takenByOwner s)
      else takenByOwner s) := by
    split
    · exact own_keepsLink (settleByBeacon_frame _ _) (by decide) (by decide) (by decide)
    · exact takenByOwner_keepsLink s
  unfold takeBeacon
  dsimp only
  generalize (if (takenByOwner s).cycle.synced then settleByBeacon acks (takenByOwner s)
      else takenByOwner s) = t at h1
  have h2 := h1.trans (((storeBeacon_frame h.endInstant a b c d t).then (takeDeliveries_frame _)).keepsLink
    (by decide) (by decide) (by decide))
  generalize takeDeliveries (storeBeacon h.endInstant a b c d t) = u at h2
  exact (h2.trans (linkBeforeChoice_keepsLink _ u)).trans ((chooseFrame_frame _).keepsLink (by decide) (by decide)
    (by decide))

theorem takenByLink_held {s : State} (h : s.rx.held = none) : (takenByLink s).rx.held = none := by
  unfold takenByLink
  dsimp only
  rw [h]
  rfl

theorem goodBeacon_keepsLink {s : State} (h : beaconForLink s = true) :
    KeepsLink s (relink { takenByLink s with link := s.link.goodBeacon }) := fun q =>
  relink_linkSound fun n => by
    unfold beaconForLink at h
    rw [(q.2 n).2] at h
    cases h

theorem softReset_keepsLink {s : State} (hr : s.running = true) : KeepsLink s (softReset s) := by
  intro _
  have f := ((resetPort_frame s).then (cutSending_frame .reset _)).then (resetTracker_frame _) |>.running (by decide)
  unfold softReset
  generalize resetTracker (cutSending .reset (resetPort s)) = t at f
  have h : (resetLink t).linkSound := relink_linkSound fun n => by
    have n : t.running = false := n
    rw [f, hr] at n
    cases n
  exact (((resetOffers_frame _).then (resetEmergency_frame _)).then (resetFreely_frame _)).keepsLink (by decide)
    (by decide) (by decide) h

theorem runWrite_keepsLink {s : State} (hr : s.running = false) : KeepsLink s (runWrite s) := by
  intro q
  have f := runWrite_frame s
  have hs : ∀ r, linkStateOf r s.link = .search := fun r => by
    unfold linkStateOf
    rw [if_pos (.inr (q.2 hr).1)]
  have h := q.1
  unfold State.linkSound
  rw [f.link (by decide), f.rx (by decide), hs]
  rw [hr, hs] at h
  exact ⟨h, fun _ => q.2 hr⟩

theorem controlWrite_keepsLink (s : State) : KeepsLink s (controlWrite s) := by
  unfold controlWrite
  split
  · exact softReset_keepsLink (by assumption)
  · rename_i h
    exact runWrite_keepsLink (by simpa using h)

theorem Spares.keepsLink {l : List Part} {s t : State} (h : Spares l s t) (h1 : Part.link ∉ l)
    (h2 : Part.settings ∉ l) (h3 : s.running = false → s.rx.held = none → t.rx.held = none) : KeepsLink s t :=
  .of_eq (h .link (by decide) h1) (by unfold State.running; rw [(h .settings (by decide) h2 : _ = s.settings)]) h3

theorem Spares.held {l : List Part} {s t : State} (h : Spares l s t) (k : Part.rx ∉ l) (n : s.rx.held = none) :
    t.rx.held = none := by
  rwa [(h .rx (by decide) k : t.rx = s.rx)]

theorem hostWrite_keepsLink (off : Nat) (v : Word) (s : State) : KeepsLink s (hostWrite off v s) := by
  obtain h | h := hostWrite_spares off v s
  · rw [h]
    exact controlWrite_keepsLink s
  · exact h.keepsLink (by decide) (by decide) fun _ => h.held (by decide)

theorem takeClearLog_keepsLink (s : State) : KeepsLink s (takeHead clearLinkLog s) := by
  have hc : ∀ i t, KeepsLink t (clearLinkLog i t) := fun i t => by
    have k : KeepsLink t (rewriteLink { t with link := { t.link with log := 0, overflowed := false } }) := id
    exact k.trans ((completeRequest_frame _ _ _ _).keepsLink (by decide) (by decide) (by decide))
  cases ho : s.port.order with
  | nil =>
    unfold takeHead
    rw [ho]
    exact id
  | cons i rest =>
    rw [takeHead_eq ho]
    have ht : KeepsLink s (s.taken rest) := (taken_frame s rest).keepsLink (by decide) (by decide) (by decide)
    split
    · exact ht.trans (hc i _)
    · exact ht.trans ((completeRequest_frame _ _ _ _).keepsLink (by decide) (by decide) (by decide))

theorem receiveBits_held (bits : List Bool) {s : State} (h : s.rx.held = none) :
    (receiveBits bits s).rx.held = none := by
  unfold receiveBits syncTaken
  split
  · rw [h]
    exact h
  · exact h

theorem headerTaken_held (x : Header) {s : State} (h : s.rx.held = none) : (headerTaken x s).rx.held = none := by
  unfold headerTaken backToHunt reportRx mailRxError
  repeat' split
  all_goals exact h

theorem frameEnded_held (payload : List Byte) (crc : Word) {s : State} (hr : s.running = false)
    (h : s.rx.held = none) : (frameEnded payload crc s).rx.held = none := by
  unfold frameEnded
  dsimp only
  rw [if_neg (by rw [hr]; decide)]
  exact h

theorem clockLost_held {s : State} (h : s.rx.held = none) : (clockLost s).rx.held = none := by
  unfold clockLost backToHunt reportRx mailRxError
  repeat' split
  all_goals exact h

theorem timeTick_held {s : State} (h : s.rx.held = none) : (timeTick s).rx.held = none := by
  have k : s.rx.tick.held = none := by
    unfold Receiver.tick
    split <;> exact h
  unfold timeTick
  dsimp only
  split <;> exact k

theorem untouched_keepsLink (c : Instr) (s : State)
    (h : Part.link ∉ touches c ∧ Part.settings ∉ touches c ∧ Part.rx ∉ touches c) : KeepsLink s (effect c s) :=
  (effect_touches c s).keepsLink h.1 h.2.1 fun _ => (effect_touches c s).held h.2.2

/-- Every effect, where its occasion holds, keeps the link state sound. -/
theorem effect_keepsLink {c : Instr} {s : State} (ho : occasion c s = true) : KeepsLink s (effect c s) := by
  cases c
  case hostSlotDataWrite => exact hostWrite_keepsLink _ _ s
  case fixedBlockWrite => exact hostWrite_keepsLink _ _ s
  case registerWrite => exact hostWrite_keepsLink _ _ s
  case run => exact controlWrite_keepsLink s
  case softReset => exact controlWrite_keepsLink s
  case replaceSettings =>
    have h := effect_touches .replaceSettings s
    exact .of_eq (h .link (by decide) (by decide)) (takeReplace_running s) fun _ => h.held (by decide)
  case clearLinkLog => exact takeClearLog_keepsLink s
  case headerLengthError x =>
    exact .of_eq ((headerTaken_frame x s).link (by decide)) ((headerTaken_frame x s).running (by decide))
      fun _ => headerTaken_held x
  case headerCollected x =>
    exact .of_eq ((headerTaken_frame x s).link (by decide)) ((headerTaken_frame x s).running (by decide))
      fun _ => headerTaken_held x
  case receiveOverrun b =>
    exact .of_eq ((receiveBits_frame b s).link (by decide)) ((receiveBits_frame b s).running (by decide))
      fun _ => receiveBits_held b
  case syncFound b =>
    exact .of_eq ((receiveBits_frame b s).link (by decide)) ((receiveBits_frame b s).running (by decide))
      fun _ => receiveBits_held b
  case receiveFrameEnd x y =>
    exact .of_eq ((frameEnded_frame x y s).link (by decide)) ((frameEnded_frame x y s).running (by decide))
      (frameEnded_held x y)
  case receiveClockLoss =>
    exact .of_eq ((clockLost_frame s).link (by decide))
      ((clockLost_frame s).running (by decide)) fun _ => clockLost_held
  case skipEnd => exact .of_eq rfl rfl fun _ => id
  case beacon =>
    unfold effect
    dsimp only
    split
    · exact fun q => takeBeacon_keepsLink _ _ _ _ _ _ _ _ (q : State.linkSound { s with free := s.free + 1 })
    · exact id
  case beaconAtLink => exact goodBeacon_keepsLink ho
  case jobOffer =>
    unfold effect
    dsimp only
    split
    · exact own_keepsLink (takeOffer_frame _ _ _) (by decide) (by decide) (by decide)
    · exact id
  case jobAward =>
    unfold effect
    dsimp only
    split
    · exact own_keepsLink (takeAward_frame _ _ _) (by decide) (by decide) (by decide)
    · exact id
  case jobWithdraw =>
    unfold effect
    dsimp only
    split
    · exact own_keepsLink (takeWithdraw_frame _ _) (by decide) (by decide) (by decide)
    · exact id
  case baseMessage =>
    unfold effect
    dsimp only
    split
    · exact own_keepsLink (takeMessage_frame _ _) (by decide) (by decide) (by decide)
    · exact id
  case emergencyAck =>
    unfold effect
    dsimp only
    split
    · exact own_keepsLink (takeAck_frame _ _) (by decide) (by decide) (by decide)
    · exact id
  case emergencyClear => exact own_keepsLink (takeClear_frame _) (by decide) (by decide) (by decide)
  case cabSuspend =>
    unfold effect
    dsimp only
    split
    · exact own_keepsLink (suspendCab_frame _ _ _) (by decide) (by decide) (by decide)
    · exact id
  case cabResume => exact own_keepsLink (resumeCab_frame _) (by decide) (by decide) (by decide)
  case linkOutcome =>
    unfold effect
    dsimp only
    split
    · exact KeepsLink.trans (t := dropLinkReport s) id (linkTakes_keepsLink (.outcome _ _) _)
    · exact id
  case receiveError =>
    unfold effect
    dsimp only
    split
    · exact fun q => loggedChange_linkSound (fun h => (downError_searching _ _).trans h) q.2
    · exact id
  case beaconMissedReport => exact KeepsLink.trans (t := dropLinkReport s) id (linkTakes_keepsLink .beaconMissed _)
  case syncLostReport => exact KeepsLink.trans (t := dropLinkReport s) id (linkTakes_keepsLink .syncLost _)
  case timeBaseTick =>
    exact .of_eq ((timeTick_frame s).link (by decide)) ((timeTick_frame s).running (by decide))
      fun _ => timeTick_held
  all_goals exact untouched_keepsLink _ s (by dsimp only [touches]; decide)

end Sys2Proof.Machine
end

