-- ==== Sys2Proof/Tests/Slice0.lean ====
section
/-! SUPPORT. Tests of single steps, with expected values from the data book's worked examples and tables or
reckoned by hand from its rules, and for every obligation with hypotheses a state that meets them. -/

namespace Sys2Proof.Tests

open Sys2Proof Sys2Proof.Machine

set_option Elab.async false

/-! ### A small state to start from -/

/-- The cab of the data book's examples: number 417 of fleet 12, K = 2400, Vmax = 200. -/
def cabSettings : Settings :=
  { cab := 417, fleet := 12, zone := 30, k := 2400, vmax := 200
    tariff1 := { enabled := true, mode := 1, flagFall := 300, d0 := 1000, t0 := 120, amount := 20, ud := 100, ut := 15 }
    tariff2 := { enabled := true, mode := 0, flagFall := 400, amount := 25, ud := 80, ut := 20 }
    countOut := 3, reminder := 60, lampSignal := true, status := 120, reports := true }

/-- A cab RUNNING, synchronised, on duty and vacant in zone 30, with a good link and an empty RAM. -/
def lab : State :=
  { State.reset with
    ram := []
    settings := { part := .running, working := some cabSettings, result := .ok }
    offers := { zone := 30, offDutyGate := false }
    fare := { duty := .on, shiftNo := 58, chosen := 1, nextTrip := 1208 }
    store := { reports := true }
    link := { searching := false, state := .good }
    cycle := { synced := true, record := some ⟨0, 700, 20, 5⟩, deadline := some 300, lfsr := 0xAD40
               fleet := { secs := 5000, centis := 25, valid := true } } }

/-- What a command answers. -/
def after (c : Instr) (s : State) : State :=
  match exec c s with
  | .next t => t
  | _ => s

/-- Request slot 3 at CTL with a code and parameters, at the head of the Request Order list. -/
def asking (code : Nat) (params : List Byte) (s : State) : State :=
  { s with
    ram := Memory.write (Memory.write s.ram 0x04C0 [0x0C, 0, byte code]) 0x04CC params
    port := { s.port with order := [3] } }

/-- Hand word, code, outcome and detail of request slot 3 after its owner's judgement. -/
def answerOf (judge : Slot → State → State) (s : State) : List Byte := Memory.read (takeHead judge s).ram 0x04C0 6

/-- A trip in a meter state, with tariff 1 in force. -/
def trip : Trip :=
  { number := 1207, start := { secs := 4000, centis := 0, valid := true }
    par := { number := 1, tariff := cabSettings.tariff1, k := 2400, vmax := 200 }
    opening := 300, distRunning := true, timeRunning := true, fare := 1860, pulses := 12000, ticks := 6005
    segments := [{ tariff := 1, fare := 300, start := { secs := 4000 } }] }

def onTrip (m : MeterState) (s : State) : State := { s with fare := { s.fare with meter := m, trip := trip } }

/-- A queue entry. -/
def entry (id : Nat) (kind : Uplink) (seq key : Nat) : Entry :=
  { id := id, kind := kind, seq := seq, payload := byte seq :: be 2 key, attempts := 0, origin := none
    created := {}, inFlight := false }

/-- The routing holds a frame for its owner. -/
def holding (f : Downlink) (directed : Bool) (s : State) : State :=
  let h : HeldFrame :=
    { frame := f, directed := directed, stamp := { secs := 4999, centis := 90, valid := true }, endInstant := 0
      forLink := f.isBeacon, forOwner := true }
  { s with rx := { s.rx with held := some h } }

/-- A place of the Offer Table changed. -/
def withPlace (i : Place) (p : OfferPlace) (s : State) : State :=
  { s with offers := { s.offers with places := put s.offers.places i p } }

/-- Offer 5104, DIRECTED, as in the example of section 7.14. -/
def offer5104 (st : PlaceState) : OfferPlace :=
  { state := st, number := 5104, origin := 1, zone := 30, deadline := 40 }

/-- Offer 5120, a ZONE offer. -/
def offer5120 (st : PlaceState) : OfferPlace :=
  { state := st, number := 5120, origin := 2, zone := 30, deadline := 20 }

def inEmergency (st : EmergencyState) (s : State) : State :=
  { s with emergency := { s.emergency with kept := { state := st, source := .switch, trigger := { secs := 4990 } } } }

/-! ### Words, CRC and the backoff generator -/

/-- R32: the CRC of the nine ASCII bytes of "123456789". -/
theorem test_crc_check :
    let digits : List Byte := [0x31, 0x32, 0x33, 0x34, 0x35, 0x36, 0x37, 0x38, 0x39]
    crc digits = 0x29B1 ∧ checkOver 0xFFFF digits = 0x29B1 := by decide +kernel

/-- Section 4.8: the seed of cab 417. -/
theorem test_seed_417 : seed 417 = 0xAD40 := by decide +kernel

/-- Section 4.8: d1 to d7. -/
theorem test_draws_417 :
    (List.range 7).map (fun n => (advance^[n + 1]) (0xAD40 : Word)) =
      [0x56A0, 0x2B50, 0x15A8, 0x0AD4, 0x056A, 0x02B5, 0xB55A] := by decide +kernel

/-- The table gives no row bits. -/
theorem test_no_word_spells_a_command : decodeTableWord 16 0xC412 = none := rfl

/-- R198, R199: byte orders. -/
theorem test_byte_orders : le 2 0xC412 = [0x12, 0xC4] ∧ be 2 0xC412 = [0xC4, 0x12] := by decide +kernel

/-! ### Well-formedness: each check refuses something -/

theorem test_wf_slot_data : (Instr.hostSlotDataWrite 0x0260 0).wellFormed = false ∧
    (Instr.hostSlotDataWrite 0x0261 0).wellFormed = true := by decide +kernel

theorem test_wf_fixed_block : (Instr.fixedBlockWrite 0x0261 0).wellFormed = false ∧
    (Instr.fixedBlockWrite 0x0080 0).wellFormed = true := by decide +kernel

theorem test_wf_register : (Instr.registerWrite 0x1FF9 0).wellFormed = false ∧
    (Instr.registerWrite 0x1FF8 0).wellFormed = true := by decide +kernel

theorem test_wf_control : (Instr.run 2).wellFormed = false ∧ (Instr.softReset 1).wellFormed = false := by
  decide +kernel

theorem test_wf_header :
    (Instr.headerCollected ⟨2, 57, 0, 0⟩).wellFormed = false ∧
    (Instr.headerLengthError ⟨2, 56, 0, 0⟩).wellFormed = false := by decide +kernel

theorem test_wf_frame_end : (Instr.receiveFrameEnd (List.replicate 57 0) 0).wellFormed = false := by
  decide +kernel

theorem test_wf_sync :
    (Instr.syncFound (true :: syncPattern)).wellFormed = true ∧
    (Instr.syncFound (syncPattern.drop 1)).wellFormed = false ∧
    (Instr.receiveOverrun (syncPattern ++ [true])).wellFormed = false := by decide +kernel

theorem test_wf_skip : (Instr.skipEnd [3, 4, 0, 0, 0, 0, 0, 0, 0]).wellFormed = false ∧
    (Instr.skipEnd [3, 4, 0, 0, 0, 0, 0, 0, 0, 0]).wellFormed = true := by decide +kernel

/-! ### The queue of commands -/

theorem test_step_runs_front :
    step { lab with pending := [.attnMaskWrite 0xFFFF, .attentionRead] } =
      exec (.attnMaskWrite 0xFFFF) { lab with pending := [.attentionRead] } := rfl

theorem test_step_idles : step lab = .next lab := rfl

/-! ### The memory port -/

/-- Section 1.8, step 3: a late write in slot 3 is an exchange fault at 0x04C2. -/
theorem test_late_write_faults :
    let t := after (.hostSlotDataWrite 0x0261 0x1234) (asking 0x11 [] lab)
    t.port.faultCount = 1 ∧ t.port.lastFault = 0x04C2 ∧ t.port.attention &&& 0x0200 = 0x0200 ∧
      Memory.readWord t.ram 0x04C2 = 0x0011 := by decide +kernel

/-- R4: a write to a data word of a slot at APP is stored, low byte first. -/
theorem test_slot_data_stored :
    let t := hostWrite 0x04C2 0x1234 { lab with ram := [⟨0x04C0, 0x0A⟩] }
    Memory.read t.ram 0x04C0 4 = [0x0A, 0, 0x34, 0x12] ∧ t.port.faultCount = 0 := by decide +kernel

/-- R2: a write to the Part Status Block is a fault, one to the Settings Block is stored. -/
theorem test_fixed_block_write :
    (after (.fixedBlockWrite 0x0080 7) lab).port.lastFault = 0x0100 ∧
      Memory.readWord (hostWrite 0x0000 417 lab).ram 0 = 417 := by decide +kernel

/-- R9: an even change count records the position-written second, an odd one does not. -/
theorem test_position_written :
    (after (.positionBlockWrite 2) { lab with time := { phase := 3, seconds := 77 } }).port.posWritten = some 77 ∧
      (after (.positionBlockWrite 3) lab).port.posWritten = none := by decide +kernel

/-- Section 1.8, steps 1 and 2: slot 9 handed over behind slot 3. -/
theorem test_handover_order :
    let t := requestHand 9 0x000C
      { asking 0x11 [] lab with ram := Memory.write (asking 0x11 [] lab).ram 0x0640 [0x0A] }
    t.port.order = [3, 9] ∧ Memory.readWord t.ram 0x0640 = 0x000C := by decide +kernel

/-- R5: a hand write with another hand than CTL is a fault. -/
theorem test_handover_fault :
    (after (.requestHandover 9 0x000A) { lab with ram := [⟨0x0640, 0x0A⟩] }).port.lastFault = 0x0640 := by
  decide +kernel

/-- Section 10.8, step 6: slot 3 returned as READ with RECEIPT owed and RNR set. -/
theorem test_box_return :
    let s := { lab with
      ram := [⟨0x0B00, 0x0A⟩, ⟨0x0C20, 0x0A⟩]
      msgs := { boxes := put (Vector.replicate 16 {}) 3 ⟨true, 404, true, false, true⟩, rnr := true, reminder := ⟨true, 9⟩ } }
    let t := after (.messageBoxReturn 3 0x010C) s
    t.queue.entries.map (fun e => (e.kind, e.payload.length)) = [(.msgReceipt, 3), (.cabStatus, 14)] ∧
      t.msgs.rnr = false ∧ t.msgs.reminder = ⟨true, 9⟩ ∧ (pick t.msgs.boxes 3).held = false := by decide +kernel

/-- Section 1.8, step 6: the read returns REQ_DONE, EXCH_FAULT and METER and clears them. -/
theorem test_attention_read :
    let t := after .attentionRead { lab with port := { attention := 0x1201, attnMask := 0x1201 } }
    t.pins.data = 0x1201 ∧ t.pins.attnN = true := by decide +kernel

/-- R16: bits 13..15 of a mask are not stored. -/
theorem test_mask_write : (after (.attnMaskWrite 0xFFFF) lab).port.attnMask = 0x1FFF := by decide +kernel

/-- R14: a write to IDENT changes nothing, and IDENT reads 0xC412. -/
theorem test_ident : after (.registerWrite 0x1FF8 0) lab = lab ∧ hostRead 0x1FF8 lab = 0xC412 :=
  ⟨rfl, by decide +kernel⟩

/-! ### Start-up (section 2.7) -/

/-- The Settings Block of section 2.7 with tariff 2's T0 as given. -/
def startUp (t0 : Nat) : State :=
  { lab with
    settings := {}
    offers := {}
    fare := {}
    ram := Memory.write [] 0
      (le 2 417 ++ [12, 30] ++ le 2 2400 ++ le 2 200 ++
        [1, 1] ++ le 2 300 ++ le 2 1000 ++ le 2 120 ++ le 2 20 ++ le 2 100 ++ le 2 15 ++
        [1, 1] ++ le 2 300 ++ le 2 500 ++ le 2 t0 ++ le 2 20 ++ le 2 100 ++ le 2 15) }

/-- Step 1: validation fails at tariff 2's T0, offset 0x16 + 6. -/
theorem test_run_fails :
    (after (.run 1) (startUp 0)).settings = { part := .config, working := none, result := .failed, failedAt := 0x1C } := by
  decide +kernel

/-- Step 2: the part enters RUNNING with the defaults written in, the zone and the seed taken. -/
theorem test_run_passes :
    let t := runWrite (startUp 60)
    t.settings.part = .running ∧ t.settings.result = .ok ∧ t.offers.zone = 30 ∧ t.cycle.lfsr = 0xAD40 ∧
      t.working.awardWait = 15 ∧ t.working.debounce = 50 ∧ t.working.tracking = 30 ∧
      t.limiter.limit = 134 := by decide +kernel

/-- Section 1.8, the last words: slots 3, 9 and 5 complete CANCELLED. -/
theorem test_soft_reset :
    let s := { lab with
      ram := [⟨0x04C0, 0x0C⟩, ⟨0x0540, 0x0C⟩, ⟨0x0640, 0x0C⟩]
      port := { order := [3, 9] } }
    let t := resetPort s
    t.port.order = [] ∧ [3, 5, 9].map (fun i => handAt t.ram (requestBase i)) = [0x0A, 0x0A, 0x0A] ∧
      [3, 5, 9].map (fun i => Memory.get t.ram (requestBase i + 3)) = [8, 8, 8] ∧
      (softReset s).port.order = [] ∧ (softReset s).cycle.lfsr = 0xAD40 ∧
      (softReset s).link.state = .search := by decide +kernel

/-- Section 2.7, step 4: the fleet code field is at 0x02. -/
theorem test_replace_refused :
    answerOf replaceSettings { asking 0x50 [] lab with
      ram := Memory.write (asking 0x50 [] lab).ram 0 (le 2 417 ++ [13]) } = [0x0A, 0, 0x50, 0x12, 2, 0] := by
  decide +kernel

/-- Section 2.7, step 5: a status interval of 120 presets the timer; R27: so it does where the interval was 120
already and 7 seconds were left. -/
theorem test_replace_presets_status :
    let s (status : Nat) (timer : Timer) : State := { startUp 60 with
      settings := { part := .running, working := some { readSettings (startUp 60).ram with status := status } }
      queue := { timer := timer } }
    let t (s : State) := after .replaceSettings (asking 0x50 [] { s with ram := Memory.write s.ram 0x48 (le 2 120) })
    ((t (s 0 ⟨false, 0⟩)).working.status = 120 ∧ (t (s 0 ⟨false, 0⟩)).queue.timer = ⟨true, 120⟩) ∧
      (t (s 120 ⟨true, 7⟩)).queue.timer = ⟨true, 120⟩ := by decide +kernel

/-! ### Requests -/

/-- R11: a code that is not in the table, and any code in CONFIG. -/
theorem test_bad_request :
    answerOf (fun i t => completeRequest i .badRequest 0 t) (asking 0x7F [] lab) = [0x0A, 0, 0x7F, 0x10, 0, 0] ∧
      answerOf sendStatus { asking 0x04 [] lab with settings := {} } = [0x0A, 0, 0x04, 0x11, 0, 0] := by
  decide +kernel

/-- R11: the row of another code does nothing. -/
theorem test_wrong_row : after .dutyOn (asking 0x02 [] lab) = asking 0x02 [] lab := rfl

/-- R144: the shift number rises, the totals start anew, the gate opens. -/
theorem test_duty_on :
    let s := asking 0x01 [] { lab with
      fare := { lab.fare with duty := .off, totals := { trips := ⟨9, false⟩ } }, offers := {} }
    let t := after .dutyOn s
    t.fare.duty = .on ∧ t.fare.shiftNo = 59 ∧ t.fare.totals = {} ∧ t.offers.offDutyGate = false ∧
      answerOf dutyOn s = [0x0A, 0, 0x01, 0x01, 59, 0] := by decide +kernel

/-- R144: after shift 65535 comes shift 1. -/
theorem test_duty_on_wraps :
    (after .dutyOn (asking 0x01 [] { lab with fare := { duty := .off, shiftNo := 65535 } })).fare.shiftNo = 1 := by
  decide +kernel

/-- Section 1.8, step 5, and section 9.8, step 5: the meter is not VACANT, detail 2. -/
theorem test_duty_off_refused :
    answerOf dutyOff (onTrip .stopped (asking 0x02 [] lab)) = [0x0A, 0, 0x02, 0x12, 2, 0] := by decide +kernel

/-- R145: the SHIFT record in the lowest free place, the gate closed, a PRESENTED offer CANCELLED. -/
theorem test_duty_off :
    let t := after .dutyOff (asking 0x02 [] (withPlace 2 (offer5104 .presented) lab))
    t.fare.duty = .off ∧ t.offers.offDutyGate = true ∧ (pick t.offers.places 2).state = .cancelled ∧
      t.store.posting = [0] ∧ (pick t.store.places 0).map (·.record.kindCode) = some 2 ∧ t.note = some 0 ∧
      t.queue.entries.map (·.kind) = [.shiftReport, .cabStatus] := by decide +kernel

/-- R119: zone 0 is out of range, the cab's own zone changes nothing, another cancels ZONE offers alone. -/
theorem test_set_zone :
    let s := withPlace 0 (offer5104 .presented) (withPlace 1 (offer5120 .presented) lab)
    let t := after .setZone (asking 0x03 [31] s)
    answerOf setZone (asking 0x03 [0] s) = [0x0A, 0, 0x03, 0x13, 0, 0] ∧
      (after .setZone (asking 0x03 [30] s)).offers = s.offers ∧ t.offers.zone = 31 ∧
      (pick t.offers.places 0).state = .presented ∧ (pick t.offers.places 1).state = .cancelled ∧
      t.queue.entries.map (fun e => e.payload.take 5) = [[0, 1, 0, 31, 0]] := by decide +kernel

/-- Section 5.6, step 4: a held status not in flight is rewritten in place with the next sequence. -/
theorem test_send_status_rewrites :
    let s := asking 0x04 [] { lab with
      queue := { entries := [entry 1 .cabStatus 41 0, entry 2 .msgDelivered 44 301], nextSeq := 52, nextId := 3 } }
    let t := after .sendStatus s
    t.queue.entries.map (fun e => (e.kind, e.seq)) = [(.cabStatus, 52), (.msgDelivered, 44)] ∧
      t.queue.nextSeq = 53 ∧ t.queue.pending = false := by decide +kernel

/-- R76: without a position the payload carries 0, 0 and age 255. -/
theorem test_status_payload :
    (after .sendStatus (asking 0x04 [] lab)).queue.entries.map (·.payload) =
      [[0, 1, 0, 30, 0, 0, 0, 0, 0, 0, 0, 0, 0, 255]] := by decide +kernel

/-- Section 9.8, step 2: METER_HIRE with tariff 0 opens trip 1208 with the chosen tariff. -/
theorem test_meter_hire :
    let s := asking 0x10 [0] lab
    let t := after .meterHire s
    t.fare.meter = .hired ∧ t.fare.trip.number = 1208 ∧ t.fare.nextTrip = 1209 ∧ t.fare.trip.fare = 300 ∧
      t.fare.trip.distRunning = false ∧ t.pins.lamp = false ∧
      answerOf meterHire s = [0x0A, 0, 0x10, 0x01, 0xB8, 0x04] := by decide +kernel

/-- R117, section 7.14: the hire closes the AWARDED offer STARTED and takes its number. -/
theorem test_meter_hire_job :
    let t := after .meterHire (asking 0x10 [2] (withPlace 0 (offer5104 .awarded) lab))
    t.fare.trip.job = 5104 ∧ (pick t.offers.places 0).state = .started ∧ t.fare.trip.distRunning = true := by
  decide +kernel

/-- Section 1.8, step 4. -/
theorem test_meter_stop :
    let s := onTrip .hired (asking 0x11 [] lab)
    (after .meterStop s).fare.meter = .stopped ∧ (after .meterStop s).port.attention &&& 0x1001 = 0x1001 ∧
      answerOf meterStop s = [0x0A, 0, 0x11, 0x01, 0, 0] := by decide +kernel

/-- R148: METER_RESUME on a HIRED meter is refused. -/
theorem test_meter_resume :
    (after .meterResume (onTrip .stopped (asking 0x12 [] lab))).fare.meter = .hired ∧
      answerOf meterResume (onTrip .hired (asking 0x12 [] lab)) = [0x0A, 0, 0x12, 0x12, 0, 0] := by decide +kernel

/-- Section 9.8, step 1: the trip's fare of 1860 joins a fare total of 61240. -/
theorem test_meter_clear :
    let s := onTrip .stopped (asking 0x13 [] { lab with
      fare := { lab.fare with totals := { trips := ⟨14, false⟩, fare := ⟨61240, false⟩ } } })
    let t := after .meterClear s
    t.fare.meter = .vacant ∧ t.fare.trip = {} ∧ t.fare.totals.trips.value = 15 ∧ t.fare.totals.fare.value = 63100 ∧
      t.fare.totals.hiredDist.value = 5000 ∧ t.fare.totals.hiredTime.value = 600 ∧ t.store.posting = [0] ∧
      t.pins.lamp = true := by decide +kernel

/-- Section 9.8, step 4: no place is free. -/
theorem test_meter_clear_full :
    let h : HeldRecord := ⟨.shift ⟨57, {}, {}, {}⟩, 300, true, false⟩
    let s := onTrip .stopped (asking 0x13 [] { lab with store := { places := Vector.replicate 16 (some h) } })
    answerOf meterClear s = [0x0A, 0, 0x13, 0x17, 0, 0] ∧ (after .meterClear s).fare = s.fare := by decide +kernel

/-- R136: a switch empties both accumulators and opens segment 2. -/
theorem test_select_tariff :
    let s := onTrip .hired (asking 0x14 [2] lab)
    let t := after .selectTariff { s with fare := { s.fare with trip := { trip with adist := 5, atime := 6 } } }
    t.fare.trip.adist = 0 ∧ t.fare.trip.atime = 0 ∧ t.fare.trip.par.number = 2 ∧
      t.fare.trip.segments.map (fun g => (g.tariff, g.fare)) = [(1, 300), (2, 1860)] ∧
      answerOf selectTariff (asking 0x14 [3] lab) = [0x0A, 0, 0x14, 0x13, 0, 0] := by decide +kernel

/-- R137, R129: an extra that takes the fare to its maximum sets SATURATED. -/
theorem test_add_extra :
    let s := onTrip .hired (asking 0x15 [3, 0, 0x0F, 0x27] lab)
    let t := after .addExtra { s with fare := { s.fare with trip := { trip with fare := 990000 } } }
    t.fare.trip.fare = 999999 ∧ t.fare.trip.marks.saturated = true ∧ t.fare.trip.extrasTotal = 9999 ∧
      answerOf addExtra (onTrip .hired (asking 0x15 [16, 0, 1, 0] lab)) = [0x0A, 0, 0x15, 0x13, 0, 0] := by
  decide +kernel

/-- Section 7.14, step 2: the acceptance is kept, the slot stays at CTL. -/
theorem test_accept_offer :
    let s := asking 0x20 [0x00, 0x14] (withPlace 1 (offer5120 .presented) lab)
    let t := after .acceptOffer s
    (pick t.offers.places 1).state = .accepting ∧ (pick t.offers.places 1).wait = 15 ∧
      t.offers.heldAccept = some 3 ∧ t.queue.entries.map (·.payload) = [[0, 0x14, 0x00]] ∧
      answerOf acceptOffer s = [0x0C, 0, 0x20, 0, 0, 0] := by decide +kernel

/-- R110: NO_LINK in SEARCH, UNKNOWN_OFFER for a number no open entry carries. -/
theorem test_accept_refused :
    let s := asking 0x20 [0x00, 0x14] (withPlace 1 (offer5120 .presented) lab)
    answerOf acceptOffer { s with link := { s.link with state := .search } } = [0x0A, 0, 0x20, 0x15, 1, 0] ∧
      answerOf acceptOffer (asking 0x20 [0x01, 0x14] s) = [0x0A, 0, 0x20, 0x16, 0, 0] := by decide +kernel

/-- R116: an AWARDED offer given back closes CANCELLED with a JOB_DECLINE of reason 5. -/
theorem test_decline_offer :
    let s := asking 0x21 [0xF0, 0x13] (withPlace 0 (offer5104 .awarded) lab)
    let t := after .declineOffer s
    (pick t.offers.places 0).state = .cancelled ∧ t.queue.entries.map (·.payload) = [[0, 0x13, 0xF0, 5]] ∧
      answerOf declineOffer s = [0x0A, 0, 0x21, 0x01, 0, 0] := by decide +kernel

/-- R109: the latch and the counter are cleared, with a status trigger only when the latch was set. -/
theorem test_resume_offers :
    let t := after .resumeOffers (asking 0x22 [] { lab with offers := { lab.offers with latch := true, expiries := 3 } })
    t.offers.latch = false ∧ t.offers.expiries = 0 ∧ t.queue.entries.length = 1 ∧
      (after .resumeOffers (asking 0x22 [] lab)).queue.entries = [] := by decide +kernel

/-- Section 5.6, steps 1 and 2, and R42: a tab in the text becomes 0x3F. -/
theorem test_send_message :
    let full : TransmitQueue := { entries := (List.range 8).map (fun n => entry n .msgDelivered n n), nextId := 8 }
    let s := asking 0x30 [0, 3, 0x48, 0x09, 0x7E] lab
    let t := after .sendMessage s
    t.queue.entries.map (·.payload) = [[0, 0, 3, 0x48, 0x3F, 0x7E]] ∧ t.msgs.sends = [⟨3, 0⟩] ∧
      answerOf sendMessage { s with queue := full } = [0x0A, 0, 0x30, 0x14, 0, 0] := by decide +kernel

/-- R179: detail 0 for a new emergency, detail 1 for a repeat. -/
theorem test_raise_emergency :
    let s := asking 0x40 [] lab
    let t := after .raiseEmergency s
    t.emergency.kept.state = .alerting ∧ t.emergency.kept.source = .host ∧ t.mail.gateChanges = [true] ∧ t.mail.lampChanges = [true] ∧
      answerOf raiseEmergency s = [0x0A, 0, 0x40, 0x01, 0, 0] ∧
      answerOf raiseEmergency (inEmergency .alerting s) = [0x0A, 0, 0x40, 0x01, 1, 0] := by decide +kernel

/-- Section 6.8, step 7. -/
theorem test_clear_link_log :
    let t := after .clearLinkLog (asking 0x51 [] { lab with link := { lab.link with log := 255, overflowed := true } })
    t.link.log = 0 ∧ t.link.overflowed = false := by decide +kernel

/-! ### The Radio Port -/

/-- Section 3.8, frame F: a header with L = 60 is a LENGTH error; with L = 56 the assembler enters BODY. -/
theorem test_header :
    let s := { lab with rx := { lab.rx with asm := .header, crc := 0xFFFF } }
    let t := after (.headerLengthError ⟨2, 60, 0, 0⟩) s
    t.rx.asm = .hunt ∧ t.mail.rxErrors = [.length] ∧
      (after (.headerCollected ⟨2, 56, 0, 0⟩) s).rx.asm = .body ∧
      (after (.headerCollected ⟨2, 56, 0, 0⟩) s).rx.buffer = [2, 56, 0, 0] := by decide +kernel

/-- R33: the 24 bits of 0x5B 0xC6 0x39 after a stray bit start a frame. -/
theorem test_sync :
    let t := after (.syncFound (true :: syncPattern)) lab
    t.rx.asm = .header ∧ t.rx.crc = 0xFFFF ∧ (after (.syncFound (syncPattern.drop 1)) lab).rx.asm = .hunt := by
  decide +kernel

/-- Section 3.8, frame D: an overrun while frame C is still held. -/
theorem test_overrun :
    let s := holding .cabResume true lab
    let t := after (.receiveOverrun syncPattern) s
    t.rx.asm = .skip ∧ t.mail.rxErrors = [.overrun] ∧ t.rx.held = s.rx.held := by decide +kernel

/-- A frame in BODY, its header taken. -/
def inBody (head : List Byte) : State :=
  { lab with rx := { lab.rx with asm := .body, buffer := head, crc := crc head } }

/-- Section 3.8, frames A and B: a good beacon with two acknowledgements goes to two blocks, a corrupted
frame is a CRC error. -/
theorem test_beacon_received :
    let head : List Byte := [0x01, 14, 0, 0]
    let body : List Byte := [12, 0x02, 0xBC, 0, 0, 0x13, 0x88, 20, 5, 2, 0, 203, 0x02, 0x4C]
    let t := after (.receiveFrameEnd body (crc (head ++ body))) (inBody head)
    t.rx.held.map (·.frame) = some (.beacon 12 700 5000 20 5 [203, 588]) ∧
      t.rx.held.map (fun h => (h.forLink, h.forOwner, h.directed)) = some (true, true, false) ∧
      (after (.receiveFrameEnd body 0) (inBody head)).mail.rxErrors = [.crc] := by decide +kernel

/-- Section 3.8, frame C: two carriage returns in the text become 0x3F; frame E: another cab's message. -/
theorem test_offer_received :
    let head : List Byte := [0x02, 10, 0, 0]
    let body : List Byte := [0x14, 0x00, 30, 20, 0, 0, 0, 2, 0x0D, 0x41]
    let other : List Byte := [0x04, 2, 0x01, 0x84]
    let t := after (.receiveFrameEnd body (crc (head ++ body))) (inBody head)
    t.rx.held.map (·.frame) = some (.jobOffer 5120 30 20 false false 0 [0x3F, 0x41]) ∧
      (after (.receiveFrameEnd [0, 1] (crc (other ++ [0, 1]))) (inBody other)).rx.held = none ∧
      (after (.receiveFrameEnd [0, 1] (crc (other ++ [0, 1]))) (inBody other)).mail.rxErrors = [] := by decide +kernel

/-- R41: a clock lost over two ticks in BODY is a CRC error, in SKIP no further error; one tick is no loss. -/
theorem test_clock_loss :
    let s (a : Assembler) (n : Nat) : State := { lab with rx := { lab.rx with asm := a, quiet := n } }
    (after .receiveClockLoss (s .body 2)).mail.rxErrors = [.crc] ∧ (after .receiveClockLoss (s .skip 2)).mail.rxErrors = [] ∧
      (after .receiveClockLoss (s .skip 2)).rx.asm = .hunt ∧ (after .receiveClockLoss (s .body 1)).rx.asm = .body ∧
      (after .timeBaseTick (s .body 1)).rx.quiet = 2 := by decide +kernel

/-- Section 3.8, frame D: 4 + 4 + 2 bytes are counted through. -/
theorem test_skip_end :
    let s := { lab with rx := { lab.rx with asm := .skip } }
    (after (.skipEnd [3, 4, 0, 0, 1, 2, 3, 4, 5, 6]) s).rx.asm = .hunt ∧
      (after (.skipEnd [3, 4, 0, 0, 1, 2, 3, 4, 5]) s).rx.asm = .skip := by decide +kernel

/-- Section 4.8: a 3-byte payload makes a 112-bit frame after the preamble's 16 bits and the sync's 24. -/
theorem test_frame_bits :
    let bits := frameBits .jobAccept 417 [0, 0x14, 0]
    bits.length = 112 ∧ bits.take 8 = [true, false, true, false, true, false, true, false] := by decide +kernel

/-- R45: keying, sending, the report and the cut at the slot end. -/
theorem test_transmit :
    let s (f : Shifter) (n : Nat) : State := { lab with tx := { shifter := f, keyed := n } }
    let t := after .keyingEnd (s .keying 2)
    t.tx.shifter = .sending ∧ t.pins.txData = .frameBits ∧ t.pins.ptt = true ∧
      (after .frameSent (s .sending 5)).mail.sendReports = [.sent] ∧ (after .frameSent (s .sending 5)).pins.ptt = false ∧
      (after .slotEnd (s .sending 10)).mail.sendReports = [.cut .slotEnd] ∧
      (after .keyingEnd (s .keying 1)).tx.shifter = .keying := by decide +kernel

/-! ### The channel cycle (section 4.8) -/

/-- The queue of the example, with the frame in flight in a phase and the generator as given. -/
def contest (p : Phase) (lfsr : Word) (missRun spacing : Nat) : State :=
  { lab with
    queue := { entries := [entry 7 .cabStatus 8 0, { entry 5 .jobAccept 9 5120 with inFlight := p == .awaiting }], nextId := 8 }
    cycle := { lab.cycle with
      lfsr := lfsr, missRun := missRun, spacing := spacing, inFlight := { phase := p, owner := .queue 5, slot := 2 } }
    time := { phase := 5, seconds := 2 } }

/-- Cycle 700 with the acknowledgement list of B2. -/
def b1 : Downlink := .beacon 12 700 5000 20 5 [203, 588]

/-- B1: the JOB_ACCEPT is chosen for slot 2. -/
theorem test_beacon_b1 :
    let t := after .beacon (holding b1 false (contest .none 0xAD40 0 3))
    t.cycle.lfsr = 0x56A0 ∧ t.cycle.inFlight = ⟨.chosen, .queue 5, 2⟩ ∧ t.cycle.spacing = 0 ∧
      t.cycle.deadline = some 300 ∧ t.cycle.fleet = ⟨5002, 5, true⟩ ∧ t.rx.held.map (·.forOwner) = some false := by
  decide +kernel

/-- Beacon B1's contents taken in a state, with the reports to the Link Quality Unit taken before the choice or not. -/
def takingB1 (first : Bool) (s : State) : State :=
  takeBeacon first ⟨b1, false, { secs := 4999, centis := 90, valid := true }, 0, true, true⟩ 700 5000 20 5 [203, 588]
    (holding b1 false s)

/-- B2: MISSED, the backoff draw gives skip 0, the slot draw gives slot 5.  R61: an uplink count of 120 goes to 128 at
this miss, and the frame is chosen where the choice comes before the Link Quality Unit. -/
theorem test_beacon_b2 :
    let s := contest .awaiting 0x56A0 0 0
    let w := { s with link := { s.link with ufc := 120, state := .weak } }
    (∀ first : Bool, let t := takingB1 first s
      t.cycle.missRun = 1 ∧ t.cycle.skip = 0 ∧ t.cycle.inFlight = ⟨.chosen, .queue 5, 5⟩ ∧ t.cycle.lfsr = 0x15A8 ∧
      t.mail.linkReports = (if first then [] else [.outcome true .missed]) ∧ t.queue.entries.map (·.attempts) = [0, 1]) ∧
    [false, true].map (fun first => ((takingB1 first w).link.state, (takingB1 first w).cycle.inFlight.phase)) =
      [(.weak, .chosen), (.degraded, .none)] := by decide +kernel

/-- B4: the third miss in a row draws a skip count of 5, of which this cycle takes one. -/
theorem test_beacon_b4 : ∀ first : Bool,
    let t := takingB1 first (contest .awaiting 0x056A 2 0)
    t.cycle.missRun = 3 ∧ t.cycle.skip = 4 ∧ t.cycle.spacing = 1 ∧ t.cycle.inFlight.phase = .none ∧
      t.cycle.lfsr = 0x02B5 := by decide +kernel

/-- R52, R53: the third miss in a row loses synchronisation. -/
theorem test_beacon_missed :
    let s (n : Nat) : State := { lab with
      cycle := { lab.cycle with missedRun := n }, time := { phase := 0, seconds := 3 } }
    (after .beaconMissed (s 0)).cycle.deadline = some 500 ∧ (after .beaconMissed (s 0)).cycle.missedRun = 1 ∧
      (after .beaconMissed (s 2)).cycle.synced = false ∧
      (after .beaconMissed (s 2)).mail.linkReports = [.beaconMissed, .syncLost] := by decide +kernel

/-- Section 4.8: slot 2 starts 400 ms after the beacon's end. -/
theorem test_slot_start :
    let s := contest .chosen 0x56A0 0 0
    let t := after .slotStart { s with time := { phase := 40, seconds := 0 } }
    t.cycle.inFlight.phase = .onAir ∧ t.tx.shifter = .keying ∧ t.queue.entries.map (·.inFlight) = [false, true] ∧
      (after .slotStart { s with time := { phase := 39, seconds := 0 } }).cycle.inFlight.phase = .chosen := by
  decide +kernel

/-- R63: SENT leads to AWAITING, a supply cut settles the frame. -/
theorem test_send_report :
    let s (r : SendReport) : State := { contest .onAir 0 0 0 with mail := { sendReports := [r] } }
    (after .sendReport (s .sent)).cycle.inFlight.phase = .awaiting ∧
      (after .sendReport (s (.cut .supply))).mail.queueOuts = [(5, .missedUnjudged .supply)] := by decide +kernel

/-! ### Link quality (section 6.8) -/

/-- The link of the example before step 1. -/
def poorLink (m : Mail) : State :=
  { lab with link := { ufc := 248, dfc := 20, searching := false, log := 250, lastError := .noAck, state := .degraded }, mail := m }

/-- Step 1: 248 + 8 would exceed 255. -/
theorem test_link_outcome :
    let t := after .linkOutcome (poorLink { linkReports := [.outcome true .missed] })
    t.link = { ufc := 255, dfc := 20, searching := false, withdrawn := true, log := 251, lastError := .noAck, state := .withdrawn } ∧
      t.port.attention &&& 0x0010 = 0x0010 := by decide +kernel

/-- Step 2: a missed beacon and the loss of synchronisation. -/
theorem test_link_reports :
    let t := after .beaconMissedReport (poorLink { linkReports := [.beaconMissed, .syncLost] })
    let u := after .syncLostReport (poorLink { linkReports := [.syncLost] })
    t.link.dfc = 21 ∧ t.link.log = 251 ∧ t.link.lastError = .beaconMissed ∧ t.mail.linkReports = [.syncLost] ∧
      u.link.state = .search ∧ u.link.lastError = .syncLost := by decide +kernel

/-- Step 3: the first overflow of the log. -/
theorem test_receive_error :
    let s := poorLink { rxErrors := [.crc] }
    let t := after .receiveError { s with link := { s.link with log := 255 } }
    t.link.log = 255 ∧ t.link.overflowed = true ∧ t.link.lastError = .crc ∧ t.link.dfc = 21 ∧
      t.port.attention &&& 0x0800 = 0x0800 := by decide +kernel

/-- Step 6: the 32nd recovery step. -/
theorem test_recovery :
    let s := holding b1 false lab
    let t := after .beaconAtLink { s with
      link := { ufc := 255, dfc := 1, searching := false, withdrawn := true, recovery := 31, log := 255, state := .withdrawn } }
    t.link.ufc = 0 ∧ t.link.dfc = 0 ∧ t.link.recovery = 0 ∧ t.link.withdrawn = false ∧ t.link.state = .good ∧
      t.link.lastError = .recoveryStep := by decide +kernel

/-! ### The queue's outcomes -/

/-- Section 5.6, step 8: M44 acknowledged, the pending status resolved; and a sixth miss of a JOB_ACCEPT. -/
theorem test_queue_outcome :
    let s : State := { lab with
      queue := { entries := [{ entry 1 .msgDelivered 44 301 with inFlight := true }], nextSeq := 55, nextId := 2, pending := true }
      mail := { queueOuts := [(1, .acknowledged)] } }
    let t := after .queueOutcome s
    let u := after .queueOutcome { lab with
      queue := { entries := [{ entry 5 .jobAccept 9 5120 with attempts := 5, inFlight := true }], nextId := 6 }
      mail := { queueOuts := [(5, .missed)] } }
    t.queue.entries.map (fun e => (e.kind, e.seq)) = [(.cabStatus, 55)] ∧ t.queue.pending = false ∧
      u.queue.entries = [] ∧ u.mail.undelivered = [5120] := by decide +kernel

/-- R76: the status timer is preset again and a trigger given. -/
theorem test_status_timer :
    let t := after .statusTimerExpiry { lab with queue := { timer := ⟨true, 0⟩ } }
    t.queue.timer = ⟨true, 120⟩ ∧ t.queue.entries.map (·.kind) = [.cabStatus] := by decide +kernel

/-- R172: the notice completes the held send; R157: a DONE report frees a collected record. -/
theorem test_notices :
    let s : State := { lab with
      ram := [⟨0x0480, 0x0C⟩, ⟨0x0482, 0x30⟩], msgs := { sends := [⟨2, 42⟩] }, mail := { sendNotices := [⟨2, 42, false⟩] } }
    let h : HeldRecord := ⟨.shift ⟨57, {}, {}, {}⟩, 300, true, false⟩
    let r : State := { lab with
      store := { places := put (Vector.replicate 16 none) 0 (some h), posting := [0], nextSeq := 301, reports := true }
      mail := { reportsDone := [300] }, note := some 300 }
    (after .heldSendCompletion s).msgs.sends = [] ∧
      Memory.read (sendNoticeTaken s).ram 0x0480 6 = [0x0A, 0, 0x30, 0x07, 42, 0] ∧
      (after .reportDone r).store.posting = [] ∧ (after .reportDone r).note = none := by decide +kernel

/-! ### Job offers (section 7.14) -/

/-- The frame of offer 5120. -/
def frame5120 : Downlink := .jobOffer 5120 30 20 false false 0 [0x41]

/-- Step 1: the offer enters place 1; step 3: a zone offer is ignored while another is ACCEPTING. -/
theorem test_job_offer :
    let s := holding frame5120 false (withPlace 0 (offer5104 .presented) lab)
    let t := after .jobOffer s
    (pick t.offers.places 1).state = .presented ∧ (pick t.offers.places 1).deadline = 20 ∧ t.pins.chime = true ∧
      t.port.attention &&& 0x0002 = 0x0002 ∧ t.rx.held = none ∧
      (after .jobOffer (withPlace 0 (offer5104 .accepting) s)).offers = (withPlace 0 (offer5104 .accepting) s).offers := by
  decide +kernel

/-- R106: a full table; the ZONE entry with the least deadline is dropped for a DIRECTED offer, whose deadline of
200 is clamped to 120 (R107). -/
theorem test_offer_displaces :
    let places := (Vector.replicate 8 (offer5120 .presented)).set 3 { offer5120 .presented with deadline := 19 }
    let s := holding (.jobOffer 6000 1 200 false false 0 []) true { lab with offers := { lab.offers with places := places } }
    let t := after .jobOffer s
    (pick t.offers.places 3).number = 6000 ∧ (pick t.offers.places 3).deadline = 120 ∧ t.offers.dropped = 1 ∧
      t.port.attention &&& 0x0100 = 0x0100 := by decide +kernel

/-- Step 5: an award to cab 388 closes place 1 LOST and completes slot 3 with detail 1; the JOB_ACCEPT goes. -/
theorem test_job_award_lost :
    let s := holding (.jobAward 5120 388) false (withPlace 1 (offer5120 .accepting)
      { asking 0x20 [] lab with port := {}, queue := { entries := [entry 5 .jobAccept 9 5120], nextId := 6 } })
    let u := { s with offers := { s.offers with heldAccept := some 3 } }
    let t := after .jobAward u
    (pick t.offers.places 1).state = .lost ∧ t.offers.heldAccept = none ∧ t.queue.entries = [] ∧
      Memory.read (takeAward 5120 388 u).ram 0x04C0 6 = [0x0A, 0, 0x20, 0x03, 1, 0] := by decide +kernel

/-- Step 8: an award after the expiry is answered TOO_LATE; an award to a PRESENTED offer makes it AWARDED. -/
theorem test_job_award_here :
    let t := after .jobAward (holding (.jobAward 5104 417) false (withPlace 0 (offer5104 .unanswered) lab))
    let u := after .jobAward (holding (.jobAward 5104 417) false (withPlace 0 (offer5104 .presented) lab))
    t.queue.entries.map (·.payload) = [[0, 0x13, 0xF0, 2]] ∧ (pick u.offers.places 0).state = .awarded ∧
      u.mail.additions = [.offerAccepted] ∧ u.pins.lamp = false := by decide +kernel

/-- R115. -/
theorem test_job_withdraw :
    (pick (after .jobWithdraw (holding (.jobWithdraw 5104) true (withPlace 0 (offer5104 .awarded) lab))).offers.places
      0).state = .withdrawn := by decide +kernel

/-- R108: the third expiry in a row sets the latch and cancels the other ZONE offer. -/
theorem test_deadline_expiry :
    let s := withPlace 0 { offer5120 .presented with deadline := 0 } (withPlace 4 (offer5120 .presented) lab)
    let t := after (.offerDeadlineExpiry 0) { s with offers := { s.offers with expiries := 2 } }
    (pick t.offers.places 0).state = .expired ∧ (pick t.offers.places 4).state = .cancelled ∧ t.offers.latch = true ∧
      t.offers.expiries = 3 ∧ t.mail.additions = [.offerExpired] ∧ t.queue.entries.length = 1 := by decide +kernel

/-- Step 7: the award wait of place 0 expires; and an UNDELIVERED JOB_ACCEPT does the same. -/
theorem test_award_wait :
    let s := withPlace 0 { offer5104 .accepting with wait := 0 } lab
    (pick (after (.awardWaitExpiry 0) s).offers.places 0).state = .unanswered ∧
      (pick (after .acceptUndelivered { s with mail := { undelivered := [5104] } }).offers.places 0).state = .unanswered ∧
      (after (.awardWaitExpiry 0) (withPlace 0 (offer5104 .presented) lab)).offers.places =
        (withPlace 0 (offer5104 .presented) lab).offers.places := by decide +kernel

/-- R118: a suspension of two minutes, its end by CAB_RESUME and by its timer. -/
theorem test_base_suspension :
    let t := after .cabSuspend (holding (.cabSuspend 7 2) false (withPlace 0 (offer5104 .presented) lab))
    let s : State := { lab with offers := { lab.offers with baseSuspended := true, baseTimer := ⟨true, 0⟩ } }
    t.offers.baseSuspended = true ∧ t.offers.baseReason = 7 ∧ t.offers.baseTimer = ⟨true, 120⟩ ∧ t.pins.lamp = false ∧
      (pick t.offers.places 0).state = .cancelled ∧
      (after .cabResume (holding .cabResume false s)).offers.baseSuspended = false ∧
      (after .baseSuspensionExpiry s).offers.baseSuspended = false := by decide +kernel

/-! ### Driver messages (section 10.8) -/

/-- Step 1: message 415, URGENT, is stored in the lowest free slot with arrival number 88. -/
theorem test_message_stored :
    let s := holding (.baseMessage 415 false true 9 [0x48, 0x69]) true { lab with
      ram := [⟨0x0B00, 0x0A⟩, ⟨0x0B60, 0x0C⟩], msgs := { nextArrival := 88, reminder := ⟨true, 12⟩ } }
    let m : Incoming := ⟨415, true, false, true, 9, [0x48, 0x69], { secs := 4999, centis := 90, valid := true }⟩
    let t := after .baseMessage s
    t.msgs.recent = [415] ∧ t.msgs.nextArrival = 89 ∧ t.msgs.reminder = ⟨true, 12⟩ ∧ t.pins.chime = true ∧
      t.queue.entries.map (·.payload) = [[0, 0x01, 0x9F]] ∧
      Memory.read (takeMessage m s).ram 0x0B60 18 =
        [0x0A, 0, 88, 0, 0x9F, 0x01, 1, 2, 9, 2, 0x87, 0x13, 0, 0, 90, 1, 0x48, 0x69] := by decide +kernel

/-- Steps 3, 4 and 5: a directed message and a broadcast that find the box full, and a repeat. -/
theorem test_message_refused :
    let s := { lab with msgs := { recent := [415] } }
    let t := after .baseMessage (holding (.baseMessage 417 false false 9 [0x48]) true s)
    let u := after .baseMessage (holding (.baseMessage 418 false false 9 [0x48]) false s)
    let v := after .baseMessage (holding (.baseMessage 415 false false 9 [0x48]) true s)
    t.msgs.rnr = true ∧ t.queue.entries.map (fun e => (e.kind, e.payload.getD 4 0)) = [(.cabStatus, 1)] ∧
      u.msgs.dropped = 1 ∧ u.msgs.rnr = false ∧ v.queue.entries.map (·.kind) = [.msgDelivered] := by decide +kernel

/-- Step 7. -/
theorem test_reminder :
    let t := after .reminderExpiry { lab with msgs := { reminder := ⟨true, 0⟩ } }
    t.msgs.reminder = ⟨true, 60⟩ ∧ t.pins.chime = true ∧ t.port.attention &&& 0x0080 = 0x0080 := by decide +kernel

/-! ### Emergency calls (section 11.8) -/

/-- Step 1: the last low sample of the period starts an emergency from the switch. -/
theorem test_debounce :
    let s : State := { lab with emergency := { lab.emergency with debounce := .timing 1 }, due := { inputSamples := 1 } }
    let t := after .debouncedFallingEdge s
    let u := after (.emergencyInputSample true) { s with emergency := { s.emergency with debounce := .released } }
    t.emergency.kept.state = .alerting ∧ t.emergency.kept.source = .switch ∧ t.emergency.debounce = .held ∧
      t.emergency.kept.trigger = ⟨5000, 25, true⟩ ∧ u.emergency.debounce = .timing 49 ∧
      (after (.emergencyInputSample false) s).emergency.debounce = .released := by decide +kernel

/-- Step 1 at the neighbours, each alone: the gate and place 2, the mark and the total, the lamp. -/
theorem test_emergency_change :
    let s (m : Mail) := onTrip .hired (withPlace 2 (offer5104 .presented) (inEmergency .alerting { lab with mail := m }))
    let g := after .emergencyStateChange (s { gateChanges := [true] })
    let f := after .emergencyStateChange (s { marks := [.emergency], additions := [.emergency] })
    let l := after .emergencyStateChange (s { lampChanges := [true] })
    g.offers.emergencyGate = true ∧ (pick g.offers.places 2).state = .cancelled ∧ g.lampTaken = false ∧
      f.fare.trip.marks.emergency = true ∧ f.fare.totals.emergencies.value = 1 ∧ f.lampTaken = false ∧
      (pick f.offers.places 2).state = .presented ∧ l.lampTaken = true ∧ l.fare.trip.marks.emergency = false ∧
      [g, f, l].map (·.mail) = [{}, {}, {}] := by decide +kernel

/-- Step 2: the call is chosen for slot 0 with call sequence 1. -/
theorem test_call_chosen :
    let t := after .beacon (holding b1 false (onTrip .hired (inEmergency .alerting lab)))
    t.cycle.inFlight.phase = .chosen ∧ t.cycle.inFlight.slot = 0 ∧ t.emergency.callSeq = 1 ∧
      t.cycle.inFlight.owner = .call [0, 1, 1, 1, 0, 0, 0, 0, 0, 0, 0, 0, 255, 0, 255] := by decide +kernel

/-- R184: a missed call leads to RETRY, an acknowledged one to a spacing of 3. -/
theorem test_call_outcome :
    let s (o : FrameOutcome) : State := { inEmergency .alerting lab with
      emergency := { (inEmergency .alerting lab).emergency with callInHand := true }, mail := { callOuts := [o] } }
    (after .callOutcome (s .missed)).emergency.pacing = .retry ∧
      (after .callOutcome (s .acknowledged)).emergency.pacing = .spacing 3 ∧
      (after .callOutcome (s .missed)).emergency.callInHand = false := by decide +kernel

/-- R180, R181, R185: acknowledgement, clearing and the tracking timer. -/
theorem test_ack_and_clear :
    let t := after .emergencyAck (holding .emergencyAck true (inEmergency .alerting lab))
    let u := after .emergencyClear (holding .emergencyClear true (inEmergency .acknowledged lab))
    let v := after .trackingTimerExpiry { inEmergency .acknowledged lab with
      emergency := { (inEmergency .acknowledged lab).emergency with tracking := ⟨true, 0⟩ } }
    t.emergency.kept.state = .acknowledged ∧ t.emergency.tracking = ⟨true, 30⟩ ∧
      t.emergency.ackStamp = some ⟨4999, 90, true⟩ ∧ u.emergency.kept.state = .idle ∧ u.pins.chime = true ∧
      u.mail.gateChanges = [false] ∧ u.mail.lampChanges = [false] ∧ v.emergency.callDue = true ∧ v.emergency.tracking = ⟨true, 30⟩ := by decide +kernel

/-! ### The fare computation -/

/-- A hired trip with its accumulators as given, DOUBLE mode, Ud = 100 m, Ut = 15 s, A = 20, K = 2400. -/
def hiredAt (adist atime : Nat) (running : Bool) : State :=
  let s := onTrip .hired lab
  { s with
    fare := { s.fare with trip := { trip with adist := adist, atime := atime, distRunning := running, timeRunning := running } }
    due := { meterTicks := 1, windows := 1 }
    limiter := { limit := 134 } }

/-- R128: 15 s are 150 meter ticks. -/
theorem test_meter_tick :
    let t := after .meterTick (hiredAt 7 149 true)
    let u := after .meterTick (hiredAt 7 148 true)
    t.fare.trip.fare = 1880 ∧ t.fare.trip.atime = 0 ∧ t.fare.trip.adist = 7 ∧ t.fare.trip.increments = 1 ∧
      u.fare.trip.fare = 1860 ∧ u.fare.trip.atime = 149 ∧ u.fare.trip.ticks = 6006 := by decide +kernel

/-- R127: 100 m at 2400 pulses a kilometre are 240 pulses, 240000 thousandths. -/
theorem test_distance_pulse :
    let t := after .distancePulse (hiredAt 239500 9 true)
    t.fare.trip.fare = 1880 ∧ t.fare.trip.adist = 500 ∧ t.fare.trip.atime = 9 ∧ t.fare.trip.pulses = 12001 ∧
      t.limiter.remainder = 1000 ∧ t.limiter.window = 1 := by decide +kernel

/-- R133, R134: beyond L a pulse is clamped; a window of K = 2400 and Vmax = 200 allows 134 pulses. -/
theorem test_limiter :
    let s := hiredAt 0 0 true
    let t := after .distancePulse { s with limiter := { window := 134, limit := 134 } }
    let u := after .limiterWindowStart { s with limiter := { window := 134 } }
    t.fare.trip.clamped = 1 ∧ t.fare.trip.marks.clamped = true ∧ t.fare.trip.pulses = 12000 ∧
      u.limiter.window = 0 ∧ u.limiter.limit = 134 := by decide +kernel

/-- R139, R151. -/
theorem test_mark_and_addition :
    let s := { onTrip .stopped lab with mail := { marks := [.supplyDip], additions := [.offerExpired] } }
    (after .markEvent s).fare.trip.marks.dip = true ∧ (after .markEvent s).mail.marks = [] ∧
      (after .shiftTotalAddition s).fare.totals.expired = ⟨1, false⟩ := by decide +kernel

/-! ### Supply and time -/

/-- The monitor of section 12.5 with a threshold of 9.2 V. -/
def crank (p : SupplyMonitor) : State :=
  { lab with
    settings := { lab.settings with working := some { cabSettings with supplyCode := 4 } }
    supply := p, due := { supplySamples := 1 }, tx := { shifter := .sending } }

/-- s5: the third low sample; s26: the tenth high one. -/
theorem test_supply_sample :
    let t := after (.supplySample 86) (crank { lowRun := 2, runLowest := 79, lowest := 79 })
    let u := after (.supplySample 128) (crank { state := .low, highRun := 9, runLowest := 112, lowest := 79 })
    t.supply = { state := .low, lowest := 79 } ∧ t.pins.ptt = false ∧ t.mail.marks = [.supplyDip] ∧
      t.mail.sendReports = [.cut .supply] ∧ u.supply = { state := .ok, lowest := 112 } := by decide +kernel

/-- R48, R49: the hundredth tick of a second counts the timers down; what falls due. -/
theorem test_tick :
    let s := withPlace 0 (offer5104 .presented) { lab with
      time := { phase := 99, seconds := 4294967295 }, msgs := { reminder := ⟨true, 60⟩ } }
    let t := after .timeBaseTick s
    t.time = ⟨0, 0⟩ ∧ t.cycle.fleet = ⟨5000, 26, true⟩ ∧ (pick t.offers.places 0).deadline = 39 ∧
      t.msgs.reminder = ⟨true, 59⟩ ∧ t.due = ⟨1, 1, 1, 1⟩ := by decide +kernel

/-- R100: a pulse of 20 ticks. -/
theorem test_chime_end :
    (after .chimePulseEnd { lab with chime := { high := true, ticks := 0 } }).pins.chime = false ∧
      (after .chimePulseEnd { lab with chime := { high := true, ticks := 1 } }).chime.high = true := by decide +kernel

/-! ### The supplies -/

/-- R193, R194: without logic supply only the backup's loss and a power-on act; the latch is set in either order of the
two losses, and by neither alone. -/
theorem test_supply_losses :
    let s := after .logicSupplyLoss lab
    s.powered = false ∧ s.fare = lab.fare ∧ after .timeBaseTick s = s ∧
      (after .backupSupplyLoss s).retained.latch = true ∧ (after .backupSupplyLoss lab).retained.latch = false ∧
      s.retained.latch = false ∧ (after .logicSupplyLoss (after .backupSupplyLoss lab)).retained.latch = true :=
  ⟨rfl, rfl, rfl, rfl, rfl, rfl, rfl⟩

/-- R196: a HIRED trip restored is STOPPED with SUPPLY_INTERRUPTED, an ACKNOWLEDGED emergency ALERTING. -/
theorem test_restore :
    let f := (onTrip .hired lab).fare.restored
    let e : EmergencyKept := { state := .acknowledged }
    f.meter = .stopped ∧ f.trip.marks.interrupted = true ∧ f.trip.fare = 1860 ∧ e.restored.state = .alerting ∧
      judgeRetained { latch := true } = .none ∧ (onTrip .hired lab).fare.inRange = true ∧
      ({ trip with fare := 1000000 } : Trip).inRange = false := by decide +kernel

/-- R19: the hands after power-on, and the first reading of the supply clamped at 255. -/
theorem test_power_on :
    let t := after (.powerOn 300) { lab with retained := { latch := true } }
    heldByApp t.ram (requestBase 15) = true ∧ heldByCtl t.ram (boxBase 0) = true ∧
      Memory.readWord t.ram emergencyBase = 2 ∧ t.supply.lowest = 255 ∧ t.settings.part = .config := by decide +kernel

/-! ### The hypotheses of the obligations are met

For each obligation with hypotheses, states and operands that meet them; where its conclusion falls into
cases, one state for each case, at the ends of the ranges. -/

/-- Slot 3 asks for a request code, and is the next to be taken. -/
def asks (code : Nat) (s : State) : Bool :=
  s.running && s.port.order == [3] && requestCode s.ram 3 == code && heldByCtl s.ram (requestBase 3)

/-- A powered state with a canonical RAM and a sound Transmit Queue. -/
def fit (s : State) : Bool :=
  s.powered && Memory.wf s.ram &&
    decide ((s.queue.entries.length ≤ 12 ∧ (s.queue.entries.filter fun e => e.kind == .cabStatus).length ≤ 1 ∧
      (s.queue.entries.filter fun e => e.kind.isReport).length ≤ 1 ∧ (s.queue.entries.map (·.id)).Nodup ∧
      ∀ e ∈ s.queue.entries, e.id < s.queue.nextId) ∧ s.queue.resolvable = false)

theorem fit_sound {s : State} (h : fit s = true) : s.powered = true ∧ s.Inv ∧ s.queueSound := by
  simp only [fit, Bool.and_eq_true, decide_eq_true_eq] at h
  exact ⟨h.1.1, h.1.2, h.2⟩

theorem all_fit {l : List State} (h : l.all fit = true) : ∀ s ∈ l, s.powered = true ∧ s.Inv ∧ s.queueSound :=
  fun s hs => fit_sound (List.all_eq_true.mp h s hs)

theorem asks_ready {code : Nat} {s : State} (h : (asks code s && fit s) = true) :
    Ready code 3 [] s ∧ s.running = true ∧ s.queueSound := by
  simp only [asks, Bool.and_eq_true, beq_iff_eq] at h
  obtain ⟨⟨⟨⟨hr, ho⟩, hc⟩, hh⟩, hf⟩ := h
  obtain ⟨hp, hw, hq⟩ := fit_sound hf
  exact ⟨⟨hp, hw, ho, hc, hh⟩, hr, hq⟩

theorem all_ready {code : Nat} {l : List State} (h : l.all (fun s => asks code s && fit s) = true) :
    ∀ s ∈ l, Ready code 3 [] s ∧ s.running = true ∧ s.queueSound :=
  fun s hs => asks_ready (List.all_eq_true.mp h s hs)

/-- A lab with a command at the front of its queue. -/
def waiting (c : Instr) : State := { lab with pending := [c, .attentionRead] }

theorem witness_StepRunsFrontCommand : lab.pending = [] ∧ (waiting .meterTick).pending = .meterTick :: [.attentionRead] :=
  ⟨rfl, rfl⟩

theorem witness_StepKeepsMemoryAndHands :
    let s := { State.reset with pending := [.requestHandover 15 0x000C] }
    s.Inv ∧ s.handsLegal ∧ ∃ t, step s = .next t := by
  refine ⟨?_, ?_, _, rfl⟩
  · show Memory.wf _ = true
    decide +kernel
  · show (∀ _ : Slot, _) ∧ (∀ _ : Slot, _) ∧ (∀ _ : Slot, _) ∧ ∀ _ : Place, _
    decide +kernel

/-- A RUNNING state with its blocks and boards shown, a tick of the meter at the front of its queue; and a part in CONFIG
whose RUN leaves every board slot to be written. -/
theorem witness_StepKeepsShownAndRetained :
    let s := publish (waiting .meterTick)
    s.running = true ∧ s.Shown ∧ s.Coherent ∧ (∃ t, step s = .next t) ∧ (startUp 60).Inv ∧ (startUp 60).boardsShown ∧
      let t := publish (runWrite (startUp 60))
      exec (.run 1) (startUp 60) = .next t ∧ t.running = true ∧ ∀ i, boardStale t.offers (startUp 60).ram i = true :=
  ⟨(publish_frame (waiting .meterTick)).running (by decide), ⟨(publishWith_frame false _).wf rfl, fun _ => ⟨publishWith_blocksShown rfl false, publishWith_boardsShown rfl false⟩⟩,
    fun _ => ⟨⟨rfl, rfl⟩, publishWith_pins false _⟩, ⟨_, by
      unfold step
      rw [show (publish (waiting .meterTick)).pending = _ from publishWith_pending false _]
      exact rfl⟩, rfl, (fun h => nomatch h), rfl,
    (publish_running _).trans (by decide +kernel), fun i => by
      rw [publish_offers]
      revert i
      decide +kernel⟩

/-- A full queue with a mark that cannot be resolved; and a frame on air, an offer ACCEPTING beside a PRESENTED one, a good
link, at the third missed beacon. -/
theorem witness_StepKeepsQueueAndTracker :
    let q : TransmitQueue :=
      { entries := (List.range 12).map (fun n => entry n .msgDelivered n n), nextSeq := 12, nextId := 12, pending := true }
    let s := { waiting (.messageBoxReturn 0 0x000C) with queue := q }
    let u := withPlace 7 (offer5120 .presented) (withPlace 0 (offer5104 .accepting) { waiting .beaconMissed with
      cycle := { lab.cycle with missedRun := 2, inFlight := ⟨.onAir, .queue 5, 2⟩ }, time := { phase := 0, seconds := 3 }
      tx := { shifter := .sending }, pins := { lab.pins with ptt := true } })
    s.queueSound ∧ (∃ t, step s = .next t) ∧ u.trackerSound ∧ u.offersSound ∧ u.radioSound ∧ u.linkSound ∧ ∃ t, step u = .next t := by
  refine ⟨?_, ⟨_, rfl⟩, fun h => Bool.noConfusion (show true = false from h), ⟨?_, ?_⟩,
    fun _ => ⟨fun _ => nofun, fun _ => ⟨rfl, rfl, rfl⟩⟩, ⟨?_, fun h => Bool.noConfusion (show true = false from h)⟩, _, rfl⟩
  · exact (fit_sound (s := { waiting (.messageBoxReturn 0 0x000C) with queue :=
      { entries := (List.range 12).map (fun n => entry n .msgDelivered n n), nextSeq := 12, nextId := 12, pending := true } })
      (by decide +kernel)).2.2
  · show ∀ i j : Place, _ → _ → _
    decide +kernel
  · show ∀ i j : Place, _ → _ → _ → _
    decide +kernel
  · show _ = linkStateOf _ _
    decide +kernel

/-- A trip of 78 increments of 20 over a flag fall of 300. -/
theorem witness_StepKeepsTripBounded :
    let s := { waiting .meterTick with fare := { lab.fare with meter := .hired, trip := { trip with increments := 78 } } }
    s.fareSound ∧ s.fareLaw ∧ ∃ t, step s = .next t := by
  refine ⟨⟨fun w h => ?_, fun _ => ?_⟩, ⟨fun _ => ⟨rfl, by decide, by decide, 1560, by decide⟩, fun h => absurd rfl h⟩, _, rfl⟩
  · cases h
    show _ ∧ _ ∧ _ ∧ _ ∧ _ ∧ (_ → _) ∧ (_ → _) ∧ (_ → _) ∧ (_ → _)
    decide +kernel
  · show _ ∧ _ ∧ _ ∧ _ ∧ _ ∧ _ ∧ _ ∧ _ ∧ _
    decide +kernel

theorem witness_StepKeepsRequestsSound :
    let s := { asking 0x20 [] (waiting .timeBaseTick) with ram := Memory.write (asking 0x20 [] lab).ram 0x0400 [0x0C] }
    let u := { s with offers := { s.offers with heldAccept := some 0 } }
    u.Inv ∧ u.requestsSound ∧ ∃ t, step u = .next t := by
  refine ⟨?_, ⟨?_, ?_⟩, _, rfl⟩
  · show Memory.wf _ = true
    decide +kernel
  · show List.Nodup ([3, 0] : List Slot)
    decide
  · show ∀ i ∈ ([3, 0] : List Slot), _
    decide +kernel

theorem witness_SupplyLosses :
    lab.powered = true ∧ { lab with retained := { vbakAbsent := true } }.powered = true ∧ { lab with powered := false }.powered = false ∧
      (∀ v, Instr.timeBaseTick ≠ .powerOn v) ∧ Instr.timeBaseTick ≠ .backupSupplyLoss :=
  ⟨rfl, rfl, rfl, by simp, by simp⟩

/-! #### The memory port -/

/-- The first data word of request slot 0 and the last of fare record slot 15, held by APP and not. -/
theorem witness_SlotDataWrite :
    (∀ s ∈ [{ lab with ram := [⟨0x1880, 0x0A⟩] }, lab], s.powered = true ∧ s.Inv ∧ s.queueSound) ∧
    slotDataAddr 0x0201 = true ∧ slotDataAddr 0x0C7F = true ∧ slotDataAddr 0x0200 = false ∧
    heldByApp { lab with ram := [⟨0x1880, 0x0A⟩] }.ram (slotBase 0x0C7F) = true ∧
    heldByApp lab.ram (slotBase 0x0201) = false :=
  ⟨all_fit (by decide +kernel), by decide +kernel⟩

/-- The ends of the Settings Block, the Part Status Block, the Position Block, the Emergency Block and the
Offer Board. -/
theorem witness_FixedBlockWrite :
    (∀ s ∈ [lab], s.powered = true ∧ s.Inv ∧ s.queueSound) ∧
    [0x0000, 0x007F, 0x0080, 0x00FF, 0x0100, 0x010F, 0x0110, 0x011F, 0x0400, 0x057F].map
        (fun a : WordAddr => (fixedBlockAddr a, hostBlock a)) =
      [(true, true), (true, true), (true, false), (true, false), (true, true), (true, true), (true, false),
        (true, false), (true, false), (true, false)] ∧
    byteOffset 0x0100 = positionBase ∧ ((2 : Word).toNat % 2 = 0 ∧ (3 : Word).toNat % 2 ≠ 0) :=
  ⟨all_fit (by decide +kernel), by decide +kernel⟩

theorem witness_RequestHandover :
    (∀ s ∈ [{ lab with ram := [⟨0x07C0, 0x0A⟩] }, lab], s.powered = true ∧ s.Inv ∧ s.queueSound) ∧
    lowByte 0x000C = handCtl ∧ heldByApp { lab with ram := [⟨0x07C0, 0x0A⟩] }.ram (requestBase 15) = true ∧
    heldByApp lab.ram (requestBase 0) = false :=
  ⟨all_fit (by decide +kernel), by decide +kernel⟩

/-- A box returned as READ with a receipt owed, with RNR clear and set, another one, and a faulty return. -/
theorem witness_MessageBoxReturn :
    let r : State := { lab with
      ram := [⟨0x10A0, 0x0A⟩], msgs := { boxes := put (Vector.replicate 16 {}) 15 ⟨true, 404, true, false, true⟩ } }
    let n := { r with msgs := { r.msgs with rnr := true } }
    let p := { lab with ram := [⟨0x0B00, 0x0A⟩] }
    (∀ s ∈ [r, n, p, lab], s.powered = true ∧ s.Inv ∧ s.queueSound) ∧
    lowByte 0x010C = handCtl ∧ highByte 0x010C = 1 ∧
    [r, n].map (fun s => (heldByApp s.ram (boxBase 15), (pick s.msgs.boxes 15).directed,
      (pick s.msgs.boxes 15).receipt, s.msgs.rnr, s.running)) = [(true, true, true, false, true), (true, true, true, true, true)] ∧
    [p, lab].map (fun s => (heldByApp s.ram (boxBase 0), (pick s.msgs.boxes 0).directed)) =
      [(true, false), (false, false)] :=
  ⟨all_fit (by decide +kernel), by decide +kernel⟩

/-- The lab with a record in place 15 of the Record Store, its slot at APP, and a DONE report of it. -/
def withRecord (h : HeldRecord) : State :=
  { lab with
    ram := [⟨0x1880, 0x0A⟩]
    store := { places := put (Vector.replicate 16 none) 15 (some h), posting := [15], nextSeq := 301, reports := true }
    mail := { reportsDone := [h.seq] }, note := some h.seq }

theorem witness_RecordCollectionAndReport :
    let h (c r : Bool) : HeldRecord := ⟨.shift ⟨57, {}, {}, {}⟩, 300, c, r⟩
    let l := [withRecord (h false false), withRecord (h false true), withRecord (h true false)]
    (∀ s ∈ lab :: l, s.powered = true ∧ s.Inv ∧ s.queueSound) ∧
    l.map (fun s => (heldByApp s.ram (recordBase 15), s.mail.reportsDone, s.store.withSeq 300, s.store.reports,
      s.queue.roomForReport)) = List.replicate 3 (true, [300], some 15, true, true) ∧
    l.map (fun s => s.store.firstUnreported) = [some (h false false), none, some (h true false)] ∧
    heldByApp lab.ram (recordBase 0) = false ∧ lab.store.withSeq 300 = none :=
  ⟨all_fit (by decide +kernel), by decide +kernel⟩

theorem witness_AttentionReadAndMaskWrite :
    (publish lab).powered = true ∧ (publish lab).boardsShown ∧ lab.powered = true :=
  ⟨publishWith_powered false _, publishWith_boardsShown rfl false, rfl⟩

theorem witness_IdentAndMaskRegister :
    [0x1FF8, 0x1FF9, 0x1FFB, 0x0120, 0x1FFF].map (fun a : WordAddr => areaOf (byteOffset a)) =
      [.ident, .control, .attnMask, .unused, .unused] ∧ lab.powered = true ∧
    [0x0120, 0x01FF, 0x0C80, 0x1FF7, 0x1FF8, 0x1FFA, 0x1FFC, 0x1FFF].map (fun a : WordAddr => registerAddr a) =
      List.replicate 8 true ∧
    Instr.meterTick.wellFormed = true ∧ (∀ v, Instr.meterTick ≠ .attnMaskWrite v) ∧
    (∀ v, Instr.meterTick ≠ .powerOn v) ∧ ∃ t, exec .meterTick lab = .next t :=
  ⟨by decide +kernel, rfl, by decide +kernel, rfl, by simp, by simp, _, rfl⟩

theorem witness_RunWrite :
    (∀ (i : Place) (a : Nat), bytesAt (boardBase i + 2) 94 a → Memory.get (startUp 60).ram a = 0) ∧
    (∀ s ∈ [startUp 0, startUp 60], s.powered = true ∧ s.Inv ∧ s.queueSound) ∧
    [startUp 0, startUp 60].map (fun s => (s.running, firstFailing s.ram)) = [(false, some 0x1C), (false, none)] ∧
    lab.running = true ∧ (1 : Word).getLsbD 0 = true ∧ (2 : Word).getLsbD 0 = false ∧ (1 : Word).getLsbD 1 = false :=
  ⟨fun i a ha => by
      have h : ∀ (i : Place) (k : Fin 94), Memory.get (startUp 60).ram (boardBase i + 2 + k.val) = 0 := by decide +kernel
      unfold bytesAt at ha
      have e := h i ⟨a - (boardBase i + 2), by omega⟩
      rwa [show boardBase i + 2 + (a - (boardBase i + 2)) = a by omega] at e,
    all_fit (by decide +kernel), by decide +kernel⟩

theorem witness_SoftReset :
    let r : State := { asking 0x11 [] lab with
      tx := { shifter := .sending }, cycle := { lab.cycle with inFlight := { phase := .onAir, owner := .queue 5, slot := 2 } } }
    let turned (b : Bool) : State := { lab with msgs := { lab.msgs with rnr := boxFull lab.ram != b } }
    (∀ s ∈ [r, turned true, turned false], s.powered = true ∧ s.Inv ∧ s.queueSound) ∧
    (∀ s ∈ [r, turned true, turned false], s.running = true) ∧
    (turned true).msgs.rnr ≠ boxFull (turned true).ram ∧ (turned false).msgs.rnr = boxFull (turned false).ram ∧
    (2 : Word).getLsbD 1 = true ∧
    (1 : Word).getLsbD 1 = false ∧ (2 : Word).getLsbD 0 = false ∧ heldByCtl r.ram (requestBase 3) = true ∧
    heldByCtl lab.ram (requestBase 3) = false ∧ (startUp 0).running = false :=
  ⟨all_fit (by decide +kernel), by decide +kernel⟩

/-! #### Requests -/

theorem witness_RequestsInConfigAndUnknown :
    requestRow .dutyOn = some 0x01 ∧ requestRow .clearLinkLog = some 0x51 ∧ knownCodes.contains 0x7F = false ∧
    (∀ s ∈ [{ asking 0x01 [] lab with settings := {} }], Ready 0x01 3 [] s ∧ s.running = false) ∧
    (Ready 0x7F 3 [] (asking 0x7F [] lab) ∧ (asking 0x7F [] lab).running = true ∧ (asking 0x7F [] lab).queueSound) := by
  refine ⟨rfl, rfl, by decide, fun s hs => ?_, asks_ready (by decide +kernel)⟩
  cases List.mem_singleton.mp hs
  have k : (asks 0x01 (asking 0x01 [] lab) && fit (asking 0x01 [] lab)) = true := by decide +kernel
  exact ⟨⟨rfl, (asks_ready k).1.wf, rfl, (asks_ready k).1.code, (asks_ready k).1.hand⟩, rfl⟩

theorem witness_DutyOn :
    let off := { asking 0x01 [] lab with fare := { duty := .off, shiftNo := 65535 } }
    (∀ s ∈ [asking 0x01 [] lab, off], Ready 0x01 3 [] s ∧ s.running = true ∧ s.queueSound) ∧
    [asking 0x01 [] lab, off].map (·.fare.duty) = [.on, .off] :=
  ⟨all_ready (by decide +kernel), rfl⟩

/-- A Record Store with no place free. -/
def fullStore : RecordStore :=
  { places := Vector.replicate 16 (some ⟨.shift ⟨57, {}, {}, {}⟩, 300, true, false⟩), reports := true }

/-- One state for each refusal of DUTY_OFF in its order, one with a full store, and one that goes off. -/
theorem witness_DutyOff :
    let s := asking 0x02 [] lab
    let l := [{ s with fare := { s.fare with duty := .off } }, onTrip .stopped s, withPlace 7 (offer5104 .awarded) s,
      inEmergency .acknowledged s, { s with store := fullStore }, s]
    (∀ s ∈ l, Ready 0x02 3 [] s ∧ s.running = true ∧ s.queueSound) ∧
    l.map (fun s => (s.fare.duty, s.fare.meter, s.offers.anyTaken, s.emergency.kept.state, s.store.free)) =
      [(.off, .vacant, false, .idle, some 0), (.on, .stopped, false, .idle, some 0), (.on, .vacant, true, .idle, some 0),
        (.on, .vacant, false, .acknowledged, some 0), (.on, .vacant, false, .idle, none),
        (.on, .vacant, false, .idle, some 0)] :=
  ⟨all_ready (by decide +kernel), by decide +kernel⟩

theorem witness_SetZone :
    let l := [asking 0x03 [0] lab, asking 0x03 [30] lab, asking 0x03 [255] lab]
    (∀ s ∈ l, Ready 0x03 3 [] s ∧ s.running = true ∧ s.queueSound) ∧
    l.map (fun s => (param1 s.ram 3, s.offers.zone)) = [(0, 30), (30, 30), (255, 30)] :=
  ⟨all_ready (by decide +kernel), by decide +kernel⟩

/-- A Transmit Queue for each of R76's four cases. -/
def statusQueues : List TransmitQueue :=
  [{ entries := [{ entry 1 .cabStatus 8 0 with inFlight := true }], nextSeq := 255, nextId := 2, timer := ⟨true, 0⟩ },
   { entries := [entry 1 .cabStatus 8 0], nextSeq := 255, nextId := 2, timer := ⟨true, 0⟩ },
   { entries := (List.range 11).map (fun n => entry n .msgDelivered n n), nextId := 11, timer := ⟨true, 0⟩ },
   { entries := (List.range 12).map (fun n => entry n .msgDelivered n n), nextId := 12, timer := ⟨true, 0⟩ }]

theorem witness_StatusTrigger :
    let l := statusQueues.map fun q => { asking 0x04 [] lab with queue := q }
    (∀ s ∈ l, Ready 0x04 3 [] s ∧ s.running = true ∧ s.queueSound) ∧
    l.map (fun s => s.queue.timer.due) = List.replicate 4 true :=
  ⟨all_ready (by decide +kernel), by decide +kernel⟩

/-- Refused for the meter, for the duty, for tariff 5, 3 (not enabled) and with no tariff chosen; hired with tariff 0
(the chosen one), with tariff 2, and for the AWARDED offer. -/
theorem witness_MeterHire :
    let l := [onTrip .hired (asking 0x10 [1] lab), { asking 0x10 [1] lab with fare := { lab.fare with duty := .off } },
      asking 0x10 [5] lab, asking 0x10 [3] lab, { asking 0x10 [0] lab with fare := { lab.fare with chosen := 0 } },
      asking 0x10 [0] lab, asking 0x10 [2] lab, withPlace 7 (offer5104 .awarded) (asking 0x10 [1] lab)]
    (∀ s ∈ l, Ready 0x10 3 [] s ∧ s.running = true ∧ s.queueSound) ∧
    l.map (fun s => (s.fare.meter, s.fare.duty, param1 s.ram 3, s.fare.chosen, awardedPlace s.offers)) =
      [(.hired, .on, 1, 1, none), (.vacant, .off, 1, 1, none), (.vacant, .on, 5, 1, none), (.vacant, .on, 3, 1, none),
        (.vacant, .on, 0, 0, none), (.vacant, .on, 0, 1, none), (.vacant, .on, 2, 1, none), (.vacant, .on, 1, 1, some 7)] ∧
    [1, 2, 3, 4].map (fun n => (lab.working.tariff n).enabled) = [true, true, false, false] :=
  ⟨all_ready (by decide +kernel), by decide +kernel⟩

theorem witness_MeterStopAndResume :
    let l (code : Nat) := [onTrip .hired (asking code [] lab), onTrip .stopped (asking code [] lab), asking code [] lab]
    (∀ s ∈ l 0x11, Ready 0x11 3 [] s ∧ s.running = true ∧ s.queueSound) ∧ (∀ s ∈ l 0x12, Ready 0x12 3 [] s ∧ s.running = true ∧ s.queueSound) ∧
    (l 0x11).map (·.fare.meter) = [.hired, .stopped, .vacant] ∧ (l 0x12).map (·.fare.meter) = [.hired, .stopped, .vacant] :=
  ⟨all_ready (by decide +kernel), all_ready (by decide +kernel), rfl, rfl⟩

theorem witness_MeterClear :
    let s := onTrip .stopped (asking 0x13 [] lab)
    let l := [asking 0x13 [] lab, { s with store := fullStore }, s, { s with fare := { s.fare with duty := .off } }]
    (∀ s ∈ l, Ready 0x13 3 [] s ∧ s.running = true ∧ s.queueSound) ∧
    l.map (fun s => (s.fare.meter, s.store.free, s.fare.duty)) =
      [(.vacant, some 0, .on), (.stopped, none, .on), (.stopped, some 0, .on), (.stopped, some 0, .off)] :=
  ⟨all_ready (by decide +kernel), by decide +kernel⟩

/-- Out of range at both ends and not enabled; with the meter VACANT; with four segments and with three. -/
theorem witness_SelectTariff :
    let s := onTrip .hired (asking 0x14 [2] lab)
    let g := { tariff := 1, fare := 300, start := {} : Segment }
    let n (k : Nat) : State := { s with fare := { s.fare with trip := { s.fare.trip with segments := List.replicate k g } } }
    let l := [asking 0x14 [0] lab, asking 0x14 [5] lab, asking 0x14 [4] lab, asking 0x14 [1] lab, n 4, n 3]
    (∀ s ∈ l, Ready 0x14 3 [] s ∧ s.running = true ∧ s.queueSound) ∧
    l.map (fun s => (param1 s.ram 3, s.fare.meter, s.fare.trip.segments.length)) =
      [(0, .vacant, 0), (5, .vacant, 0), (4, .vacant, 0), (1, .vacant, 0), (2, .hired, 4), (2, .hired, 3)] ∧
    [1, 2, 4].map (fun n => (lab.working.tariff n).enabled) = [true, true, false] :=
  ⟨all_ready (by decide +kernel), by decide +kernel⟩

/-- The meter VACANT; codes 0 and 16, amounts 0 and 10000; eight extras; the ends of both ranges, with seven. -/
theorem witness_AddExtra :
    let on (ps : List Byte) := onTrip .hired (asking 0x15 ps lab)
    let n (k : Nat) (s : State) : State :=
      { s with fare := { s.fare with trip := { s.fare.trip with extras := List.replicate k ⟨1, 1⟩ } } }
    let l := [asking 0x15 [1, 0, 1, 0] lab, on [0, 0, 1, 0], on [16, 0, 1, 0], on [1, 0, 0, 0], on [1, 0, 0x10, 0x27],
      n 8 (on [1, 0, 1, 0]), n 7 (on [1, 0, 1, 0]), on [15, 0, 0x0F, 0x27]]
    (∀ s ∈ l, Ready 0x15 3 [] s ∧ s.running = true ∧ s.queueSound) ∧
    l.map (fun s => (s.fare.meter, param1 s.ram 3, paramAmount s.ram 3, s.fare.trip.extras.length)) =
      [(.vacant, 1, 1, 0), (.hired, 0, 1, 0), (.hired, 16, 1, 0), (.hired, 1, 0, 0), (.hired, 1, 10000, 0),
        (.hired, 1, 1, 8), (.hired, 1, 1, 7), (.hired, 15, 9999, 0)] :=
  ⟨all_ready (by decide +kernel), by decide +kernel⟩

/-- A Transmit Queue of some messages. -/
def messages (n : Nat) (s : State) : State :=
  { s with queue := { entries := (List.range n).map (fun k => entry k .msgDelivered k k), nextSeq := n, nextId := n } }

/-- Each refusal of ACCEPT_OFFER, and an acceptance with seven entries in the queue. -/
theorem witness_AcceptOffer :
    let s := withPlace 7 (offer5120 .presented) (asking 0x20 [0x00, 0x14] lab)
    let l := [asking 0x20 [0x00, 0x14] lab, withPlace 7 (offer5120 .awarded) s, onTrip .hired s, inEmergency .alerting s,
      withPlace 0 (offer5104 .accepting) s, { s with link := { s.link with state := .search } },
      { s with link := { s.link with state := .withdrawn } }, messages 8 s, messages 7 s]
    (∀ s ∈ l, Ready 0x20 3 [] s ∧ s.running = true ∧ s.queueSound) ∧
    l.map (fun s => (findOpen (param2 s.ram 3) s.offers, (pick s.offers.places 7).state, s.fare.meter)) =
      [(none, .empty, .vacant), (some 7, .awarded, .vacant), (some 7, .presented, .hired)] ++
        List.replicate 6 (some 7, .presented, .vacant) ∧
    l.map (fun s => (s.emergency.kept.state, s.offers.anyTaken, s.link.state, s.queue.entries.length)) =
      [(.idle, false, .good, 0), (.idle, true, .good, 0), (.idle, false, .good, 0), (.alerting, false, .good, 0),
        (.idle, true, .good, 0), (.idle, false, .search, 0), (.idle, false, .withdrawn, 0), (.idle, false, .good, 8),
        (.idle, false, .good, 7)] :=
  ⟨all_ready (by decide +kernel), by decide +kernel, by decide +kernel⟩

/-- Each refusal of DECLINE_OFFER; a ZONE offer, a DIRECTED one and an AWARDED one given back. -/
theorem witness_DeclineOffer :
    let s := asking 0x21 [0x00, 0x14] lab
    let d := { offer5120 .presented with origin := 1 }
    let l := [s, withPlace 7 (offer5120 .accepting) s, messages 8 (withPlace 7 d s),
      messages 8 (withPlace 7 (offer5120 .presented) s), messages 7 (withPlace 7 d s), withPlace 7 (offer5120 .awarded) s]
    (∀ s ∈ l, Ready 0x21 3 [] s ∧ s.running = true ∧ s.queueSound) ∧
    l.map (fun s => (findOpen (param2 s.ram 3) s.offers, (pick s.offers.places 7).state, (pick s.offers.places 7).origin,
        s.queue.entries.length)) =
      [(none, .empty, 0, 0), (some 7, .accepting, 2, 0), (some 7, .presented, 1, 8), (some 7, .presented, 2, 8),
        (some 7, .presented, 1, 7), (some 7, .awarded, 2, 0)] :=
  ⟨all_ready (by decide +kernel), by decide +kernel⟩

theorem witness_ResumeOffers :
    let s := asking 0x22 [] lab
    let l := [{ s with offers := { s.offers with latch := true, expiries := 15 } }, s]
    (∀ s ∈ l, Ready 0x22 3 [] s ∧ s.running = true ∧ s.queueSound) ∧ l.map (·.offers.latch) = [true, false] :=
  ⟨all_ready (by decide +kernel), rfl⟩

/-- Codes 0, 1, 63 and 64 and text lengths 0, 1, 48 and 49, refused and taken; a queue of eight and of seven. -/
theorem witness_SendMessage :
    let l := [asking 0x30 [0, 0] lab, asking 0x30 [64, 0] lab, asking 0x30 [1, 1] lab, asking 0x30 [0, 49] lab,
      messages 8 (asking 0x30 [1, 0] lab), messages 7 (asking 0x30 [1, 0] lab), asking 0x30 [63, 0] lab,
      asking 0x30 [0, 1, 0x09] lab, asking 0x30 [0, 48] lab]
    (∀ s ∈ l, Ready 0x30 3 [] s ∧ s.running = true ∧ s.queueSound) ∧
    l.map (fun s => (param1 s.ram 3, paramTextLength s.ram 3, s.queue.entries.length)) =
      [(0, 0, 0), (64, 0, 0), (1, 1, 0), (0, 49, 0), (1, 0, 8), (1, 0, 7), (63, 0, 0), (0, 1, 0), (0, 48, 0)] :=
  ⟨all_ready (by decide +kernel), by decide +kernel⟩

theorem witness_RaiseEmergency :
    let s := asking 0x40 [] lab
    let l := [s, inEmergency .alerting s, inEmergency .acknowledged s]
    (∀ s ∈ l, Ready 0x40 3 [] s ∧ s.running = true ∧ s.queueSound) ∧
    l.map (·.emergency.kept.state) = [.idle, .alerting, .acknowledged] :=
  ⟨all_ready (by decide +kernel), rfl⟩

/-- The Settings Block of section 2.7 written under a request to replace the settings, with bytes at an offset changed. -/
def replacing (a : Nat) (bs : List Byte) : State :=
  let s := asking 0x50 [] lab
  { s with ram := Memory.write (Memory.write s.ram 0
    (le 2 417 ++ [12, 30] ++ le 2 2400 ++ le 2 200 ++
      [1, 1] ++ le 2 300 ++ le 2 1000 ++ le 2 120 ++ le 2 20 ++ le 2 100 ++ le 2 15)) a bs }

/-- Refused for the meter, the cab number, the fleet code and an extra beyond its range; replaced with reports required
newly, still, and no longer. -/
theorem witness_ReplaceSettings :
    let s := replacing 0x4B [1]
    let l := [onTrip .stopped s, replacing 0 (le 2 418), replacing 2 [13], replacing 0x41 [16],
      { s with settings := { s.settings with working := some { cabSettings with reports := false } }, store := {} }, s,
      replacing 0x4B [0]]
    (∀ s ∈ l, Ready 0x50 3 [] s ∧ s.running = true ∧ s.queueSound) ∧
    l.map (fun s => (s.fare.meter, field2 s.ram 0x00, field1 s.ram 0x02, firstFailing s.ram, (readSettings s.ram).reports,
        s.store.reports)) =
      [(.stopped, 417, 12, none, true, true), (.vacant, 418, 12, none, false, true), (.vacant, 417, 13, none, false, true),
        (.vacant, 417, 12, some 0x41, false, true), (.vacant, 417, 12, none, true, false), (.vacant, 417, 12, none, true, true),
        (.vacant, 417, 12, none, false, true)] :=
  ⟨all_ready (by decide +kernel), by decide +kernel⟩

theorem witness_ClearLinkLog :
    ∀ s ∈ [{ asking 0x51 [] lab with link := { lab.link with log := 255, overflowed := true } }],
      Ready 0x51 3 [] s ∧ s.running = true ∧ s.queueSound := all_ready (by decide +kernel)

/-! #### The Radio Port, the Cycle Tracker, the queue and the link -/

/-- The frame assembler in a state. -/
def receiving (a : Assembler) (s : State) : State := { s with rx := { s.rx with asm := a } }

theorem witness_HeaderBytes :
    (receiving .header lab).powered = true ∧ (receiving .header lab).rx.asm = .header ∧
    (⟨2, 56, 0, 0⟩ : Header).len.toNat ≤ 56 ∧ 56 < (⟨2, 57, 0, 0⟩ : Header).len.toNat := by decide +kernel

theorem witness_SyncInHunt :
    lab.powered = true ∧ lab.rx.asm = .hunt ∧ lab.rx.held = none ∧ (holding .cabResume true lab).rx.asm = .hunt ∧
    (holding .cabResume true lab).rx.held ≠ none ∧ endInSync syncPattern = true ∧ endInSync (false :: syncPattern) = true := by
  decide +kernel

/-- A frame of another kind, of another cab, a beacon to one cab, an acknowledgement to all, a wrong length, an offer
number of 0, a beacon of another fleet, and good frames with no payload and with the longest; RUNNING and in CONFIG. -/
theorem witness_FrameEnd :
    let b (fleet : Byte) : List Byte := [fleet, 0x02, 0xBC, 0, 0, 0x13, 0x88, 20, 5, 0]
    let l : List (List Byte × List Byte) := [([0x0A, 0, 0, 0], []), ([0x09, 0, 0x01, 0x84], []), ([0x01, 10, 0x01, 0xA1], b 12),
      ([0x06, 0, 0, 0], []), ([0x06, 1, 0x01, 0xA1], [0]), ([0x04, 2, 0, 0], [0, 0]), ([0x01, 10, 0, 0], b 13), ([0x01, 10, 0, 0], b 12),
      ([0x09, 0, 0x01, 0xA1], []), ([0x05, 56, 0, 0], [0, 1, 0, 0, 51] ++ List.replicate 51 0x41)]
    let s (x : List Byte × List Byte) := inBody x.1
    (∀ x ∈ l, (s x).powered = true ∧ (s x).running = true ∧ (s x).rx.asm = .body ∧ (s x).rx.buffer = x.1 ∧ x.1.length = 4 ∧
      x.2.length = byteAt x.1 1) ∧ { s ([9, 0, 0, 0], []) with settings := {} }.running = false ∧
    lab.working.cab = 0x01A1 ∧ lab.working.fleet = 12 ∧ crcOver (inBody [9, 0, 0, 0]).rx.crc [] ≠ 0 ∧
    l.map (fun x => (lengthMatches (byteAt x.1 0) x.2, fieldsInRange (byteAt x.1 0) x.2)) =
      [(true, true), (true, true), (true, true), (true, true), (false, true), (true, false), (true, true), (true, true), (true, true),
        (true, true)] := by decide +kernel

theorem witness_ClockLossAndSkipEnd :
    let s (a : Assembler) (n : Nat) : State := { lab with rx := { lab.rx with asm := a, quiet := n } }
    [s .header 2, s .body 2, s .skip 2, s .body 1, s .hunt 0].map (fun s => (s.powered, s.rx.asm, s.rx.quiet)) =
      [(true, .header, 2), (true, .body, 2), (true, .skip, 2), (true, .body, 1), (true, .hunt, 0)] ∧
    skipComplete [3, 4, 0, 0, 1, 2, 3, 4, 5, 6] = true ∧ skipComplete [3, 57, 0, 0] = true := by decide +kernel

theorem witness_TransmitShifter :
    let s (f : Shifter) (n : Nat) : State := { lab with tx := { shifter := f, keyed := n } }
    lab.powered = true ∧ (s .keying 2).tx = ⟨.keying, [], 2⟩ ∧ (s .sending 9).tx.shifter = .sending ∧
    (s .keying 10).tx.shifter ≠ .idle ∧ 10 ≤ (s .sending 10).tx.keyed := by decide +kernel

theorem all_tracked {l : List State} (h : l.all (fun s => s.cycle.synced || s.cycle.inFlight.phase == .none) = true) :
    ∀ s ∈ l, s.trackerSound := by
  intro s hs h1
  have := List.all_eq_true.mp h s hs
  simpa [h1] using this

/-- A good beacon: nothing in flight and no queue; a queue with its status trigger; a frame awaiting its judgement,
named in the list and not; unsynchronised; under an emergency, with its call in flight; and in a LOW supply.  Then the
question of R182 in each pacing, in READY with a LOW supply, and ACKNOWLEDGED with a call due.  Last, an outcome that a
missed beacon left waiting, alone and with this beacon's own behind it. -/
theorem witness_Beacon :
    let acked : Downlink := .beacon 12 700 5000 20 15 [417]
    let c := holding b1 false (contest .awaiting 0x56A0 254 0)
    let l := [holding b1 false lab, holding b1 false (contest .none 0xAD40 0 3), c, holding acked false (contest .awaiting 0x56A0 2 0),
      { c with cycle := { c.cycle with synced := false, inFlight := {} } }, holding b1 false (inEmergency .alerting (contest .none 1 0 3)),
      holding b1 false { inEmergency .alerting lab with
        cycle := { lab.cycle with inFlight := ⟨.awaiting, .call [], 0⟩ }
        emergency := { (inEmergency .alerting lab).emergency with callInHand := true } },
      { c with supply := { state := .low } }, holding (.beacon 12 700 5000 10 0 []) false (contest .none 1 0 3)]
    let e (k : EmergencyState) (p : Pacing) (d : Bool) : State := { inEmergency k (holding b1 false lab) with
      emergency := { (inEmergency k lab).emergency with pacing := p, callDue := d } }
    let m := [e .alerting .ready false, e .alerting (.spacing 3) false, e .alerting (.spacing 1) false, e .alerting .retry false,
      e .acknowledged .ready true, e .acknowledged .ready false, { e .alerting .ready false with supply := { state := .low } }]
    let late := (5, FrameOutcome.missedUnjudged .beacon)
    let w := [holding b1 false { contest .none 1 0 0 with mail := { queueOuts := [late] } },
      { c with mail := { queueOuts := [(7, .notSent), late] } }]
    (∀ s ∈ l ++ m ++ w, s.powered = true ∧ s.Inv ∧ s.queueSound) ∧
    (∀ s ∈ l ++ m ++ w, s.trackerSound) ∧ w.map (fun s => (heldForOwner s).map (·.frame)) = [some b1, some b1] ∧
    (w.take 1).map (fun s => (after .beacon s).queue.entries.map (fun e => (e.id, e.attempts))) = [[(7, 0), (5, 1)]] ∧ m.map (fun s => (heldForOwner s).map (·.frame)) = List.replicate 7 (some b1) ∧
    m.map (fun s => (askCall s).1) = [true, false, false, false, true, false, true] ∧
    l.map (fun s => (heldForOwner s).map (·.frame)) = [some b1, some b1, some b1, some acked, some b1, some b1, some b1, some b1,
      some (.beacon 12 700 5000 10 0 [])] ∧
    l.map (fun s => (s.cycle.synced, s.cycle.inFlight.phase, s.cycle.inFlight.owner.isQueue)) =
      [(true, .none, true), (true, .none, true), (true, .awaiting, true), (true, .awaiting, true), (false, .none, true),
        (true, .none, true), (true, .awaiting, false), (true, .awaiting, true), (true, .none, true)] :=
  ⟨all_fit (by decide +kernel), all_tracked (by decide +kernel), by decide +kernel, by decide +kernel, by decide +kernel,
    by decide +kernel, by decide +kernel, by decide +kernel⟩

/-- Supervision reached at its deadline: the first, second and third beacon missed in a row, with a frame awaiting its
judgement and a call on air. -/
theorem witness_BeaconMissed :
    let s (n : Nat) (f : InFlight) : State := { lab with
      cycle := { lab.cycle with missedRun := n, inFlight := f }, time := { phase := 0, seconds := 3 } }
    let l := [s 0 {}, s 1 ⟨.awaiting, .queue 5, 2⟩, s 2 ⟨.onAir, .call [], 0⟩, s 3 {}]
    (∀ s ∈ l, s.powered = true ∧ s.Inv ∧ s.queueSound) ∧
    l.map (fun s => (s.cycle.synced, s.cycle.deadline, s.cycle.missedRun, reached 300 (s.time.seconds * 100 + s.time.phase))) =
      [(true, some 300, 0, true), (true, some 300, 1, true), (true, some 300, 2, true), (true, some 300, 3, true)] :=
  ⟨all_fit (by decide +kernel), by decide +kernel⟩

/-- The slot of the chosen entry started at its instant, sent and refused (the shifter busy, the supply LOW); an
entry no longer held; a call sent, refused and with the emergency over; and each report of a sending's end. -/
theorem witness_SlotStartAndSendReport :
    let at40 (s : State) : State := { s with time := { phase := 40, seconds := 0 } }
    let q := at40 (contest .chosen 0x56A0 0 0)
    let c := at40 { lab with cycle := { lab.cycle with inFlight := ⟨.chosen, .call [], 0⟩ } }
    let l := [q, { q with tx := { shifter := .sending } }, { q with supply := { state := .low } }, { q with queue := {} },
      inEmergency .alerting c, { inEmergency .alerting c with supply := { state := .low } }, c]
    let r (p : Phase) (x : SendReport) : State := { contest p 0 0 0 with mail := { sendReports := [x] } }
    let m := [r .onAir .sent, r .onAir (.cut .supply), r .onAir (.cut .slotEnd), r .onAir (.cut .reset), r .none .sent]
    (∀ s ∈ l ++ m, s.powered = true ∧ s.Inv ∧ s.queueSound) ∧
    l.map (fun s => (s.cycle.inFlight.phase, s.cycle.record, reached (instantAfter 0 (20 + 10 * s.cycle.inFlight.slot))
      (s.time.seconds * 100 + s.time.phase))) = List.replicate 7 (.chosen, some ⟨0, 700, 20, 5⟩, true) ∧
    reached (instantAfter 0 (20 + 10 * q.cycle.inFlight.slot)) 39 = false ∧
    m.map (·.mail.sendReports) = [[.sent], [.cut .supply], [.cut .slotEnd], [.cut .reset], [.sent]] :=
  ⟨all_fit (by decide +kernel), by decide +kernel⟩

/-- An outcome of an entry no longer held; of a JOB_ACCEPT at its fifth and sixth miss; of a report, a message of
the driver and a status, acknowledged. -/
theorem witness_QueueOutcome :
    let s (e : Entry) (o : FrameOutcome) (p : Bool) : State := { lab with
      queue := { entries := [{ e with inFlight := true }], nextId := 6, pending := p }, mail := { queueOuts := [(5, o)] } }
    let l := [s (entry 4 .jobAccept 9 5120) .missed false, s { entry 5 .jobAccept 9 5120 with attempts := 4 } .missed false,
      s { entry 5 .jobAccept 9 5120 with attempts := 5 } (.missedUnjudged .overlap) false, s (entry 5 .shiftReport 9 300) .acknowledged false,
      s { entry 5 .driverMessage 9 0 with origin := some 2 } .acknowledged false, s (entry 5 .cabStatus 9 0) .acknowledged true,
      s (entry 5 .tripReport 9 300) .notSent false]
    (∀ s ∈ l, s.powered = true ∧ s.Inv ∧ s.queueSound) ∧
    l.map (fun s => (s.mail.queueOuts.map (·.1), (s.queue.find 5).map (·.attempts))) =
      [([5], none), ([5], some 4), ([5], some 5), ([5], some 0), ([5], some 0), ([5], some 0), ([5], some 0)] :=
  ⟨all_fit (by decide +kernel), by decide +kernel⟩

/-- Every kind of report, with the counters at both ends. -/
theorem witness_LinkReports :
    let r (x : LinkReport) (u : LinkUnit) : State := { lab with link := u, mail := { linkReports := [x] } }
    let l := [r (.outcome true .acknowledged) { ufc := 0 }, r (.outcome true .acknowledged) { ufc := 255, withdrawn := true },
      r (.outcome true .missed) { ufc := 247 }, r (.outcome true .missed) { ufc := 248, log := 255 }, r (.outcome false .missed) {},
      r (.outcome true (.missedUnjudged .beacon)) {}, r .beaconMissed { dfc := 255 }, r .syncLost {}]
    (∀ s ∈ l, s.powered = true ∧ s.Inv ∧ s.queueSound) ∧
    l.map (·.mail.linkReports) = [[.outcome true .acknowledged], [.outcome true .acknowledged], [.outcome true .missed],
      [.outcome true .missed], [.outcome false .missed], [.outcome true (.missedUnjudged .beacon)], [.beaconMissed], [.syncLost]] ∧
    { lab with mail := { rxErrors := [.overrun] } }.mail.rxErrors = .overrun :: [] :=
  ⟨all_fit (by decide +kernel), rfl, rfl⟩

/-- Recovery at its 31st and 32nd step, and no recovery under way. -/
theorem witness_BeaconAtLink :
    let s := holding b1 false lab
    let l := [s, { s with link := { s.link with withdrawn := true, recovery := 30 } },
      { s with link := { s.link with withdrawn := true, recovery := 31 } }]
    (∀ s ∈ l, s.powered = true ∧ s.Inv ∧ s.queueSound) ∧ l.map (fun s => s.rx.held.map (·.forLink)) = List.replicate 3 (some true) :=
  ⟨all_fit (by decide +kernel), by decide +kernel⟩

/-! #### Offers and messages -/

/-- A JOB_OFFER of this number held for its owner. -/
def offering (n zone deadline : Nat) (assigned directed : Bool) (s : State) : State :=
  holding (.jobOffer n zone deadline assigned false 0 [0x41]) directed s

/-- Ignored: held open, already started, broadcast and assigned, of another zone. Answered: with a gate closed, assigned
to a busy cab. Entered: broadcast, directed, directed and assigned. With the table full: dropped, a ZONE entry
displaced, and nothing to displace. -/
theorem witness_JobOffer :
    let full (p : OfferPlace) (s : State) : State := { s with offers := { s.offers with places := Vector.replicate 8 p } }
    let started := onTrip .hired lab
    let l := [offering 5120 30 20 false true (withPlace 7 (offer5120 .presented) lab),
      offering 5104 30 20 false true { started with fare := { started.fare with trip := { trip with job := 5104 } } },
      offering 6000 30 20 true false lab, offering 6000 31 20 false false lab,
      offering 6000 30 20 false true { lab with offers := { lab.offers with emergencyGate := true } },
      offering 6000 30 20 true true (onTrip .hired lab), offering 6000 30 0 false false lab, offering 6000 31 255 false true lab,
      offering 6000 31 20 true true lab, offering 6000 30 20 false false (full (offer5104 .presented) lab),
      offering 6000 31 20 true true (full (offer5120 .presented) lab), offering 6000 31 20 false true (full (offer5104 .presented) lab)]
    (∀ s ∈ l, s.powered = true ∧ s.Inv ∧ s.queueSound) ∧
    l.map (fun s => (heldForOwner s).isSome) = List.replicate 12 true ∧
    l.map (fun s => (freePlace s.offers, displacedPlace s.offers, s.offers.anyTaken)) =
      [(some 0, some 7, false), (some 0, none, false), (some 0, none, false), (some 0, none, false), (some 0, none, false),
        (some 0, none, false), (some 0, none, false), (some 0, none, false), (some 0, none, false), (none, none, false),
        (none, some 0, false), (none, none, false)] ∧
    jobStarted 5104 (offering 5104 30 20 false true { started with fare := { started.fare with trip := { trip with job := 5104 } } }) =
      true :=
  ⟨all_fit (by decide +kernel), by decide +kernel, by decide +kernel, by decide +kernel⟩

/-- Awards to this cab and to another, for an offer in each open state, for none and for a started one; a withdrawal of
each. -/
theorem witness_JobAwardAndWithdraw :
    let st : List PlaceState := [.accepting, .presented, .awarded, .unanswered]
    let award (cab : Nat) := st.map fun x => holding (.jobAward 5104 cab) false (withPlace 7 (offer5104 x) lab)
    let taken := holding (.jobAward 5104 417) false (withPlace 0 (offer5120 .accepting) (withPlace 7 (offer5104 .presented) lab))
    let back := st.map fun x => holding (.jobWithdraw 5104) true (withPlace 7 (offer5104 x) lab)
    (∀ s ∈ award 417 ++ award 388 ++ back ++ [taken], s.powered = true ∧ s.Inv ∧ s.queueSound) ∧
    (award 417).map (fun s => ((heldForOwner s).map (·.frame), findOpen 5104 s.offers)) =
      [(some (.jobAward 5104 417), some 7), (some (.jobAward 5104 417), some 7), (some (.jobAward 5104 417), some 7),
        (some (.jobAward 5104 417), none)] ∧
    (award 388).map (fun s => (heldForOwner s).map (·.frame)) = List.replicate 4 (some (.jobAward 5104 388)) ∧
    back.map (fun s => ((heldForOwner s).map (·.frame), findOpen 5104 s.offers)) =
      [(some (.jobWithdraw 5104), some 7), (some (.jobWithdraw 5104), some 7), (some (.jobWithdraw 5104), some 7),
        (some (.jobWithdraw 5104), none)] ∧
    taken.offers.anyTaken = true ∧ findOpen 5104 taken.offers = some 7 ∧ lab.working.cab = 417 ∧ jobStarted 5104 lab = false :=
  ⟨all_fit (by decide +kernel), by decide +kernel, by decide +kernel, by decide +kernel, by decide +kernel⟩

/-- A deadline at 0 with the consecutive-expiry counter below, at and beyond the count-out, and latched; an award wait
at 0; an undelivered acceptance of an ACCEPTING entry, of a PRESENTED one and of none. -/
theorem witness_OfferExpiries :
    let s := withPlace 7 { offer5120 .presented with deadline := 0 } lab
    let n (k : Nat) (x : Bool) : State := { s with offers := { s.offers with expiries := k, latch := x } }
    let a := withPlace 7 { offer5104 .accepting with wait := 0 } { asking 0x20 [] lab with port := {} }
    let u (s : State) : State := { s with mail := { undelivered := [5104] } }
    let l := [n 1 false, n 2 false, n 15 false, n 3 true]
    (∀ s ∈ l ++ [a, { a with offers := { a.offers with heldAccept := some 3 } }, u a, u (withPlace 7 (offer5104 .presented) lab), u lab],
      s.powered = true ∧ s.Inv ∧ s.queueSound) ∧
    l.map (fun s => (s.running, (pick s.offers.places 7).state, (pick s.offers.places 7).deadline, s.working.countOut)) =
      List.replicate 4 (true, .presented, 0, 3) ∧
    (pick a.offers.places 7).state = .accepting ∧ (pick a.offers.places 7).wait = 0 ∧
    findOpen 5104 (u a).offers = some 7 ∧ findOpen 5104 (withPlace 7 (offer5104 .presented) lab).offers = some 7 ∧
    findOpen 5104 lab.offers = none :=
  ⟨all_fit (by decide +kernel), by decide +kernel, by decide +kernel⟩

/-- A suspension of 0 and of 255 minutes, of a cab suspended already; its end by the frame and by the timer. -/
theorem witness_BaseSuspension :
    let on : State := { lab with offers := { lab.offers with baseSuspended := true, baseTimer := ⟨true, 0⟩ } }
    let l := [holding (.cabSuspend 7 0) false lab, holding (.cabSuspend 7 255) true lab, holding (.cabSuspend 7 2) false on,
      holding .cabResume false on, holding .cabResume false lab, on]
    (∀ s ∈ l, s.powered = true ∧ s.Inv ∧ s.queueSound) ∧
    l.map (fun s => ((heldForOwner s).map (·.frame), s.offers.baseSuspended)) =
      [(some (.cabSuspend 7 0), false), (some (.cabSuspend 7 255), false), (some (.cabSuspend 7 2), true),
        (some .cabResume, true), (some .cabResume, false), (none, true)] ∧ on.offers.baseTimer = ⟨true, 0⟩ :=
  ⟨all_fit (by decide +kernel), by decide +kernel, rfl⟩

/-- A message known, stored in the one free slot with 15 and with 16 numbers known, a directed one and a broadcast that
find the box full; the reminder at 0; a notice for a send held and for none. -/
theorem witness_MessageEvents :
    let msg (n : Nat) (directed : Bool) (s : State) := holding (.baseMessage n true true 9 [0x48]) directed s
    let free : State := { lab with ram := [⟨0x10A0, 0x0C⟩] }
    let known (k : Nat) : State := { free with msgs := { recent := List.replicate k 1, nextArrival := 65535 } }
    let l := [msg 1 true (known 1), msg 415 true (known 15), msg 415 false (known 16), msg 415 true lab, msg 415 false lab]
    let m := [{ asking 0x30 [] lab with msgs := { sends := [⟨3, 42⟩] }, mail := { sendNotices := [⟨3, 42, false⟩] } },
      { lab with mail := { sendNotices := [⟨3, 42, true⟩] } }]
    (∀ s ∈ l ++ m, s.powered = true ∧ s.Inv ∧ s.queueSound) ∧
    l.map (fun s => ((heldForOwner s).isSome, freeBox s.ram)) =
      [(true, some 15), (true, some 15), (true, some 15), (true, none), (true, none)] ∧
    l.map (fun s => s.msgs.knows 415) = List.replicate 5 false ∧ (known 1).msgs.knows 1 = true ∧
    m.map (fun s => (s.mail.sendNotices.length, s.msgs.sends)) = [(1, [⟨3, 42⟩]), (1, [])] ∧
    { lab with msgs := { reminder := ⟨true, 0⟩ } }.msgs.reminder = ⟨true, 0⟩ :=
  ⟨all_fit (by decide +kernel), by decide +kernel, by decide +kernel, by decide +kernel, by decide +kernel, rfl⟩

/-! #### The emergency, the meter, the supply and the time -/

theorem witness_EmergencyAckAndClear :
    let l (f : Downlink) := [EmergencyState.idle, .alerting, .acknowledged].map fun x => holding f true (inEmergency x lab)
    (∀ s ∈ l .emergencyAck ++ l .emergencyClear, s.powered = true ∧ s.Inv ∧ s.queueSound) ∧
    (l .emergencyAck ++ l .emergencyClear).map (fun s => (heldForOwner s).map (·.frame)) =
      List.replicate 3 (some .emergencyAck) ++ List.replicate 3 (some .emergencyClear) :=
  ⟨all_fit (by decide +kernel), by decide +kernel⟩

/-- A sample in each state of the debouncer, with one low sample to come and with more. -/
theorem witness_EmergencyInput :
    let s (d : Debounce) (e : EmergencyState) : State := { inEmergency e lab with
      emergency := { (inEmergency e lab).emergency with debounce := d }, due := { inputSamples := 1 } }
    let l := [s .released .idle, s (.timing 2) .idle, s (.timing 1) .idle, s (.timing 1) .alerting, s .held .idle]
    (∀ s ∈ l, s.powered = true ∧ s.Inv ∧ s.queueSound) ∧ l.map (·.due.inputSamples) = List.replicate 5 1 ∧
    l.map (fun s => (s.emergency.debounce, edgeNext s.emergency)) =
      [(.released, false), (.timing 2, false), (.timing 1, true), (.timing 1, true), (.held, false)] :=
  ⟨all_fit (by decide +kernel), rfl, by decide +kernel⟩

/-- Marks and additions on duty with a trip and without either; a change that waits at all three neighbours, at the
Fare Meter by its mark or its count alone, and at the gate and the lamp alone in each direction. -/
theorem witness_HandedToNeighbours :
    let m : Mail := { marks := [.emergency], additions := [.emergency], gateChanges := [true], lampChanges := [true] }
    let on := { onTrip .hired lab with mail := m }
    let l := [on, { on with fare := {} }, { on with mail := { marks := [.emergency] } },
      { on with mail := { additions := [.emergency] } }, { on with mail := { gateChanges := [true, false] } },
      { on with mail := { gateChanges := [false] } }, { on with mail := { lampChanges := [false] } }]
    (∀ s ∈ l, s.powered = true ∧ s.Inv ∧ s.queueSound) ∧
    l.map (fun s => s.mail.waiting) = [[.offerManager, .fareMeter, .lamp], [.offerManager, .fareMeter, .lamp],
      [.fareMeter], [.fareMeter], [.offerManager], [.offerManager], [.lamp]] ∧
    l.map (fun s => (s.fare.meter, s.fare.duty)) = (.hired, .on) :: (.vacant, .off) :: List.replicate 5 (.hired, .on) :=
  ⟨all_fit (by decide +kernel), by decide +kernel, rfl⟩

/-- Every outcome of a call in hand, and one of none; the tracking timer at 0. -/
theorem witness_CallOutcomeAndTracking :
    let s (o : FrameOutcome) (x : EmergencyState) (i : Bool) : State := { inEmergency x lab with
      emergency := { (inEmergency x lab).emergency with callInHand := i, tracking := ⟨true, 0⟩ }, mail := { callOuts := [o] } }
    let l := [s .acknowledged .alerting true, s .missed .alerting true, s (.missedUnjudged .overlap) .alerting true,
      s .notSent .alerting true, s .abandoned .alerting true, s .abandoned .acknowledged true, s .missed .idle false]
    (∀ s ∈ l, s.powered = true ∧ s.Inv ∧ s.queueSound) ∧
    l.map (fun s => (s.mail.callOuts.length, s.emergency.callInHand)) = List.replicate 6 (1, true) ++ [(1, false)] ∧
    (s .abandoned .acknowledged true).emergency.kept.state = .acknowledged ∧
    (s .abandoned .acknowledged true).emergency.tracking = ⟨true, 0⟩ :=
  ⟨all_fit (by decide +kernel), rfl, rfl, rfl⟩

/-- The time accumulator two below its threshold, at its last step, in the initial phase, and with the meter STOPPED. -/
theorem witness_MeterTick :
    let l := [hiredAt 7 148 true, hiredAt 7 149 true, hiredAt 7 1199 false, { onTrip .stopped lab with due := { meterTicks := 1 } }]
    (∀ s ∈ l, s.powered = true ∧ s.Inv ∧ s.queueSound) ∧ l.map (·.due.meterTicks) = List.replicate 4 1 ∧
    l.map (fun s => (s.fare.meter, s.fare.trip.atime + 1, 10 * (if s.fare.trip.timeRunning then s.fare.trip.par.tariff.ut
      else s.fare.trip.par.tariff.t0))) = [(.hired, 149, 150), (.hired, 150, 150), (.hired, 1200, 1200), (.stopped, 1, 150)] :=
  ⟨all_fit (by decide +kernel), rfl, by decide +kernel⟩

/-- The distance accumulator at both sides of its threshold, in the initial phase too; the limiter at its limit and
below; off duty; with the meter STOPPED and VACANT. -/
theorem witness_DistancePulseAndWindow :
    let at_ (w : Nat) (s : State) : State := { s with limiter := { window := w, limit := 134, remainder := 1400 } }
    let l := [at_ 133 (hiredAt 238000 0 true), at_ 0 (hiredAt 239000 0 true), at_ 0 (hiredAt 2399000 0 false), at_ 134 (hiredAt 0 0 true),
      at_ 0 { lab with fare := {} }, at_ 0 (onTrip .stopped lab), at_ 134 lab, hiredAt 0 0 true]
    (∀ s ∈ l, s.powered = true ∧ s.Inv ∧ s.queueSound) ∧ (∀ s ∈ l, s.running = true) ∧
    l.map (fun s => (s.fare.duty, s.fare.meter, decide (s.limiter.window + 1 ≤ s.limiter.limit), s.fare.trip.adist + 1000)) =
      [(.on, .hired, true, 239000), (.on, .hired, true, 240000), (.on, .hired, true, 2400000), (.on, .hired, false, 1000),
        (.off, .vacant, true, 1000), (.on, .stopped, true, 1000), (.on, .vacant, false, 1000), (.on, .hired, true, 1000)] ∧
    (startUp 0).running = false ∧ (hiredAt 0 0 true).due.windows = 1 :=
  ⟨all_fit (by decide +kernel), by decide +kernel, by decide +kernel, by decide +kernel⟩

/-- A sample at each side of both thresholds, and those that complete the two runs. -/
theorem witness_SupplySample :
    let l := [crank { lowRun := 2 }, crank { lowRun := 1 }, crank { state := .low, highRun := 9 }, crank { state := .low, highRun := 8 }]
    (∀ s ∈ l, s.powered = true ∧ s.Inv ∧ s.queueSound) ∧ l.map (·.due.supplySamples) = List.replicate 4 1 ∧
    l.map (fun s => (80 + 3 * s.working.supplyCode, s.supply.state, s.supply.lowRun, s.supply.highRun)) =
      [(92, .ok, 2, 0), (92, .ok, 1, 0), (92, .low, 0, 9), (92, .low, 0, 8)] :=
  ⟨all_fit (by decide +kernel), rfl, rfl⟩

/-- A tick within a second, at a tenth, and at the end of the last second, with the fleet time at its end. -/
theorem witness_TimeBaseTickAndChimeEnd :
    let s (p n : Nat) (f : Stamp) : State := { lab with time := { phase := p, seconds := n }, cycle := { lab.cycle with fleet := f } }
    let l := [s 0 5 {}, s 9 5 {}, s 99 4294967295 ⟨4294967295, 99, true⟩]
    (∀ s ∈ l, s.powered = true ∧ s.Inv ∧ s.queueSound) ∧ (∀ s ∈ l, s.time.phase ≤ 99 ∧ s.cycle.fleet.centis ≤ 99) ∧
    { lab with chime := { high := true, ticks := 0 } }.chime = ⟨true, 0⟩ :=
  ⟨all_fit (by decide +kernel), by decide +kernel, rfl⟩

end Sys2Proof.Tests
end

section
/-! Tier 3 of the memory family: the exchange RAM, the hands and the requests, the shown blocks and the retained
copy through every step. -/

namespace Sys2Proof.Machine

/-! ### Power-on and the losses of the supplies -/

theorem exec_powerOn (vsup : Nat) (s : State) : exec (.powerOn vsup) s = .next (powerUp vsup s) := rfl

theorem exec_logicSupplyLoss (s : State) :
    exec .logicSupplyLoss s = .next (if s.powered then losePower s else s) := rfl

theorem exec_backupSupplyLoss (s : State) : exec .backupSupplyLoss s = .next (loseBackup s) := rfl

/-- All a command can answer: the three of the supplies each by its own function, any other nothing or its effect
with the end of the event. -/
theorem exec_answers {c : Instr} {s t : State} (h : exec c s = .next t) :
    (∃ v, c = .powerOn v ∧ t = powerUp v s) ∨ (c = .logicSupplyLoss ∧ s.powered = true ∧ t = losePower s) ∨
    (c = .backupSupplyLoss ∧ t = loseBackup s) ∨ t = s ∨ ∃ full, t = publishWith full (effect c s) := by
  by_cases h1 : ∃ v, c = .powerOn v
  · obtain ⟨v, rfl⟩ := h1
    rw [exec_powerOn] at h
    cases h
    exact .inl ⟨v, rfl, rfl⟩
  by_cases h2 : c = .logicSupplyLoss
  · subst h2
    rw [exec_logicSupplyLoss] at h
    cases h
    split
    · exact .inr (.inl ⟨rfl, ‹_›, rfl⟩)
    · exact .inr (.inr (.inr (.inl rfl)))
  by_cases h3 : c = .backupSupplyLoss
  · subst h3
    rw [exec_backupSupplyLoss] at h
    cases h
    exact .inr (.inr (.inl ⟨rfl, rfl⟩))
  obtain rfl | ⟨-, -, rfl⟩ := exec_cases (fun v e => h1 ⟨v, e⟩) h2 h3 h
  · exact .inr (.inr (.inr (.inl rfl)))
  · exact .inr (.inr (.inr (.inr ⟨_, rfl⟩)))

/-- R19: the hands after power-on. -/
theorem hand_ramAtPowerOn (k : Kept) (r : RetainedResult) (p : SupplyMonitor) :
    (∀ i : Slot, handAt (ramAtPowerOn k r p) (requestBase i) = handApp) ∧
    (∀ i : Place, handAt (ramAtPowerOn k r p) (boardBase i) = handCtl) ∧
    (∀ i : Slot, handAt (ramAtPowerOn k r p) (boxBase i) = handCtl) ∧
    (∀ i : Slot, handAt (ramAtPowerOn k r p) (recordBase i) =
      if ((pick k.store.places i).any fun h => !h.collected) = true then handApp else handCtl) := by
  obtain ⟨-, hr, -⟩ := ramAtPowerOn_spec k r p
  obtain ⟨-, h1, h2, h3, h4, -⟩ := handsAtPowerOn_spec k.store
  refine ⟨fun i => (hr _ ?_).trans (h1 i), fun i => (hr _ ?_).trans (h2 i), fun i => (hr _ ?_).trans (h3 i),
    fun i => (hr _ ?_).trans (h4 i)⟩
  · unfold requestBase; omega
  · unfold boardBase; omega
  · unfold boxBase; omega
  · unfold recordBase; omega

/-- R3, R19: a part whose RAM is as power-on leaves it has lawful hands. -/
theorem handsLegal_of_ramAtPowerOn {s : State} {k : Kept} {r : RetainedResult} {p : SupplyMonitor}
    (h : s.ram = ramAtPowerOn k r p) : s.handsLegal := by
  obtain ⟨h1, h2, h3, h4⟩ := hand_ramAtPowerOn k r p
  unfold State.handsLegal
  rw [h]
  refine ⟨fun i => .inl (h1 i), fun i => .inr (h3 i), fun i => ?_, h2⟩
  rw [h4 i]
  split
  · exact .inl rfl
  · exact .inr rfl

theorem powerUp_ram (vsup : Nat) (s : State) : (powerUp vsup s).ram =
    ramAtPowerOn (handedToOwners s.retained) (judgeRetained s.retained) (supplyAtPowerOn vsup) := rfl

theorem powerUp_wf (vsup : Nat) (s : State) : Memory.wf (powerUp vsup s).ram = true :=
  (ramAtPowerOn_spec _ _ _).1

/-- R10, R13: power-on leaves no request waiting or held. -/
theorem powerUp_orderly (vsup : Nat) (s : State) : Orderly s (powerUp vsup s) where
  wf _ := powerUp_wf vsup s
  legal _ _ := handsLegal_of_ramAtPowerOn (powerUp_ram vsup s)
  sound _ _ := ⟨List.nodup_nil, fun _ h => absurd h List.not_mem_nil⟩

/-- A state with the same RAM, list and owners of held requests. -/
theorem Quiet.of_same {s t : State} (h1 : t.ram = s.ram) (h2 : t.port = s.port) (h3 : t.offers = s.offers)
    (h4 : t.msgs = s.msgs) : Quiet s t where
  wf := by rw [h1]; exact id
  order := by rw [h2]
  held := by rw [h3]
  sends := by rw [h4]
  hands _ := by rw [h1]
  board _ := by rw [h1]
  out _ _ _ := .inl (by rw [h1])

/-- Every command keeps the hands legal and the requests sound. -/
theorem exec_orderly {c : Instr} {s t : State} (h : exec c s = .next t) : Orderly s t := by
  obtain ⟨v, -, rfl⟩ | ⟨-, -, rfl⟩ | ⟨-, rfl⟩ | rfl | ⟨full, rfl⟩ := exec_answers h
  · exact powerUp_orderly v s
  · exact (Quiet.of_same (s := s) (t := losePower s) rfl rfl rfl rfl).orderly
  · exact (Quiet.of_same (s := s) (t := loseBackup s) rfl rfl rfl rfl).orderly
  · exact Orderly.refl _
  · exact (effect_orderly c s).trans (publishWith_quiet full _).orderly

/-- Every step keeps the hands legal and the requests sound. -/
theorem step_orderly {s t : State} (h : step s = .next t) : Orderly s t := by
  obtain ⟨-, rfl⟩ | ⟨c, rest, -, hc⟩ := step_cases h
  · exact Orderly.refl _
  · exact (Quiet.of_same (s := s) (t := { s with pending := rest }) rfl rfl rfl rfl).orderly.trans (exec_orderly hc)

/-! ### What is shown and retained -/

/-- R18, R19, R96, R141, R161, R190: a part whose five blocks are those of power-on shows its owners. -/
theorem blocksShown_of_powerOn {s : State} {k : Kept} {r : RetainedResult} {p : SupplyMonitor}
    (h : ShowsAtPowerOn k r p s.ram) (h1 : s.partFields = partFields {} r p {} 0 0)
    (h2 : s.linkFields = linkFields {} {} {}) (h3 : s.meterFields = meterFields k.fare {} none)
    (h4 : s.shiftFields = shiftFields k.fare k.store)
    (h5 : s.emergencyFields = emergencyFields { kept := k.emergency }) : s.blocksShown := by
  unfold State.blocksShown
  rw [partFields_length, linkFields_length, meterFields_length, shiftFields_length, emergencyFields_length,
    h.part, h.link, h.meter, h.shift, h.emergency, h1, h2, h3, h4, h5]
  exact ⟨rfl, rfl, rfl, rfl, rfl⟩

/-- R121: before RUN no board slot has to show anything. -/
theorem boardsShown_of_config {s : State} (h : s.running = false) : s.boardsShown := by
  intro hr
  rw [h] at hr
  exact absurd hr Bool.false_ne_true

theorem powerUp_shown (vsup : Nat) (s : State) : (powerUp vsup s).Shown :=
  ⟨powerUp_wf vsup s, fun _ =>
    ⟨blocksShown_of_powerOn (ramAtPowerOn_spec _ _ _).2.2 rfl rfl rfl rfl rfl, boardsShown_of_config rfl⟩⟩

/-- R16, R19: the outputs after power-on, with no news let through and the lamp out in CONFIG. -/
theorem pinsFollow_at_powerOn {s : State} (hp : s.pins = {}) (hm : s.port.attnMask = 0) (ht : s.tx = {})
    (hl : s.lampTaken = false) (hr : s.running = false) (hc : s.chime = {}) : s.pinsFollow := by
  have hlamp : s.lampLit = false := by simp [State.lampLit, State.forHire, hl, hr]
  unfold State.pinsFollow State.lampShows
  rw [← lampLit_iff, hlamp, hp, hm, ht, hc]
  exact ⟨by simp, by simp, rfl, Iff.rfl, rfl⟩

theorem powerUp_coherent (vsup : Nat) (s : State) : (powerUp vsup s).Coherent :=
  fun _ => ⟨⟨rfl, rfl⟩, pinsFollow_at_powerOn rfl rfl rfl rfl rfl rfl⟩

theorem publishWith_shown {s : State} (h : Memory.wf s.ram = true) (full : Bool) : (publishWith full s).Shown :=
  ⟨wf_publishWith h full, fun _ => ⟨publishWith_blocksShown h full, publishWith_boardsShown h full⟩⟩

theorem publishWith_coherent (full : Bool) (s : State) : (publishWith full s).Coherent :=
  fun _ => ⟨publishWith_retained full s, publishWith_pins full s⟩

/-- R193: an unpowered part promises nothing but a RAM of canonical form. -/
theorem losePower_shown {s : State} (h : s.Shown) : (losePower s).Shown ∧ (losePower s).Coherent :=
  ⟨⟨h.1, fun hp => absurd hp Bool.false_ne_true⟩, fun hp => absurd hp Bool.false_ne_true⟩

/-- R194: the loss of the backup supply alone discards nothing of a powered part. -/
theorem loseBackup_powered {s : State} (h : s.powered = true) :
    loseBackup s = { s with retained := { s.retained with vbakAbsent := true } } := by
  unfold loseBackup
  rw [h]
  rfl

theorem loseBackup_shown {s : State} (h : s.Shown) (k : s.Coherent) :
    (loseBackup s).Shown ∧ (loseBackup s).Coherent := by
  cases hp : s.powered with
  | false =>
    have hn : ¬ (loseBackup s).powered = true := fun e => absurd (hp.symm.trans e) Bool.false_ne_true
    exact ⟨⟨h.1, fun e => absurd e hn⟩, fun e => absurd e hn⟩
  | true =>
    obtain ⟨h1, h2⟩ := h
    rw [loseBackup_powered hp]
    exact ⟨⟨h1, fun _ => h2 hp⟩, fun _ => k hp⟩

/-- Every command keeps what is shown and what is retained. -/
theorem exec_shown {c : Instr} {s t : State} (hs : s.Shown) (hc : s.Coherent) (h : exec c s = .next t) :
    t.Shown ∧ t.Coherent := by
  obtain ⟨v, -, rfl⟩ | ⟨-, -, rfl⟩ | ⟨-, rfl⟩ | rfl | ⟨full, rfl⟩ := exec_answers h
  · exact ⟨powerUp_shown v s, powerUp_coherent v s⟩
  · exact losePower_shown hs
  · exact loseBackup_shown hs hc
  · exact ⟨hs, hc⟩
  · exact ⟨publishWith_shown ((effect_frame c s).wf hs.1) full, publishWith_coherent full _⟩

/-! ### OFFER and the board slots -/

/-- R98: what OFFER and the board slots tell after a command, where `rewritten` says which slots were rewritten. -/
def BoardsFollow (read : Prop) (rewritten : Place → Prop) (s t : State) : Prop :=
  (t.port.attention.getLsbD 1 = true ↔ (s.port.attention.getLsbD 1 = true ∧ ¬ read) ∨ ∃ i, rewritten i) ∧
  ∀ i : Place, (rewritten i → countUp (boardBase i + 2) s t) ∧
    (¬ rewritten i → ∀ a, bytesAt (boardBase i + 2) 94 a → Memory.get t.ram a = Memory.get s.ram a)

/-- R98: a command that leaves the RAM, ATTENTION, the part state and the offers of a part whose boards are shown
rewrites no slot. -/
theorem boardsFollow_of_same {read : Prop} {s t : State} (hs : s.boardsShown) (h1 : t.ram = s.ram)
    (h2 : t.port = s.port) (h3 : t.settings = s.settings) (h4 : t.offers = s.offers) (hr : ¬ read) :
    BoardsFollow read (fun i => t.running = true ∧ boardStale t.offers s.ram i = true) s t := by
  have none (i : Place) : ¬ (t.running = true ∧ boardStale t.offers s.ram i = true) := by
    rintro ⟨h, hb⟩
    rw [running_of_settings h3] at h
    rw [h4, hs h i] at hb
    exact absurd hb Bool.false_ne_true
  refine ⟨?_, fun i => ⟨fun h => absurd h (none i), fun _ a _ => by rw [h1]⟩⟩
  rw [h2]
  simp [hr, none]

/-- R8, R98, R99, R121: what every command but POWER_ON leaves of OFFER and of the board slots. -/
theorem exec_boardsFollow {c : Instr} {s t : State} (h1 : ∀ v, c ≠ .powerOn v) (hw : s.Inv) (hs : s.boardsShown)
    (h : exec c s = .next t) :
    BoardsFollow (s.powered = true ∧ c = .attentionRead)
      (fun i => t.running = true ∧ boardStale t.offers s.ram i = true) s t := by
  by_cases h2 : c = .logicSupplyLoss
  · subst h2
    rw [exec_logicSupplyLoss] at h
    cases h
    split <;> exact boardsFollow_of_same hs rfl rfl rfl rfl (fun e => nomatch e.2)
  by_cases h3 : c = .backupSupplyLoss
  · subst h3
    rw [exec_backupSupplyLoss] at h
    cases h
    exact boardsFollow_of_same hs rfl rfl rfl rfl (fun e => nomatch e.2)
  refine ⟨?_, fun i => ?_⟩
  · rw [exec_offerNews h1 h2 h3 hs h, exists_and_left]
  · have slot := exec_boardSlot h1 h2 h3 hw hs h i
    refine ⟨fun hi => ?_, fun hi => ?_⟩
    · rwa [if_pos hi] at slot
    · rwa [if_neg hi] at slot

end Sys2Proof.Machine

namespace Sys2Proof.Proofs

open Sys2Proof.Machine

/-- Settles O4: every command is orderly, and its front is taken off the queue without touching the RAM. -/
theorem stepKeepsMemoryAndHands : Obligations.StepKeepsMemoryAndHands := by
  intro s t hw h
  have o := step_orderly h
  exact ⟨o.wf hw, o.legal hw⟩

/-- Settles O8. -/
theorem stepKeepsRequestsSound : Obligations.StepKeepsRequestsSound := by
  intro s t hw hs h
  exact (step_orderly h).sound hw hs

/-- Settles O5: the end of an event brings everything shown up to date, and a board slot is stale after an effect by
what the table then holds. -/
theorem stepKeepsShownAndRetained : Obligations.StepKeepsShownAndRetained := by
  refine ⟨fun s t hs hc h => ?_, fun c s t h1 hw hb h => exec_boardsFollow h1 hw hb h⟩
  obtain ⟨-, rfl⟩ | ⟨c, rest, -, he⟩ := step_cases h
  · exact ⟨hs, hc⟩
  · exact exec_shown (s := { s with pending := rest }) hs hc he

end Sys2Proof.Proofs
end

section
/-! Power-on: what it leaves of the exchange RAM, the registers and the owners' state, and the state after it. -/

namespace Sys2Proof.Machine

/-! ### The hand words after power-on (R19) -/

theorem readWord_of_handWord {m : Memory} {a : Nat} {h : Byte} (e : Memory.read m a 2 = handWord h) :
    Memory.readWord m a = h.toNat := by
  unfold Memory.readWord
  rw [e]
  simp [handWord, leNat]

theorem read_hand {m : Memory} {a : Nat} {h : Byte} (h0 : handAt m a = h) (h1 : Memory.get m (a + 1) = 0) :
    Memory.read m a 2 = handWord h := by
  subst h0
  simp [Memory.read, handWord, handAt, h1]

/-- Hand words at even bases put 0 into odd bytes alone. -/
theorem get_writeHands_odd {α : Type} {base : α → Nat} (hb : ∀ i, base i % 2 = 0) (h : Byte) (is : List α)
    {m : Memory} (hm : Memory.wf m = true) {a : Nat} (ha : a % 2 = 1) (h0 : Memory.get m a = 0) :
    Memory.get (writeHands base h is m) a = 0 := by
  induction is generalizing m with
  | nil => exact h0
  | cons i is ih =>
    refine ih (Memory.wf_write hm (base i) (handWord h)) ?_
    by_cases e : a = base i + 1
    · have g := Memory.get_write_same hm (base i) (handWord h) 1 (by rw [handWord_length]; decide)
      rw [e]
      exact g
    · have := hb i
      rw [Memory.get_write_other _ _ _ _ (by rw [handWord_length]; omega)]
      exact h0

/-- R19: the RAM with the hands written, before the fare record slots are. -/
def bareHands : Memory :=
  writeHands boxBase handCtl slots16 (writeHands boardBase handCtl places8 (writeHands requestBase handApp slots16 []))

theorem handsAtPowerOn_eq (st : RecordStore) : handsAtPowerOn st = writeRecordSlots st bareHands := rfl

theorem wf_bareHands : Memory.wf bareHands = true :=
  wf_writeHands _ _ _ (wf_writeHands _ _ _ (wf_writeHands _ _ _ (m := []) rfl))

theorem get_bareHands_odd {a : Nat} (ha : a % 2 = 1) : Memory.get bareHands a = 0 := by
  have w1 : Memory.wf (writeHands requestBase handApp slots16 []) = true := wf_writeHands _ _ _ rfl
  have w2 := wf_writeHands boardBase handCtl places8 w1
  exact get_writeHands_odd (fun i => by unfold boxBase; omega) _ _ w2 ha
    (get_writeHands_odd (fun i => by unfold boardBase; omega) _ _ w1 ha
      (get_writeHands_odd (fun i => by unfold requestBase; omega) _ _ rfl ha rfl))

/-- R3, R19: the word a fare record slot starts with. -/
theorem read_recordAtPowerOn (st : RecordStore) (i : Slot) {m : Memory} (hm : Memory.wf m = true) :
    Memory.read (recordAtPowerOn st i m) (recordBase i) 2 =
      handWord (if ((pick st.places i).any fun h => !h.collected) = true then handApp else handCtl) := by
  have ctl : Memory.read (Memory.write m (recordBase i) (handWord handCtl)) (recordBase i) 2 = handWord handCtl :=
    Memory.read_write_same hm (recordBase i) (handWord handCtl)
  unfold recordAtPowerOn
  split
  · rename_i h e
    rw [e]
    cases hc : h.collected
    · simp [hc, (presentRecord_spec hm i h).1]
    · simp [hc, ctl]
  · rename_i e
    rw [e]
    exact ctl

/-- R19: the hand words after power-on. -/
theorem readWord_ramAtPowerOn (k : Kept) (r : RetainedResult) (p : SupplyMonitor) :
    (∀ i : Slot, Memory.readWord (ramAtPowerOn k r p) (requestBase i) = 0x000A ∧
      Memory.readWord (ramAtPowerOn k r p) (boxBase i) = 0x000C ∧
      Memory.readWord (ramAtPowerOn k r p) (recordBase i) =
        if ((pick k.store.places i).any fun h => !h.collected) = true then 0x000A else 0x000C) ∧
    ∀ i : Place, Memory.readWord (ramAtPowerOn k r p) (boardBase i) = 0x000C := by
  obtain ⟨-, hr, -⟩ := ramAtPowerOn_spec k r p
  obtain ⟨h1, h2, h3, -⟩ := hand_ramAtPowerOn k r p
  have odd {a : Nat} (h0 : 0x0240 ≤ a) (ha : a % 2 = 1) (h : a < 0x1100) :
      Memory.get (ramAtPowerOn k r p) a = 0 := by
    rw [hr a h0, handsAtPowerOn_eq, writeRecordSlots_eq, (recordSlots_foldl k.store slots16 wf_bareHands).2.1 a
      fun i _ hi => ?_, get_bareHands_odd ha]
    unfold recordBytes bytesAt recordBase at hi
    omega
  refine ⟨fun i => ⟨readWord_of_handWord (read_hand (h1 i) (odd ?_ ?_ ?_)),
    readWord_of_handWord (read_hand (h3 i) (odd ?_ ?_ ?_)), ?_⟩,
    fun i => readWord_of_handWord (read_hand (h2 i) (odd ?_ ?_ ?_))⟩
  · unfold requestBase; omega
  · unfold requestBase; omega
  · unfold requestBase; omega
  · unfold boxBase; omega
  · unfold boxBase; omega
  · unfold boxBase; omega
  · obtain ⟨n, wn, -, hn⟩ := recordSlots_own k.store i wf_bareHands
    have e : Memory.read (ramAtPowerOn k r p) (recordBase i) 2 =
        Memory.read (recordAtPowerOn k.store i n) (recordBase i) 2 :=
      Memory.read_congr fun x hx => by
        rw [hr _ (by unfold recordBase; omega), handsAtPowerOn_eq]
        exact hn _ (by unfold recordBytes bytesAt; omega)
    rw [readWord_of_handWord (e.trans (read_recordAtPowerOn k.store i wn))]
    split <;> rfl
  · unfold boardBase; omega
  · unfold boardBase; omega
  · unfold boardBase; omega

/-! ### The judgement of the Retained Store (R195 to R197) -/

theorem judgeRetained_eq (r : RetainedStore) : judgeRetained r =
    if r.latch then .none else if r.kept.checkWord ≠ r.check ∨ r.kept.inRange = false then .lost else .restored := by
  unfold judgeRetained
  cases r.latch with
  | true => rfl
  | false => by_cases h : r.kept.checkWord = r.check <;> cases hr : r.kept.inRange <;> simp [h]

theorem handedToOwners_restored {r : RetainedStore} (h : judgeRetained r = .restored) :
    handedToOwners r =
      { fare := r.kept.fare.restored, store := r.kept.store, emergency := r.kept.emergency.restored } := by
  unfold handedToOwners
  rw [h]

theorem handedToOwners_cleared {r : RetainedStore} (h : judgeRetained r ≠ .restored) :
    handedToOwners r = Kept.cleared := by
  unfold handedToOwners
  split
  · contradiction
  · rfl

theorem fareRestored_eq (f : FareMeter) : f.restored =
    if f.meter = .hired then
      { f with meter := .stopped, trip := { f.trip with marks := { f.trip.marks with interrupted := true } } }
    else f := by
  unfold FareMeter.restored
  cases f.meter <;> rfl

theorem emergencyRestored_eq (e : EmergencyKept) : e.restored =
    { e with state := if e.state = .idle then .idle else .alerting } := by
  obtain ⟨st, src, stamp⟩ := e
  cases st <;> rfl

/-! ### The state after power-on -/

theorem reset_shown : State.reset.Shown :=
  ⟨(ramAtPowerOn_spec _ _ _).1, fun _ =>
    ⟨blocksShown_of_powerOn (ramAtPowerOn_spec Kept.cleared .none {}).2.2 rfl rfl rfl rfl rfl,
      boardsShown_of_config rfl⟩⟩

theorem reset_coherent : State.reset.Coherent :=
  fun _ => ⟨⟨rfl, rfl⟩, pinsFollow_at_powerOn rfl rfl rfl rfl rfl rfl⟩

/-- R70: the empty queue is a lawful one. -/
theorem queueSound_of_empty {s : State} (h : s.queue = {}) : s.queueSound := by
  unfold State.queueSound TransmitQueue.lawful
  rw [h]
  exact ⟨⟨by decide, by decide, by decide, List.nodup_nil, fun e he => nomatch he⟩, rfl⟩

/-- R97: a table whose places are all empty is a sound one. -/
theorem offersSound_of_empty {s : State} (h : ∀ i : Place, (pick s.offers.places i).state = .empty) :
    s.offersSound := by
  refine ⟨fun i _ hi _ => ?_, fun i _ hi _ _ => ?_⟩ <;> rw [h i] at hi <;> cases hi

theorem reset_placeEmpty (i : Place) : (pick State.reset.offers.places i).state = .empty := by
  change (pick (Vector.replicate 8 ({} : OfferPlace)) i).state = .empty
  simp [pick]

end Sys2Proof.Machine

namespace Sys2Proof.Proofs

open Sys2Proof.Machine

/-- Settles O10: the RAM by the laws of power-on, the owners by the judgement, the rest as `powerUp` lists it. -/
theorem powerOn : Obligations.PowerOn := by
  intro vsup s
  let k := handedToOwners s.retained
  let p := supplyAtPowerOn vsup
  obtain ⟨w, -, hs⟩ := ramAtPowerOn_spec k (judgeRetained s.retained) p
  obtain ⟨hw1, hw2⟩ := readWord_ramAtPowerOn k (judgeRetained s.retained) p
  refine ⟨powerUp vsup s, rfl, rfl, rfl, w, handsLegal_of_ramAtPowerOn (powerUp_ram vsup s), powerUp_shown vsup s,
    powerUp_coherent vsup s, hw1, hw2, fun i h hi hc => ramAtPowerOn_presents k _ p hi hc,
    fun a h1 h2 h3 h4 => ramAtPowerOn_zero k _ p a h1 h2 h3 h4, hs.counts, rfl, rfl, rfl, rfl, rfl, rfl, rfl, rfl,
    rfl, rfl, rfl, rfl, rfl, rfl, rfl, rfl, rfl, rfl, rfl, rfl, rfl, rfl, ?_, rfl, judgeRetained_eq _, ?_, ?_, rfl⟩
  · rfl
  · intro h
    change k.store = _ ∧ k.fare = _ ∧ ({ kept := k.emergency } : EmergencyUnit) = _
    rw [show k = _ from handedToOwners_restored h, fareRestored_eq, emergencyRestored_eq]
    exact ⟨rfl, rfl, rfl⟩
  · intro h
    change k.store = _ ∧ k.fare = _ ∧ ({ kept := k.emergency } : EmergencyUnit) = _
    rw [show k = _ from handedToOwners_cleared h]
    exact ⟨rfl, rfl, rfl⟩

/-- Settles O3. -/
theorem resetMeetsInvariants : Obligations.ResetMeetsInvariants :=
  ⟨(ramAtPowerOn_spec _ _ _).1, handsLegal_of_ramAtPowerOn rfl, reset_shown, reset_coherent, queueSound_of_empty rfl,
    fun _ => rfl, ⟨fun _ h => (nomatch h), fun h => absurd rfl h⟩,
    ⟨List.nodup_nil, fun _ h => absurd h List.not_mem_nil⟩, offersSound_of_empty reset_placeEmpty,
    fun _ => ⟨fun h => absurd h Bool.false_ne_true, fun h => absurd rfl h⟩, ⟨rfl, fun _ => ⟨rfl, rfl⟩⟩,
    ⟨fun h => absurd rfl h, fun h => absurd rfl h⟩⟩

end Sys2Proof.Proofs
end

section
/-! The memory port: host writes by area, hand-overs, collections, the four registers, and the requests that are
answered before their owner judges them. -/

namespace Sys2Proof.Machine

/-! ### Words stored by the host (R2, R4, R5, R9) -/

/-- R4: a data word of a slot lies in no board slot's contents. -/
theorem offBoards_slotData {a : WordAddr} (h : slotDataAddr a = true) : offBoards (byteOffset a) := by
  unfold slotDataAddr at h
  unfold offBoards
  split at h <;> rename_i i o e
  · have := area_of e
    simp only [Area.holds, requestBase] at this
    omega
  · have := area_of e
    simp only [Area.holds, boxBase] at this
    omega
  · have := area_of e
    simp only [Area.holds, recordBase] at this
    omega
  · cases h

/-- R2: the blocks the host writes lie below the slots. -/
theorem offBoards_hostBlock {a : WordAddr} (h : hostBlock a = true) : offBoards (byteOffset a) := by
  unfold hostBlock at h
  unfold offBoards
  split at h <;> rename_i e
  · have := area_of e
    simp only [Area.holds] at this
    omega
  · have := area_of e
    simp only [Area.holds] at this
    omega
  · cases h

theorem offBoards_positionBase : offBoards positionBase := .inl (by decide)

theorem position_hand_free : ¬ controllerByte positionBase ∧ ¬ controllerByte (positionBase + 1) := by
  unfold controllerByte positionBase
  omega

theorem offBoards_requestBase (i : Slot) : offBoards (requestBase i) := by
  have := i.isLt
  unfold offBoards requestBase
  omega

theorem offBoards_boxBase (i : Slot) : offBoards (boxBase i) := by
  unfold offBoards boxBase
  omega

theorem offBoards_recordBase (i : Slot) : offBoards (recordBase i) := by
  unfold offBoards recordBase
  omega

/-- A word of the host read back. -/
theorem ofNat_toNat_word (v : Word) : BitVec.ofNat 16 v.toNat = v := by simp

/-- R9: a write to the Position Block stands as written, and one of an even word to its change count notes the
second. -/
theorem positionWrite_spec {off : Nat} (h : offBoards off) (h0 : ¬ controllerByte off) (h1 : ¬ controllerByte (off + 1))
    (v : Word) {s : State} (hw : s.Inv) :
    Memory.readWord (publish (positionWrite off v s)).ram off = v.toNat ∧
    gains 0 s (publish (positionWrite off v s)) ∧
    (publish (positionWrite off v s)).port.posWritten =
      (if off = positionBase ∧ v.toNat % 2 = 0 then some s.time.seconds else s.port.posWritten) ∧
    Frame (withEnds [.posWritten]) (bytesAt off 2) s (publish (positionWrite off v s)) := by
  have f := positionWrite_inside h v s
  refine ⟨?_, gains_publish_zero (f.attention (by decide)), ?_, f.publish.mono (by decide) fun _ => id⟩
  · unfold positionWrite
    split
    · exact readWord_stored hw (notePosition_frame v _) h0 h1
    · exact readWord_stored hw (Frame.refl _) h0 h1
  · rw [publish_posWritten]
    unfold positionWrite notePosition
    by_cases hb : off = positionBase
    · by_cases hv : v.toNat % 2 = 0
      · rw [if_pos hb, if_pos hv, if_pos ⟨hb, hv⟩]
        rfl
      · rw [if_pos hb, if_neg hv, if_neg fun e => hv e.2]
        rfl
    · rw [if_neg hb, if_neg fun e => hb e.1]
      rfl

/-- R5: the hand write that a slot at APP accepts. -/
theorem handWrite_accepted {base : Nat} {v : Word} {s : State} (h : lowByte v = handCtl ∧ heldByApp s.ram base = true)
    (f : State → State) : handWrite base v f s = f (storeWord base v s) := if_pos h

/-- R7: any other hand write. -/
theorem handWrite_refused {base : Nat} {v : Word} {s : State}
    (h : ¬ (lowByte v = handCtl ∧ heldByApp s.ram base = true)) (f : State → State) :
    handWrite base v f s = exchangeFault base s := if_neg h

/-- R5: the hand a word of CTL leaves stands after what follows. -/
theorem heldByCtl_stored {s u : State} {a : List Part} {base : Nat} {v : Word} (h : Memory.wf s.ram = true)
    (hv : lowByte v = handCtl) (f : Frame a nothing (storeWord base v s) u) (h0 : ¬ controllerByte base) :
    heldByCtl (publish u).ram base = true := by
  unfold heldByCtl
  rw [f.publish.hand h0 id, hand_storeWord h, hv]
  rfl

/-! ### Fare records collected and reported (R155 to R157) -/

/-- R155: a place that holds no record has no flag to set. -/
theorem flag_of_none {i : Slot} {st : RecordStore} (e : pick st.places i = none) (f : HeldRecord → HeldRecord) :
    st.flag i f = st := by
  unfold RecordStore.flag
  rw [e]

theorem flag_of_some {i : Slot} {st : RecordStore} {h : HeldRecord} (e : pick st.places i = some h)
    (f : HeldRecord → HeldRecord) : st.flag i f =
      if st.frees (f h) then st.release i else { st with places := put st.places i (some (f h)) } := by
  unfold RecordStore.flag
  rw [e]

/-- R155, R156: a collection marks the record where a report is still owed, and frees its place otherwise. -/
theorem flag_collected {i : Slot} {st : RecordStore} {h : HeldRecord} (e : pick st.places i = some h) :
    st.flag i (fun h => { h with collected := true }) =
      if st.reports = true ∧ h.reported = false then
        { st with places := put st.places i (some { h with collected := true }) }
      else st.release i := by
  rw [flag_of_some e]
  unfold RecordStore.frees
  by_cases ho : st.reports = true ∧ h.reported = false
  · rw [if_pos ho, if_neg (by simp [ho])]
  · rw [if_neg ho, if_pos (by simpa [or_iff_not_imp_left] using ho)]

/-- R156, R157: a report that is DONE frees the place of a record collected already, and marks it otherwise. -/
theorem flag_reported {i : Slot} {st : RecordStore} {h : HeldRecord} (e : pick st.places i = some h) :
    st.flag i (fun h => { h with reported := true }) =
      if h.collected then st.release i
      else { st with places := put st.places i (some { h with reported := true }) } := by
  rw [flag_of_some e]
  unfold RecordStore.frees
  simp only [Bool.or_true, Bool.and_true]

/-! ### ATTENTION and ATTN_MASK (R15, R16) -/

/-- R15: after the read only an OFFER that the end of the event sets can stand in ATTENTION. -/
theorem readAttention_attention (s : State) : (publish (readAttention s)).port.attention = 0 ∨
    (publish (readAttention s)).port.attention = News.offer.mask := by
  obtain h | ⟨-, h⟩ := publishWith_port false (readAttention s)
  · exact .inl (congrArg _ h)
  · exact .inr ((congrArg _ h).trans BitVec.zero_or)

/-- R98: a board slot that is up to date sets no OFFER. -/
theorem readAttention_cleared {s : State} (h : s.boardsShown) :
    (publish (readAttention s)).port.attention = 0 := by
  obtain e | e := readAttention_attention s
  · exact e
  · have hb := publishWith_offerBit false (readAttention s)
    have hn : (s.running && places8.any (boardStale s.offers s.ram)) = false := by
      rw [Bool.and_eq_false_iff]
      cases hr : s.running with
      | false => exact .inl rfl
      | true => exact .inr (by rw [List.any_eq_false]; intro i _; rw [h hr i]; exact Bool.false_ne_true)
    change (publish (readAttention s)).port.attention.getLsbD 1 = _ at hb
    rw [e] at hb
    change News.offer.mask.getLsbD 1 =
      ((0 : Word).getLsbD 1 || (s.running && places8.any (boardStale s.offers s.ram))) at hb
    rw [hn] at hb
    exact absurd hb (by decide)

/-- R14: a host write to another address leaves ATTN_MASK alone. -/
theorem attnMask_not_addressed {a : WordAddr} (h : areaOf (byteOffset a) ≠ .attnMask) :
    Part.attnMask ∉ (if areaOf (byteOffset a) = .attnMask then [Part.attnMask] else []) ++ workParts := by
  rw [if_neg h]
  decide

/-- R14, R16: ATTN_MASK is written by ATTN_MASK_WRITE, POWER_ON and host writes to its own address alone. -/
theorem attnMask_not_touched {c : Instr} (hw : c.wellFormed = true) (h : ∀ v, c ≠ .attnMaskWrite v) :
    Part.attnMask ∉ maskParts c ++ workParts := by
  cases c with
  | attnMaskWrite v => exact absurd rfl (h v)
  | hostSlotDataWrite a v =>
    refine attnMask_not_addressed fun e => ?_
    change slotDataAddr a = true at hw
    unfold slotDataAddr at hw
    rw [e] at hw
    exact absurd hw Bool.false_ne_true
  | fixedBlockWrite a v =>
    refine attnMask_not_addressed fun e => ?_
    change fixedBlockAddr a = true at hw
    unfold fixedBlockAddr at hw
    rw [e] at hw
    exact absurd hw Bool.false_ne_true
  | registerWrite a v =>
    refine attnMask_not_addressed fun e => ?_
    change registerAddr a = true at hw
    unfold registerAddr at hw
    rw [e] at hw
    exact absurd hw Bool.false_ne_true
  | _ => exact of_decide_eq_false rfl

theorem exec_attnMask {c : Instr} {s t : State} (hw : c.wellFormed = true) (hm : ∀ v, c ≠ .attnMaskWrite v)
    (hp : ∀ v, c ≠ .powerOn v) (h : exec c s = .next t) : t.port.attnMask = s.port.attnMask := by
  obtain ⟨v, e, -⟩ | ⟨-, -, rfl⟩ | ⟨-, rfl⟩ | rfl | ⟨full, rfl⟩ := exec_answers h
  · exact absurd e (hp v)
  · rfl
  · rfl
  · rfl
  · exact ((publishWith_frame full _).keeps .attnMask (by decide)).trans
      ((effect_frame c s).keeps .attnMask (attnMask_not_touched hw hm))

/-! ### Requests in CONFIG (R11) -/

/-- R11: every row of the table is taken as the request of its code. -/
theorem exec_requestRow {c : Instr} {code : Nat} (h : requestRow c = some code) :
    ∃ judge, ∀ s, exec c s = takeRequest (· == code) judge s := by
  cases c <;> simp only [requestRow, reduceCtorEq, Option.some.injEq] at h <;> subst h <;> exact ⟨_, fun _ => rfl⟩

end Sys2Proof.Machine

namespace Sys2Proof.Proofs

open Sys2Proof.Machine

/-- Settles O11. -/
theorem slotDataWrite : Obligations.SlotDataWrite := by
  intro a v s hp hw ha
  obtain ⟨he, hacts, hread, h0, h1⟩ := slotData_write ha v s
  refine ⟨publish (hostWrite (byteOffset a) v s), event_next hp hacts, ?_⟩
  rw [he, Machine.slotDataWrite]
  split
  · have f := storeWord_inside (offBoards_slotData ha) v s
    refine ⟨?_, gains_publish_zero rfl, f.publish.mono (by decide) fun _ => id⟩
    rw [hread, readWord_stored hw (Frame.refl _) h0 h1, ofNat_toNat_word]
  · exact faulted_exchangeFault _ hw

/-- Settles O12. -/
theorem fixedBlockWrite : Obligations.FixedBlockWrite := by
  refine ⟨fun a v s hp hw ha => ?_, fun v s hp hw => ?_⟩
  · obtain ⟨he, hacts, hhost⟩ := fixedBlock_write ha v s
    refine ⟨publish (hostWrite (byteOffset a) v s), event_next hp hacts, ?_⟩
    rw [he]
    split
    · rename_i hb
      obtain ⟨hread, h0, h1⟩ := hhost hb
      obtain ⟨hv, hg, hpos, f⟩ := positionWrite_spec (offBoards_hostBlock hb) h0 h1 v hw
      exact ⟨by rw [hread, hv, ofNat_toNat_word], hg, hpos, f⟩
    · exact faulted_exchangeFault _ hw
  · obtain ⟨hv, hg, hpos, f⟩ :=
      positionWrite_spec offBoards_positionBase position_hand_free.1 position_hand_free.2 v hw
    refine ⟨_, event_next hp rfl, hv, hg, ?_, f⟩
    rw [hpos]
    simp

/-- Settles O13. -/
theorem requestHandover : Obligations.RequestHandover := by
  intro i v s hp hw
  obtain ⟨h0, h1⟩ := request_hand_free i
  refine ⟨publish (requestHand i v s), event_next hp rfl, ?_⟩
  unfold requestHand
  split
  · rename_i h
    have f := appendOrder_frame i (storeWord (requestBase i) v s)
    have g := (storeWord_inside (offBoards_requestBase i) v s).then f
    rw [handWrite_accepted h]
    exact ⟨readWord_stored hw f h0 h1, heldByCtl_stored hw h.1 f h0, publish_order _, gains_publish_zero rfl,
      g.publish.mono (by decide) fun _ => id⟩
  · rename_i h
    rw [handWrite_refused h]
    exact faulted_exchangeFault _ hw

/-- Settles O16. -/
theorem attentionReadAndMaskWrite : Obligations.AttentionReadAndMaskWrite := by
  refine ⟨fun s hp => ?_, fun v s hp => ?_⟩
  · exact ⟨publish (readAttention s), event_next hp rfl, publish_data _, readAttention_cleared,
      readAttention_attention s, publish_attnN _, (readAttention_frame s).publish.mono (by decide) fun _ => id⟩
  · exact ⟨publish (maskWrite v s), event_next hp rfl, publish_attnMask _, gains_publish_zero rfl, publish_attnN _,
      publish_data _, (maskWrite_frame v s).publish⟩

/-- Settles O17. -/
theorem identAndMaskRegister : Obligations.IdentAndMaskRegister := by
  refine ⟨fun a s e => ?_, fun a s e => ?_, fun a s e => ?_, fun a v s h => ?_, fun a v s hp e => ?_,
    fun a vsup s e => ?_, fun c s t hw hm hp h => exec_attnMask hw hm hp h⟩
  · simp [hostRead, e]
  · simp only [hostRead, e]
    cases s.running with
    | true => exact ⟨rfl, fun n hn => by simp [BitVec.getLsbD_one]; omega⟩
    | false => exact ⟨rfl, fun n _ => BitVec.getLsbD_zero⟩
  · simp [hostRead, e]
  · exact event_not (.inr (register_write h v s))
  · refine ⟨publish (maskWrite v s), event_next hp rfl, ?_⟩
    simp only [hostRead, e]
    exact publish_attnMask _
  · refine ⟨_, exec_powerOn vsup s, ?_⟩
    simp only [hostRead, e]
    rfl

/-- Settles O20. -/
theorem requestsInConfigAndUnknown : Obligations.RequestsInConfigAndUnknown := by
  refine ⟨fun c code i rest s hc hr hs => ?_, fun code i rest s hk hr => ?_⟩
  · obtain ⟨judge, he⟩ := exec_requestRow hc
    refine ⟨_, (he s).trans (takeRequest_config hr.powered hr.order (by rw [hr.code]; simp) hs), ?_⟩
    exact request_plain hr .notRunning 0
  · have hp : (!knownCodes.contains (requestCode s.ram i)) = true := by rw [hr.code, hk]; rfl
    cases hs : s.running with
    | true => exact ⟨_, takeRequest_running hr.powered hr.order hp hs, request_plain hr .badRequest 0⟩
    | false => exact ⟨_, takeRequest_config hr.powered hr.order hp hs, request_plain hr .notRunning 0⟩

end Sys2Proof.Proofs
end

section
/-! What a status trigger, a posting and a report leave once the event has ended: the layer under the statements
about requests that change the cab's status. -/

namespace Sys2Proof.Machine

/-! ### The cab's status seen through a frame (R9, R76) -/

/-- R199: the fields of the state that the CAB_STATUS payload spells. -/
theorem statusBytes_congr {s t : State} (hf : t.fare = s.fare) (ho : t.offers = s.offers)
    (hr : t.msgs.rnr = s.msgs.rnr) (ht : t.time = s.time) (hc : t.port.posCopy = s.port.posCopy) :
    statusBytes t = statusBytes s := by
  unfold statusBytes dutyByte meterByte positionRows
  rw [hf, ho, hr, ht, hc]

/-- R9: the items of the state that the taking of a position reads. -/
theorem positionTaken_congr {s t : State} (hw : t.port.posWritten = s.port.posWritten)
    (hc : t.port.posCopy = s.port.posCopy)
    (hm : ∀ a, 0x0200 ≤ a → a < 0x0220 → Memory.get t.ram a = Memory.get s.ram a) :
    positionTaken t = positionTaken s := by
  have run : ∀ a n, 0x0200 ≤ a → a + n ≤ 0x0220 → Memory.read t.ram a n = Memory.read s.ram a n :=
    fun a n h1 h2 => Memory.read_congr fun i hi => hm _ (by omega) (by omega)
  unfold positionTaken
  rw [hw, hc, run 0x0200 2 (by omega) (by omega), run 0x0202 4 (by omega) (by omega),
    run 0x0206 4 (by omega) (by omega), run 0x020A 2 (by omega) (by omega)]

theorem position_not_controller {a : Nat} (h : 0x0200 ≤ a) (h' : a < 0x0220) : ¬ controllerByte a := by
  unfold controllerByte
  omega

/-- R9: what stores nothing in the Position Block takes no position leaves the next taking as it was. -/
theorem Frame.positionTaken {a : List Part} {p : Nat → Prop} {s t : State} (f : Frame a p s t)
    (h1 : Part.posWritten ∉ a) (h2 : Part.posCopy ∉ a) (hp : ∀ x, 0x0200 ≤ x → x < 0x0220 → ¬ p x) :
    positionTaken t = positionTaken s :=
  positionTaken_congr (f.keeps .posWritten h1) (f.keeps .posCopy h2) fun x hx hx' =>
    f.ram x (position_not_controller hx hx') (hp x hx hx')

/-- The parts that the placing of a status reads or leaves. -/
def statusParts : List Part := [.queue, .posCopy, .fare, .offers, .msgs, .time]

/-- R9, R76: a status trigger given in a state `u`, seen from the state before `u` and after what follows. -/
theorem statusPlaced_of_eq {s u t : State} (hr : u.running = true) (hq : u.queue.resolvable = false)
    (hp : positionTaken u = positionTaken s) (hf : u.cycle.fleet = s.cycle.fleet)
    (h1 : t.queue = (statusTrigger u).queue) (h2 : t.port.posCopy = (statusTrigger u).port.posCopy)
    (h3 : statusBytes t = statusBytes (statusTrigger u)) : statusPlaced u.queue s t := by
  obtain ⟨g1, g2⟩ := statusPlaced_trigger hr hq
  unfold statusPlaced
  rw [h1, h2, h3, ← hp, ← hf]
  exact ⟨g1, g2⟩

/-- The same where what follows is a frame. -/
theorem statusPlaced_of_frame {s u t : State} {a : List Part} {p : Nat → Prop} (hr : u.running = true)
    (hq : u.queue.resolvable = false) (hp : positionTaken u = positionTaken s) (hf : u.cycle.fleet = s.cycle.fleet)
    (f : Frame a p (statusTrigger u) t) (ha : ∀ r ∈ statusParts, r ∉ a) : statusPlaced u.queue s t :=
  statusPlaced_of_eq hr hq hp hf (f.queue (ha _ (by decide))) (f.posCopy (ha _ (by decide)))
    (statusBytes_congr (f.fare (ha _ (by decide))) (f.offers (ha _ (by decide)))
      (congrArg _ (f.msgs (ha _ (by decide)))) (f.time (ha _ (by decide))) (f.posCopy (ha _ (by decide))))

/-- R12: what the completion of a request and the end of its event touch. -/
theorem answer_frame (i : Slot) (o : ReqOutcome) (d : Nat) (u : State) :
    Frame (withEnds [.ram, .attention]) (outcomeBytes i) u (publish (completeRequest i o d u)) :=
  (completeRequest_frame i o d u).publish

/-- R10: taking the head off the Request Order list leaves the position as it was. -/
theorem positionTaken_taken (s : State) (rest : List Slot) : positionTaken (s.taken rest) = positionTaken s :=
  (taken_frame s rest).positionTaken (by decide) (by decide) fun _ _ _ => id

/-- R12, R76: a request that ends in a status trigger given in a state `u`: what `u` holds reaches the end. -/
theorem statusPlaced_answered {s u : State} {rest : List Slot} {a : List Part} {p : Nat → Prop}
    (hs : s.running = true) (f : Frame a p (s.taken rest) u)
    (h1 : ∀ r ∈ [Part.posWritten, .posCopy, .settings, .cycle], r ∉ a)
    (hp : ∀ x, 0x0200 ≤ x → x < 0x0220 → ¬ p x) (hq : u.queue.resolvable = false) {v : State} {b : List Part}
    (g : Frame b nothing (statusTrigger u) v) (hb : ∀ r ∈ statusParts, r ∉ b) (i : Slot) (o : ReqOutcome) (d : Nat) :
    statusPlaced u.queue s (publish (completeRequest i o d v)) := by
  refine statusPlaced_of_frame ((f.running (h1 _ (by decide))).trans hs) hq
    ((f.positionTaken (h1 _ (by decide)) (h1 _ (by decide)) hp).trans (positionTaken_taken s rest))
    (congrArg _ (f.cycle (h1 _ (by decide)))) (g.trans (answer_frame i o d v)) fun r hr hm => ?_
  obtain hm | hm := List.mem_append.1 hm
  · exact hb r hr hm
  · exact absurd hm ((by decide : ∀ r ∈ statusParts, r ∉ withEnds [.ram, .attention]) r hr)

/-! ### A record posted (R154, R157) -/

/-- R154: the Record Store after a posting. -/
def RecordStore.posted (i : Slot) (r : FareRecord) (st : RecordStore) : RecordStore :=
  st.post i { record := r, seq := st.nextSeq, collected := false, reported := false }

/-- R154, R157: a posting, with the queue and the note that the feed's offer leaves. -/
theorem postRecord_exact {s : State} (h : s.queue.resolvable = false) (i : Slot) (r : FareRecord) :
    postRecord i r s =
      { setNews .record { s with
          store := s.store.posted i r
          ram := presentRecord i { record := r, seq := s.store.nextSeq, collected := false, reported := false } s.ram } with
        queue := (fed s.running (s.store.posted i r) s.note s.cycle.fleet s.queue).1
        note := (fed s.running (s.store.posted i r) s.note s.cycle.fleet s.queue).2 } :=
  reportFeed_exact h

/-- R6: a record that has been presented stays shown through what stores outside its slot. -/
theorem presents_of_frame {i : Slot} {h : HeldRecord} {s t : State} {a : List Part} {p : Nat → Prop}
    (k : presents i h s) (f : Frame a p s t) (hp : ∀ x, recordBytes i x → ¬ p x) : presents i h t := by
  have keep : ∀ o n, o + n ≤ 128 → Memory.read t.ram (recordBase i + o) n = Memory.read s.ram (recordBase i + o) n :=
    fun o n hn => Memory.read_congr fun x hx => by
      have hi := i.isLt
      refine f.ram _ ?_ (hp _ ?_)
      · unfold controllerByte recordBase
        omega
      · unfold recordBytes bytesAt
        omega
  obtain ⟨k1, k2⟩ := k
  exact ⟨(keep 0 2 (by omega)).trans k1, fun r hr => (keep r.1 _ (recordRuns_inside hr).2).trans (k2 r hr)⟩

/-- R6, R154: after a posting the slot shows the record. -/
theorem presents_postRecord {s : State} (hw : Memory.wf s.ram = true) (hq : s.queue.resolvable = false) (i : Slot)
    (r : FareRecord) :
    presents i { record := r, seq := s.store.nextSeq, collected := false, reported := false } (postRecord i r s) := by
  rw [postRecord_exact hq]
  obtain ⟨h1, h2, -⟩ :=
    presentRecord_spec hw i { record := r, seq := s.store.nextSeq, collected := false, reported := false }
  exact ⟨h1, h2⟩

/-- The bytes of an outcome lie in no fare record slot. -/
theorem record_not_outcome {i j : Slot} {x : Nat} (h : recordBytes i x) : ¬ outcomeBytes j x := by
  intro k
  have hin := outcomeBytes_inside k
  have := j.isLt
  unfold recordBytes bytesAt recordBase at h
  unfold requestBase at hin
  omega

theorem record_not_slots {j : Slot} {x : Nat} (h : x < 0x0800) : ¬ recordBytes j x := by
  unfold recordBytes bytesAt recordBase
  omega

end Sys2Proof.Machine
end

section
/-! The requests of the cab's duty, zone and meter: each ends in a status trigger (R76), DUTY_OFF and METER_CLEAR
after a posting. -/

namespace Sys2Proof.Machine

/-! ### How these requests end -/

/-- The parts that must stand from the taking of a request to the state its status trigger is given in. -/
def triggerParts : List Part := [.order, .cycle, .posWritten, .posCopy, .settings]

/-- R12, R76: a request whose effect leads to a state `u`, gives the status trigger there, leads on to `v` and
completes. -/
theorem request_triggered {code : Nat} {i : Slot} {rest : List Slot} {s u v : State} {a b : List Part}
    {p : Nat → Prop} {news : Word} (hr : Ready code i rest s) (hs : s.running = true)
    (f : Frame a p (s.taken rest) u) (ha : ∀ r ∈ triggerParts, r ∉ a)
    (hp : ∀ x, 0x0200 ≤ x → x < 0x0800 → ¬ p x) (hq : u.queue.resolvable = false)
    (g : Frame b nothing (statusTrigger u) v) (hb : ∀ r ∈ statusParts ++ triggerParts, r ∉ b)
    (hn : v.port.attention = s.port.attention ||| news) (o : ReqOutcome) (d : Nat) :
    answered i rest o d news s (publish (completeRequest i o d v)) ∧
    statusPlaced u.queue s (publish (completeRequest i o d v)) ∧
    Frame (withEnds (.order :: (a ++ [.posCopy, .queue] ++ b))) (fun x => outcomeBytes i x ∨ p x) s
      (publish (completeRequest i o d v)) := by
  have fv := (f.then (statusTrigger_frame u)).then g
  have hv : ∀ r ∈ [Part.order, .cycle], r ∉ a ++ [.posCopy, .queue] ++ b := by
    intro r hr hm
    have hr' := (by decide : ∀ r ∈ [Part.order, .cycle],
      r ∈ triggerParts ∧ r ∈ statusParts ++ triggerParts ∧ r ∉ [Part.posCopy, .queue]) r hr
    obtain hm | hm := List.mem_append.1 hm
    · exact (List.mem_append.1 hm).elim (ha r hr'.1) hr'.2.2
    · exact hb r hr'.2.1 hm
  obtain ⟨h1, h2⟩ := request_ends hr fv (fun x h h' => hp x (by unfold requestBase at h; omega)
    (by have := i.isLt; unfold requestBase at h'; omega)) (fv.order (hv _ (by decide)))
    (congrArg _ (fv.cycle (hv _ (by decide)))) hn o d
  exact ⟨h1, statusPlaced_answered hs f (fun r h => ha r (by revert r; decide))
    (fun x h h' => hp x h (by omega)) hq g (fun r h => hb r (List.mem_append_left _ h)) i o d, h2⟩

/-- The same where the effect stores nothing and nothing comes between the trigger and the completion. -/
theorem request_statusTrigger {code : Nat} {i : Slot} {rest : List Slot} {s u : State} {a : List Part}
    (hr : Ready code i rest s) (hs : s.running = true) (hq : s.queueSound) (f : Frame a nothing (s.taken rest) u)
    (ha : ∀ r ∈ [Part.queue, .attention] ++ triggerParts, r ∉ a) (o : ReqOutcome) (d : Nat) :
    answered i rest o d 0 s (publish (completeRequest i o d (statusTrigger u))) ∧
    statusPlaced s.queue s (publish (completeRequest i o d (statusTrigger u))) ∧
    Frame (withEnds (.order :: (a ++ [.posCopy, .queue]))) (outcomeBytes i) s
      (publish (completeRequest i o d (statusTrigger u))) := by
  have hu : u.queue = s.queue := f.queue (ha _ (by decide))
  have hn : (statusTrigger u).port.attention = s.port.attention ||| 0 :=
    ((statusTrigger_frame u).attention (by decide)).trans
      ((f.attention (ha _ (by decide))).trans BitVec.or_zero.symm)
  obtain ⟨h1, h2, h3⟩ := request_triggered hr hs f (fun r h => ha r (List.mem_append_right _ h)) (fun _ _ _ => id)
    (by rw [hu]; exact hq.2) (Frame.refl _) (by decide) hn o d
  rw [List.append_nil] at h3
  exact ⟨h1, hu ▸ h2, h3.mono (fun _ => id) fun x hx => hx.elim id False.elim⟩

theorem resolvable_taken {s : State} (h : s.queueSound) (rest : List Slot) :
    (s.taken rest).queue.resolvable = false := h.2

@[simp] theorem statusTrigger_fare (s : State) : (statusTrigger s).fare = s.fare :=
  (statusTrigger_frame s).fare (by decide)
@[simp] theorem statusTrigger_offers (s : State) : (statusTrigger s).offers = s.offers :=
  (statusTrigger_frame s).offers (by decide)
@[simp] theorem statusTrigger_limiter (s : State) : (statusTrigger s).limiter = s.limiter :=
  (statusTrigger_frame s).limiter (by decide)
@[simp] theorem statusTrigger_store (s : State) : (statusTrigger s).store = s.store :=
  (statusTrigger_frame s).store (by decide)
@[simp] theorem statusTrigger_note (s : State) : (statusTrigger s).note = s.note :=
  (statusTrigger_frame s).note (by decide)
@[simp] theorem statusTrigger_attention (s : State) : (statusTrigger s).port.attention = s.port.attention :=
  (statusTrigger_frame s).attention (by decide)

/-- R98, R99: the board slots after a request has been answered. -/
theorem boardsShown_answered {code : Nat} {i : Slot} {rest : List Slot} {s u : State} {a : List Part} {p : Nat → Prop}
    (hr : Ready code i rest s) (f : Frame a p (s.taken rest) u) (o : ReqOutcome) (d : Nat) :
    (publish (completeRequest i o d u)).boardsShown :=
  publishWith_boardsShown ((f.trans (completeRequest_frame i o d u)).wf hr.wf) false

/-! ### The Offer Table through these requests (R101, R117) -/

theorem cancelled_congr {p : OfferPlace → Bool} {s s' t t' : State} (h : cancelled p s t)
    (h1 : s'.offers.places = s.offers.places) (h2 : s'.cycle.fleet = s.cycle.fleet)
    (h3 : t'.offers.places = t.offers.places) : cancelled p s' t' := by
  intro j
  rw [h1, h2, h3]
  exact h j

/-- R117: the AWARDED entry, where there is one, is closed STARTED. -/
theorem startJob_offers (s : State) : match awardedPlace s.offers with
    | some j => (startJob s).offers = { s.offers with places := put s.offers.places j (closedAs j .started s) }
    | none => (startJob s).offers = s.offers := by
  unfold startJob
  cases awardedPlace s.offers with
  | none => rfl
  | some j =>
    dsimp only
    rw [closePlace_eq j (by decide)]
    rfl

/-! ### Postings (R154) -/

theorem queueNote_frame (q : TransmitQueue) (n : Option Nat) (s : State) :
    Frame [.queue, .note] nothing s { s with queue := q, note := n } :=
  (queue_frame q s).then (note_frame n { s with queue := q })

/-- R154: what a posting touches where no status is pending. -/
theorem postRecord_frame_exact {s : State} (h : s.queue.resolvable = false) (i : Slot) (r : FareRecord) :
    Frame [.store, .ram, .attention, .queue, .note] (recordBytes i) s (postRecord i r s) := by
  rw [postRecord_exact h]
  exact ((storeRam_frame i _ _ s).then (setNews_frame .record _)).then (queueNote_frame _ _ _)

/-! ### The K in force (R123, R152) -/

/-- R147: the K in force while no trip is open is that of the working copy. -/
theorem kInForce_vacant {f : FareMeter} (h : f.meter = .vacant) (w : Option Settings) :
    kInForce f w = (w.map (·.k)).getD 0 := by
  unfold kInForce
  rw [h]

theorem kInForce_open {f : FareMeter} (h : f.meter ≠ .vacant) (w : Option Settings) :
    kInForce f w = f.trip.par.k := by
  unfold kInForce
  cases hm : f.meter
  · exact absurd hm h
  · rfl
  · rfl

theorem working_k (s : State) : s.working.k = (s.settings.working.map (·.k)).getD 0 := by
  unfold State.working
  cases s.settings.working <;> rfl

/-- R152: the conversion remainder is given up where the K in force has changed. -/
theorem forgetRemainder_eq (k : Nat) (s : State) : forgetRemainder k s = { s with limiter := { s.limiter with
    remainder := if kInForce s.fare s.settings.working = k then s.limiter.remainder else 0 } } := by
  unfold forgetRemainder
  split <;> rfl

/-- R122: a tariff without an initial period starts both phases. -/
theorem not_hasInitial (t : Tariff) : (!t.hasInitial) = (t.d0 == 0 || t.t0 == 0) := by
  unfold Tariff.hasInitial bne
  rw [Bool.not_and, Bool.not_not, Bool.not_not]

theorem tariffEnabled_iff (w : Settings) (n : Nat) :
    tariffEnabled w n = true ↔ 1 ≤ n ∧ n ≤ 4 ∧ (w.tariff n).enabled = true := by
  simp [tariffEnabled, within, and_assoc]

/-! ### The states these requests give their status trigger in -/

/-- R144: a shift opened, before its status trigger. -/
def shiftOpened (s : State) : State :=
  openOffDuty { s with
    fare := { s.fare with
      shiftNo := wrapNext 65535 1 s.fare.shiftNo, shiftStart := s.cycle.fleet, totals := {}, duty := .on }
    limiter := { s.limiter with remainder := 0 } }

theorem openShift_eq (s : State) : openShift s = statusTrigger (shiftOpened s) := rfl

theorem shiftOpened_frame (s : State) : Frame [.fare, .limiter, .offers] nothing s (shiftOpened s) :=
  (fareLimiter_frame _ _ s).then (offers_frame _ _)

/-- R119: the zone changed, before its status trigger. -/
def zoneChanged (z : Nat) (s : State) : State :=
  { cancelWhere OfferPlace.presentedZone s with
    offers := { (cancelWhere OfferPlace.presentedZone s).offers with zone := z } }

theorem changeZone_eq (z : Nat) (s : State) : changeZone z s = statusTrigger (zoneChanged z s) := rfl

theorem zoneChanged_frame (z : Nat) (s : State) : Frame [.offers] nothing s (zoneChanged z s) :=
  ((cancelWhere_frame _ s).then (offers_frame _ _)).mono (by decide) fun _ => id

theorem zoneChanged_offers (z : Nat) (s : State) :
    (zoneChanged z s).offers = { s.offers with places := (zoneChanged z s).offers.places, zone := z } ∧
    cancelled OfferPlace.presentedZone s (zoneChanged z s) := by
  obtain ⟨ps, he, hp⟩ := cancelWhere_eq OfferPlace.presentedZone s
  unfold zoneChanged
  rw [he]
  exact ⟨rfl, hp⟩

/-- R145: the shift closed with its record posted, before its status trigger. -/
def shiftClosed (p : Slot) (s : State) : State :=
  let t := postRecord p (.shift (shiftRecord s.fare s.cycle.fleet)) s
  closeOffDuty { t with fare := { t.fare with duty := .off } }

theorem closeShift_eq (p : Slot) (s : State) : closeShift p s = statusTrigger (shiftClosed p s) := rfl

/-- What a posting and the rest of the effect leave of the Record Store, the queue, the note and ATTENTION. -/
structure PostedThen (p : Slot) (r : FareRecord) (s u : State) : Prop where
  store     : u.store = s.store.posted p r
  queue     : u.queue = (fed s.running u.store s.note s.cycle.fleet s.queue).1
  note      : u.note = (fed s.running u.store s.note s.cycle.fleet s.queue).2
  attention : u.port.attention = s.port.attention ||| News.record.mask
  shows     : Memory.wf s.ram = true →
    presents p { record := r, seq := s.store.nextSeq, collected := false, reported := false } u

theorem postRecord_then {s : State} (h : s.queue.resolvable = false) (p : Slot) (r : FareRecord) :
    PostedThen p r s (postRecord p r s) where
  store := by rw [postRecord_exact h]; rfl
  queue := by rw [postRecord_exact h]; rfl
  note := by rw [postRecord_exact h]; rfl
  attention := by rw [postRecord_exact h]; rfl
  shows hw := presents_postRecord hw h p r

theorem PostedThen.frame {p : Slot} {r : FareRecord} {s u v : State} (h : PostedThen p r s u) {a : List Part}
    (f : Frame a nothing u v) (ha : ∀ r ∈ [Part.store, .queue, .note, .attention], r ∉ a) : PostedThen p r s v where
  store := (f.store (ha _ (by decide))).trans h.store
  queue := by rw [f.queue (ha _ (by decide)), f.store (ha _ (by decide))]; exact h.queue
  note := by rw [f.note (ha _ (by decide)), f.store (ha _ (by decide))]; exact h.note
  attention := (f.attention (ha _ (by decide))).trans h.attention
  shows hw := presents_of_frame (h.shows hw) f fun _ _ => id

theorem PostedThen.resolvable {p : Slot} {r : FareRecord} {s u : State} (h : PostedThen p r s u)
    (hq : s.queue.resolvable = false) : u.queue.resolvable = false := by
  rw [h.queue]
  exact resolvable_fed hq _ _ _ _

/-- R154, R157: a posting seen at the end of a request that gives its status trigger after it. -/
theorem PostedThen.answered {p i : Slot} {r : FareRecord} {rest : List Slot} {s u v : State} {a : List Part}
    (h : PostedThen p r (s.taken rest) u) (hw : Memory.wf s.ram = true) (hs : s.running = true)
    (g : Frame a nothing (statusTrigger u) v) (ha : ∀ r ∈ [Part.store, .note], r ∉ a) (o : ReqOutcome) (d : Nat)
    (hp : statusPlaced u.queue s (publish (completeRequest i o d v))) :
    posted p r s (publish (completeRequest i o d v)) ∧
    (publish (completeRequest i o d v)).note =
      (fed true (publish (completeRequest i o d v)).store s.note s.cycle.fleet s.queue).2 ∧
    statusPlaced (fed true (publish (completeRequest i o d v)).store s.note s.cycle.fleet s.queue).1 s
      (publish (completeRequest i o d v)) := by
  have f := ((statusTrigger_frame u).trans g).trans (answer_frame i o d v)
  have hst : (publish (completeRequest i o d v)).store = u.store := by
    rw [publish_store, completeRequest_store, g.store (ha _ (by decide)), statusTrigger_store]
  have hnote : (publish (completeRequest i o d v)).note = u.note := by
    rw [publish_note, completeRequest_note, g.note (ha _ (by decide)), statusTrigger_note]
  rw [hst, hnote, ← hs]
  have hq : u.queue = (fed s.running u.store s.note s.cycle.fleet s.queue).1 := h.queue
  refine ⟨⟨hst.trans h.store, presents_of_frame (h.shows hw) f fun x hx => ?_⟩, h.note, hq ▸ hp⟩
  rintro ((hx' | hx') | hx')
  · exact hx'
  · exact hx'
  · exact record_not_outcome hx hx'

theorem shiftClosed_frame {s : State} (h : s.queue.resolvable = false) (p : Slot) :
    Frame [.store, .ram, .attention, .queue, .note, .fare, .offers] (recordBytes p) s (shiftClosed p s) :=
  ((postRecord_frame_exact h p _).then (fare_frame _ _)).then (closeOffDuty_frame _)

theorem shiftClosed_posted {s : State} (h : s.queue.resolvable = false) (p : Slot) :
    PostedThen p (.shift (shiftRecord s.fare s.cycle.fleet)) s (shiftClosed p s) :=
  (postRecord_then h p _).frame ((fare_frame _ _).then (closeOffDuty_frame _)) (by decide)

/-- R145: the duty, the gate and the offers of a closed shift. -/
theorem shiftClosed_fields {s : State} (h : s.queue.resolvable = false) (p : Slot) :
    (shiftClosed p s).fare = { s.fare with duty := .off } ∧
    (shiftClosed p s).offers = { s.offers with places := (shiftClosed p s).offers.places, offDutyGate := true } ∧
    cancelled OfferPlace.presented s (shiftClosed p s) := by
  unfold shiftClosed closeOffDuty
  rw [postRecord_exact h]
  dsimp only
  obtain ⟨ps, he, hp⟩ := cancelWhere_eq OfferPlace.presented _
  rw [he]
  exact ⟨rfl, rfl, hp⟩

/-- R145: the refusals of the first four checks. -/
theorem dutyOff_refused {i : Slot} {s : State} {d : Nat} (h : dutyOffRefusal s = some d) :
    dutyOff i s = completeRequest i .refusedState d s := by
  unfold dutyOff
  rw [h]

theorem dutyOff_full {i : Slot} {s : State} (h : dutyOffRefusal s = none) (hp : s.store.free = none) :
    dutyOff i s = completeRequest i .recordsFull 0 s := by
  unfold dutyOff
  rw [h, hp]

theorem dutyOff_posts {i p : Slot} {s : State} (h : dutyOffRefusal s = none) (hp : s.store.free = some p) :
    dutyOff i s = completeRequest i .done p.val (closeShift p s) := by
  unfold dutyOff
  rw [h, hp]

/-- R149: a trip closed, before its status trigger. -/
def tripCleared (s : State) : State :=
  forgetRemainder (kInForce s.fare s.settings.working) { s with fare := { s.fare with meter := .vacant, trip := {} } }

theorem tripCleared_frame (s : State) : Frame [.fare, .limiter] nothing s (tripCleared s) :=
  (fare_frame _ s).then (forgetRemainder_frame _ _)

/-- R149: the posting of the TRIP record, the shift totals and the close, before the status trigger. -/
def tripPosted (p : Slot) (s : State) : State :=
  tripCleared (addTripToShift (tripRecord s.fare.trip s.cycle.fleet)
    (postRecord p (.trip (tripRecord s.fare.trip s.cycle.fleet)) s))

theorem tripPosted_frame {s : State} (h : s.queue.resolvable = false) (p : Slot) :
    Frame [.store, .ram, .attention, .queue, .note, .fare, .limiter] (recordBytes p) s (tripPosted p s) :=
  (((postRecord_frame_exact h p _).then (addTripToShift_frame _ _)).then (tripCleared_frame _)).mono (by decide)
    fun _ => id

theorem tripPosted_posted {s : State} (h : s.queue.resolvable = false) (p : Slot) :
    PostedThen p (.trip (tripRecord s.fare.trip s.cycle.fleet)) s (tripPosted p s) :=
  (postRecord_then h p _).frame ((addTripToShift_frame _ _).then (tripCleared_frame _)) (by decide)

theorem duty_on {d : Duty} (h : d ≠ .off) : d = .on := by
  cases d
  · exact absurd rfl h
  · rfl

/-- R151: the shift totals are raised on duty only. -/
theorem addTripToShift_fare (r : TripRecord) (s : State) : (addTripToShift r s).fare = { s.fare with
    totals := if s.fare.duty = .off then s.fare.totals else s.fare.totals.addTrip r } := by
  unfold addTripToShift
  by_cases hd : s.fare.duty = .off
  · rw [if_neg (by rw [hd]; decide), if_pos hd]
  · rw [if_pos (duty_on hd), if_neg hd]

/-- R149, R152: the meter and the conversion remainder of a closed trip. -/
theorem tripCleared_fields {s : State} (hm : s.fare.meter ≠ .vacant) :
    (tripCleared s).fare = { s.fare with meter := .vacant, trip := {} } ∧
    (tripCleared s).limiter = { s.limiter with
      remainder := if (s.settings.working.map (·.k)).getD 0 = s.fare.trip.par.k then s.limiter.remainder else 0 } := by
  unfold tripCleared
  rw [forgetRemainder_eq, kInForce_open hm]
  dsimp only
  rw [kInForce_vacant rfl]
  exact ⟨rfl, rfl⟩

/-- R149 to R152: the meter, the totals and the conversion remainder of a posted trip. -/
theorem tripPosted_fields {s : State} (h : s.queue.resolvable = false) (hm : s.fare.meter ≠ .vacant) (p : Slot) :
    (tripPosted p s).fare = { s.fare with
      meter := .vacant
      trip := {}
      totals := if s.fare.duty = .off then s.fare.totals
        else s.fare.totals.addTrip (tripRecord s.fare.trip s.cycle.fleet) } ∧
    (tripPosted p s).limiter = { s.limiter with
      remainder := if (s.settings.working.map (·.k)).getD 0 = s.fare.trip.par.k then s.limiter.remainder else 0 } := by
  have f := postRecord_frame_exact h p (.trip (tripRecord s.fare.trip s.cycle.fleet))
  have g := f.then (addTripToShift_frame (tripRecord s.fare.trip s.cycle.fleet) _)
  have e := addTripToShift_fare (tripRecord s.fare.trip s.cycle.fleet)
    (postRecord p (.trip (tripRecord s.fare.trip s.cycle.fleet)) s)
  rw [f.fare (by decide)] at e
  obtain ⟨hf, hl⟩ := tripCleared_fields (s := addTripToShift _ _) (by rw [e]; exact hm)
  rw [e] at hf hl
  rw [g.settings (by decide), g.limiter (by decide)] at hl
  exact ⟨hf, hl⟩

theorem meterClear_posts {i p : Slot} {s : State} (hm : s.fare.meter = .stopped) (hp : s.store.free = some p) :
    meterClear i s = completeRequest i .done p.val (setNews .meter (statusTrigger (tripPosted p s))) := by
  unfold meterClear
  rw [if_neg (fun h => h hm), hp]
  rfl

theorem meterClear_full {i : Slot} {s : State} (hm : s.fare.meter = .stopped) (hp : s.store.free = none) :
    meterClear i s = completeRequest i .recordsFull 0 s := by
  unfold meterClear
  rw [if_neg (fun h => h hm), hp]

/-- R126, R147: a trip opened and the awarded job started, before the status trigger. -/
def tripOpened (n : Nat) (s : State) : State :=
  { startJob s with fare := { s.fare with
      meter := .hired, trip := openTrip n s, nextTrip := wrapNext 65535 1 s.fare.nextTrip } }

/-- R147: the working copy's K is the one a hire takes over, so the hire gives up no remainder. -/
theorem hire_eq {s : State} (h : s.fare.meter = .vacant) (n : Nat) :
    hire n s = setNews .meter (statusTrigger (tripOpened n s)) := by
  have e : (startJob s).fare = s.fare := (startJob_frame s).fare (by decide)
  unfold hire
  dsimp only
  rw [kInForce_vacant h, ← working_k, e]
  exact congrArg meterChanged (if_pos rfl)

theorem tripOpened_frame (n : Nat) (s : State) : Frame [.offers, .fare] nothing s (tripOpened n s) :=
  (startJob_frame s).then (fare_frame _ _)

theorem meterHire_hires {i : Slot} {s : State} {n : Nat} (hn : hireTariff s.fare.chosen (param1 s.ram i) = n)
    (hm : s.fare.meter = .vacant) (hd : ¬ s.fare.duty = .off)
    (ht : ¬ (4 < param1 s.ram i ∨ tariffEnabled s.working n = false)) :
    meterHire i s = completeRequest i .done s.fare.nextTrip (setNews .meter (statusTrigger (tripOpened n s))) := by
  subst hn
  unfold meterHire
  dsimp only
  rw [if_neg (fun h => h hm), if_neg hd, if_neg ht, hire_eq hm]

end Sys2Proof.Machine

namespace Sys2Proof.Proofs

open Sys2Proof.Machine

/-- Settles O21. -/
theorem dutyOn : Obligations.DutyOn := by
  intro i rest s hr hs hq
  refine ⟨_, request_judged hr hs, ?_⟩
  by_cases hd : s.fare.duty = .on
  · rw [if_pos hd, show Machine.dutyOn i (s.taken rest) = _ from if_pos hd]
    exact request_plain hr _ _
  · rw [if_neg hd, show Machine.dutyOn i (s.taken rest) = _ from if_neg hd, openShift_eq]
    obtain ⟨ha, hp, hf⟩ := request_statusTrigger hr hs hq (shiftOpened_frame (s.taken rest)) (by decide) .done _
    refine ⟨ha, ?_, ?_, ?_, hp, publish_lampShows _, hf.mono (by decide) fun _ => id⟩ <;>
      simp only [publish_fare, publish_limiter, publish_offers, completeRequest_fare, completeRequest_limiter,
        completeRequest_offers, statusTrigger_fare, statusTrigger_limiter, statusTrigger_offers] <;> rfl

/-- Settles O23. -/
theorem setZone : Obligations.SetZone := by
  intro i rest s hr hs hq
  refine ⟨_, request_judged hr hs, ?_⟩
  dsimp only
  by_cases h0 : param1 s.ram i = 0
  · rw [if_pos h0, show Machine.setZone i (s.taken rest) = _ from if_pos h0]
    exact request_plain hr _ _
  rw [if_neg h0]
  by_cases hz : param1 s.ram i = s.offers.zone
  · rw [if_pos hz, show Machine.setZone i (s.taken rest) = _ from (if_neg h0).trans (if_pos hz)]
    exact request_plain hr _ _
  · rw [if_neg hz, show Machine.setZone i (s.taken rest) = _ from (if_neg h0).trans (if_neg hz), changeZone_eq]
    have f := zoneChanged_frame (param1 s.ram i) (s.taken rest)
    obtain ⟨ha, hp, hf⟩ := request_statusTrigger hr hs hq f (by decide) .done 0
    obtain ⟨he, hc⟩ := zoneChanged_offers (param1 s.ram i) (s.taken rest)
    have ht : ∀ u : State, (publish (completeRequest i .done 0 (statusTrigger u))).offers = u.offers := fun u => by
      simp only [publish_offers, completeRequest_offers, statusTrigger_offers]
    refine ⟨ha, ?_, cancelled_congr hc rfl rfl (congrArg _ (ht _)), hp,
      boardsShown_answered hr (f.then (statusTrigger_frame _)) _ _, hf.mono (by decide) fun _ => id⟩
    rw [ht]
    exact he

/-- Settles O24. -/
theorem statusTrigger : Obligations.StatusTrigger := by
  refine ⟨fun i rest s hr hs hq => ?_, fun s hp hs hq hd => ?_⟩
  · obtain ⟨ha, hp, hf⟩ := request_statusTrigger hr hs hq (Frame.refl (s.taken rest)) (by decide) .done 0
    exact ⟨_, request_judged hr hs, ha, hp, hf⟩
  · refine ⟨publish (statusExpired s), event_next hp hd, ?_, ?_, (statusExpired_frame s).publish⟩
    · exact statusPlaced_of_frame (u := { s with queue := { s.queue with timer := Timer.start s.working.status } })
        hs hq.2 rfl rfl (publish_frame _) (by decide)
    · exact gains_publish_zero ((statusExpired_frame s).attention (by decide))

/-- Settles O22. -/
theorem dutyOff : Obligations.DutyOff := by
  intro i rest s hr hs hq
  refine ⟨_, request_judged hr hs, ?_⟩
  by_cases h1 : s.fare.duty = .off
  · rw [if_pos h1, dutyOff_refused (s := s.taken rest) (if_pos h1)]
    exact request_plain hr _ _
  rw [if_neg h1]
  by_cases h2 : s.fare.meter ≠ .vacant
  · rw [if_pos h2, dutyOff_refused (s := s.taken rest) ((if_neg h1).trans (if_pos h2))]
    exact request_plain hr _ _
  rw [if_neg h2]
  by_cases h3 : s.offers.anyTaken = true
  · rw [if_pos h3, dutyOff_refused (s := s.taken rest) ((if_neg h1).trans ((if_neg h2).trans (if_pos h3)))]
    exact request_plain hr _ _
  rw [if_neg h3]
  by_cases h4 : s.emergency.kept.state ≠ .idle
  · rw [if_pos h4,
      dutyOff_refused (s := s.taken rest) ((if_neg h1).trans ((if_neg h2).trans ((if_neg h3).trans (if_pos h4))))]
    exact request_plain hr _ _
  rw [if_neg h4]
  have pass : dutyOffRefusal (s.taken rest) = none :=
    (if_neg h1).trans ((if_neg h2).trans ((if_neg h3).trans (if_neg h4)))
  cases hp : s.store.free with
  | none =>
    rw [dutyOff_full pass hp]
    exact request_plain hr _ _
  | some p =>
    have hres := resolvable_taken hq rest
    have post := shiftClosed_posted hres p
    obtain ⟨hfare, hoffers, hcancel⟩ := shiftClosed_fields hres p
    obtain ⟨ha, hst, hf⟩ := request_triggered hr hs (shiftClosed_frame hres p) (by decide)
      (fun x _ h => record_not_slots h) (post.resolvable hres) (Frame.refl _) (by decide)
      ((statusTrigger_attention _).trans post.attention) .done p.val
    obtain ⟨hposted, hnote, hplaced⟩ := post.answered hr.wf hs (Frame.refl _) (by decide) .done p.val hst
    dsimp only
    rw [dutyOff_posts pass hp, closeShift_eq]
    refine ⟨ha, hposted, ⟨hnote, hplaced⟩, ?_, ?_, ?_, publish_lampShows _, hf.mono (by decide) fun _ => id⟩
    · rw [publish_fare, completeRequest_fare, statusTrigger_fare]
      exact hfare
    · rw [publish_offers, completeRequest_offers, statusTrigger_offers]
      exact hoffers
    · exact cancelled_congr hcancel rfl rfl
        (by rw [publish_offers, completeRequest_offers, statusTrigger_offers])

/-- Settles O25. -/
theorem meterHire : Obligations.MeterHire := by
  intro i rest s hr hs hq
  refine ⟨_, request_judged hr hs, ?_⟩
  dsimp only
  by_cases h1 : s.fare.meter ≠ .vacant
  · rw [if_pos h1, show Machine.meterHire i (s.taken rest) = _ from if_pos h1]
    exact request_plain hr _ _
  rw [if_neg h1]
  by_cases h2 : s.fare.duty = .off
  · rw [if_pos h2, show Machine.meterHire i (s.taken rest) = _ from (if_neg h1).trans (if_pos h2)]
    exact request_plain hr _ _
  rw [if_neg h2]
  have hm : s.fare.meter = .vacant := not_not.1 h1
  generalize ht : (if param1 s.ram i = 0 then s.fare.chosen else param1 s.ram i) = n
  have hn : (tariffEnabled s.working n = false) ↔
      ¬ (1 ≤ n ∧ n ≤ 4 ∧ (s.working.tariff n).enabled = true) := by
    rw [← tariffEnabled_iff, Bool.not_eq_true]
  by_cases h3 : 4 < param1 s.ram i ∨ tariffEnabled s.working n = false
  · rw [if_pos (h3.imp_right hn.1)]
    subst ht
    rw [show Machine.meterHire i (s.taken rest) = _ from (if_neg h1).trans ((if_neg h2).trans (if_pos h3))]
    exact request_plain hr _ _
  rw [if_neg (fun h => h3 (h.imp_right hn.2)), meterHire_hires (s := s.taken rest) ht hm h2 h3]
  have hres := resolvable_taken hq rest
  have f := tripOpened_frame n (s.taken rest)
  obtain ⟨ha, hst, hf⟩ := request_triggered hr hs f (by decide) (fun _ _ _ => id)
    (by rw [f.queue (by decide)]; exact hres) (setNews_frame .meter _) (by decide)
    (congrArg (· ||| News.meter.mask) ((statusTrigger_attention _).trans (f.attention (by decide)))) .done
    s.fare.nextTrip
  refine ⟨ha, ?_, ?_, f.queue (by decide) ▸ hst, publish_lampShows _,
    hf.mono (by decide) fun x hx => hx.elim id False.elim⟩
  · rw [publish_fare, completeRequest_fare, setNews_fare, statusTrigger_fare]
    simp only [tripOpened, openTrip, not_hasInitial]
    rfl
  · rw [publish_offers, completeRequest_offers, setNews_offers, statusTrigger_offers]
    exact startJob_offers (s.taken rest)

/-- Settles O27. -/
theorem meterClear : Obligations.MeterClear := by
  intro i rest s hr hs hq
  refine ⟨_, request_judged hr hs, ?_⟩
  by_cases h1 : s.fare.meter ≠ .stopped
  · rw [if_pos h1, show Machine.meterClear i (s.taken rest) = _ from if_pos h1]
    exact request_plain hr _ _
  rw [if_neg h1]
  have hm : s.fare.meter = .stopped := not_not.1 h1
  cases hp : s.store.free with
  | none =>
    rw [meterClear_full (s := s.taken rest) hm hp]
    exact request_plain hr _ _
  | some p =>
    have hres := resolvable_taken hq rest
    have post := tripPosted_posted hres p
    have notVacant : (s.taken rest).fare.meter ≠ .vacant := by
      rw [show (s.taken rest).fare.meter = .stopped from hm]
      decide
    obtain ⟨hfare, hlim⟩ := tripPosted_fields hres notVacant p
    have g := setNews_frame .meter (Machine.statusTrigger (tripPosted p (s.taken rest)))
    obtain ⟨ha, hst, hf⟩ := request_triggered hr hs (tripPosted_frame hres p) (by decide)
      (fun x _ h => record_not_slots h) (post.resolvable hres) g (by decide)
      ((congrArg (· ||| News.meter.mask) ((statusTrigger_attention _).trans post.attention)).trans
        (BitVec.or_assoc _ _ _)) .done p.val
    obtain ⟨hposted, hnote, hplaced⟩ := post.answered hr.wf hs g (by decide) .done p.val hst
    dsimp only
    rw [meterClear_posts (s := s.taken rest) hm hp]
    refine ⟨ha, hposted, ⟨hnote, hplaced⟩, ?_, ?_, publish_lampShows _, hf.mono (by decide) fun _ => id⟩
    · rw [publish_fare, completeRequest_fare, setNews_fare, statusTrigger_fare]
      exact hfare
    · rw [publish_limiter, completeRequest_limiter, setNews_limiter, statusTrigger_limiter]
      exact hlim

end Sys2Proof.Proofs
end

section
/-! The return of a Message Box slot, the collection of a fare record, and a report that is DONE. -/

namespace Sys2Proof.Machine

/-! ### The return of a Message Box slot (R168) -/

theorem owesReceipt_iff (b : BoxRecord) (d : Byte) :
    owesReceipt b d = true ↔ d = 1 ∧ b.directed = true ∧ b.receipt = true := by
  unfold owesReceipt dispositionRead
  rw [Bool.and_eq_true, Bool.and_eq_true, beq_iff_eq, and_assoc]

/-- R168, step 1: the record of the slot no longer held. -/
def boxReturned (i : Slot) (s : State) : State :=
  { s with msgs := { s.msgs with boxes := put s.msgs.boxes i { pick s.msgs.boxes i with held := false } } }

/-- R168, step 2: the receipt asked for, where one is owed. -/
def receiptAsked (i : Slot) (d : Byte) (s : State) : State :=
  if owesReceipt (pick s.msgs.boxes i) d then
    admitController .msgReceipt (be 2 (pick s.msgs.boxes i).number) (boxReturned i s)
  else boxReturned i s

theorem takeReturn_eq (i : Slot) (d : Byte) (s : State) :
    takeReturn i d s = stopReminder (clearRnr (receiptAsked i d s)) := rfl

theorem boxReturned_frame (i : Slot) (s : State) : Frame [.msgs] nothing s (boxReturned i s) := msgs_frame _ s

theorem receiptAsked_frame (i : Slot) (d : Byte) (s : State) :
    Frame [.msgs, .posCopy, .queue, .mail] nothing s (receiptAsked i d s) := by
  unfold receiptAsked
  split
  · exact (boxReturned_frame i s).then (admitController_frame _ _ _)
  · exact (boxReturned_frame i s).mono (by decide) fun _ => id

theorem receiptAsked_msgs (i : Slot) (d : Byte) (s : State) :
    (receiptAsked i d s).msgs = (boxReturned i s).msgs := by
  unfold receiptAsked
  split
  · exact (admitController_frame _ _ _).msgs (by decide)
  · rfl

/-- R73, R74, R168: the queue and the mail with the receipt asked for. -/
theorem receiptAsked_running {s : State} (hs : s.running = true) (hq : s.queueSound) (i : Slot) (d : Byte) :
    receiptAsked i d s = { boxReturned i s with
      queue := if d = 1 ∧ (pick s.msgs.boxes i).directed = true ∧ (pick s.msgs.boxes i).receipt = true then
          withController .msgReceipt (laid 1 3 [(1, 2, (pick s.msgs.boxes i).number)]) s.cycle.fleet s.queue
        else s.queue
      mail := if d = 1 ∧ (pick s.msgs.boxes i).directed = true ∧ (pick s.msgs.boxes i).receipt = true then
          { s.mail with sendNotices := s.mail.sendNotices ++ displacedNotice s.queue }
        else s.mail } := by
  simp only [← owesReceipt_iff, laid_word]
  unfold receiptAsked
  cases owesReceipt (pick s.msgs.boxes i) d with
  | true => exact admitController_exact (s := boxReturned i s) hq (by decide) _ hs
  | false => rfl

/-- R121: in CONFIG no receipt is asked for. -/
theorem receiptAsked_config {s : State} (hs : s.running = false) (i : Slot) (d : Byte) :
    receiptAsked i d s = boxReturned i s := by
  unfold receiptAsked
  split
  · unfold admitController
    exact if_pos (by rw [show (boxReturned i s).running = false from hs]; rfl)
  · rfl

theorem queueSound_receiptAsked {s : State} (h : s.queueSound) (i : Slot) (d : Byte) :
    (receiptAsked i d s).queueSound := by
  unfold receiptAsked
  split
  · exact queueSound_admitController (kind := .msgReceipt) (queueSound_of_queue (t := boxReturned i s) h rfl)
      (by decide) rfl _
  · exact queueSound_of_queue h rfl

/-- R168, step 3: RNR cleared, before its status trigger. -/
def rnrCleared (s : State) : State := { s with msgs := { s.msgs with rnr := false } }

theorem clearRnr_msgs (s : State) : (clearRnr s).msgs = { s.msgs with rnr := false } := by
  unfold clearRnr
  cases h : s.msgs.rnr with
  | true => exact (statusTrigger_frame (rnrCleared s)).msgs (by decide)
  | false => exact congrArg (fun b => { s.msgs with rnr := b }) h

theorem clearRnr_set {s : State} (h : s.msgs.rnr = true) : clearRnr s = statusTrigger (rnrCleared s) := if_pos h

theorem clearRnr_clear {s : State} (h : s.msgs.rnr = false) : clearRnr s = s :=
  if_neg (h ▸ Bool.false_ne_true)

/-- R121: in CONFIG the clearing of RNR gives no status trigger. -/
theorem clearRnr_config {s : State} (h : s.running = false) : (clearRnr s).queue = s.queue ∧
    (clearRnr s).port.posCopy = s.port.posCopy := by
  cases hr : s.msgs.rnr with
  | true =>
    rw [clearRnr_set hr, statusTrigger_config (s := rnrCleared s) h]
    exact ⟨rfl, rfl⟩
  | false =>
    rw [clearRnr_clear hr]
    exact ⟨rfl, rfl⟩

/-- R168, step 4. -/
theorem stopReminder_eq (s : State) : stopReminder s = { s with msgs := { s.msgs with
    reminder := if anyBoxAtApp s.ram then s.msgs.reminder
      else { running := false, left := s.working.reminder } } } := by
  unfold stopReminder
  split <;> rfl

/-- R168: the Message Manager after a return. -/
theorem takeReturn_msgs (i : Slot) (d : Byte) (s : State) : (takeReturn i d s).msgs = { s.msgs with
    boxes := put s.msgs.boxes i { pick s.msgs.boxes i with held := false }
    rnr := false
    reminder := if anyBoxAtApp s.ram then s.msgs.reminder
      else { running := false, left := s.working.reminder } } := by
  have f := (receiptAsked_frame i d s).then (clearRnr_frame _)
  rw [takeReturn_eq, stopReminder_eq]
  dsimp only
  rw [f.working (by decide), f.keeps .ram (by decide), clearRnr_msgs, receiptAsked_msgs]
  rfl

/-- R5: the hands of the Message Boxes read the same after what stores to none of them. -/
theorem anyBoxAtApp_publish {s u : State} {a : List Part} (f : Frame a nothing s u) :
    anyBoxAtApp (publish u).ram = anyBoxAtApp s.ram := by
  unfold anyBoxAtApp heldByApp
  simp only [fun i : Slot => f.publish.hand (box_hand_free i).1 id]

/-- R76, R168: where RNR was set, the status trigger is placed behind the receipt. -/
theorem statusPlaced_takeReturn {s : State} {i : Slot} {d : Byte} (hs : s.running = true) (hq : s.queueSound)
    (hr : s.msgs.rnr = true) :
    statusPlaced (receiptAsked i d s).queue s (publish (takeReturn i d s)) := by
  have hpos : (receiptAsked i d s).port = s.port := by rw [receiptAsked_running hs hq]; rfl
  have f := receiptAsked_frame i d s
  have hu : positionTaken (rnrCleared (receiptAsked i d s)) = positionTaken s :=
    positionTaken_congr (congrArg _ hpos) (congrArg _ hpos) fun x h h' =>
      f.ram x (position_not_controller h h') id
  have hm : (receiptAsked i d s).msgs.rnr = true := by rw [receiptAsked_msgs]; exact hr
  rw [takeReturn_eq, clearRnr_set hm]
  have g := (stopReminder_frame (statusTrigger (rnrCleared (receiptAsked i d s)))).publish
  refine statusPlaced_of_eq (u := rnrCleared (receiptAsked i d s)) ((f.running (by decide)).trans hs)
    (queueSound_receiptAsked hq i d).2 hu (congrArg _ (f.cycle (by decide))) (g.queue (by decide))
    (g.posCopy (by decide)) (statusBytes_congr (g.fare (by decide)) (g.offers (by decide)) ?_ (g.time (by decide))
      (g.posCopy (by decide)))
  rw [publish_msgs, stopReminder_eq]

/-! ### A report that is DONE (R157) -/

/-- R157: the Record Store after the DONE of a report. -/
def RecordStore.doneFlagged (n : Nat) (st : RecordStore) : RecordStore :=
  match st.withSeq n with
  | some i => st.flag i (fun h => { h with reported := true })
  | none => st

theorem doneFlagged_some {n : Nat} {st : RecordStore} {i : Slot} (h : st.withSeq n = some i) :
    st.doneFlagged n = st.flag i (fun h => { h with reported := true }) := by
  unfold RecordStore.doneFlagged
  rw [h]

theorem doneFlagged_none {n : Nat} {st : RecordStore} (h : st.withSeq n = none) : st.doneFlagged n = st := by
  unfold RecordStore.doneFlagged
  rw [h]

/-- R157: the DONE taken, before the next offer. -/
def doneTaken (n : Nat) (rest : List Nat) (s : State) : State :=
  { s with mail := { s.mail with reportsDone := rest }, store := s.store.doneFlagged n, note := none }

theorem reportDoneTaken_eq {n : Nat} {rest : List Nat} {s : State} (h : s.mail.reportsDone = n :: rest) :
    reportDoneTaken s = reportFeed (doneTaken n rest s) := by
  unfold reportDoneTaken
  rw [h]
  rfl

end Sys2Proof.Machine

namespace Sys2Proof.Proofs

open Sys2Proof.Machine

/-- Settles O14. -/
theorem messageBoxReturn : Obligations.MessageBoxReturn := by
  intro i v s hp hw hq
  obtain ⟨h0, h1⟩ := box_hand_free i
  refine ⟨publish (boxHand i v s), event_next hp rfl, ?_⟩
  unfold boxHand
  by_cases h : lowByte v = handCtl ∧ heldByApp s.ram (boxBase i) = true
  · rw [if_pos h, handWrite_accepted h]
    let x := storeWord (boxBase i) v s
    have fx := storeWord_inside (offBoards_boxBase i) v s
    have f := takeReturn_frame i (highByte v) x
    have hpos : positionTaken x = positionTaken s := fx.positionTaken (by decide) (by decide) fun y hy hy' hb => by
      unfold bytesAt boxBase at hb
      omega
    have fr := receiptAsked_frame i (highByte v) x
    have g : Frame [.msgs] nothing (clearRnr (receiptAsked i (highByte v) x)) (takeReturn i (highByte v) x) :=
      stopReminder_frame _
    refine ⟨readWord_stored hw f h0 h1, gains_publish_zero (f.attention (by decide)), ?_, ?_,
      (fx.then f).publish.mono (by decide) fun _ => id⟩
    · rw [publish_msgs, takeReturn_msgs, anyBoxAtApp_publish f]
      rfl
    · dsimp only
      cases hs : s.running with
      | true =>
        have e := receiptAsked_running (s := x) hs hq i (highByte v)
        rw [if_pos rfl]
        refine ⟨?_, ?_⟩
        · rw [publish_mail, g.mail (by decide), (clearRnr_frame _).mail (by decide), e]
          rfl
        · cases hr : s.msgs.rnr with
          | true =>
            have hst := statusPlaced_takeReturn (s := x) (i := i) (d := highByte v) hs hq hr
            rw [e] at hst
            unfold statusPlaced at hst ⊢
            rw [hpos] at hst
            exact hst
          | false =>
            have hm : (receiptAsked i (highByte v) x).msgs.rnr = false := by rw [receiptAsked_msgs]; exact hr
            rw [if_neg Bool.false_ne_true, publish_queue, publish_posCopy, g.queue (by decide), g.posCopy (by decide),
              clearRnr_clear hm, e]
            exact ⟨rfl, rfl⟩
      | false =>
        rw [if_neg Bool.false_ne_true]
        have e := receiptAsked_config (s := x) hs i (highByte v)
        obtain ⟨k1, k2⟩ := clearRnr_config ((fr.running (by decide)).trans hs)
        refine ⟨⟨?_, ?_⟩, ?_⟩
        · rw [publish_queue, g.queue (by decide), k1, e]
          rfl
        · rw [publish_posCopy, g.posCopy (by decide), k2, e]
          rfl
        · rw [publish_mail, g.mail (by decide), (clearRnr_frame _).mail (by decide), e]
          rfl
  · rw [if_neg h, handWrite_refused h]
    exact faulted_exchangeFault _ hw

/-- Settles O15. -/
theorem recordCollectionAndReport : Obligations.RecordCollectionAndReport := by
  refine ⟨fun i v s hp hw => ?_, fun n rest s hp hq hd => ?_⟩
  · obtain ⟨h0, h1⟩ := record_hand_free i
    refine ⟨publish (recordHand i v s), event_next hp rfl, ?_⟩
    unfold recordHand
    by_cases h : lowByte v = handCtl ∧ heldByApp s.ram (recordBase i) = true
    · rw [if_pos h, handWrite_accepted h]
      have f := collectRecord_frame i (storeWord (recordBase i) v s)
      refine ⟨readWord_stored hw f h0 h1, gains_publish_zero rfl, ?_,
        ((storeWord_inside (offBoards_recordBase i) v s).then f).publish.mono (by decide)
          fun _ => id⟩
      rw [publish_store]
      change s.store.flag i _ = _
      cases e : pick s.store.places i with
      | none => exact flag_of_none e _
      | some r => exact flag_collected e
    · rw [if_neg h, handWrite_refused h]
      exact faulted_exchangeFault _ hw
  · have hd' : (!s.mail.reportsDone.isEmpty) = true := by rw [hd]; rfl
    have e := reportFeed_exact (s := doneTaken n rest s) hq.2
    refine ⟨publish (reportDoneTaken s), event_next hp hd', ?_, ?_, ?_, ?_, ?_, ?_,
      (reportDoneTaken_frame s).publish.mono (by decide) fun _ => id⟩
    · rw [publish_mail, reportDoneTaken_eq hd, e]
      rfl
    · exact gains_publish_zero ((reportDoneTaken_frame s).attention (by decide))
    · intro i r hi hr
      rw [publish_store, reportDoneTaken_eq hd, e]
      exact (doneFlagged_some hi).trans (flag_reported hr)
    · intro hn
      rw [publish_store, reportDoneTaken_eq hd, e]
      exact doneFlagged_none hn
    · rw [publish_queue, publish_note, publish_store, reportDoneTaken_eq hd, e]
      rfl
    · rw [publish_posCopy, reportDoneTaken_eq hd, e]
      rfl

end Sys2Proof.Proofs
end

section
/-! The requests about offers, messages, the emergency, the settings and the link log. -/

namespace Sys2Proof.Machine

/-- R12: a request answered after an effect that stores nothing and gives no news. -/
theorem request_after {code : Nat} {i : Slot} {rest : List Slot} {s u : State} {a : List Part}
    (hr : Ready code i rest s) (f : Frame a nothing (s.taken rest) u)
    (ha : ∀ r ∈ [Part.order, .cycle, .attention], r ∉ a) (o : ReqOutcome) (d : Nat) :
    answered i rest o d 0 s (publish (completeRequest i o d u)) ∧
    Frame (withEnds (.order :: a)) (outcomeBytes i) s (publish (completeRequest i o d u)) := by
  obtain ⟨h1, h2⟩ := request_ends hr f (fun _ _ _ => id) (f.order (ha _ (by decide)))
    (congrArg _ (f.cycle (ha _ (by decide)))) ((f.attention (ha _ (by decide))).trans BitVec.or_zero.symm) o d
  exact ⟨h1, h2.mono (fun _ => id) fun x hx => hx.elim id False.elim⟩

/-! ### ACCEPT_OFFER (R110) -/

theorem hostMayAdmit_running {s : State} (hs : s.running = true) :
    hostMayAdmit s = decide (s.queue.entries.length < 8) := by
  unfold hostMayAdmit
  rw [hs, Bool.true_and]

theorem acceptOffer_unknown {i : Slot} {s : State} (h : findOpen (param2 s.ram i) s.offers = none) :
    acceptOffer i s = completeRequest i .unknownOffer 0 s := by
  unfold acceptOffer
  rw [h]

/-- R110: the checks in their order; the four of the state share an outcome. -/
theorem acceptOffer_open {i : Slot} {j : Place} {s : State} (hs : s.running = true)
    (h : findOpen (param2 s.ram i) s.offers = some j) : acceptOffer i s =
      if (pick s.offers.places j).state ≠ .presented ∨ s.fare.meter ≠ .vacant ∨ s.emergency.kept.state ≠ .idle ∨
          s.offers.anyTaken = true then completeRequest i .refusedState j.val s
      else if s.link.state = .withdrawn ∨ s.link.state = .search then completeRequest i .noLink j.val s
      else if 8 ≤ s.queue.entries.length then completeRequest i .queueFull j.val s
      else keepAcceptance i j s := by
  unfold acceptOffer acceptRefusal
  rw [h, hostMayAdmit_running hs]
  by_cases h1 : (pick s.offers.places j).state ≠ .presented
  · simp only [if_pos h1, if_pos (Or.inl h1)]
  by_cases h2 : s.fare.meter ≠ .vacant
  · simp only [if_neg h1, if_pos h2, if_pos (Or.inr (Or.inl h2))]
  by_cases h3 : s.emergency.kept.state ≠ .idle
  · simp only [if_neg h1, if_neg h2, if_pos h3, if_pos (Or.inr (Or.inr (Or.inl h3)))]
  by_cases h4 : s.offers.anyTaken = true
  · simp only [if_neg h1, if_neg h2, if_neg h3, if_pos h4, if_pos (Or.inr (Or.inr (Or.inr h4)))]
  have h5 : ¬ ((pick s.offers.places j).state ≠ .presented ∨ s.fare.meter ≠ .vacant ∨
      s.emergency.kept.state ≠ .idle ∨ s.offers.anyTaken = true) := by tauto
  simp only [if_neg h1, if_neg h2, if_neg h3, if_neg h4, if_neg h5]
  by_cases h6 : s.link.state = .withdrawn ∨ s.link.state = .search
  · simp only [if_pos h6]
  · simp only [if_neg h6]
    by_cases h7 : 8 ≤ s.queue.entries.length
    · simp [h7]
    · simp [h7]

/-- R73, R110: an acceptance kept. -/
theorem keepAcceptance_exact {s : State} (h : s.queue.resolvable = false) (i : Slot) (j : Place) :
    keepAcceptance i j s = { s with
      queue := joined .jobAccept (laid 1 3 [(1, 2, (pick s.offers.places j).number)]) (some i) s.cycle.fleet s.queue
      offers := { s.offers with
        places := put s.offers.places j { pick s.offers.places j with state := .accepting, wait := s.working.awardWait }
        heldAccept := some i
        expiries := 0 } } := by
  unfold keepAcceptance
  dsimp only
  rw [admitHost_exact h (by decide), laid_word]
  rfl

/-- R13: a request that its owner keeps stays at CTL. -/
theorem keptRequest_of_frame {code : Nat} {i : Slot} {rest : List Slot} {s u : State} {a : List Part}
    (hr : Ready code i rest s) (f : Frame a nothing (s.taken rest) u) (ha : ∀ r ∈ [Part.order, .attention], r ∉ a) :
    keptRequest i rest s (publish u) := by
  refine ⟨?_, ?_, gains_publish_zero (f.attention (ha _ (by decide)))⟩
  · rw [publish_order]
    exact f.order (ha _ (by decide))
  · unfold heldByCtl
    rw [f.publish.hand (request_hand_free i).1 id]
    exact hr.hand

/-! ### DECLINE_OFFER (R116) -/

theorem findOpen_open {n : Nat} {o : OfferManager} {j : Place} (h : findOpen n o = some j) :
    (pick o.places j).state.isOpen = true :=
  (Bool.and_eq_true _ _ ▸ List.find?_some h).1

theorem declineOffer_unknown {i : Slot} {s : State} (h : findOpen (param2 s.ram i) s.offers = none) :
    declineOffer i s = completeRequest i .unknownOffer 0 s := by
  unfold declineOffer
  rw [h]

theorem declineOffer_accepting {i : Slot} {j : Place} {s : State} (h : findOpen (param2 s.ram i) s.offers = some j)
    (ha : (pick s.offers.places j).state = .accepting) :
    declineOffer i s = completeRequest i .refusedState j.val s := by
  unfold declineOffer
  rw [h]
  exact if_pos ha

/-- R116: an open entry that is not ACCEPTING sends a JOB_DECLINE where it is AWARDED, or PRESENTED and directed. -/
theorem declineReason_eq {p : OfferPlace} (ho : p.state.isOpen = true) (ha : p.state ≠ .accepting) :
    declineReason p = if p.state = .awarded ∨ p.origin = 1 then some (if p.state = .awarded then 5 else 1)
      else none := by
  unfold declineReason
  cases h : p.state with
  | presented =>
    by_cases hd : p.origin = 1
    · simp [originDirected, reasonDriver, hd]
    · simp [originDirected, hd]
  | awarded => simp [reasonReturned]
  | accepting => exact absurd h ha
  | _ => rw [h] at ho; exact absurd ho Bool.false_ne_true

/-- R116: the entry closed by a decline. -/
def declined (j : Place) (s : State) : State :=
  { s with offers := { s.offers with
      places := put s.offers.places j
        (closedAs j (if (pick s.offers.places j).state = .awarded then .cancelled else .declined) s)
      expiries := 0 } }

theorem finishDecline_eq (i : Slot) (j : Place) (s : State) :
    finishDecline i j s = completeRequest i .done j.val (declined j s) := by
  unfold finishDecline declineState
  dsimp only
  rw [closePlace_eq j (by split <;> decide)]
  rfl

theorem declined_frame (j : Place) (s : State) : Frame [.offers] nothing s (declined j s) := offers_frame _ s

/-- R116: a decline of an open entry that is not ACCEPTING. -/
theorem declineOffer_open {i : Slot} {j : Place} {s : State} (hs : s.running = true)
    (h : findOpen (param2 s.ram i) s.offers = some j) (ha : ¬ (pick s.offers.places j).state = .accepting) :
    declineOffer i s =
      if (pick s.offers.places j).state = .awarded ∨ (pick s.offers.places j).origin = 1 then
        if 8 ≤ s.queue.entries.length then completeRequest i .queueFull j.val s
        else completeRequest i .done j.val (declined j (admitHost .jobDecline
          (laid 1 4 [(1, 2, (pick s.offers.places j).number),
            (3, 1, if (pick s.offers.places j).state = .awarded then 5 else 1)]) none s))
      else completeRequest i .done j.val (declined j s) := by
  unfold declineOffer
  rw [h]
  dsimp only
  rw [if_neg ha, declineReason_eq (findOpen_open h) ha, hostMayAdmit_running hs]
  by_cases hd : (pick s.offers.places j).state = .awarded ∨ (pick s.offers.places j).origin = 1
  · rw [if_pos hd, if_pos hd]
    dsimp only
    rw [finishDecline_eq, laid_word_byte]
    by_cases hl : 8 ≤ s.queue.entries.length
    · rw [if_pos hl, if_neg (by simpa using hl)]
    · rw [if_neg hl, if_pos (by simpa using hl)]
      rfl
  · rw [if_neg hd, if_neg hd]
    exact finishDecline_eq i j s

end Sys2Proof.Machine

namespace Sys2Proof.Proofs

open Sys2Proof.Machine

/-- Settles O30. -/
theorem acceptOffer : Obligations.AcceptOffer := by
  intro i rest s hr hs hq
  refine ⟨_, request_judged hr hs, ?_⟩
  dsimp only
  cases h : findOpen (param2 s.ram i) s.offers with
  | none =>
    rw [acceptOffer_unknown (s := s.taken rest) h]
    exact request_plain hr _ _
  | some j =>
    dsimp only
    have c := acceptOffer_open (s := s.taken rest) hs h
    by_cases h1 : (pick s.offers.places j).state ≠ .presented ∨ s.fare.meter ≠ .vacant ∨
        s.emergency.kept.state ≠ .idle ∨ s.offers.anyTaken = true
    · rw [if_pos h1, c.trans (if_pos h1)]
      exact request_plain hr _ _
    rw [if_neg h1]
    replace c := c.trans (if_neg h1)
    by_cases h2 : s.link.state = .withdrawn ∨ s.link.state = .search
    · rw [if_pos h2, c.trans (if_pos h2)]
      exact request_plain hr _ _
    rw [if_neg h2]
    replace c := c.trans (if_neg h2)
    by_cases h3 : 8 ≤ s.queue.entries.length
    · rw [if_pos h3, c.trans (if_pos h3)]
      exact request_plain hr _ _
    rw [if_neg h3, c.trans (if_neg h3)]
    have e := keepAcceptance_exact (resolvable_taken hq rest) i j
    have f := keepAcceptance_frame i j (s.taken rest)
    refine ⟨keptRequest_of_frame hr f (by decide), ⟨?_, ?_⟩, ?_, publishWith_boardsShown (f.wf hr.wf) false,
      ((taken_frame s rest).then f).publish.mono (by decide) fun _ => id⟩
    · rw [publish_queue, e]
      rfl
    · rw [publish_posCopy, e]
      rfl
    · rw [publish_offers, e]
      rfl

/-- Settles O31. -/
theorem declineOffer : Obligations.DeclineOffer := by
  intro i rest s hr hs hq
  refine ⟨_, request_judged hr hs, ?_⟩
  dsimp only
  cases h : findOpen (param2 s.ram i) s.offers with
  | none =>
    rw [declineOffer_unknown (s := s.taken rest) h]
    exact request_plain hr _ _
  | some j =>
    dsimp only
    by_cases ha : (pick s.offers.places j).state = .accepting
    · rw [if_pos ha, declineOffer_accepting (s := s.taken rest) h ha]
      exact request_plain hr _ _
    rw [if_neg ha, declineOffer_open (s := s.taken rest) hs h ha]
    by_cases hd : (pick s.offers.places j).state = .awarded ∨ (pick s.offers.places j).origin = 1
    · rw [show (s.taken rest).offers = s.offers from rfl, if_pos hd]
      by_cases hl : 8 ≤ s.queue.entries.length
      · rw [if_pos ⟨hd, hl⟩, show (s.taken rest).queue = s.queue from rfl, if_pos hl]
        exact request_plain hr _ _
      rw [if_neg fun h => hl h.2, show (s.taken rest).queue = s.queue from rfl, if_neg hl,
        admitHost_exact (resolvable_taken hq rest) (by decide)]
      obtain ⟨h1, h2⟩ := request_after hr ((queue_frame _ (s.taken rest)).then (declined_frame j _)) (by decide)
        .done j.val
      refine ⟨h1, ?_, fun _ => ⟨?_, ?_⟩, fun h => absurd hd h, h2.mono (by decide) fun _ => id⟩
      · rw [publish_offers, completeRequest_offers]
        rfl
      · rw [publish_queue, completeRequest_queue]
        rfl
      · rw [(answer_frame i _ _ _).posCopy (by decide)]
        rfl
    · rw [if_neg fun h => hd h.1, show (s.taken rest).offers = s.offers from rfl, if_neg hd]
      obtain ⟨h1, h2⟩ := request_after hr (declined_frame j (s.taken rest)) (by decide) .done j.val
      refine ⟨h1, ?_, fun h => absurd h hd, fun _ => ⟨?_, ?_⟩, h2.mono (by decide) fun _ => id⟩
      · rw [publish_offers, completeRequest_offers]
        rfl
      · rw [publish_queue, completeRequest_queue]
        rfl
      · rw [(answer_frame i _ _ _).posCopy (by decide)]
        rfl

end Sys2Proof.Proofs
end

section
/-! The requests about messages, the emergency, the settings and the link log. -/

namespace Sys2Proof.Machine

/-! ### Blocks rewritten by a request (R8, R93, R178) -/

/-- R12: the bytes of an outcome lie in the request slots. -/
theorem get_completeRequest_below (i : Slot) (o : ReqOutcome) (d : Nat) (s : State) {a : Nat} (h : a < 0x0400) :
    Memory.get (completeRequest i o d s).ram a = Memory.get s.ram a := by
  unfold completeRequest
  split
  · refine get_writeOutcome_other _ _ _ _ _ _ fun hx => ?_
    have := outcomeBytes_inside hx
    unfold requestBase at this
    omega
  · rfl

/-- R8: a block that a request rewrites counts once. -/
theorem countUp_answered {s u : State} {c : Nat} {fs : List Byte} (hw : Memory.wf s.ram = true)
    (hu : u.ram = rewriteBlock c fs s.ram) (hl : c + 2 + fs.length ≤ 0x0400)
    (h : (c = linkBase ∧ fs = u.linkFields) ∨ (c = emergencyBase ∧ fs = u.emergencyFields)) (i : Slot)
    (o : ReqOutcome) (d : Nat) : countUp c s (publish (completeRequest i o d u)) := by
  refine countUp_publish hw hu (fun a _ ha => get_completeRequest_below i o d u (by omega)) ?_
  obtain ⟨hc, hf⟩ | ⟨hc, hf⟩ := h
  · refine .inr (.inl ⟨hc, ?_⟩)
    rw [hf, State.linkFields, State.linkFields, completeRequest_link, completeRequest_cycle, completeRequest_queue]
  · refine .inr (.inr (.inr ⟨hc, ?_⟩))
    rw [hf, State.emergencyFields, State.emergencyFields, completeRequest_emergency]

/-! ### SEND_MESSAGE (R42, R171) -/

theorem messageInRange_iff (code len : Nat) : messageInRange code len = true ↔
    (1 ≤ code ∧ code ≤ 63 ∧ len = 0) ∨ (code = 0 ∧ 1 ≤ len ∧ len ≤ 48) := by
  simp [messageInRange, within, and_assoc]

theorem sendMessage_checks {i : Slot} {s : State} {tail : List Byte} (hs : s.running = true)
    (ht : messageTail (param1 s.ram i) (paramTextLength s.ram i) (paramText s.ram i (paramTextLength s.ram i)) = tail) :
    sendMessage i s =
      if ¬ messageInRange (param1 s.ram i) (paramTextLength s.ram i) = true then completeRequest i .refusedRange 0 s
      else if 8 ≤ s.queue.entries.length then completeRequest i .queueFull 0 s
      else keepSend i tail s := by
  unfold sendMessage
  rw [hostMayAdmit_running hs]
  by_cases h1 : messageInRange (param1 s.ram i) (paramTextLength s.ram i) = true
  · by_cases h2 : 8 ≤ s.queue.entries.length
    · simp [h1, h2]
    · simp [h1, h2, ht]
  · simp [h1]

/-- R73, R171: a message kept. -/
theorem keepSend_exact {s : State} (h : s.queue.resolvable = false) (i : Slot) (tail : List Byte) :
    keepSend i tail s = { s with
      queue := joined .driverMessage tail (some i) s.cycle.fleet s.queue
      msgs := { s.msgs with sends := s.msgs.sends ++ [{ slot := i, seq := s.queue.nextSeq }] } } := by
  unfold keepSend
  rw [admitHost_exact h (by decide)]

/-- R42, R171, R199: the payload of a DRIVER_MESSAGE after its sequence byte. -/
theorem messageTail_spelled (code len : Nat) (text : List Byte) : messageTail code len text =
    laid 1 3 [(1, 1, code), (2, 1, len)] ++ text.map fun c =>
      if 0x20 ≤ c.toNat ∧ c.toNat ≤ 0x7E then c else 0x3F := by
  rw [laid_two_bytes]
  rfl

/-! ### RAISE_EMERGENCY (R178) -/

/-- R178: a trigger in IDLE. -/
theorem trigger_idle {src : TriggerSource} {s : State} (h : s.emergency.kept.state = .idle) : trigger src s =
    handChange true (setNews .emergency
      (rewriteEmergency { s with emergency := s.emergency.started src s.cycle.fleet })) := if_pos h

/-- R178: a trigger while an emergency is in force. -/
theorem trigger_inForce {src : TriggerSource} {s : State} (h : ¬ s.emergency.kept.state = .idle) : trigger src s =
    rewriteEmergency { s with emergency := { s.emergency with repeats := bump 255 s.emergency.repeats } } := if_neg h

/-- R8, R178: a trigger rewrites the Emergency Block. -/
theorem trigger_ram (src : TriggerSource) (s : State) :
    (trigger src s).ram = rewriteBlock emergencyBase (trigger src s).emergencyFields s.ram := by
  unfold trigger
  split <;> rfl

/-- R8, R178: a trigger raises the change count of the Emergency Block once. -/
theorem countUp_trigger {s : State} (h : Memory.wf s.ram = true) (src : TriggerSource) (i : Slot) (o : ReqOutcome)
    (d : Nat) : countUp emergencyBase s (publish (completeRequest i o d (trigger src s))) :=
  countUp_answered h (trigger_ram src s) (by rw [emergencyFields_length]; decide) (.inr ⟨rfl, rfl⟩) i o d

/-! ### CLEAR_LINK_LOG (R93) -/

/-- R93: the link log cleared, before the rewrite of its block. -/
def linkLogCleared (s : State) : State := { s with link := { s.link with log := 0, overflowed := false } }

theorem clearLinkLog_eq (i : Slot) (s : State) :
    clearLinkLog i s = completeRequest i .done 0 (rewriteLink (linkLogCleared s)) := rfl

theorem linkLogCleared_frame (s : State) : Frame [.link] nothing s (linkLogCleared s) := link_frame _ s

/-! ### REPLACE_SETTINGS (R26, R27, R158) -/

theorem replaceSettings_refused {i : Slot} {s : State} {d : Nat} (h : replaceRefusal s = some d) :
    replaceSettings i s = completeRequest i .refusedState d s := by
  unfold replaceSettings
  rw [h]

theorem replaceSettings_fails {i : Slot} {s : State} {off : Nat} (h : replaceRefusal s = none)
    (hf : firstFailing s.ram = some off) : replaceSettings i s = completeRequest i .refusedRange off s := by
  unfold replaceSettings
  rw [h, hf]

theorem replaceSettings_passes {i : Slot} {s : State} (h : replaceRefusal s = none) (hf : firstFailing s.ram = none) :
    replaceSettings i s = completeRequest i .done 0 (changeSettings (readSettings s.ram) s) := by
  unfold replaceSettings
  rw [h, hf]

/-- R27: the reminder under a replaced interval. -/
theorem reminderReplaced_eq (old new : Nat) (anyApp : Bool) (t : Timer) : reminderReplaced old new anyApp t =
    if new = old then t
    else if new = 0 then { running := false, left := 0 }
    else if old = 0 then { running := anyApp, left := new }
    else t := by
  unfold reminderReplaced
  by_cases h : new = 0
  · simp only [h, if_true]
  · have hn : (new != 0) = true := bne_iff_ne.2 h
    cases anyApp with
    | true => simp only [Timer.start, hn, h, if_true, if_false]
    | false => simp only [Bool.false_eq_true, h, if_false]

/-- R27: a new working copy in force at every block, the meter VACANT. -/
theorem adoptSettings_eq {s : State} (hs : s.running = true) (h : s.fare.meter = .vacant) (w : Settings) :
    adoptSettings w s = { s with
    settings := { s.settings with working := some w }
    fare := { s.fare with chosen := if tariffEnabled w s.fare.chosen then s.fare.chosen else 1 }
    limiter := { s.limiter with remainder := if w.k = s.working.k then s.limiter.remainder else 0 }
    msgs := { s.msgs with
      reminder :=
        if w.reminder = s.working.reminder then s.msgs.reminder
        else if w.reminder = 0 then { running := false, left := 0 }
        else if s.working.reminder = 0 then { running := anyBoxAtApp s.ram, left := w.reminder }
        else s.msgs.reminder }
    queue := { s.queue with timer := { running := w.status != 0, left := w.status } }
    store := { s.store with reports := w.reports }.releaseDue
    lampTaken := (w.lampSignal && s.emergency.kept.state != .idle) } := by
  unfold adoptSettings judgeLamp State.lampWanted
  dsimp only
  rw [forgetRemainder_eq, kInForce_vacant h, ← working_k, ← reminderReplaced_eq, kInForce_vacant (by exact h)]
  rw [show ∀ t : State, t.settings.part = s.settings.part → t.running = true from fun t e => by
    unfold State.running at hs ⊢; rw [e]; exact hs]
  · rfl
  · rfl

/-- R27, R157, R158: the queue and the note after the replacement, the feed offering where reports have come to be
required. -/
def reportsReplaced (w : Settings) (s : State) : TransmitQueue × Option Nat :=
  let q := { s.queue with timer := { running := w.status != 0, left := w.status } }
  if w.reports = true ∧ s.store.reports = false then
    fed true { s.store with reports := w.reports }.releaseDue s.note s.cycle.fleet q
  else (q, s.note)

/-- R27, R158: a replacement with the meter VACANT. -/
theorem changeSettings_exact {s : State} (hq : s.queue.resolvable = false) (hs : s.running = true)
    (hm : s.fare.meter = .vacant) (w : Settings) : changeSettings w s =
      { adoptSettings w s with queue := (reportsReplaced w s).1, note := (reportsReplaced w s).2 } := by
  have e := adoptSettings_eq hs hm w
  have hr : (adoptSettings w s).queue.resolvable = false := by rw [e]; exact hq
  have run : (adoptSettings w s).running = true := by rw [e]; exact hs
  unfold changeSettings reportsReplaced
  dsimp only
  by_cases hc : w.reports = true ∧ s.store.reports = false
  · rw [if_pos (by rw [hc.1, hc.2]; rfl), if_pos hc, reportFeed_exact hr, run, e]
  · rw [if_neg (by simpa using hc), if_neg hc, e]

/-- R27: a replacement touches no position copy. -/
theorem changeSettings_posCopy {s : State} (hq : s.queue.resolvable = false) (hs : s.running = true)
    (hm : s.fare.meter = .vacant) (w : Settings) : (changeSettings w s).port.posCopy = s.port.posCopy := by
  rw [changeSettings_exact hq hs hm, adoptSettings_eq hs hm]

end Sys2Proof.Machine

namespace Sys2Proof.Proofs

open Sys2Proof.Machine

/-- Settles O33. -/
theorem sendMessage : Obligations.SendMessage := by
  intro i rest s hr hs hq
  refine ⟨_, request_judged hr hs, ?_⟩
  dsimp only
  generalize ht : messageTail (param1 s.ram i) (paramTextLength s.ram i)
    (paramText s.ram i (paramTextLength s.ram i)) = tail
  have c := sendMessage_checks (s := s.taken rest) hs ht
  by_cases h1 : ¬ ((1 ≤ param1 s.ram i ∧ param1 s.ram i ≤ 63 ∧ paramTextLength s.ram i = 0) ∨
      (param1 s.ram i = 0 ∧ 1 ≤ paramTextLength s.ram i ∧ paramTextLength s.ram i ≤ 48))
  · rw [if_pos h1, c.trans (if_pos fun h => h1 ((messageInRange_iff _ _).1 h))]
    exact request_plain hr _ _
  rw [if_neg h1]
  replace c := c.trans (if_neg fun h => h ((messageInRange_iff _ _).2 (not_not.1 h1)))
  by_cases h2 : 8 ≤ s.queue.entries.length
  · rw [if_pos h2, c.trans (if_pos h2)]
    exact request_plain hr _ _
  rw [if_neg h2, c.trans (if_neg h2), ← messageTail_spelled, ht]
  have e := keepSend_exact (resolvable_taken hq rest) i tail
  have f := keepSend_frame i tail (s.taken rest)
  refine ⟨keptRequest_of_frame hr f (by decide), ⟨?_, ?_⟩, ?_,
    ((taken_frame s rest).then f).publish.mono (by decide) fun _ => id⟩
  · rw [publish_queue, e]
    rfl
  · rw [publish_posCopy, e]
    rfl
  · rw [publish_msgs, e]
    rfl

/-- Settles O34. -/
theorem raiseEmergency : Obligations.RaiseEmergency := by
  intro i rest s hr hs
  refine ⟨_, request_judged hr hs, ?_⟩
  have f := trigger_frame .host (s.taken rest)
  have hb := fun d => publishWith_blocksShown ((f.trans (completeRequest_frame i .done d _)).wf hr.wf) false
  unfold Machine.raiseEmergency
  by_cases h : s.emergency.kept.state = .idle
  · have e := trigger_idle (src := .host) (s := s.taken rest) h
    rw [if_pos h, if_pos (show (s.taken rest).emergency.kept.state = .idle from h)]
    obtain ⟨h1, h2⟩ := request_ends (news := News.emergency.mask) hr f (fun _ _ _ => id) (f.order (by decide))
      (congrArg _ (f.cycle (by decide))) (by rw [e]; rfl) .done 0
    refine ⟨h1, ⟨?_, ?_, countUp_trigger (s := s.taken rest) hr.wf _ _ _ _⟩, ?_, hb 0,
      h2.mono (by decide) fun x hx => hx.elim id False.elim⟩
    · rw [publish_emergency, completeRequest_emergency, e]
      rfl
    · rw [publish_mail, completeRequest_mail, e]
      rfl
    · rw [publish_emergency, completeRequest_emergency, e]
      rfl
  · have e := trigger_inForce (src := .host) (s := s.taken rest) h
    rw [if_neg h, if_neg (show ¬ (s.taken rest).emergency.kept.state = .idle from h)]
    have g := emergencyChange_frame { s.emergency with repeats := bump 255 s.emergency.repeats } (s.taken rest)
    obtain ⟨h1, h2⟩ := request_after hr g (by decide) .done 1
    refine ⟨e ▸ h1, ?_, hb 1, countUp_trigger (s := s.taken rest) hr.wf _ _ _ _,
      (e ▸ h2).mono (by decide) fun _ => id⟩
    rw [publish_emergency, completeRequest_emergency, e]
    rfl

/-- Settles O36. -/
theorem clearLinkLog : Obligations.ClearLinkLog := by
  intro i rest s hr hs
  refine ⟨_, request_judged hr hs, ?_⟩
  rw [clearLinkLog_eq]
  have f := (linkLogCleared_frame (s.taken rest)).then (rewriteLink_frame _)
  obtain ⟨h1, h2⟩ := request_after hr f (by decide) .done 0
  have hb := (publishWith_blocksShown ((f.trans (completeRequest_frame i .done 0 _)).wf hr.wf) false).2.1
  rw [linkFields_length] at hb
  refine ⟨h1, ?_, hb, countUp_answered (s := s.taken rest) (u := rewriteLink (linkLogCleared (s.taken rest)))
      (fs := (linkLogCleared (s.taken rest)).linkFields) hr.wf rfl
    (by rw [linkFields_length]; decide) (.inl ⟨rfl, rfl⟩) i .done 0, h2.mono (by decide) fun _ => id⟩
  rw [publish_link, completeRequest_link, rewriteLink_link]
  rfl

/-- Settles O35. -/
theorem replaceSettings : Obligations.ReplaceSettings := by
  intro i rest s hr hs hq
  refine ⟨_, request_judged hr hs, ?_⟩
  dsimp only
  by_cases h1 : s.fare.meter ≠ .vacant
  · rw [if_pos h1, replaceSettings_refused (s := s.taken rest) (if_pos h1)]
    exact request_plain hr _ _
  rw [if_neg h1]
  by_cases h2 : field2 s.ram 0x00 ≠ s.working.cab
  · rw [if_pos h2, replaceSettings_refused (s := s.taken rest) ((if_neg h1).trans (if_pos h2))]
    exact request_plain hr _ _
  rw [if_neg h2]
  by_cases h3 : field1 s.ram 0x02 ≠ s.working.fleet
  · rw [if_pos h3, replaceSettings_refused (s := s.taken rest) ((if_neg h1).trans ((if_neg h2).trans (if_pos h3)))]
    exact request_plain hr _ _
  rw [if_neg h3]
  have pass : replaceRefusal (s.taken rest) = none := (if_neg h1).trans ((if_neg h2).trans (if_neg h3))
  cases hf : firstFailing s.ram with
  | some off =>
    rw [replaceSettings_fails pass hf]
    exact request_plain hr _ _
  | none =>
    rw [replaceSettings_passes pass hf]
    have hm : s.fare.meter = .vacant := not_not.1 h1
    have hres := resolvable_taken hq rest
    have f := changeSettings_frame (readSettings s.ram) (s.taken rest)
    have e := changeSettings_exact (s := s.taken rest) hres hs hm (readSettings s.ram)
    rw [adoptSettings_eq (s := s.taken rest) hs hm] at e
    obtain ⟨ha, hframe⟩ := request_after hr f (by decide) .done 0
    dsimp only
    rw [show (s.taken rest).ram = s.ram from rfl]
    refine ⟨ha, ?_, ?_, ?_, ?_, ?_, ?_, ?_, ?_, hframe.mono (by decide) fun _ => id⟩
    · rw [publish_settings, completeRequest_settings]
      exact congrArg State.settings e
    · rw [publish_fare, completeRequest_fare]
      exact congrArg State.fare e
    · rw [publish_limiter, completeRequest_limiter]
      exact congrArg State.limiter e
    · rw [publish_msgs, completeRequest_msgs]
      exact congrArg State.msgs e
    · rw [publish_lampTaken, completeRequest_lampTaken]
      exact congrArg State.lampTaken e
    · rw [publish_store, completeRequest_store]
      exact congrArg State.store e
    · rw [publish_queue, completeRequest_queue, publish_note, completeRequest_note, publish_store,
        completeRequest_store, congrArg State.store e]
      exact congrArg (fun t : State => (t.queue, t.note)) e
    · rw [(answer_frame i _ _ _).posCopy (by decide), changeSettings_posCopy hres hs hm]
      rfl

end Sys2Proof.Proofs
end

section
/-! RUN: the validation, and the entry into RUNNING with what each block takes from the Settings Block. -/

namespace Sys2Proof.Machine

/-! ### The two parts of the entry that touch the queue (R25, R76, R157) -/

/-- R25, log entry 9: the status trigger and the feed's offer in the order chosen: the note is that of the trigger
first, the queue that of either order. -/
theorem eitherOrder_statusFeed {s : State} (hr : s.running = true) (hq : s.queue.resolvable = false) :
    eitherOrder statusTrigger reportFeed s = { takePosition s with
      queue := if s.orderChoice then
          (fed s.running s.store s.note s.cycle.fleet
            (withStatus (statusBytes (takePosition s)) s.cycle.fleet s.queue)).1
        else withStatus (statusBytes (takePosition s)) s.cycle.fleet
          (fed s.running s.store s.note s.cycle.fleet s.queue).1
      note := (fed s.running s.store s.note s.cycle.fleet
        (withStatus (statusBytes (takePosition s)) s.cycle.fleet s.queue)).2
      free := s.free + 1 } := by
  have triggered := statusTrigger_exact hr hq
  have hq' : (statusTrigger s).queue.resolvable = false := by
    rw [triggered]
    exact resolvable_withStatus hq _ _
  have triggerLast := statusTrigger_exact (s := reportFeed s) (((reportFeed_frame s).running (by decide)).trans hr)
    (by rw [reportFeed_exact hq]; exact resolvable_fed hq _ _ _ _)
  unfold eitherOrder
  dsimp only
  rw [triggerLast, reportFeed_exact hq', triggered, reportFeed_exact hq]
  simp only [takePosition_spelled]
  rfl

/-! ### What the blocks take up (R25) -/

theorem takeUpSettings_running (w : Settings) (s : State) : (takeUpSettings w s).running = true := rfl

theorem takeUpSettings_resolvable {s : State} (h : s.queueSound) (w : Settings) :
    (takeUpSettings w s).queue.resolvable = false := h.2

/-- R25: the entry into RUNNING is what the blocks take up, a position taken, and the queue and the note. -/
theorem enterRunning_exact {s : State} (h : s.queueSound) (w : Settings) : enterRunning w s =
    { takeUpSettings w s with
      port := { s.port with posCopy := positionTaken s }
      queue := (enterRunning w s).queue
      note := (enterRunning w s).note
      free := s.free + 1 } := by
  have e := eitherOrder_statusFeed (takeUpSettings_running w s) (takeUpSettings_resolvable h w)
  unfold enterRunning
  rw [e, takePosition_spelled]
  rfl

/-- R25, log entry 9: the queue and the note after the entry. -/
theorem enterRunning_queue {s : State} (h : s.queueSound) (w : Settings) :
    let q := (takeUpSettings w s).queue
    let offered := fed true (s.store.require w.reports) s.note s.cycle.fleet
    let placed := withStatus (statusBytes (enterRunning w s)) s.cycle.fleet
    (enterRunning w s).note = (offered (placed q)).2 ∧
    ((enterRunning w s).queue = (offered (placed q)).1 ∨ (enterRunning w s).queue = placed (offered q).1) := by
  have e := eitherOrder_statusFeed (takeUpSettings_running w s) (takeUpSettings_resolvable h w)
  have hb : statusBytes (enterRunning w s) = statusBytes (takePosition (takeUpSettings w s)) := by
    unfold enterRunning
    rw [e]
    rfl
  dsimp only
  rw [hb]
  unfold enterRunning
  rw [e]
  refine ⟨rfl, ?_⟩
  dsimp only
  split
  · exact .inl rfl
  · exact .inr rfl

/-! ### The board slots at the entry (R98, R121) -/

/-- R22: a Settings Block that passes names a zone. -/
theorem zone_of_pass {m : Memory} (h : firstFailing m = none) : field1 m 0x03 ≠ 0 := by
  have hz := checks_pass h (0x03, within 1 255 (field1 m 0x03)) (by simp [settingsChecks])
  intro e
  rw [e] at hz
  exact absurd hz (by decide)

/-- Every byte of a run of zeros reads 0. -/
theorem read_zeros {m : Memory} {a n : Nat} (h : ∀ x, a ≤ x → x < a + n → Memory.get m x = 0) :
    ∀ b ∈ Memory.read m a n, b = 0 := by
  intro b hb
  obtain ⟨k, hk, rfl⟩ := List.mem_iff_getElem.1 hb
  rw [Memory.getElem_read]
  rw [Memory.length_read] at hk
  exact h _ (by omega) (by omega)

/-- R98: a board slot shows the cab's zone. -/
theorem zone_mem_boardFields (o : OfferManager) (i : Place) : byte o.zone ∈ boardFields o i := by
  simp [boardFields]

/-- R98, R121: a board slot whose contents read 0 is stale once the cab has a zone. -/
theorem boardStale_of_zeros {o : OfferManager} {m : Memory} {i : Place} (hz : byte o.zone ≠ 0)
    (h : ∀ a, bytesAt (boardBase i + 2) 94 a → Memory.get m a = 0) : boardStale o m i = true := by
  refine bne_iff_ne.2 fun e => hz (read_zeros (fun x hx hx' => h x ?_) _ (e ▸ zone_mem_boardFields o i))
  rw [boardFields_length] at hx'
  unfold bytesAt
  omega

theorem readWord_of_zeros {m : Memory} {a : Nat} (h0 : Memory.get m a = 0) (h1 : Memory.get m (a + 1) = 0) :
    Memory.readWord m a = 0 := by
  unfold Memory.readWord Memory.read Memory.read Memory.read
  rw [h0, h1]
  rfl

/-- R22: the zone of a Settings Block that passes, as the board slots show it. -/
theorem zoneByte_ne_zero {m : Memory} (h : firstFailing m = none) : byte (field1 m 0x03) ≠ 0 := by
  intro e
  refine zone_of_pass h ?_
  unfold byte field1 at *
  rw [BitVec.ofNat_toNat, BitVec.setWidth_eq] at e
  rw [e]
  rfl

/-! ### CONTROL (R17) -/

theorem controlActs_config {s : State} (h : s.running = false) (v : Word) : controlActs v s = v.getLsbD 0 :=
  if_neg (h ▸ Bool.false_ne_true)

theorem controlActs_running {s : State} (h : s.running = true) (v : Word) : controlActs v s = v.getLsbD 1 := if_pos h

theorem controlWrite_config {s : State} (h : s.running = false) : controlWrite s = Machine.runWrite s :=
  if_neg (h ▸ Bool.false_ne_true)

theorem controlWrite_running {s : State} (h : s.running = true) : controlWrite s = softReset s := if_pos h

/-- R24: a validation that fails. -/
theorem runWrite_fails {s : State} {off : Nat} (h : firstFailing s.ram = some off) :
    runWrite s = setNews .settings (rewritePart (failRun off s)) := by
  unfold runWrite
  rw [h]

/-- R24: a validation that passes. -/
theorem runWrite_passes {s : State} (h : firstFailing s.ram = none) :
    runWrite s = setNews .settings (rewritePart (enterRunning (readSettings s.ram) s)) := by
  unfold runWrite
  rw [h]

end Sys2Proof.Machine

namespace Sys2Proof.Proofs

open Sys2Proof.Machine

/-- Settles O18. -/
theorem runWrite : Obligations.RunWrite := by
  refine ⟨fun v s hs hv => ?_, fun v s hs hv => ?_, fun v off s hp hs hv hf => ?_, fun v s hp hw hq hs hv hf => ?_⟩
  · exact event_not (.inr ((controlActs_config hs v).trans hv))
  · exact event_not (.inr ((controlActs_running hs v).trans hv))
  · refine ⟨publish (controlWrite s), event_next hp ((controlActs_config hs v).trans hv), ?_⟩
    rw [controlWrite_config hs, runWrite_fails hf]
    refine ⟨?_, gains_publish rfl, (((settings_frame _ s).then (rewritePart_frame (failRun off s))).then
      (setNews_frame .settings _)).publish.mono (by decide) fun _ => id⟩
    rw [publish_settings, setNews_settings, rewritePart_settings]
    rfl
  · have hex : exec (.run v) s = .next (publish (controlWrite s)) :=
      event_next hp ((controlActs_config hs v).trans hv)
    rw [controlWrite_config hs] at hex
    have f := (runWrite_frame s).publish
    have hshown : (publish (Machine.runWrite s)).boardsShown := publishWith_boardsShown ((runWrite_frame s).wf hw) false
    have gained := gains_publish (s := s) (u := Machine.runWrite s) (w := News.settings.mask)
    rw [runWrite_passes hf] at hex hshown f gained
    have g := ((rewritePart_frame (enterRunning (readSettings s.ram) s)).then (setNews_frame .settings _)).publish
    generalize publish (setNews .settings (rewritePart (enterRunning (readSettings s.ram) s))) = t at *
    have e := enterRunning_exact hq (readSettings s.ram)
    obtain ⟨hnote, hqueue⟩ := enterRunning_queue hq (readSettings s.ram)
    have hoffers : t.offers = { s.offers with zone := field1 s.ram 0x03 } := by
      rw [g.offers (by decide), e]
      rfl
    have hstatus : statusBytes t = statusBytes (enterRunning (readSettings s.ram) s) :=
      statusBytes_congr (g.fare (by decide)) (g.offers (by decide)) (congrArg _ (g.msgs (by decide)))
        (g.time (by decide)) (g.posCopy (by decide))
    have hstore : t.store = s.store.require (field1 s.ram 0x4B == 1) := by
      rw [g.store (by decide), e]
      rfl
    have hsettings : t.settings =
        { part := .running, working := some (readSettings s.ram), result := .ok, failedAt := 0 } := by
      rw [g.settings (by decide), e]
      rfl
    refine ⟨t, hex, hsettings, ?_, hoffers, ?_, ?_, ?_, ?_, ?_, hstore, ?_, hshown, ?_, ?_,
      f.mono (by decide) fun _ => id⟩
    · rw [g.cycle (by decide), e]
      rfl
    · rw [g.fare (by decide), e]
      rfl
    · rw [g.limiter (by decide), e, hsettings]
      rfl
    · rw [g.msgs (by decide), e]
      rfl
    · rw [g.posCopy (by decide), e]
    · rw [g.note (by decide), g.queue (by decide), hstatus, hstore]
      exact ⟨hnote, hqueue⟩
    · rw [g.lampTaken (by decide), e]
      rfl
    · exact gained (by rw [e]; rfl)
    · intro hz
      have hr : t.running = true := by
        unfold State.running
        rw [hsettings]
        rfl
      have stale : ∀ i, boardStale t.offers s.ram i = true := fun i => by
        refine boardStale_of_zeros ?_ (hz i)
        rw [hoffers]
        exact zoneByte_ne_zero hf
      refine ⟨fun i => ?_, ?_⟩
      · have k := exec_boardSlot (by simp) (by simp) (by simp) hw (boardsShown_of_config hs) hex i
        rw [if_pos ⟨hr, stale i⟩] at k
        rw [k, readWord_of_zeros (hz i _ ⟨by omega, by omega⟩) (hz i _ ⟨by omega, by omega⟩)]
      · exact (exec_offerNews (by simp) (by simp) (by simp) (boardsShown_of_config hs) hex).2
          (.inr ⟨hr, 0, stale 0⟩)

end Sys2Proof.Proofs
end

section
/-! SOFT_RESET: the units' parts, and the parts that touch the queue in their free order. -/

namespace Sys2Proof.Machine

/-! ### The parts of the units (R20, R46, R68, R95, R120, R189) -/

/-- R28: the soft reset before the parts that touch the queue. -/
def unitsReset (s : State) : State :=
  resetEmergency (resetOffers (resetLink (resetTracker (cutSending .reset (resetPort s)))))

theorem softReset_eq (s : State) : softReset s = resetFreely (unitsReset s) := rfl

/-- R20: the completions store to the slots at CTL alone, and the list is emptied. -/
theorem resetPort_frame' (s : State) : Frame [.ram, .attention, .order] (openOutcomeBytes s) s (resetPort s) :=
  ((completions_frame' (cancelOrder s.port.order) s).then (order_frame [] _)).mono (by decide) fun _ => id

/-- What the units' parts touch after the ports. -/
theorem unitsReset_after (s : State) :
    Frame [.tx, .mail, .cycle, .link, .attention, .offers, .emergency] nothing (resetPort s) (unitsReset s) :=
  (((((cutSending_frame .reset _).then (resetTracker_frame _)).then (resetLink_frame _)).then
    (resetOffers_frame _)).then (resetEmergency_frame _)).mono (by decide) fun _ => id

theorem unitsReset_frame (s : State) :
    Frame [.ram, .attention, .order, .tx, .mail, .cycle, .link, .offers, .emergency] (openOutcomeBytes s) s
      (unitsReset s) :=
  ((resetPort_frame' s).then (unitsReset_after s)).mono (by decide) fun _ => id

/-- R20: every slot at CTL completes CANCELLED. -/
theorem unitsReset_completed {s : State} (hw : Memory.wf s.ram = true) {i : Slot}
    (h : heldByCtl s.ram (requestBase i) = true) : completed i .cancelled 0 s.cycle.fleet (unitsReset s) :=
  completed_of_frame (completions_completed (mem_cancelOrder s.port.order i) hw h)
    ((order_frame [] _).trans (unitsReset_after s)) fun _ _ _ hx => hx.elim id id

/-- R46: a sending cut off. -/
theorem unitsReset_tx (s : State) : (unitsReset s).tx = { s.tx with shifter := .idle } := by
  have f := (((resetTracker_frame (cutSending .reset (resetPort s))).then (resetLink_frame _)).then
    (resetOffers_frame _)).then (resetEmergency_frame _)
  have g := resetPort_frame' s
  change (resetEmergency _).tx = _
  rw [f.tx (by decide), cutSending_eq]
  dsimp only
  rw [g.tx (by decide)]

/-- R66, R68: the frame in flight abandoned. -/
theorem abandonFrame_eq (s : State) : abandonFrame s = { s with
    cycle := { s.cycle with inFlight := (abandonFrame s).cycle.inFlight }
    mail := { s.mail with
      queueOuts := s.mail.queueOuts ++ (match s.cycle.inFlight.phase, s.cycle.inFlight.owner with
        | .none, _ => []
        | _, .queue id => [(id, .abandoned)]
        | _, .call _ => [])
      callOuts := s.mail.callOuts ++ (match s.cycle.inFlight.phase, s.cycle.inFlight.owner with
        | .none, _ => []
        | _, .queue _ => []
        | _, .call _ => [.abandoned]) } } := by
  unfold abandonFrame
  rw [settle_eq, deliver_eq]
  cases hp : s.cycle.inFlight.phase with
  | none => simp
  | _ => cases s.cycle.inFlight.owner <;> simp

/-- R68: the Cycle Tracker's part. -/
theorem resetTracker_eq (s : State) : resetTracker s = { s with
    cycle := { s.cycle with
      synced := false, deadline := none, missedRun := 0, missRun := 0, skip := 0, spacing := 3,
      lfsr := seed s.working.cab, inFlight := (resetTracker s).cycle.inFlight }
    mail := (abandonFrame s).mail } := by
  unfold resetTracker
  rw [abandonFrame_eq, abandonFrame_eq s]

theorem resetTracker_fleet (s : State) : (resetTracker s).cycle.fleet = s.cycle.fleet := by
  rw [congrArg State.cycle (resetTracker_eq s)]

theorem resetTracker_phase (s : State) : (resetTracker s).cycle.inFlight.phase = .none := abandonFrame_phase _

theorem unitsReset_cycle (s : State) : (unitsReset s).cycle = { s.cycle with
      synced := false, deadline := none, missedRun := 0, missRun := 0, skip := 0, spacing := 3,
      lfsr := seed s.working.cab, inFlight := (unitsReset s).cycle.inFlight } ∧
    (unitsReset s).cycle.inFlight.phase = .none := by
  have f := ((resetLink_frame (resetTracker (cutSending .reset (resetPort s)))).then (resetOffers_frame _)).then
    (resetEmergency_frame _)
  have g := (resetPort_frame' s).then (cutSending_frame .reset _)
  have e : (unitsReset s).cycle = (resetTracker (cutSending .reset (resetPort s))).cycle := f.cycle (by decide)
  rw [e]
  refine ⟨?_, resetTracker_phase _⟩
  rw [congrArg State.cycle (resetTracker_eq _)]
  dsimp only
  rw [g.cycle (by decide), g.working (by decide)]

/-- R28: what waits between the blocks stays, the cut and the abandoned frame added. -/
theorem unitsReset_mail (s : State) : (unitsReset s).mail = { s.mail with
    sendReports := s.mail.sendReports ++ (if s.tx.shifter = .idle then [] else [.cut .reset])
    queueOuts := s.mail.queueOuts ++ (match s.cycle.inFlight.phase, s.cycle.inFlight.owner with
      | .none, _ => []
      | _, .queue id => [(id, .abandoned)]
      | _, .call _ => [])
    callOuts := s.mail.callOuts ++ (match s.cycle.inFlight.phase, s.cycle.inFlight.owner with
      | .none, _ => []
      | _, .queue _ => []
      | _, .call _ => [.abandoned]) } := by
  have f := ((resetLink_frame (resetTracker (cutSending .reset (resetPort s)))).then (resetOffers_frame _)).then
    (resetEmergency_frame _)
  have g := resetPort_frame' s
  have e : (unitsReset s).mail = (resetTracker (cutSending .reset (resetPort s))).mail := f.mail (by decide)
  rw [e, congrArg State.mail (resetTracker_eq _), congrArg State.mail (abandonFrame_eq _), cutSending_eq]
  dsimp only
  rw [g.mail (by decide), g.tx (by decide), g.cycle (by decide)]

/-- R88, R95: the Link Quality Unit's part: the link is searched for. -/
theorem resetLink_eq {s : State} (h : s.running = true) : resetLink s =
    newsIf (.search != s.link.state) .link { s with link := { s.link with
      ufc := 0, dfc := 0, recovery := 0, withdrawn := false, searching := true, lastError := .none,
      state := .search } } := by
  unfold resetLink
  rw [relink_eq, show ({ s with link := s.link.softReset } : State).running = true from h]
  rfl

theorem unitsReset_link {s : State} (h : s.running = true) : (unitsReset s).link = { s.link with
    ufc := 0, dfc := 0, recovery := 0, withdrawn := false, searching := true, lastError := .none,
    state := .search } := by
  have f := (resetOffers_frame (resetLink (resetTracker (cutSending .reset (resetPort s))))).then
    (resetEmergency_frame _)
  have g := ((resetPort_frame' s).then (cutSending_frame .reset _)).then (resetTracker_frame _)
  have e : (unitsReset s).link = (resetLink (resetTracker (cutSending .reset (resetPort s)))).link := f.link (by decide)
  rw [e, resetLink_eq ((g.running (by decide)).trans h), newsIf_link]
  dsimp only
  rw [g.link (by decide)]

/-- R20, R91: the news of the units' parts. -/
theorem unitsReset_attention {s : State} (h : s.running = true) : (unitsReset s).port.attention =
    s.port.attention ||| ((if ∃ i : Slot, heldByCtl s.ram (requestBase i) = true then News.reqDone.mask else 0) |||
      (if s.link.state = .search then 0 else News.link.mask)) := by
  have f := (resetOffers_frame (resetLink (resetTracker (cutSending .reset (resetPort s))))).then
    (resetEmergency_frame _)
  have g := ((resetPort_frame' s).then (cutSending_frame .reset _)).then (resetTracker_frame _)
  have k := (cutSending_frame .reset (resetPort s)).then (resetTracker_frame _)
  have e : (unitsReset s).port.attention =
      (resetLink (resetTracker (cutSending .reset (resetPort s)))).port.attention := f.attention (by decide)
  have c : (resetPort s).port.attention = s.port.attention |||
      (if ∃ i : Slot, heldByCtl s.ram (requestBase i) = true then News.reqDone.mask else 0) :=
    (completions_attention (cancelOrder s.port.order) s).trans (by simp only [mem_cancelOrder, true_and])
  rw [e, resetLink_eq ((g.running (by decide)).trans h), ← BitVec.or_assoc, ← c, ← k.attention (by decide),
    g.link (by decide)]
  by_cases hl : s.link.state = .search
  · rw [if_pos hl, hl]
    exact BitVec.or_zero.symm
  · rw [if_neg hl, show (LinkState.search != s.link.state) = true from bne_iff_ne.2 (Ne.symm hl)]
    rfl

/-- R120: every open entry is closed CANCELLED and no acceptance is held. -/
theorem unitsReset_offers (s : State) :
    (unitsReset s).offers = { s.offers with places := (unitsReset s).offers.places, heldAccept := none } ∧
    cancelled (fun p => p.state.isOpen) s (unitsReset s) := by
  have g := (((resetPort_frame' s).then (cutSending_frame .reset _)).then (resetTracker_frame _)).then
    (resetLink_frame _)
  unfold unitsReset resetOffers
  obtain ⟨ps, he, hp⟩ := cancelWhere_eq (fun p => p.state.isOpen)
    (resetLink (resetTracker (cutSending .reset (resetPort s))))
  rw [he]
  refine ⟨?_, cancelled_congr (t := { s with offers := { s.offers with places := ps } }) ?_ rfl rfl rfl⟩
  · change ({ State.offers _ with places := ps, heldAccept := none } : OfferManager) = _
    rw [g.offers (by decide)]
    rfl
  · intro j
    have hf : (resetLink (resetTracker (cutSending .reset (resetPort s)))).cycle.fleet = s.cycle.fleet := by
      rw [(resetLink_frame _).cycle (by decide), resetTracker_fleet,
        ((resetPort_frame' s).then (cutSending_frame .reset _)).cycle (by decide)]
    rw [← g.offers (by decide), ← hf]
    exact hp j

/-- R189: the Emergency Unit's part. -/
theorem unitsReset_emergency (s : State) : (unitsReset s).emergency = { s.emergency with
    callInHand := false
    lastCall := if s.emergency.callInHand then .abandoned else s.emergency.lastCall
    pacing := if s.emergency.kept.state = .alerting then .ready else s.emergency.pacing
    callDue := if s.emergency.kept.state = .acknowledged then true else s.emergency.callDue } := by
  have g := ((((resetPort_frame' s).then (cutSending_frame .reset _)).then (resetTracker_frame _)).then
    (resetLink_frame _)).then (resetOffers_frame _)
  change EmergencyUnit.softReset (State.emergency _) = _
  rw [g.emergency (by decide)]
  rfl

end Sys2Proof.Machine
end

section
/-! SOFT_RESET: the parts that touch the queue, in their free order (R29, R83, R160, R174). -/

namespace Sys2Proof.Machine

/-! ### The Message Manager's part (R174) -/

/-- R174: the Message Manager after a soft reset, before the status trigger of a changed RNR. -/
def messagesReset (s : State) : State :=
  { s with msgs := s.msgs.softReset (boxFull s.ram) (anyBoxAtApp s.ram) s.working.reminder }

theorem resetMessages_turned {s : State} (h : s.msgs.rnr ≠ boxFull s.ram) :
    resetMessages s = statusTrigger (messagesReset s) := if_neg (by simpa using h)

theorem resetMessages_unturned {s : State} (h : ¬ s.msgs.rnr ≠ boxFull s.ram) : resetMessages s = messagesReset s :=
  if_pos (by simpa using h)

theorem resetMessages_msgs (s : State) : (resetMessages s).msgs = (messagesReset s).msgs := by
  by_cases h : s.msgs.rnr ≠ boxFull s.ram
  · rw [resetMessages_turned h]
    exact (statusTrigger_frame _).msgs (by decide)
  · rw [resetMessages_unturned h]

/-! ### A queue filled after it has been emptied (R83) -/

/-- A queue of a few statuses and reports that have not been sent. -/
structure Refilled (n : Nat) (t : Timer) (q : TransmitQueue) : Prop where
  timer   : q.timer = t
  pending : q.pending = false
  few     : q.entries.length ≤ n
  entries : ∀ e ∈ q.entries, (e.kind = .cabStatus ∨ e.kind.isReport = true) ∧ e.inFlight = false

theorem Refilled.resolvable {n : Nat} {t : Timer} {q : TransmitQueue} (h : Refilled n t q) : q.resolvable = false :=
  resolvable_of_clear h.pending

theorem Refilled.more {n m : Nat} {t : Timer} {q : TransmitQueue} (h : Refilled n t q) (hm : n ≤ m) :
    Refilled m t q :=
  { h with few := h.few.trans hm }

theorem Refilled.joined {n : Nat} {t : Timer} {q : TransmitQueue} (h : Refilled n t q) {kind : Uplink}
    (hk : kind = .cabStatus ∨ kind.isReport = true) (tail : List Byte) (origin : Option Slot) (now : Stamp) :
    Refilled (n + 1) t (joined kind tail origin now q) where
  timer := h.timer
  pending := h.pending
  few := by
    have := h.few
    simpa [Machine.joined] using this
  entries e he := by
    obtain he | he := List.mem_append.1 he
    · exact h.entries e he
    · rw [List.mem_singleton.1 he]
      exact ⟨hk, rfl⟩

/-- R76: a status placed in such a queue: in place of the one held, or behind the entries. -/
theorem Refilled.withStatus {n : Nat} {t : Timer} {q : TransmitQueue} (h : Refilled n t q) (hn : n < 12)
    (tail : List Byte) (now : Stamp) : Refilled (n + 1) t (withStatus tail now q) := by
  unfold Machine.withStatus
  cases he : q.statusEntry with
  | none =>
    dsimp only
    rw [if_pos (Nat.lt_of_le_of_lt h.few hn)]
    exact h.joined (.inl rfl) _ _ _
  | some e =>
    have hf := (h.entries e (List.mem_of_find?_eq_some he)).2
    dsimp only
    rw [hf, if_neg Bool.false_ne_true]
    refine ⟨h.timer, h.pending, ?_, fun x hx => ?_⟩
    · rw [List.length_map]
      exact h.few.trans (Nat.le_succ n)
    · obtain ⟨y, hy, rfl⟩ := List.mem_map.1 hx
      split
      · exact h.entries y hy
      · exact h.entries y hy

/-- R157: the feed's offer to such a queue. -/
theorem Refilled.fed {n : Nat} {t : Timer} {q : TransmitQueue} (h : Refilled n t q) (running : Bool) (st : RecordStore)
    (note : Option Nat) (now : Stamp) : Refilled (n + 1) t (fed running st note now q).1 := by
  unfold Machine.fed
  split
  · split
    · exact h.joined (.inr (reportKind_isReport _)) _ _ _
    · exact h.more (Nat.le_succ n)
  · exact h.more (Nat.le_succ n)

theorem Refilled.resetMessages {n : Nat} {t : Timer} {s : State} (h : Refilled n t s.queue) (hn : n < 12)
    (hr : s.running = true) : Refilled (n + 1) t (resetMessages s).queue := by
  by_cases hb : s.msgs.rnr ≠ boxFull s.ram
  · rw [resetMessages_turned hb, statusTrigger_exact (s := messagesReset s) hr h.resolvable]
    exact h.withStatus hn _ _
  · rw [resetMessages_unturned hb]
    exact h.more (Nat.le_succ n)

theorem Refilled.resetStore {n : Nat} {t : Timer} {s : State} (h : Refilled n t s.queue) :
    Refilled (n + 1) t (resetStore s).queue := by
  unfold Machine.resetStore
  rw [reportFeed_exact (s := { s with note := none }) h.resolvable]
  exact h.fed _ _ _ _

theorem refilled_resetQueue (s : State) : Refilled 1 (Timer.start s.working.status) (resetQueue s).queue := by
  have h0 : Refilled 0 (Timer.start s.working.status)
      { s.queue with entries := [], pending := false, timer := Timer.start s.working.status } :=
    ⟨rfl, rfl, Nat.le_refl 0, fun _ he => absurd he List.not_mem_nil⟩
  exact Refilled.resetStore (s := { s with queue := _ }) h0

/-- R83, R160, R174: whatever the order, the queue is left with statuses and reports alone. -/
theorem refilled_resetAroundQueue {s : State} (hr : s.running = true) (messagesFirst storeFirst : Bool) :
    Refilled 3 (Timer.start s.working.status) (resetAroundQueue messagesFirst storeFirst s).queue := by
  unfold resetAroundQueue
  dsimp only
  generalize ha : (if messagesFirst then resetMessages s else s) = a
  generalize hb : (if storeFirst then resetStore a else a) = b
  have fa : Frame [.msgs, .posCopy, .queue] nothing s a := by
    subst ha
    split
    · exact resetMessages_frame s
    · exact (Frame.refl s).mono (by decide) fun _ => id
  have fb : Frame [.note, .posCopy, .queue] nothing a b := by
    subst hb
    split
    · exact resetStore_frame a
    · exact (Frame.refl a).mono (by decide) fun _ => id
  have f := fa.then fb
  have hc := refilled_resetQueue b
  rw [f.working (by decide)] at hc
  have hd : Refilled 2 (Timer.start s.working.status)
      (if messagesFirst then resetQueue b else resetMessages (resetQueue b)).queue := by
    split
    · exact hc.more (by decide)
    · exact hc.resetMessages (by decide) ((f.then (resetQueue_frame b)).running (by decide) |>.trans hr)
  split
  · exact hd.more (by decide)
  · exact hd.resetStore

/-! ### The orders from a sound queue (R29) -/

/-- R174, R76: the state in which the Message Manager's part has been carried out, the queue apart. -/
def messagesAfter (s : State) : State :=
  { messagesReset s with port := { s.port with
      posCopy := if s.msgs.rnr ≠ boxFull s.ram then positionTaken s else s.port.posCopy } }

theorem statusBytes_messagesAfter {s t : State} {a : List Part} {p : Nat → Prop} (f : Frame a p s t)
    (ha : ∀ r ∈ [Part.fare, .offers, .time], r ∉ a) (hm : t.msgs = (messagesReset s).msgs)
    (hp : t.port.posCopy = (messagesAfter s).port.posCopy) : statusBytes t = statusBytes (messagesAfter s) :=
  statusBytes_congr (f.fare (ha _ (by decide))) (f.offers (ha _ (by decide))) (congrArg _ hm)
    (f.time (ha _ (by decide))) hp

/-- R76, R174: the queue after the Message Manager's part. -/
def statusOfReset (s : State) (q : TransmitQueue) : TransmitQueue :=
  if s.msgs.rnr ≠ boxFull s.ram then withStatus (statusBytes (messagesAfter s)) s.cycle.fleet q else q

/-- R157, R160: the queue and the note after the Record Store's part. -/
def offerOfReset (s : State) : TransmitQueue → TransmitQueue × Option Nat := fed true s.store none s.cycle.fleet

/-- R83: the queue and the note after the queue's own part. -/
def queueOfReset (s : State) (q : TransmitQueue) : TransmitQueue × Option Nat :=
  offerOfReset s { q with entries := [], pending := false, timer := Timer.start s.working.status }

theorem resolvable_statusOfReset {s : State} {q : TransmitQueue} (h : q.resolvable = false) :
    (statusOfReset s q).resolvable = false := by
  unfold statusOfReset
  split
  · exact resolvable_withStatus h _ _
  · exact h

theorem resolvable_offerOfReset {s : State} {q : TransmitQueue} (h : q.resolvable = false) :
    (offerOfReset s q).1.resolvable = false := resolvable_fed h _ _ _ _

theorem resolvable_queueOfReset (s : State) (q : TransmitQueue) : (queueOfReset s q).1.resolvable = false :=
  resolvable_offerOfReset (resolvable_of_clear rfl)

theorem resetMessages_at {s : State} (hr : s.running = true) {q : TransmitQueue} (hq : q.resolvable = false)
    (n : Option Nat) : resetMessages { s with queue := q, note := n } =
      { messagesAfter s with queue := statusOfReset s q, note := n } := by
  unfold statusOfReset messagesAfter
  by_cases h : s.msgs.rnr ≠ boxFull s.ram
  · rw [resetMessages_turned (s := { s with queue := q, note := n }) h,
      statusTrigger_exact (s := messagesReset { s with queue := q, note := n }) hr hq, takePosition_spelled,
      if_pos h, if_pos h]
    rfl
  · rw [resetMessages_unturned (s := { s with queue := q, note := n }) h, if_neg h, if_neg h]
    rfl

theorem resetStore_at {s : State} (hr : s.running = true) {q : TransmitQueue} (hq : q.resolvable = false)
    (n : Option Nat) : resetStore { s with queue := q, note := n } =
      { s with queue := (offerOfReset s q).1, note := (offerOfReset s q).2 } := by
  unfold resetStore offerOfReset
  rw [reportFeed_exact (s := { s with queue := q, note := none }) hq,
    show ({ s with queue := q, note := none } : State).running = true from hr]

theorem resetQueue_at {s : State} (hr : s.running = true) (q : TransmitQueue) (n : Option Nat) :
    resetQueue { s with queue := q, note := n } =
      { s with queue := (queueOfReset s q).1, note := (queueOfReset s q).2 } :=
  resetStore_at hr (resolvable_of_clear rfl) n

/-- R29, log entry 9: the queue and the note after a soft reset, for each order of the parts: the Message Manager's
part places a status, the Record Store's makes an offer, and the queue's own empties it and makes an offer. -/
def orderedReset (messagesFirst storeFirst : Bool) (placed : TransmitQueue → TransmitQueue)
    (offered : TransmitQueue → TransmitQueue × Option Nat) (t : Timer) (q : TransmitQueue) :
    TransmitQueue × Option Nat :=
  let before := if messagesFirst then placed q else q
  let met := if storeFirst then (offered before).1 else before
  let emptied := offered { met with entries := [], pending := false, timer := t }
  let after := if messagesFirst then emptied.1 else placed emptied.1
  if storeFirst then (after, emptied.2) else offered after

/-- The same with the parts of a state. -/
def resetOrder (messagesFirst storeFirst : Bool) (s : State) : TransmitQueue × Option Nat :=
  orderedReset messagesFirst storeFirst (statusOfReset s) (offerOfReset s) (Timer.start s.working.status) s.queue

theorem resetAroundQueue_exact {s : State} (hr : s.running = true) (hq : s.queue.resolvable = false)
    (messagesFirst storeFirst : Bool) : resetAroundQueue messagesFirst storeFirst s =
      { messagesAfter s with
        queue := (resetOrder messagesFirst storeFirst s).1
        note := (resetOrder messagesFirst storeFirst s).2 } := by
  have hr' : (messagesAfter s).running = true := hr
  have first := resetMessages_at hr hq s.note
  have store := resetStore_at hr hq s.note
  have queue := resetQueue_at hr
  have store' : ∀ {q : TransmitQueue}, q.resolvable = false → ∀ n,
      resetStore { messagesAfter s with queue := q, note := n } =
      { messagesAfter s with queue := (offerOfReset s q).1, note := (offerOfReset s q).2 } := resetStore_at hr'
  have queue' : ∀ q n, resetQueue { messagesAfter s with queue := q, note := n } =
      { messagesAfter s with queue := (queueOfReset s q).1, note := (queueOfReset s q).2 } := resetQueue_at hr'
  cases messagesFirst with
  | true =>
    have hm := resolvable_statusOfReset (s := s) hq
    cases storeFirst with
    | true =>
      change resetQueue (resetStore (resetMessages { s with queue := s.queue, note := s.note })) = _
      rw [first, store' hm, queue']
      rfl
    | false =>
      change resetStore (resetQueue (resetMessages { s with queue := s.queue, note := s.note })) = _
      rw [first, queue', store' (resolvable_queueOfReset s _)]
      rfl
  | false =>
    cases storeFirst with
    | true =>
      change resetMessages (resetQueue (resetStore { s with queue := s.queue, note := s.note })) = _
      rw [store, queue, resetMessages_at hr (resolvable_queueOfReset s _)]
      rfl
    | false =>
      change resetStore (resetMessages (resetQueue { s with queue := s.queue, note := s.note })) = _
      rw [queue, resetMessages_at hr (resolvable_queueOfReset s _),
        store' (resolvable_statusOfReset (resolvable_queueOfReset s _))]
      rfl

/-! ### The whole (R28) -/

/-- R5: the Message Boxes are all at APP, or some of them, where their hands read so. -/
theorem boxHands_congr {m n : Memory} (h : ∀ i, handAt n (boxBase i) = handAt m (boxBase i)) :
    boxFull n = boxFull m ∧ anyBoxAtApp n = anyBoxAtApp m := by
  unfold boxFull freeBox anyBoxAtApp heldByCtl heldByApp
  simp only [h, and_self]

/-- R20: an outcome stored lies below the Message Boxes and above the Position Block. -/
theorem openOutcomeBytes_inside {s : State} {x : Nat} (h : openOutcomeBytes s x) : 0x0400 ≤ x ∧ x < 0x0800 := by
  obtain ⟨i, -, hx⟩ := h
  have := outcomeBytes_inside hx
  have := i.isLt
  unfold requestBase at *
  omega

theorem unitsReset_boxHands (s : State) : boxFull (unitsReset s).ram = boxFull s.ram ∧
    anyBoxAtApp (unitsReset s).ram = anyBoxAtApp s.ram :=
  boxHands_congr fun i => (unitsReset_frame s).hand (box_hand_free i).1 fun h => by
    have := (openOutcomeBytes_inside h).2
    unfold boxBase at this
    omega

theorem unitsReset_position (s : State) : positionTaken (unitsReset s) = positionTaken s :=
  (unitsReset_frame s).positionTaken (by decide) (by decide) fun x _ hx' h => by
    have := (openOutcomeBytes_inside h).1
    omega

theorem unitsReset_fleet (s : State) : (unitsReset s).cycle.fleet = s.cycle.fleet := by
  rw [(unitsReset_cycle s).1]

theorem resetFreely_msgs (s : State) : (resetFreely s).msgs = (messagesReset s).msgs :=
  (((resetStore_frame (resetMessages s)).then (resetQueue_frame _)).msgs (by decide)).trans (resetMessages_msgs s)

theorem resetFreely_queue (s : State) : (resetFreely s).queue =
    (resetAroundQueue (Config.freeOrder s.free) (Config.freeOrder (s.free + 1)) s).queue := rfl

theorem resetFreely_order {s : State} (hr : s.running = true) (hq : s.queue.resolvable = false) :
    ((resetFreely s).queue, (resetFreely s).note) =
      resetOrder (Config.freeOrder s.free) (Config.freeOrder (s.free + 1)) s := by
  unfold resetFreely
  dsimp only
  rw [resetAroundQueue_exact hr hq]

theorem resetFreely_posCopy {s : State} (hr : s.running = true) (hq : s.queue.resolvable = false) :
    (resetFreely s).port.posCopy = (messagesAfter s).port.posCopy := by
  unfold resetFreely
  dsimp only
  rw [resetAroundQueue_exact hr hq]

/-- R174: the Message Manager after a soft reset. -/
theorem softReset_msgs (s : State) : (softReset s).msgs = { s.msgs with
    sends := []
    rnr := boxFull s.ram
    reminder := { running := anyBoxAtApp s.ram && s.working.reminder != 0, left := s.working.reminder } } := by
  have f := unitsReset_frame s
  obtain ⟨hb, ha⟩ := unitsReset_boxHands s
  rw [softReset_eq, resetFreely_msgs]
  unfold messagesReset MessageManager.softReset
  dsimp only
  rw [hb, ha, f.msgs (by decide), f.working (by decide)]
  cases anyBoxAtApp s.ram with
  | true => rfl
  | false => rfl

/-- R76, R174: the Message Manager's part, told from the state before the soft reset. -/
theorem statusOfReset_unitsReset (s : State) : statusOfReset (unitsReset s) = fun q =>
    if s.msgs.rnr ≠ boxFull s.ram then
      withStatus (statusBytes (messagesAfter (unitsReset s))) s.cycle.fleet q
    else q := by
  funext q
  unfold statusOfReset
  rw [(unitsReset_boxHands s).1, (unitsReset_frame s).msgs (by decide), unitsReset_fleet]

theorem messagesAfter_posCopy (s : State) : (messagesAfter (unitsReset s)).port.posCopy =
    if s.msgs.rnr ≠ boxFull s.ram then positionTaken s else s.port.posCopy := by
  unfold messagesAfter
  dsimp only
  rw [(unitsReset_boxHands s).1, (unitsReset_frame s).msgs (by decide), unitsReset_position,
    (unitsReset_frame s).posCopy (by decide)]

/-- R157, R160: the Record Store's offer, told from the state before the soft reset. -/
theorem offerOfReset_unitsReset (s : State) : offerOfReset (unitsReset s) = fed true s.store none s.cycle.fleet := by
  unfold offerOfReset
  rw [(unitsReset_frame s).store (by decide), unitsReset_fleet]

/-- What the parts after the units' touch of the state and of the memory. -/
theorem softReset_after (s : State) :
    Frame (withEnds [.msgs, .posCopy, .queue, .note, .free]) nothing (unitsReset s) (publish (softReset s)) := by
  rw [softReset_eq]
  exact (resetFreely_frame (unitsReset s)).publish

end Sys2Proof.Machine

namespace Sys2Proof.Proofs

open Sys2Proof.Machine

/-- Settles O19. -/
theorem softReset : Obligations.SoftReset := by
  refine ⟨fun v s hs hv => ?_, fun v s hs hv => ?_, fun v s hp hw hs hv => ?_⟩
  · exact event_not (.inr ((controlActs_running hs v).trans hv))
  · exact event_not (.inr ((controlActs_config hs v).trans hv))
  have f := unitsReset_frame s
  have g := softReset_after s
  have hy : (unitsReset s).running = true := (f.running (by decide)).trans hs
  have hqueue := refilled_resetAroundQueue hy (Config.freeOrder (unitsReset s).free)
    (Config.freeOrder ((unitsReset s).free + 1))
  rw [← resetFreely_queue, ← softReset_eq, f.working (by decide)] at hqueue
  obtain ⟨hcycle, hphase⟩ := unitsReset_cycle s
  obtain ⟨hoffers, hcancel⟩ := unitsReset_offers s
  have hex : exec (.softReset v) s = .next (publish (Machine.softReset s)) := by
    rw [← controlWrite_running hs]
    exact event_next hp ((controlActs_running hs v).trans hv)
  have hattention : (Machine.softReset s).port.attention = (unitsReset s).port.attention := by
    rw [softReset_eq]
    exact (resetFreely_frame _).attention (by decide)
  refine ⟨publish (Machine.softReset s), hex, ?_, fun i hi => ?_, ?_, ?_, ?_, ?_, ?_, ?_, ?_, ?_, ?_, ?_, ?_, ?_,
    fun hq => ?_, ?_, (f.then g).mono (by decide) fun _ => id⟩
  · rw [g.order (by decide)]
    exact (unitsReset_after s).order (by decide)
  · exact completed_of_frame (unitsReset_completed hw hi) g fun _ _ _ => id
  · rw [g.cycle (by decide)]
    exact hcycle
  · rw [g.cycle (by decide)]
    exact hphase
  · rw [g.tx (by decide)]
    exact unitsReset_tx s
  · rw [g.mail (by decide)]
    exact unitsReset_mail s
  · rw [g.link (by decide)]
    exact unitsReset_link hs
  · rw [g.offers (by decide)]
    exact hoffers
  · exact cancelled_congr hcancel rfl rfl (by rw [g.offers (by decide)])
  · rw [g.emergency (by decide)]
    exact unitsReset_emergency s
  · rw [publish_msgs]
    exact softReset_msgs s
  · rw [publish_queue]
    exact fun e he => (hqueue.entries e he).1
  · rw [publish_queue]
    exact hqueue.timer
  · rw [publish_queue]
    exact hqueue.pending
  · have hq' : (unitsReset s).queue.resolvable = false := by
      rw [f.queue (by decide)]
      exact hq.2
    have hpos : (publish (Machine.softReset s)).port.posCopy = (messagesAfter (unitsReset s)).port.posCopy := by
      rw [publish_posCopy, softReset_eq, resetFreely_posCopy hy hq']
    have horder := resetFreely_order hy hq'
    rw [← softReset_eq] at horder
    have hbytes := statusBytes_messagesAfter g (by decide) (by rw [publish_msgs, softReset_eq, resetFreely_msgs]) hpos
    have hplaced := statusOfReset_unitsReset s
    rw [← hbytes] at hplaced
    dsimp only
    refine ⟨hpos.trans (messagesAfter_posCopy s), Config.freeOrder (unitsReset s).free,
      Config.freeOrder ((unitsReset s).free + 1), ?_⟩
    rw [publish_queue, publish_note, horder, resetOrder, hplaced, offerOfReset_unitsReset, f.queue (by decide),
      f.working (by decide)]
    rfl
  · exact gains_publish (hattention.trans (unitsReset_attention hs))

end Sys2Proof.Proofs
end

section
/-! The open trip through every step (R124, R125, R129): what the judgement of power-on lets through, what the end of
an event retains, and the losses of the supplies. -/

namespace Sys2Proof.Machine

/-! ### The judgement lets a bounded trip through alone (R125, R195) -/

/-- R125: what the range check of power-on says of the bounds. -/
theorem Trip.bounded_of_inRange {t : Trip} (h : t.inRange = true) : t.bounded := by
  unfold Trip.inRange at h
  simp only [Bool.and_eq_true, decide_eq_true_eq, and_assoc] at h
  obtain ⟨-, -, -, -, -, -, tariff, kLow, kHigh, -, -, -, dist, time, fare, -, -, -, -, segLow, segHigh, -, extras,
    -⟩ := h
  exact ⟨tariff, kLow, kHigh, dist, time, fare, segLow, segHigh, extras⟩

theorem FareMeter.trip_inRange {f : FareMeter} (h : f.inRange = true) (hm : f.meter ≠ .vacant) :
    f.trip.inRange = true := by
  unfold FareMeter.inRange at h
  obtain ⟨-, trip⟩ := Bool.and_eq_true_iff.1 h
  split at trip
  · contradiction
  · exact trip

theorem kept_inRange_of_restored {r : RetainedStore} (h : judgeRetained r = .restored) : r.kept.inRange = true := by
  rw [judgeRetained_eq] at h
  split at h
  · cases h
  · split at h
    · cases h
    · rename_i hr
      simpa using (not_or.1 hr).2

/-- R196: a restore opens and closes no trip, and touches of the trip its marks alone, SATURATED not among them. -/
theorem FareMeter.restored_spec (f : FareMeter) : (f.restored.meter ≠ .vacant → f.meter ≠ .vacant) ∧
    (f.trip.bounded → f.restored.trip.bounded) ∧ (f.trip.lawful → f.restored.trip.lawful) := by
  rw [fareRestored_eq]
  split
  · rename_i hm
    exact ⟨fun _ => hm ▸ by decide, fun hb => Trip.bounded_marks hb _ f.trip.clamped,
      fun l => Trip.lawful_of_eq l rfl rfl rfl rfl rfl rfl rfl rfl⟩
  · exact ⟨id, id, id⟩

/-- R195 to R197: a trip that power-on opens is within its bounds, and under law R129 where the retained one was. -/
theorem handedToOwners_trip {r : RetainedStore} (hm : (handedToOwners r).fare.meter ≠ .vacant) :
    (handedToOwners r).fare.trip.bounded ∧
      ((r.kept.fare.meter ≠ .vacant → r.kept.fare.trip.lawful) → (handedToOwners r).fare.trip.lawful) := by
  by_cases h : judgeRetained r = .restored
  · rw [handedToOwners_restored h] at hm ⊢
    obtain ⟨opened, bounded, lawful⟩ := r.kept.fare.restored_spec
    have kept := kept_inRange_of_restored h
    unfold Kept.inRange at kept
    simp only [Bool.and_eq_true] at kept
    obtain ⟨⟨fare, -⟩, -⟩ := kept
    exact ⟨bounded (Trip.bounded_of_inRange (FareMeter.trip_inRange fare (opened hm))),
      fun l => lawful (l (opened hm))⟩
  · rw [handedToOwners_cleared h] at hm
    exact absurd rfl hm

/-! ### Every step -/

/-- A sound working copy and a bounded trip stay so, and so does law R129 of the trip and of the retained one. -/
def KeepsFareLaw (s t : State) : Prop := s.fareSound → t.fareSound ∧ (s.fareLaw → t.fareLaw)

theorem KeepsFareLaw.refl (s : State) : KeepsFareLaw s s := fun q => ⟨q, id⟩

theorem powerUp_keepsFareLaw (vsup : Nat) (s : State) : KeepsFareLaw s (powerUp vsup s) := fun _ =>
  ⟨⟨fun _ hw => (nomatch hw), fun hm => (handedToOwners_trip hm).1⟩,
    fun ⟨_, l⟩ => ⟨fun hm => (handedToOwners_trip hm).2 l, fun hm => (handedToOwners_trip hm).2 l⟩⟩

/-- A change of the Retained Store that leaves what is kept, or discards it. -/
theorem keepsFareLaw_of_retained {s t : State} (h1 : t.settings = s.settings) (h2 : t.fare = s.fare)
    (h3 : t.retained.kept = s.retained.kept ∨ t.retained.kept = Kept.cleared) : KeepsFareLaw s t := by
  refine fun q => ⟨fareSound_of_eq q (by rw [h1]) (by rw [h2]) (by rw [h2]), ?_⟩
  unfold State.fareLaw
  rintro ⟨l, k⟩
  rw [h2]
  refine ⟨l, ?_⟩
  obtain h3 | h3 := h3
  · rwa [h3]
  · rw [h3]
    exact fun hm => absurd rfl hm

theorem losePower_keepsFareLaw (s : State) : KeepsFareLaw s (losePower s) := by
  refine keepsFareLaw_of_retained rfl rfl ?_
  unfold losePower
  dsimp only
  split
  · exact .inr rfl
  · exact .inl rfl

theorem loseBackup_keepsFareLaw (s : State) : KeepsFareLaw s (loseBackup s) := by
  refine keepsFareLaw_of_retained rfl rfl ?_
  unfold loseBackup
  dsimp only
  split
  · exact .inl rfl
  · exact .inr rfl

/-- R194: the end of an event retains the trip that the effect left. -/
theorem KeepsFare.publishing {s t : State} (h : KeepsFare s t) (full : Bool) :
    KeepsFareLaw s (publishWith full t) := by
  intro q
  obtain ⟨sound, law⟩ := h q
  refine ⟨fareSound_of_eq sound (by simp) (by simp) (by simp), fun ⟨l, _⟩ => ?_⟩
  unfold State.fareLaw
  have kept : (publishWith full t).kept.fare = t.fare := publishWith_fare full t
  rw [(publishWith_retained full t).1, kept, publishWith_fare]
  exact ⟨law l, law l⟩

/-- Every command keeps an open trip within its bounds and under law R129, and the retained one under it. -/
theorem exec_keepsFareLaw {c : Instr} {s t : State} (h : exec c s = .next t) : KeepsFareLaw s t := by
  obtain ⟨v, -, rfl⟩ | ⟨-, -, rfl⟩ | ⟨-, rfl⟩ | rfl | ⟨full, rfl⟩ := exec_answers h
  · exact powerUp_keepsFareLaw v s
  · exact losePower_keepsFareLaw s
  · exact loseBackup_keepsFareLaw s
  · exact .refl _
  · exact (effect_keepsFare c s).publishing full

end Sys2Proof.Machine

namespace Sys2Proof.Proofs

open Sys2Proof.Machine

/-- Settles O7: the command at the front keeps it, and taking it off the queue touches neither trip. -/
theorem stepKeepsTripBounded : Obligations.StepKeepsTripBounded := by
  intro s t hs h
  obtain ⟨-, rfl⟩ | ⟨c, rest, -, he⟩ := step_cases h
  · exact ⟨hs, id⟩
  · exact exec_keepsFareLaw (s := { s with pending := rest }) he hs

end Sys2Proof.Proofs
end

section
/-! Tier 3 of the radio family: the queue, the frame in flight, the offers, the sending and the link state through every
step (R46, R53, R65, R68, R70, R73, R77, R88, R97). -/

namespace Sys2Proof.Machine

/-! ### What a command keeps, from its parts -/

/-- A property of the machine holds after a command where power-on and the losses of the supplies bring it about, and
the effect of every other command on its occasion, with the end of the event. -/
theorem exec_property {P : State → Prop} {c : Instr} {s t : State} (h : exec c s = .next t) (same : P s)
    (up : ∀ v, P (powerUp v s)) (down : P (losePower s)) (backup : P (loseBackup s))
    (work : s.powered = true → occasion c s = true → ∀ full, P (publishWith full (effect c s))) : P t := by
  by_cases hs : (∃ v, c = .powerOn v) ∨ c = .logicSupplyLoss ∨ c = .backupSupplyLoss
  · obtain ⟨v, rfl⟩ | rfl | rfl := hs
    · cases h.symm.trans (exec_powerOn v s)
      exact up v
    · rw [exec_logicSupplyLoss] at h
      cases h
      split
      · exact down
      · exact same
    · cases h.symm.trans (exec_backupSupplyLoss s)
      exact backup
  · obtain ⟨h1, h2, h3⟩ := not_or.1 hs |>.imp_right not_or.1
    obtain rfl | ⟨hp, ho, rfl⟩ := exec_cases (fun v e => h1 ⟨v, e⟩) h2 h3 h
    · exact same
    · exact work hp ho _

/-! ### Power-on and the losses of the supplies -/

theorem powerUp_placeEmpty (v : Nat) (s : State) (i : Place) :
    (pick (powerUp v s).offers.places i).state = .empty := reset_placeEmpty i

/-- R18, R88: before RUN the Link Quality Unit searches and the routing holds no frame. -/
theorem powerUp_linkSound (v : Nat) (s : State) : (powerUp v s).linkSound := ⟨rfl, fun _ => ⟨rfl, rfl⟩⟩

/-- R18, R46: power-on leaves the shifter IDLE and PTT released. -/
theorem powerUp_radioSound (v : Nat) (s : State) : (powerUp v s).radioSound :=
  fun _ => ⟨fun h => absurd h Bool.false_ne_true, fun h => absurd rfl h⟩

/-- R46, R193: nothing is promised of a part without its logic supply. -/
theorem radioSound_of_unpowered {s : State} (h : s.powered = false) : s.radioSound := fun hp =>
  absurd (h.symm.trans hp) Bool.false_ne_true

/-! ### The end of an event -/

theorem publishWith_offersSound {s : State} (h : s.offersSound) (full : Bool) : (publishWith full s).offersSound := by
  unfold State.offersSound
  rwa [publishWith_offers]

theorem publishWith_queueSound {s : State} (h : s.queueSound) (full : Bool) : (publishWith full s).queueSound :=
  queueSound_of_queue h (publishWith_queue full s)

theorem publishWith_trackerSound {s : State} (h : s.trackerSound) (full : Bool) : (publishWith full s).trackerSound := by
  unfold State.trackerSound
  rwa [publishWith_cycle]

theorem publishWith_running (full : Bool) (s : State) : (publishWith full s).running = s.running :=
  running_of_settings (publishWith_settings full s)

theorem publishWith_linkSound {s : State} (h : s.linkSound) (full : Bool) : (publishWith full s).linkSound := by
  unfold State.linkSound
  rwa [publishWith_link, publishWith_running, publishWith_rx]

/-- R46: the pins follow the shifter, so that a sound sending is all that the end of an event needs. -/
theorem publishWith_radioSound {s : State} (h : s.sendingSound) (full : Bool) : (publishWith full s).radioSound := by
  intro _
  have ptt : (publishWith full s).pins.ptt = true ↔ (publishWith full s).tx.shifter ≠ .idle :=
    (publishWith_pins full s).2.1
  refine ⟨ptt.1, ?_⟩
  rw [publishWith_tx, publishWith_supply, publishWith_running, publishWith_cycle]
  exact h

/-! ### Every command -/

theorem exec_keepsQueue {c : Instr} {s t : State} (h : exec c s = .next t) (q : s.queueSound) : t.queueSound :=
  exec_property h q (fun _ => queueSound_of_empty rfl) q q
    fun _ _ full => publishWith_queueSound (effect_keepsQueue c s q) full

theorem exec_keepsTracker {c : Instr} {s t : State} (h : exec c s = .next t) (q : s.trackerSound) : t.trackerSound :=
  exec_property h q (fun _ _ => rfl) q q
    fun _ _ full => publishWith_trackerSound (effect_keepsTracker c s q) full

theorem exec_keepsOffers {c : Instr} {s t : State} (h : exec c s = .next t) (q : s.offersSound) : t.offersSound :=
  exec_property h q (fun v => offersSound_of_empty (powerUp_placeEmpty v s)) q q
    fun _ _ full => publishWith_offersSound (effect_keepsOffers c s q) full

theorem exec_keepsRadio {c : Instr} {s t : State} (h : exec c s = .next t) (q : s.radioSound) : t.radioSound :=
  exec_property h q (powerUp_radioSound · s) (radioSound_of_unpowered rfl) q
    fun hp ho full => publishWith_radioSound (effect_keepsSending ho (q hp).2) full

theorem exec_keepsLink {c : Instr} {s t : State} (h : exec c s = .next t) (q : s.linkSound) : t.linkSound :=
  exec_property h q (powerUp_linkSound · s) q q
    fun _ ho full => publishWith_linkSound (effect_keepsLink ho q) full

end Sys2Proof.Machine

namespace Sys2Proof.Proofs

open Sys2Proof.Machine

/-- Settles O6: each of the five by its own law of every command; the taking off the queue of commands touches none. -/
theorem stepKeepsQueueAndTracker : Obligations.StepKeepsQueueAndTracker := by
  intro s t h
  obtain ⟨-, rfl⟩ | ⟨c, rest, -, he⟩ := step_cases h
  · exact ⟨id, id, id, id, id⟩
  · let front : State := { s with pending := rest }
    exact ⟨exec_keepsQueue (s := front) he, exec_keepsTracker (s := front) he, exec_keepsOffers (s := front) he,
      exec_keepsRadio (s := front) he, exec_keepsLink (s := front) he⟩

end Sys2Proof.Proofs
end

section
/-! The judgement of a received frame (R36 to R38, R42) in the terms that the claims spell it in: its fields at their
bytes, its ranges, and the order of the checks. -/

namespace Sys2Proof.Machine

/-! ### Fields at their bytes (R199) -/

theorem rx1_byteAt (p : List Byte) (i : Nat) : rx1 p i = byteAt p i := by rw [rx1, byteAt]

theorem drop_eq_byte_cons {p : List Byte} {i : Nat} (h : i < p.length) : p.drop i = p.getD i 0 :: p.drop (i + 1) := by
  rw [List.drop_eq_getElem_cons h, List.getD_eq_getElem _ _ h]

theorem rx2_wordAt {p : List Byte} {i : Nat} (h : i + 2 ≤ p.length) : rx2 p i = wordAt p i := by
  unfold rx2 wordAt byteAt
  rw [drop_eq_byte_cons (by omega : i < p.length), drop_eq_byte_cons (by omega : i + 1 < p.length)]
  simp [beNat, Nat.mul_comm]

theorem rx4_wordAt {p : List Byte} {i : Nat} (h : i + 4 ≤ p.length) :
    rx4 p i = 65536 * wordAt p i + wordAt p (i + 2) := by
  unfold rx4 wordAt byteAt
  rw [drop_eq_byte_cons (by omega : i < p.length), drop_eq_byte_cons (by omega : i + 1 < p.length),
    drop_eq_byte_cons (by omega : i + 1 + 1 < p.length), drop_eq_byte_cons (by omega : i + 1 + 1 + 1 < p.length)]
  simp only [List.take_succ_cons, List.take_zero, beNat, List.foldl_cons, List.foldl_nil]
  ring_nf

theorem byteAt_lt (p : List Byte) (i : Nat) : byteAt p i < 256 := (p.getD i 0).isLt

theorem wordAt_lt (p : List Byte) (i : Nat) : wordAt p i < 65536 := by
  have := byteAt_lt p i
  have := byteAt_lt p (i + 1)
  unfold wordAt
  omega

/-- The acknowledgement list of a beacon, when the payload holds it all. -/
theorem ackList_words {p : List Byte} {n i : Nat} (h : i + 2 * n ≤ p.length) :
    ackList p i n = (List.range n).map fun k => wordAt p (i + 2 * k) := by
  induction n generalizing i with
  | zero => rfl
  | succ n ih =>
    rw [ackList, rx2_wordAt (by omega), ih (by omega), List.range_succ_eq_map, List.map_cons, List.map_map]
    refine congrArg₂ _ (by simp) (List.map_congr_left fun k _ => ?_)
    rw [Function.comp_apply]
    congr 1
    omega

/-! ### The kinds (R36, R37) -/

/-- R37: a frame of a kind that does not accept its address. -/
theorem kindAccepts_false_iff (kind : Nat) (directed : Bool) : kindAccepts kind directed = false ↔
    (kind = 1 ∧ directed = true) ∨ ((kind = 6 ∨ kind = 7) ∧ directed = false) := by
  unfold kindAccepts
  split
  case h_1 => simp
  case h_2 => simp
  case h_3 => simp
  case h_4 beacon ack clear =>
    refine iff_of_false nofun ?_
    rintro (⟨e, -⟩ | ⟨e | e, -⟩)
    exacts [beacon e, ack e, clear e]

/-- R38, R39: kind 1 is the beacon, and no other kind. -/
theorem frameRead_beacon (kind : Nat) (p : List Byte) : (frameRead kind p).isBeacon = decide (kind = 1) ∧
    ∀ fleet, ofFleet fleet (frameRead kind p) = !decide (kind = 1 ∧ byteAt p 0 ≠ fleet) := by
  by_cases h : kind = 1
  · subst h
    refine ⟨rfl, fun fleet => ?_⟩
    simp [frameRead, ofFleet, beq_eq_decide]
  · unfold frameRead
    dsimp only
    split
    case h_1 => exact absurd rfl h
    all_goals simp [Downlink.isBeacon, ofFleet, h]

theorem isBeacon_frameRead (kind : Nat) (p : List Byte) : (frameRead kind p).isBeacon = decide (kind = 1) :=
  (frameRead_beacon kind p).1

/-- R38: a beacon of another fleet. -/
theorem ofFleet_frameRead (fleet kind : Nat) (p : List Byte) :
    ofFleet fleet (frameRead kind p) = true ↔ ¬ (kind = 1 ∧ byteAt p 0 ≠ fleet) := by
  rw [(frameRead_beacon kind p).2, Bool.not_eq_true', decide_eq_false_iff_not]

/-! ### The length match and the ranges (R38) -/

/-- R38, step 1. -/
theorem expectedLength_iff {kind : Nat} (h : 1 ≤ kind ∧ kind ≤ 9) (p : List Byte) :
    expectedLength kind p = some p.length ↔ lengthMatches kind p = true := by
  obtain ⟨h1, h2⟩ := h
  have counted (least n : Nat) : (if p.length < least then none else some n) = some p.length ↔
      least ≤ p.length ∧ p.length = n := by
    split <;> simp only [Option.some.injEq, reduceCtorEq, false_iff] <;> omega
  interval_cases kind <;>
    simp only [expectedLength, lengthMatches, counted, rx1_byteAt, Option.some.injEq, Bool.and_eq_true,
      decide_eq_true_eq, beq_iff_eq, eq_comm (b := p.length)]

theorem within_byte (p : List Byte) (i : Nat) : within 1 255 (byteAt p i) = decide (1 ≤ byteAt p i) := by
  have := byteAt_lt p i
  unfold within
  rw [decide_eq_true (by omega : byteAt p i ≤ 255), Bool.and_true]

theorem within_word (p : List Byte) (i : Nat) : within 1 65535 (wordAt p i) = decide (1 ≤ wordAt p i) := by
  have := wordAt_lt p i
  unfold within
  rw [decide_eq_true (by omega : wordAt p i ≤ 65535), Bool.and_true]

theorem clampText_shownText (p : List Byte) : clampText p = shownText p := rfl

/-- R38, step 2, of a beacon: its acknowledgement list lies within the payload. -/
theorem readDownlink_beacon {p : List Byte} (h : lengthMatches 1 p = true) :
    readDownlink 1 p = if fieldsInRange 1 p = true then some (frameRead 1 p) else none := by
  simp only [lengthMatches, Bool.and_eq_true, decide_eq_true_eq, beq_iff_eq] at h
  obtain ⟨h10, hlen⟩ := h
  have acks : ackList p 10 (byteAt p 9) = (List.range (byteAt p 9)).map fun n => wordAt p (10 + 2 * n) :=
    ackList_words (by omega)
  have cycle : rx2 p 1 = wordAt p 1 := rx2_wordAt (by omega)
  have secs : rx4 p 3 = 65536 * wordAt p 3 + wordAt p 5 := rx4_wordAt (by omega)
  simp only [readDownlink, fieldsInRange, frameRead, rx1_byteAt, acks, cycle, secs, within_byte, List.all_map]
  simp only [within, Function.comp_def, Bool.and_assoc]

/-- R38, step 2, with the text clamped (R42): a payload as long as its kind's row says is read field by field. -/
theorem readDownlink_eq {kind : Nat} {p : List Byte} (h : 1 ≤ kind ∧ kind ≤ 9) (hl : lengthMatches kind p = true) :
    readDownlink kind p = if fieldsInRange kind p = true then some (frameRead kind p) else none := by
  have word (i : Nat) (hi : i + 2 ≤ p.length) : rx2 p i = wordAt p i := rx2_wordAt hi
  have kinds : kind = 1 ∨ (kind = 6 ∨ kind = 7 ∨ kind = 8 ∨ kind = 9) ∨ (kind = 2 ∨ kind = 3 ∨ kind = 4 ∨ kind = 5) := by
    omega
  obtain rfl | (rfl | rfl | rfl | rfl) | (rfl | rfl | rfl | rfl) := kinds
  · exact readDownlink_beacon hl
  iterate 4 · rfl
  all_goals
    simp only [lengthMatches, Bool.and_eq_true, decide_eq_true_eq, beq_iff_eq] at hl
    simp (disch := omega) only [readDownlink, fieldsInRange, frameRead, rx1_byteAt, word, within_byte, within_word,
      clampText_shownText]
  all_goals exact if_congr (by simp only [within, Bool.and_assoc]) rfl rfl

/-! ### The order of the checks (R35 to R38) -/

/-- R38: the payload of a frame of a known kind, judged by its length, its ranges and its fleet code. -/
theorem judgePayload_spec {kind : Nat} (range : 1 ≤ kind ∧ kind ≤ 9) (fleet : Nat) (directed : Prop) [Decidable directed]
    (p : List Byte) :
    (if expectedLength kind p ≠ some p.length then .error .length
     else match readDownlink kind p with
       | none => .error .kind
       | some f => if ofFleet fleet f then .good f (decide directed) else .discard : Judged) =
      if ¬ lengthMatches kind p then .error .length
      else if ¬ fieldsInRange kind p then .error .kind
      else if kind = 1 ∧ byteAt p 0 ≠ fleet then .discard
      else .good (frameRead kind p) (decide directed) := by
  by_cases long : lengthMatches kind p = true
  · rw [if_neg (not_not.2 ((expectedLength_iff range p).2 long)), if_neg (not_not.2 long), readDownlink_eq range long]
    by_cases ranged : fieldsInRange kind p = true
    · rw [if_pos ranged, if_neg (not_not.2 ranged)]
      by_cases other : kind = 1 ∧ byteAt p 0 ≠ fleet
      · rw [if_pos other]
        exact if_neg fun own => (ofFleet_frameRead fleet kind p).1 own other
      · rw [if_neg other]
        exact if_pos ((ofFleet_frameRead fleet kind p).2 other)
    · rw [if_neg ranged, if_pos ranged]
  · rw [if_pos (mt (expectedLength_iff range p).1 long), if_pos long]

/-- R35 to R38: what a frame is judged to be, check by check. -/
theorem judgeFrame_spec (w : Settings) (k l hi lo : Byte) (payload : List Byte) (running received : Word) :
    judgeFrame w [k, l, hi, lo] payload running received =
      let kind := k.toNat
      let address := 256 * hi.toNat + lo.toNat
      if running ≠ received then .error .crc
      else if ¬ (1 ≤ kind ∧ kind ≤ 9) then .error .kind
      else if address ≠ w.cab ∧ address ≠ 0 then .discard
      else if (kind = 1 ∧ address = w.cab) ∨ ((kind = 6 ∨ kind = 7) ∧ address ≠ w.cab) then .discard
      else if ¬ lengthMatches kind payload then .error .length
      else if ¬ fieldsInRange kind payload then .error .kind
      else if kind = 1 ∧ byteAt payload 0 ≠ w.fleet then .discard
      else .good (frameRead kind payload) (decide (address = w.cab)) := by
  have address : rx2 [k, l, hi, lo] 2 = 256 * hi.toNat + lo.toNat := rx2_wordAt (i := 2) (Nat.le_refl 4)
  unfold judgeFrame judgeContents
  rw [show rx1 [k, l, hi, lo] 0 = k.toNat from rfl, address]
  dsimp only
  refine if_congr Iff.rfl rfl ?_
  by_cases range : 1 ≤ k.toNat ∧ k.toNat ≤ 9
  · have known : (!within 1 9 k.toNat) = false := by simp only [within, range, decide_true, Bool.and_self, Bool.not_true]
    rw [known, if_neg Bool.false_ne_true, if_neg (not_not.2 range)]
    refine if_congr Iff.rfl rfl (if_congr ?_ rfl ?_)
    · rw [Bool.not_eq_true', kindAccepts_false_iff, beq_iff_eq, beq_eq_false_iff_ne]
    · exact judgePayload_spec range _ _ payload
  · have unknown : (!within 1 9 k.toNat) = true := by
      rwa [Bool.not_eq_true', within, Bool.and_eq_false_iff, decide_eq_false_iff_not, decide_eq_false_iff_not,
        ← not_and_or]
    rw [if_pos unknown, if_pos range]

end Sys2Proof.Machine
end

section
/-! The receive side of the Radio Port: the sync, the header, the end of a frame, the end of a skipped frame and the
clock lost (R33 to R43). -/

namespace Sys2Proof.Machine

/-- An event that occurs, touches these parts before its end, and gives no news. -/
theorem event_quiet {c : Bool} {a : List Part} {s u : State} (hp : s.powered = true) (hc : c = true)
    (f : Frame a nothing s u) (ha : Part.attention ∉ a := by decide) :
    event c u s = .next (publish u) ∧ gains 0 s (publish u) ∧ Frame (withEnds a) nothing s (publish u) :=
  ⟨event_next hp hc, gains_publish_zero (f.attention ha), f.publish⟩

theorem rx_frame (x : Receiver) (s : State) : Frame [.rx] nothing s { s with rx := x } :=
  .of_keeps (fun p hp => by cases p <;> first | rfl | exact absurd (by decide) hp | exact ⟨rfl, rfl⟩) rfl

/-! ### The sync (R33, R40) -/

theorem take_append_take (l x : List Bool) (n : Nat) : (l ++ x.take n).take n = (l ++ x).take n := by
  rw [List.take_append, List.take_append, List.take_take, Nat.min_eq_left (Nat.sub_le _ _)]

/-- R33: whatever the shifter held, bits that leave the pattern in it have completed a sync. -/
theorem huntBits_found {bits sh : List Bool} (hb : bits ≠ [])
    (h : (bits.reverse ++ sh).take 24 = syncPattern.reverse) : huntBits sh bits = (true, []) := by
  induction bits generalizing sh with
  | nil => exact absurd rfl hb
  | cons b bits ih =>
    rw [huntBits]
    split
    · rfl
    · rename_i early
      cases bits with
      | nil => exact absurd h early
      | cons c bits =>
        refine ih (List.cons_ne_nil c bits) ?_
        rw [take_append_take, ← h, List.reverse_cons (a := b), List.append_assoc]
        rfl

/-- R33: bits that end in the pattern complete a sync, at their last bit or before it. -/
theorem huntBits_endInSync {bits : List Bool} (h : endInSync bits = true) (sh : List Bool) :
    huntBits sh bits = (true, []) := by
  have tail : bits.drop (bits.length - 24) = syncPattern := beq_iff_eq.1 h
  have long : 24 ≤ bits.length := by
    have := congrArg List.length tail
    rw [List.length_drop, show syncPattern.length = 24 from rfl] at this
    omega
  refine huntBits_found (List.ne_nil_of_length_pos (by omega)) ?_
  rw [List.take_append_of_le_length (by rwa [List.length_reverse]), List.take_reverse, tail]

theorem receiveBits_endInSync {bits : List Bool} (h : endInSync bits = true) (s : State) :
    receiveBits bits s = syncTaken s := by
  unfold receiveBits
  rw [huntBits_endInSync h]

theorem syncTaken_free {s : State} (h : s.rx.held = none) : syncTaken s =
    { s with rx := { s.rx with asm := .header, shifter := [], buffer := [], crc := 0xFFFF, quiet := 0 } } := by
  unfold syncTaken
  rw [h]
  rfl

/-- R40, R43: an overrun, reported in RUNNING. -/
theorem syncTaken_held {s : State} (h : s.rx.held ≠ none) : syncTaken s = { s with
    rx := { s.rx with asm := .skip, shifter := [], quiet := 0 }
    mail := { s.mail with rxErrors := s.mail.rxErrors ++ (if s.running then [.overrun] else []) } } := by
  unfold syncTaken
  rw [if_pos (Option.isSome_iff_ne_none.2 h)]
  exact reportRx_eq .overrun { s with rx := { s.rx with asm := .skip, shifter := [], quiet := 0 } }

/-! ### The header (R34) -/

theorem headerTaken_inRange {h : Header} (hl : h.len.toNat ≤ 56) (s : State) : headerTaken h s =
    { s with rx := { s.rx with
        asm := .body
        buffer := headerBytes h
        quiet := 0
        crc := checkOver s.rx.crc (headerBytes h) } } := by
  unfold headerTaken
  rw [if_neg (Nat.not_lt.2 hl), crcOver_spelled]

/-- R34, R43: a length out of range, reported in RUNNING. -/
theorem headerTaken_tooLong {h : Header} (hl : 56 < h.len.toNat) (s : State) : headerTaken h s = { s with
    rx := { s.rx with
      asm := .hunt, shifter := [], buffer := [], quiet := 0, crc := checkOver s.rx.crc (headerBytes h) }
    mail := { s.mail with rxErrors := s.mail.rxErrors ++ (if s.running then [.length] else []) } } := by
  unfold headerTaken
  rw [if_pos hl, reportRx_eq, crcOver_spelled]
  rfl

/-! ### The clock lost (R41) -/

/-- R41, R43: an error in the middle of a frame, reported in RUNNING; none of a skipped one. -/
theorem clockLost_eq {s : State} (h : s.rx.asm ≠ .hunt) : clockLost s = { s with
    rx := { s.rx with asm := .hunt, shifter := [], quiet := 0 }
    mail := { s.mail with
      rxErrors := s.mail.rxErrors ++ (if s.running && s.rx.asm != .skip then [.crc] else []) } } := by
  unfold clockLost
  split
  case h_1 hunt => exact absurd hunt h
  case h_2 skip => rw [skip, bne_self_eq_false, Bool.and_false, if_neg Bool.false_ne_true, List.append_nil]; rfl
  case h_3 _ skip =>
    rw [bne_iff_ne.2 skip, Bool.and_true, reportRx_eq]
    rfl

/-! ### The end of a frame (R35 to R39) -/

/-- R35, R39: what the judgement of a frame makes of the routing and of the reports. -/
def judgedAs (s t : State) : Judged → Prop
  | .discard => t.rx.held = s.rx.held ∧ t.mail = s.mail
  | .error e => t.rx.held = s.rx.held ∧ t.mail = { s.mail with rxErrors := s.mail.rxErrors ++ [e] }
  | .good f directed =>
    t.rx.held = some
      { frame := f
        directed := directed
        stamp := s.cycle.fleet
        endInstant := s.now
        forLink := f.isBeacon
        forOwner := true } ∧
    t.mail = s.mail

theorem frameEnded_hunt (payload : List Byte) (received : Word) (s : State) :
    (frameEnded payload received s).rx.asm = .hunt ∧ (frameEnded payload received s).rx.shifter = [] := by
  unfold frameEnded
  dsimp only
  split
  · split <;> exact ⟨rfl, rfl⟩
  · exact ⟨rfl, rfl⟩

/-- R43: in CONFIG a frame is discarded unjudged. -/
theorem frameEnded_config {s : State} (h : s.running = false) (payload : List Byte) (received : Word) :
    judgedAs s (frameEnded payload received s) .discard := by
  unfold frameEnded
  rw [h]
  exact ⟨rfl, rfl⟩

theorem frameEnded_running {s : State} (h : s.running = true) (payload : List Byte) (received : Word) :
    judgedAs s (frameEnded payload received s)
      (judgeFrame s.working s.rx.buffer payload (checkOver s.rx.crc payload) received) := by
  unfold frameEnded
  dsimp only
  rw [if_pos h, crcOver_spelled]
  cases judgeFrame s.working s.rx.buffer payload (checkOver s.rx.crc payload) received <;> exact ⟨rfl, rfl⟩

theorem judgedAs_publish {s u : State} {j : Judged} (h : judgedAs s u j) : judgedAs s (publish u) j := by
  cases j <;> rwa [judgedAs, publish_rx, publish_mail]

end Sys2Proof.Machine

namespace Sys2Proof.Proofs

open Sys2Proof.Machine

/-- Settles O37: the header taken by its length. -/
theorem headerBytes : Obligations.HeaderBytes := by
  intro h s hp hasm
  have occasion : (s.rx.asm == .header) = true := beq_iff_eq.2 hasm
  refine ⟨fun hl => ?_, fun hl => ?_⟩
  · have e := headerTaken_inRange hl s
    obtain ⟨hx, hg, hf⟩ := event_quiet hp occasion (e ▸ rx_frame _ s)
    refine ⟨_, hx, ?_, hg, hf⟩
    rw [publish_rx, e]
    rfl
  · obtain ⟨hx, hg, hf⟩ := event_quiet hp occasion (headerTaken_frame h s)
    refine ⟨_, hx, ?_, ?_, ?_, ?_, ?_, hg, hf⟩ <;> simp only [publish_rx, publish_mail, headerTaken_tooLong hl]

/-- Settles O38: in HUNT the bits complete the sync whatever the shifter held. -/
theorem syncInHunt : Obligations.SyncInHunt := by
  intro bits s hp hasm hb
  have occasion : (s.rx.asm == .hunt) = true := beq_iff_eq.2 hasm
  have taken := receiveBits_endInSync hb s
  refine ⟨fun free => ?_, fun held => ?_⟩
  · have e := taken.trans (syncTaken_free free)
    obtain ⟨hx, hg, hf⟩ := event_quiet hp occasion (e ▸ rx_frame _ s)
    exact ⟨_, hx, by rw [publish_rx, e], hg, hf⟩
  · have e := taken.trans (syncTaken_held held)
    obtain ⟨hx, hg, hf⟩ := event_quiet hp occasion (receiveBits_frame bits s)
    exact ⟨_, hx, by rw [publish_rx, e], by rw [publish_mail, e], hg, hf⟩

/-- Settles O39: the frame judged by `judgeFrame_spec`, check by check. -/
theorem frameEnd : Obligations.FrameEnd := by
  intro k l hi lo payload received s hp hasm hbuf hlen
  have occasion : (s.rx.asm == .body && payloadFits payload s) = true := by
    rw [hasm, payloadFits, hbuf]
    exact beq_iff_eq.2 hlen
  obtain ⟨hx, hg, hf⟩ := event_quiet hp occasion (frameEnded_frame payload received s)
  obtain ⟨hunt, empty⟩ := frameEnded_hunt payload received s
  refine ⟨_, hx, by rw [publish_rx, hunt], by rw [publish_rx, empty], ?_, hg, hf⟩
  cases hr : s.running with
  | false => exact judgedAs_publish (frameEnded_config hr payload received)
  | true =>
    have judged := judgedAs_publish (frameEnded_running hr payload received)
    rw [hbuf, judgeFrame_spec] at judged
    simp only [apply_ite (judgedAs s (publish (frameEnded payload received s)))] at judged
    simp only [judgedAs, isBeacon_frameRead] at judged
    rw [if_neg (fun e => nomatch e)]
    exact judged

/-- Settles O40: `clockLost_eq` in the middle of a frame; elsewhere the occasion does not hold. -/
theorem clockLossAndSkipEnd : Obligations.ClockLossAndSkipEnd := by
  refine ⟨fun s hp hasm hq => ?_, fun s h => event_not (.inr ?_), fun bytes s hp hasm hb => ?_⟩
  · have occasion : clockSilent s.rx = true := Bool.and_eq_true_iff.2 ⟨bne_iff_ne.2 hasm, decide_eq_true hq⟩
    obtain ⟨hx, hg, hf⟩ := event_quiet hp occasion (clockLost_frame s)
    exact ⟨_, hx, by rw [publish_rx, clockLost_eq hasm], by rw [publish_mail, clockLost_eq hasm], hg, hf⟩
  · rw [clockSilent, Bool.and_eq_false_iff]
    exact h.imp (fun hunt => by rw [hunt]; rfl) fun hq => decide_eq_false (Nat.not_le.2 hq)
  · obtain ⟨hx, hg, hf⟩ := event_quiet hp (Bool.and_eq_true_iff.2 ⟨beq_iff_eq.2 hasm, hb⟩) (backToHunt_frame s)
    exact ⟨_, hx, publish_rx _, hg, hf⟩

end Sys2Proof.Proofs
end

section
/-! The transmit side: the transmit shifter, the start of the chosen slot, and the report of a sending's end (R44 to
R46, R62, R63, R66). -/

namespace Sys2Proof.Machine

/-! ### The outputs while sending (R45, spec 3.6) -/

theorem publish_idle {u : State} (h : u.tx.shifter = .idle) :
    (publish u).pins.ptt = false ∧ (publish u).pins.txData = .steady true := by
  rw [publish_ptt, publish_txData, Transmitter.line, h]
  exact ⟨rfl, rfl⟩

theorem publish_keying {u : State} (h : u.tx.shifter = .keying) :
    (publish u).pins.ptt = true ∧ (publish u).pins.txData = .steady true := by
  rw [publish_ptt, publish_txData, Transmitter.line, h]
  exact ⟨rfl, rfl⟩

theorem publish_sending {u : State} (h : u.tx.shifter = .sending) :
    (publish u).pins.ptt = true ∧ (publish u).pins.txData = .frameBits := by
  rw [publish_ptt, publish_txData, Transmitter.line, h]
  exact ⟨rfl, rfl⟩

/-- R45: the shifter IDLE after the last bit, and SENT reported. -/
theorem frameSent_frame (s : State) :
    Frame [.tx, .mail] nothing s (mailSendReport .sent { s with tx := { s.tx with shifter := .idle } }) :=
  (tx_frame { s.tx with shifter := .idle } s).then (mail_frame _ _)

/-! ### The send request (R44, R62) -/

theorem sendRefused_iff (s : State) : sendRefused s = true ↔
    s.tx.shifter ≠ .idle ∨ s.supply.state = .low ∨ s.running = false ∨ s.cycle.synced = false := by
  simp only [sendRefused, Bool.or_eq_true, bne_iff_ne, beq_iff_eq, Bool.not_eq_true', or_assoc]

/-- R66: nothing sent: the outcome goes to the owner alone. -/
theorem settle_notSent_queue {s : State} {id : Nat} (ho : s.cycle.inFlight.owner = .queue id) : settle .notSent s =
    { s with
      cycle := { s.cycle with inFlight := {} }
      mail := { s.mail with queueOuts := s.mail.queueOuts ++ [(id, .notSent)] } } := by
  rw [settle_eq, ho]
  rfl

theorem settle_notSent_call {s : State} {payload : List Byte} (ho : s.cycle.inFlight.owner = .call payload) :
    settle .notSent s = { s with
      cycle := { s.cycle with inFlight := {} }
      mail := { s.mail with callOuts := s.mail.callOuts ++ [.notSent] } } := by
  rw [settle_eq, ho]
  rfl

theorem requestSend_refused {s : State} (h : sendRefused s = true) (kind : Uplink) (payload : List Byte) :
    requestSend kind payload s = settle .notSent s := if_pos h

/-- R32, R44, R62: the frame keyed, its bits spelled, and the record ON_AIR. -/
theorem requestSend_keyed {s : State} (h : ¬ sendRefused s = true) (kind : Uplink) (payload : List Byte) :
    requestSend kind payload s = { s with
      cycle := { s.cycle with inFlight := { s.cycle.inFlight with phase := .onAir } }
      tx := { shifter := .keying, frame := sentBits kind s.working.cab payload, keyed := 0 } } := by
  rw [← frameBits_spelled]
  exact if_neg h

/-- R44: what a keyed frame leaves once the event has ended. -/
def keyedAs (kind : Uplink) (payload : List Byte) (s t : State) : Prop :=
  t.cycle = { s.cycle with inFlight := { s.cycle.inFlight with phase := .onAir } } ∧
  t.tx = { shifter := .keying, frame := sentBits kind s.working.cab payload, keyed := 0 } ∧
  t.mail = s.mail ∧ t.pins.ptt = true ∧ t.pins.txData = .steady true

theorem requestSend_keyedAs {s : State} (h : ¬ sendRefused s = true) (kind : Uplink) (payload : List Byte) :
    keyedAs kind payload s (publish (requestSend kind payload s)) := by
  rw [requestSend_keyed h]
  exact ⟨publish_cycle _, publish_tx _, publish_mail _, publish_keying rfl⟩

/-! ### The slot start (R62) -/

theorem slotReached_of {s : State} {r : BeaconRecord} (hph : s.cycle.inFlight.phase = .chosen)
    (hr : s.cycle.record = some r)
    (h : reached (instantAfter r.endInstant (20 + 10 * s.cycle.inFlight.slot))
      (s.time.seconds * 100 + s.time.phase) = true) : slotReached s = true := by
  unfold slotReached slotInstant
  rw [hph, hr]
  exact h

theorem startSlot_gone {s : State} {id : Nat} (ho : s.cycle.inFlight.owner = .queue id) (h : s.queue.find id = none) :
    startSlot s = { s with cycle := { s.cycle with inFlight := {} } } := by
  unfold startSlot
  rw [ho]
  dsimp only
  rw [h]
  rfl

theorem startSlot_entry {s : State} {id : Nat} {e : Entry} (ho : s.cycle.inFlight.owner = .queue id)
    (h : s.queue.find id = some e) : startSlot s = requestSend e.kind e.payload (markInFlight id s) := by
  unfold startSlot
  rw [ho]
  dsimp only
  rw [h]

theorem startSlot_over {s : State} {payload : List Byte} (ho : s.cycle.inFlight.owner = .call payload)
    (h : s.emergency.kept.state = .idle) : startSlot s = { s with cycle := { s.cycle with inFlight := {} } } := by
  unfold startSlot
  rw [ho]
  exact if_pos h

theorem startSlot_call {s : State} {payload : List Byte} (ho : s.cycle.inFlight.owner = .call payload)
    (h : ¬ s.emergency.kept.state = .idle) : startSlot s = requestSend .emergencyCall payload s := by
  unfold startSlot
  rw [ho]
  exact if_neg h

/-- A call touches nothing of the queue. -/
theorem startSlot_call_frame {s : State} {payload : List Byte} (ho : s.cycle.inFlight.owner = .call payload) :
    Frame [.cycle, .tx, .mail] nothing s (startSlot s) := by
  by_cases h : s.emergency.kept.state = .idle
  · rw [startSlot_over ho h]
    exact (cycle_frame _ s).mono (by decide) fun _ => id
  · rw [startSlot_call ho h]
    exact (requestSend_frame _ _ s).mono (by decide) fun _ => id

/-! ### The report of a sending's end (R63, R66) -/

/-- R66: an outcome that nobody judged: told to the Link Quality Unit and to the owner. -/
def unjudgedBy (c : MissCause) (s t : State) : Prop :=
  t.cycle = { s.cycle with inFlight := {} } ∧
  t.mail = { s.mail with
    linkReports := s.mail.linkReports ++ [.outcome s.cycle.inFlight.owner.isQueue (.missedUnjudged c)]
    queueOuts := s.mail.queueOuts ++ (match s.cycle.inFlight.owner with
      | .queue id => [(id, .missedUnjudged c)]
      | .call _ => [])
    callOuts := s.mail.callOuts ++ (match s.cycle.inFlight.owner with
      | .queue _ => []
      | .call _ => [.missedUnjudged c]) }

theorem settle_unjudged (c : MissCause) (s : State) : unjudgedBy c s (settle (.missedUnjudged c) s) := by
  rw [settle_eq, deliver_eq]
  exact ⟨rfl, rfl⟩

theorem sendReportTaken_cons {s : State} {r : SendReport} {rest : List SendReport} (h : s.mail.sendReports = r :: rest) :
    sendReportTaken s = takeSendReport r { s with mail := { s.mail with sendReports := rest } } := by
  unfold sendReportTaken
  rw [h]

/-- R66: settling adds to no other list. -/
theorem settle_sendReports (o : FrameOutcome) (s : State) : (settle o s).mail.sendReports = s.mail.sendReports := by
  rw [settle_eq, deliver_eq]

/-- R63: the report taken is the only one that leaves. -/
theorem takeSendReport_sendReports (r : SendReport) (s : State) :
    (takeSendReport r s).mail.sendReports = s.mail.sendReports := by
  unfold takeSendReport
  split
  · split
    · rfl
    · exact settle_sendReports _ s
    · exact settle_sendReports _ s
    · rfl
    · rfl
  · rfl

theorem takeSendReport_sent {s : State} (h : s.cycle.inFlight.phase = .onAir) :
    takeSendReport .sent s =
      { s with cycle := { s.cycle with inFlight := { s.cycle.inFlight with phase := .awaiting } } } := if_pos h

theorem takeSendReport_supply {s : State} (h : s.cycle.inFlight.phase = .onAir) :
    takeSendReport (.cut .supply) s = settle (.missedUnjudged .supply) s := if_pos h

theorem takeSendReport_slotEnd {s : State} (h : s.cycle.inFlight.phase = .onAir) :
    takeSendReport (.cut .slotEnd) s = settle (.missedUnjudged .slotEnd) s := if_pos h

theorem takeSendReport_search (s : State) : takeSendReport (.cut .search) s = s := ite_self s

theorem takeSendReport_reset (s : State) : takeSendReport (.cut .reset) s = s := ite_self s

theorem takeSendReport_elsewhere {s : State} (h : s.cycle.inFlight.phase ≠ .onAir) (r : SendReport) :
    takeSendReport r s = s := if_neg h

end Sys2Proof.Machine

namespace Sys2Proof.Proofs

open Sys2Proof.Machine

/-- Settles O41: the pins by the shifter that each of the three events leaves. -/
theorem transmitShifter : Obligations.TransmitShifter := by
  refine ⟨fun s hp hs hk => ?_, fun s hp hs => ?_, fun s hp hs hk => ?_⟩
  · obtain ⟨hx, hg, hf⟩ := event_quiet hp (Bool.and_eq_true_iff.2 ⟨beq_iff_eq.2 hs, decide_eq_true hk⟩)
      (tx_frame { s.tx with shifter := .sending } s)
    obtain ⟨ptt, line⟩ := publish_sending (u := { s with tx := { s.tx with shifter := .sending } }) rfl
    exact ⟨_, hx, publish_tx _, ptt, line, hg, hf⟩
  · obtain ⟨hx, hg, hf⟩ := event_quiet hp (beq_iff_eq.2 hs) (frameSent_frame s)
    obtain ⟨ptt, line⟩ := publish_idle (u := mailSendReport .sent { s with tx := { s.tx with shifter := .idle } }) rfl
    exact ⟨_, hx, publish_tx _, ptt, line, publish_mail _, hg, hf⟩
  · obtain ⟨hx, hg, hf⟩ := event_quiet hp (Bool.and_eq_true_iff.2 ⟨bne_iff_ne.2 hs, decide_eq_true hk⟩)
      (cutSending_frame .slotEnd s)
    obtain ⟨ptt, line⟩ := publish_idle (cutSending_idle .slotEnd s)
    refine ⟨_, hx, ?_, ptt, line, ?_, hg, hf⟩
    · rw [publish_tx, cutSending_eq]
    · rw [publish_mail, cutSending_eq, if_neg hs]

/-- Settles O44: the slot start by who owns the chosen frame, the report by the phase and the report. -/
theorem slotStartAndSendReport : Obligations.SlotStartAndSendReport := by
  refine ⟨fun r s hp hph hr hreach => ?_, fun r rest s hp hrep => ?_⟩
  · have occasion := slotReached_of hph hr hreach
    obtain ⟨hx, hg, hf⟩ := event_quiet hp occasion (startSlot_frame s)
    refine ⟨_, hx, ?_⟩
    cases ho : s.cycle.inFlight.owner with
    | queue id =>
      refine ⟨?_, hg, hf.mono (by decide) fun _ h => h⟩
      cases hq : s.queue.find id with
      | none =>
        rw [startSlot_gone ho hq]
        exact ⟨publish_cycle _, publish_queue _, publish_tx _, publish_mail _⟩
      | some e =>
        rw [startSlot_entry ho hq]
        have same : sendRefused (markInFlight id s) = sendRefused s := rfl
        refine ⟨?_, fun refused => ?_, fun allowed => ?_⟩
        · rw [publish_queue, (requestSend_frame _ _ _).queue (by decide)]
          rfl
        · rw [requestSend_refused (same.trans ((sendRefused_iff s).2 refused)), publish_cycle, publish_tx, publish_mail,
            settle_notSent_queue (s := markInFlight id s) ho]
          exact ⟨rfl, rfl, rfl⟩
        · exact requestSend_keyedAs (s := markInFlight id s) (mt (sendRefused_iff s).1 allowed) e.kind e.payload
    | call payload =>
      refine ⟨?_, hg, (startSlot_call_frame ho).publish⟩
      dsimp only
      split
      next idle =>
        rw [startSlot_over ho idle]
        exact ⟨publish_cycle _, publish_tx _, publish_mail _⟩
      next alert =>
        rw [startSlot_call ho alert]
        refine ⟨fun refused => ?_, fun allowed => ?_⟩
        · rw [requestSend_refused ((sendRefused_iff s).2 refused), publish_cycle, publish_tx, publish_mail,
            settle_notSent_call ho]
          exact ⟨rfl, rfl, rfl⟩
        · exact requestSend_keyedAs (mt (sendRefused_iff s).1 allowed) .emergencyCall payload
  · have occasion : (!s.mail.sendReports.isEmpty) = true := by rw [hrep]; rfl
    obtain ⟨hx, hg, hf⟩ := event_quiet hp occasion (sendReportTaken_frame s)
    let u : State := { s with mail := { s.mail with sendReports := rest } }
    have taken : sendReportTaken s = takeSendReport r u := sendReportTaken_cons hrep
    refine ⟨_, hx, ?_, ?_, hg, hf⟩
    · rw [publish_mail, taken, takeSendReport_sendReports]
    rw [publish_cycle, publish_mail, taken]
    by_cases air : s.cycle.inFlight.phase = .onAir
    · rw [air]
      cases r with
      | sent =>
        rw [takeSendReport_sent (s := u) air]
        exact ⟨rfl, rfl⟩
      | cut cause =>
        cases cause with
        | search =>
          rw [takeSendReport_search u]
          exact ⟨rfl, rfl⟩
        | reset =>
          rw [takeSendReport_reset u]
          exact ⟨rfl, rfl⟩
        | supply =>
          rw [takeSendReport_supply (s := u) air]
          exact settle_unjudged .supply u
        | slotEnd =>
          rw [takeSendReport_slotEnd (s := u) air]
          exact settle_unjudged .slotEnd u
    · rw [takeSendReport_elsewhere (s := u) air]
      split
      · contradiction
      · contradiction
      · contradiction
      · exact ⟨rfl, rfl⟩

end Sys2Proof.Proofs
end

section
/-! The Supply Monitor's sample, a tick of the time base and the end of a chime pulse (R41, R45, R48, R49, R100, R128,
R133, R176, R191 to R193). -/

namespace Sys2Proof.Machine

/-! ### A sample judged (R192) -/

/-- R192: the third sample below the threshold. -/
theorem judged_dips {p : SupplyMonitor} {threshold x : Nat} (h : p.state = .ok ∧ x < threshold ∧ 3 ≤ p.lowRun + 1) :
    p.judged threshold x =
      { state := .low, lowRun := 0, highRun := 0, runLowest := 255, lowest := min p.runLowest x } := by
  obtain ⟨ok, low, run⟩ := h
  unfold SupplyMonitor.judged
  rw [ok]
  exact (if_pos low).trans (if_pos run)

/-- R192: the tenth sample at or above the recovery level. -/
theorem judged_recovers {p : SupplyMonitor} {threshold x : Nat}
    (h : p.state = .low ∧ threshold + 6 ≤ x ∧ 10 ≤ p.highRun + 1) : p.judged threshold x =
      { state := .ok, lowRun := 0, highRun := 0, runLowest := 255, lowest := min p.runLowest x } := by
  obtain ⟨low, high, run⟩ := h
  unfold SupplyMonitor.judged
  rw [low]
  exact (if_pos high).trans (if_pos run)

/-- R192: every other sample moves the runs and the lowest sample alone. -/
theorem judged_stays {p : SupplyMonitor} {threshold x : Nat}
    (h1 : ¬ (p.state = .ok ∧ x < threshold ∧ 3 ≤ p.lowRun + 1))
    (h2 : ¬ (p.state = .low ∧ threshold + 6 ≤ x ∧ 10 ≤ p.highRun + 1)) : p.judged threshold x = { p with
      lowRun := if p.state = .low then p.lowRun else if x < threshold then p.lowRun + 1 else 0
      highRun := if p.state = .ok then p.highRun else if threshold + 6 ≤ x then p.highRun + 1 else 0
      runLowest := if (p.state = .ok ∧ x < threshold) ∨ (p.state = .low ∧ threshold + 6 ≤ x) then min p.runLowest x
        else 255
      lowest := min p.lowest x } := by
  unfold SupplyMonitor.judged
  cases hs : p.state with
  | ok =>
    have run (low : x < threshold) : ¬ 3 ≤ p.lowRun + 1 := fun run => h1 ⟨hs, low, run⟩
    unfold SupplyMonitor.judgedOk
    by_cases low : x < threshold
    · simp [low, run low, hs]
    · simp [low, hs]
  | low =>
    have run (high : threshold + 6 ≤ x) : ¬ 10 ≤ p.highRun + 1 := fun run => h2 ⟨hs, high, run⟩
    unfold SupplyMonitor.judgedLow
    by_cases high : threshold + 6 ≤ x
    · simp [high, run high, hs]
    · simp [high, hs]

/-! ### The change handed on (R193) -/

/-- A sample taken and judged, before a change of state is handed to the neighbours. -/
def sampled (vsup : Nat) (s : State) : State :=
  { s with
    supply := s.supply.judged s.threshold (min 255 vsup)
    due := { s.due with supplySamples := s.due.supplySamples - 1 } }

theorem supplySample_eq (vsup : Nat) (s : State) : supplySample vsup s =
    if (sampled vsup s).supply.state = s.supply.state then sampled vsup s else supplyChanged (sampled vsup s) := rfl

/-- R46, R139: a supply gone LOW cuts a sending and marks the trip. -/
theorem supplyChanged_low {s : State} (h : s.supply.state = .low) : supplyChanged s =
    { setNews .supply s with
      tx := { s.tx with shifter := .idle }
      mail := { s.mail with
        sendReports := s.mail.sendReports ++ (if s.tx.shifter = .idle then [] else [.cut .supply])
        marks := s.mail.marks ++ [.supplyDip] } } := by
  refine (if_pos h).trans ?_
  rw [cutSending_eq]
  rfl

theorem supplyChanged_ok {s : State} (h : s.supply.state = .ok) : supplyChanged s = setNews .supply s := by
  unfold supplyChanged
  exact if_neg (by rw [setNews_supply, h]; decide)

theorem supplyChanged_due (s : State) : (supplyChanged s).due = s.due := by
  cases h : s.supply.state with
  | ok => rw [supplyChanged_ok h, setNews_due]
  | low => rw [supplyChanged_low h, setNews_due]

theorem supplySample_due (vsup : Nat) (s : State) : (supplySample vsup s).due = (sampled vsup s).due := by
  rw [supplySample_eq]
  split
  · rfl
  · exact supplyChanged_due _

/-- R192, R193: a dip is handed on. -/
theorem supplySample_dips {vsup : Nat} {s : State}
    (h : s.supply.state = .ok ∧ min 255 vsup < s.threshold ∧ 3 ≤ s.supply.lowRun + 1) :
    supplySample vsup s = { setNews .supply (sampled vsup s) with
      tx := { s.tx with shifter := .idle }
      mail := { s.mail with
        sendReports := s.mail.sendReports ++ (if s.tx.shifter = .idle then [] else [.cut .supply])
        marks := s.mail.marks ++ [.supplyDip] } } := by
  have low : (sampled vsup s).supply.state = .low := congrArg SupplyMonitor.state (judged_dips h)
  rw [supplySample_eq, if_neg (by rw [low, h.1]; decide), supplyChanged_low low]
  rfl

/-- R192, R193: a recovery is handed on. -/
theorem supplySample_recovers {vsup : Nat} {s : State}
    (h : s.supply.state = .low ∧ s.threshold + 6 ≤ min 255 vsup ∧ 10 ≤ s.supply.highRun + 1) :
    supplySample vsup s = setNews .supply (sampled vsup s) := by
  have ok : (sampled vsup s).supply.state = .ok := congrArg SupplyMonitor.state (judged_recovers h)
  rw [supplySample_eq, if_neg (by rw [ok, h.1]; decide), supplyChanged_ok ok]

/-- R193: without a change of state nothing is handed on. -/
theorem supplySample_stays {vsup : Nat} {s : State}
    (h1 : ¬ (s.supply.state = .ok ∧ min 255 vsup < s.threshold ∧ 3 ≤ s.supply.lowRun + 1))
    (h2 : ¬ (s.supply.state = .low ∧ s.threshold + 6 ≤ min 255 vsup ∧ 10 ≤ s.supply.highRun + 1)) :
    supplySample vsup s = sampled vsup s :=
  if_pos (congrArg SupplyMonitor.state (judged_stays h1 h2))

/-! ### A tick (R41, R45, R48, R49) -/

theorem TimeBase.tick_eq {t : TimeBase} (h : t.phase ≤ 99) : t.tick =
    { phase := (t.phase + 1) % 100
      seconds := if (t.phase + 1) % 100 = 0 then (t.seconds + 1) % 4294967296 else t.seconds } := by
  unfold TimeBase.tick
  split
  next within => rw [Nat.mod_eq_of_lt within, if_neg (Nat.succ_ne_zero _)]
  next last =>
    rw [show t.phase = 99 by omega]
    rfl

theorem Stamp.tick_eq {t : Stamp} (h : t.centis ≤ 99) : t.tick =
    { secs := if t.centis = 99 then (t.secs + 1) % 4294967296 else t.secs
      centis := (t.centis + 1) % 100
      valid := t.valid } := by
  unfold Stamp.tick
  split
  next within => rw [Nat.mod_eq_of_lt within, if_neg (by omega)]
  next last =>
    rw [show t.centis = 99 by omega]
    rfl

/-- R48: a whole-second timer at a tick that does or does not complete a second. -/
def Timer.down (second : Prop) [Decidable second] (r : Timer) : Timer :=
  if second ∧ r.running = true then { r with left := r.left - 1 } else r

theorem Timer.down_eq (second : Prop) [Decidable second] (r : Timer) : r.down second = if second then r.second else r := by
  unfold Timer.down Timer.second
  by_cases h : second <;> simp [h]

/-- R48: the timers of a place of the Offer Table, likewise. -/
theorem OfferPlace.second_eq (p : OfferPlace) : p.second =
    if p.state = .presented then { p with deadline := p.deadline - 1 }
    else if p.state = .accepting then { p with wait := p.wait - 1 }
    else p := by
  unfold OfferPlace.second
  split
  case h_1 presented => rw [if_pos presented]
  case h_2 accepting => rw [if_neg (by rw [accepting]; decide), if_pos accepting]
  case h_3 presented accepting => rw [if_neg presented, if_neg accepting]

/-- What a tick leaves of each part it touches. -/
theorem timeTick_eq (s : State) : timeTick s = { s with
    time := s.time.tick
    cycle := { s.cycle with fleet := s.cycle.fleet.tick }
    chime := s.chime.tick
    rx := s.rx.tick
    tx := s.tx.tick
    due := s.due.tick s.running s.time.tick.phase
    queue := { s.queue with timer := s.queue.timer.down (s.time.tick.phase = 0) }
    msgs := { s.msgs with reminder := s.msgs.reminder.down (s.time.tick.phase = 0) }
    emergency := { s.emergency with tracking := s.emergency.tracking.down (s.time.tick.phase = 0) }
    offers := { s.offers with
      places := if s.time.tick.phase = 0 then s.offers.places.map OfferPlace.second else s.offers.places
      baseTimer := s.offers.baseTimer.down (s.time.tick.phase = 0) } } := by
  unfold timeTick
  simp only [Timer.down_eq]
  split
  · rfl
  · rfl

/-- R128, R133, R176, R191: what falls due. -/
theorem Due.tick_eq (running : Bool) (phase : Nat) (d : Due) : d.tick running phase =
    { inputSamples := d.inputSamples + 1
      supplySamples := if phase % 10 = 0 then d.supplySamples + 1 else d.supplySamples
      meterTicks := if running = true ∧ phase % 10 = 0 then d.meterTicks + 1 else d.meterTicks
      windows := if running = true ∧ phase = 0 then d.windows + 1 else d.windows } := by
  simp only [Due.tick, Bool.and_eq_true, beq_iff_eq]

end Sys2Proof.Machine

namespace Sys2Proof.Proofs

open Sys2Proof.Machine

/-- Settles O59: by what the sample is judged to be. -/
theorem supplySample : Obligations.SupplySample := by
  intro vsup s hp hd
  have hx := event_next (u := Machine.supplySample vsup s) hp (decide_eq_true hd)
  have hf := (supplySample_frame vsup s).publish.mono
    (b := withEnds [.supply, .due, .tx, .mail]) (by decide) fun _ h => h
  refine ⟨_, hx, ?_, ?_, hf⟩
  · rw [publish_due, supplySample_due]
    rfl
  dsimp only
  split
  next dips =>
    rw [supplySample_dips dips]
    exact ⟨(publish_supply _).trans (judged_dips dips), publish_tx _, (publish_idle rfl).1, publish_mail _,
      gains_publish rfl⟩
  next steady =>
    split
    next recovers =>
      rw [supplySample_recovers recovers]
      exact ⟨(publish_supply _).trans (judged_recovers recovers), publish_tx _, publish_mail _, gains_publish rfl⟩
    next stays =>
      rw [supplySample_stays steady stays]
      exact ⟨(publish_supply _).trans (judged_stays steady stays), publish_tx _, publish_mail _,
        gains_publish_zero rfl⟩

/-- Settles O60: the tick part by part (`timeTick_eq`), each in the terms of the phase it leaves. -/
theorem timeBaseTickAndChimeEnd : Obligations.TimeBaseTickAndChimeEnd := by
  refine ⟨fun s hp hph hc => ?_, fun s hp hh ht => ?_⟩
  · obtain ⟨hx, hg, hf⟩ := event_quiet hp rfl (timeTick_frame s)
    have second : s.time.tick.phase = (s.time.phase + 1) % 100 := by rw [TimeBase.tick_eq hph]
    refine ⟨_, hx, ?_, ?_, ?_, ?_, ?_, ?_, ⟨?_, ?_, ?_, ?_⟩, fun j => ?_, publish_lampShows _, hg,
      hf.mono (by decide) fun _ h => h⟩
    · rw [publish_time, timeTick_eq, ← TimeBase.tick_eq hph]
    · rw [publish_cycle, timeTick_eq, ← Stamp.tick_eq hc]
    · rw [publish_chime, timeTick_eq]
      rfl
    · rw [publish_tx, timeTick_eq]
      rfl
    · rw [publish_rx, timeTick_eq]
      rfl
    · rw [publish_due, timeTick_eq, ← second, ← Due.tick_eq]
    · rw [publish_queue, timeTick_eq, ← second]
      rfl
    · rw [publish_msgs, timeTick_eq, ← second]
      rfl
    · rw [publish_emergency, timeTick_eq, ← second]
      rfl
    · rw [publish_offers, timeTick_eq, ← second]
      rfl
    · rw [publish_offers, timeTick_eq, ← second]
      dsimp only
      by_cases h : s.time.tick.phase = 0
      · rw [if_pos h]
        refine (Vector.getElem_map _ _).trans ((OfferPlace.second_eq _).trans ?_)
        simp only [h, true_and, pick]
      · simp only [h, false_and, if_false]
  · obtain ⟨hx, hg, hf⟩ := event_quiet hp (Bool.and_eq_true_iff.2 ⟨hh, beq_iff_eq.2 ht⟩)
      (chime_frame { s.chime with high := false } s)
    refine ⟨_, hx, ?_, publish_chimePin _, hg, hf⟩
    rw [publish_chime]
    exact congrArg (Chime.mk false) ht

end Sys2Proof.Proofs
end

section
/-! The settling of the frame in flight, and the supervision deadline reached: the miss counted, and the third miss in a
row (R52, R53, R57, R64 to R66). -/

namespace Sys2Proof.Machine

/-! ### Settling (R64 to R66) -/

/-- R66: what the Link Quality Unit is told of an outcome, or of none. -/
def linkTold (owner : Owner) : Option FrameOutcome → List LinkReport
  | none => []
  | some .notSent => []
  | some .abandoned => []
  | some o => [.outcome owner.isQueue o]

/-- R66: what the queue is told, where it owns the frame. -/
def queueTold : Owner → Option FrameOutcome → List (Nat × FrameOutcome)
  | .queue id, some o => [(id, o)]
  | _, _ => []

/-- R66: what the Emergency Unit is told, where it owns the frame. -/
def callTold (owner : Owner) (o : Option FrameOutcome) : List FrameOutcome := if owner.isQueue then [] else o.toList

/-- R66: the mail with an outcome delivered, or as it was. -/
def Mail.delivered (owner : Owner) (o : Option FrameOutcome) (m : Mail) : Mail :=
  { m with
    linkReports := m.linkReports ++ linkTold owner o
    queueOuts := m.queueOuts ++ queueTold owner o
    callOuts := m.callOuts ++ callTold owner o }

/-- R66: the frame in flight settled, where there is an outcome. -/
def State.settledBy (o : Option FrameOutcome) (s : State) : State :=
  { s with
    cycle := { s.cycle with inFlight := if o = none then s.cycle.inFlight else {} }
    mail := s.mail.delivered s.cycle.inFlight.owner o }

theorem delivered_none (owner : Owner) (m : Mail) : m.delivered owner none = m := by
  cases owner <;> simp [Mail.delivered, linkTold, queueTold, callTold]

theorem settledBy_none (s : State) : s.settledBy none = s := by
  unfold State.settledBy
  rw [delivered_none, if_pos rfl]

theorem settle_settledBy (o : FrameOutcome) (s : State) : settle o s = s.settledBy (some o) := by
  rw [settle_eq, deliver_eq]
  unfold State.settledBy Mail.delivered
  dsimp only
  cases s.cycle.inFlight.owner <;> cases o <;> rfl

theorem settleByMiss_settledBy (s : State) : settleByMiss s = s.settledBy (missOutcome s.cycle.inFlight.phase) := by
  unfold settleByMiss
  split
  next none => rw [none, settledBy_none]
  next o some => rw [some, settle_settledBy]

/-! ### The deadline reached (R52, R53) -/

/-- R52: the miss counted and reported, the frame in flight settled and the deadline moved on. -/
def State.missCounted (d : Nat) (s : State) : State :=
  let t := (mailLink .beaconMissed s).settledBy (missOutcome s.cycle.inFlight.phase)
  { t with cycle := { t.cycle with
      missedRun := bump 3 s.cycle.missedRun
      deadline := some (instantAfter d (10 * (s.cycle.record.map (·.interval)).getD 0)) } }

theorem missBeacon_eq (d : Nat) (s : State) : missBeacon d s =
    if bump 3 s.cycle.missedRun = 3 then loseSync (s.missCounted d) else s.missCounted d := by
  unfold missBeacon
  simp only [settleByMiss_settledBy]
  rfl

theorem missBeacon_early {s : State} (h : ¬ min 3 (s.cycle.missedRun + 1) = 3) (d : Nat) :
    missBeacon d s = s.missCounted d := (missBeacon_eq d s).trans (if_neg h)

theorem missBeacon_third {s : State} (h : min 3 (s.cycle.missedRun + 1) = 3) (d : Nat) :
    missBeacon d s = loseSync (s.missCounted d) := (missBeacon_eq d s).trans (if_pos h)

/-- R53: the Cycle Tracker in SEARCH, the loss reported and a sending cut. -/
theorem loseSync_eq (s : State) : loseSync s = { s with
    cycle := { s.cycle with
      synced := false, deadline := none, missedRun := 0, skip := 0, missRun := 0, spacing := 3 }
    tx := { s.tx with shifter := .idle }
    mail := { s.mail with
      linkReports := s.mail.linkReports ++ [.syncLost]
      sendReports := s.mail.sendReports ++ (if s.tx.shifter = .idle then [] else [.cut .search]) } } := by
  unfold loseSync
  rw [cutSending_eq]
  rfl

theorem missCounted_phase (d : Nat) (s : State) : (s.missCounted d).cycle.inFlight.phase = .none := by
  have settled := settleByMiss_phase (mailLink .beaconMissed s)
  rwa [settleByMiss_settledBy] at settled

theorem missCounted_frame (d : Nat) (s : State) : Frame [.cycle, .mail] nothing s (s.missCounted d) :=
  (cycle_frame (s.missCounted d).cycle s).then (mail_frame (s.missCounted d).mail _)

/-- R65: what the Link Quality Unit is told of a frame that no beacon came for. -/
theorem linkTold_miss (owner : Owner) (p : Phase) : linkTold owner (missOutcome p) =
    match missOutcome p with
    | some (.missedUnjudged c) => [.outcome owner.isQueue (.missedUnjudged c)]
    | _ => [] := by
  cases p <;> rfl

theorem deadlineReached_of {s : State} {d : Nat} (synced : s.cycle.synced = true) (hd : s.cycle.deadline = some d)
    (h : reached d (s.time.seconds * 100 + s.time.phase) = true) : deadlineReached s = true := by
  unfold deadlineReached
  rw [synced, hd]
  exact h

theorem exec_beaconMissed {s : State} {d : Nat} (hp : s.powered = true) (synced : s.cycle.synced = true)
    (hd : s.cycle.deadline = some d) (h : reached d (s.time.seconds * 100 + s.time.phase) = true) :
    exec .beaconMissed s = .next (publish (missBeacon d s)) := by
  change event (deadlineReached s) _ s = _
  rw [event_next hp (deadlineReached_of synced hd h), hd]

/-- R66: an outcome goes to the owner of the frame alone. -/
theorem delivered_owner (o : Option FrameOutcome) (owner : Owner) (m t : Mail) : t = m.delivered owner o →
    match o, owner with
    | some o, .queue id => t.queueOuts = m.queueOuts ++ [(id, o)] ∧ t.callOuts = m.callOuts
    | some o, .call _ => t.callOuts = m.callOuts ++ [o] ∧ t.queueOuts = m.queueOuts
    | none, _ => t.queueOuts = m.queueOuts ∧ t.callOuts = m.callOuts := by
  rintro rfl
  cases o <;> cases owner <;> simp [Mail.delivered, queueTold, callTold, Owner.isQueue]

end Sys2Proof.Machine

namespace Sys2Proof.Proofs

open Sys2Proof.Machine

/-- Settles O43: by whether this is the third miss in a row. -/
theorem beaconMissed : Obligations.BeaconMissed := by
  intro d s hp synced hd hr
  refine ⟨_, exec_beaconMissed hp synced hd hr, ?_⟩
  intro run interval outcome told
  have frame := missCounted_frame d s
  have phase := missCounted_phase d s
  have reports : (s.missCounted d).mail.linkReports = s.mail.linkReports ++ told := by
    change (s.mail.linkReports ++ [LinkReport.beaconMissed]) ++ linkTold s.cycle.inFlight.owner outcome = _
    rw [linkTold_miss, List.append_assoc]
    rfl
  have owners := delivered_owner outcome s.cycle.inFlight.owner _ (s.missCounted d).mail rfl
  by_cases third : run = 3
  · have news : gains 0 s (publish (missBeacon d s)) :=
      gains_publish_zero ((missBeacon_frame d s).attention (by decide))
    have frame := (missBeacon_frame d s).publish
    rw [if_pos third]
    rw [missBeacon_third third, loseSync_eq] at news frame ⊢
    rw [publish_cycle, publish_mail, publish_tx]
    exact ⟨rfl, rfl, rfl, phase, rfl, owners, ⟨rfl, rfl, rfl, rfl, rfl, rfl, rfl,
      congrArg (· ++ [LinkReport.syncLost]) reports, rfl, frame.mono (by decide) fun _ => id⟩, news⟩
  · rw [if_neg third, missBeacon_early third]
    rw [publish_cycle, publish_mail]
    exact ⟨rfl, rfl, rfl, phase, rfl, owners, ⟨synced, rfl, rfl, rfl, rfl, rfl, reports, rfl, frame.publish⟩,
      gains_publish_zero rfl⟩

end Sys2Proof.Proofs
end

section
/-! A good beacon, up to the choice: the frame in flight settled, the record stored, and the deliveries taken (R49 to
R51, R57, R58, R64, R71, R79, R182, R184). -/

namespace Sys2Proof.Machine

/-! ### Settled by a beacon (R51, R57, R58, R64) -/

/-- R51, R64: the outcome that a good beacon gives; none in SEARCH. -/
def State.judgedBy (acks : List Nat) (s : State) : Option FrameOutcome :=
  if s.cycle.synced then beaconOutcome s.working.cab acks s.cycle.inFlight.phase else none

/-- R55, R57, R58: the generator, the miss run and the skip count after the outcome of an ordinary frame. -/
def CycleTracker.counted (ordinary : Bool) (o : Option FrameOutcome) (c : CycleTracker) : CycleTracker :=
  let lfsr := if ordinary = true ∧ o = some .missed then advance c.lfsr else c.lfsr
  { c with
    lfsr := lfsr
    missRun := if ordinary = true ∧ o = some .missed then bump 255 c.missRun
      else if ordinary = true ∧ o = some .acknowledged then 0 else c.missRun
    skip := if ordinary = true ∧ o = some .missed then lfsr.toNat % 2 ^ min (bump 255 c.missRun) 4 else c.skip }

theorem counted_none (ordinary : Bool) (c : CycleTracker) : c.counted ordinary none = c := by
  simp [CycleTracker.counted]

theorem countOutcome_counted (owner : Owner) (o : FrameOutcome) (s : State) :
    countOutcome owner o s = { s with cycle := s.cycle.counted owner.isQueue (some o) } := by
  unfold countOutcome
  cases owner.isQueue with
  | false => rfl
  | true => cases o <;> rfl

/-- R50, R51, steps 1 to 3: the beacon taken from the routing, the frame in flight settled, and the record and fleet
time set. -/
def State.recorded (h : HeldFrame) (cycle secs interval slots : Nat) (acks : List Nat) (s : State) : State :=
  let t := takenByOwner s
  storeBeacon h.endInstant cycle secs interval slots (if t.cycle.synced then settleByBeacon acks t else t)

theorem takeBeacon_eq (first : Bool) (h : HeldFrame) (cycle secs interval slots : Nat) (acks : List Nat) (s : State) :
    takeBeacon first h cycle secs interval slots acks s =
      chooseFrame (linkBeforeChoice first (takeDeliveries (s.recorded h cycle secs interval slots acks))) := rfl

theorem settleIfSynced_eq (acks : List Nat) (s : State) :
    (if s.cycle.synced then settleByBeacon acks s else s) =
      { s.settledBy (s.judgedBy acks) with
        cycle := (s.settledBy (s.judgedBy acks)).cycle.counted s.cycle.inFlight.owner.isQueue (s.judgedBy acks) } := by
  unfold State.judgedBy settleByBeacon
  split
  next synced =>
    split
    next none => rw [none, counted_none, settledBy_none]
    next o some => rw [some, settle_settledBy, countOutcome_counted]
  next search => rw [counted_none, settledBy_none]

section
variable (h : HeldFrame) (cycle secs interval slots : Nat) (acks : List Nat) (s : State)

theorem recorded_eq : s.recorded h cycle secs interval slots acks =
    storeBeacon h.endInstant cycle secs interval slots
      { (takenByOwner s).settledBy (s.judgedBy acks) with
        cycle := ((takenByOwner s).settledBy (s.judgedBy acks)).cycle.counted s.cycle.inFlight.owner.isQueue
          (s.judgedBy acks) } := by
  unfold State.recorded
  dsimp only
  rw [settleIfSynced_eq]
  rfl

theorem recorded_mail : (s.recorded h cycle secs interval slots acks).mail =
    s.mail.delivered s.cycle.inFlight.owner (s.judgedBy acks) := by
  rw [recorded_eq]
  rfl

theorem recorded_rx : (s.recorded h cycle secs interval slots acks).rx = (takenByOwner s).rx := by
  rw [recorded_eq]
  rfl

theorem recorded_frame : Frame [.rx, .cycle, .mail] nothing s (s.recorded h cycle secs interval slots acks) := by
  have settled : Frame [.cycle, .mail] nothing (takenByOwner s)
      (if (takenByOwner s).cycle.synced then settleByBeacon acks (takenByOwner s) else takenByOwner s) :=
    (settleByBeacon_frame acks _).ite (Frame.refl_of _)
  exact (((takenByOwner_frame s).then settled).then (storeBeacon_frame _ _ _ _ _ _)).mono (by decide) fun _ => id

/-- R49 to R51, R57, R58: what the beacon has made of the Cycle Tracker before the choice. -/
def State.recordedCycle : CycleTracker :=
  { s.cycle.counted s.cycle.inFlight.owner.isQueue (s.judgedBy acks) with
    synced := true
    record := some { endInstant := h.endInstant, cycle := cycle, interval := interval, slots := slots }
    fleet := beaconTime secs (ticksFrom h.endInstant (s.time.seconds * 100 + s.time.phase))
    missedRun := 0
    deadline := some (instantAfter h.endInstant (15 * interval))
    inFlight := if s.judgedBy acks = none then s.cycle.inFlight else {} }

theorem recorded_cycle : (s.recorded h cycle secs interval slots acks).cycle =
    s.recordedCycle h cycle secs interval slots acks := by
  rw [recorded_eq]
  rfl

end

theorem beaconOutcome_none {cab : Nat} {acks : List Nat} {p : Phase} (h : beaconOutcome cab acks p = none) :
    p = .none := by
  cases p with
  | none => rfl
  | chosen => cases h
  | onAir => cases h
  | awaiting => cases h

/-- R51, R53: nothing is in flight when the choice is made. -/
theorem recordedCycle_phase {s : State} (sound : s.trackerSound) (h : HeldFrame) (cycle secs interval slots : Nat)
    (acks : List Nat) : (s.recordedCycle h cycle secs interval slots acks).inFlight.phase = .none := by
  unfold State.recordedCycle
  dsimp only
  split
  next unjudged =>
    cases synced : s.cycle.synced with
    | false => exact sound synced
    | true => exact beaconOutcome_none ((if_pos synced).symm.trans unjudged)
  next => rfl

/-! ### Call outcomes (R182, R184) -/

theorem settled_withCallOutcome (o : FrameOutcome) (e : EmergencyUnit) :
    (if e.callInHand then e.settled o else e) = withCallOutcome o e := by
  unfold withCallOutcome
  cases hand : e.callInHand with
  | false => rfl
  | true =>
    unfold EmergencyUnit.settled
    cases state : e.kept.state <;> cases o <;> simp [pacingAfter, dueAfter, FrameOutcome.callResult]

theorem takesCallOutcome_emergency (o : FrameOutcome) (s : State) :
    (takesCallOutcome o s).emergency = withCallOutcome o s.emergency := by
  rw [← settled_withCallOutcome]
  unfold takesCallOutcome
  split <;> rfl

theorem drainCallOuts_emergency (l : List FrameOutcome) (s : State) :
    (drainCallOuts l s).emergency = l.foldl (fun u o => withCallOutcome o u) s.emergency := by
  induction l generalizing s with
  | nil => rfl
  | cons o l ih => rw [drainCallOuts, ih, takesCallOutcome_emergency, List.foldl_cons]

/-! ### Queue outcomes (R71, R79) -/

/-- What a run of outcomes makes of the queue and of what its makers are told. -/
def State.queueTurn (s : State) (tail : List Byte) (now : Stamp) (outs : List (Nat × FrameOutcome)) : QueueTurn :=
  outs.foldl (QueueTurn.after tail now s) (.start s)

/-- A turn whose mail, but for what the makers are told, is another. -/
def QueueTurn.withMail (m : Mail) (r : QueueTurn) : QueueTurn :=
  { r with mail := { m with
      undelivered := r.mail.undelivered, sendNotices := r.mail.sendNotices, reportsDone := r.mail.reportsDone } }

/-- R80: an outcome tells the makers alone. -/
theorem after_withMail (tail : List Byte) (now : Stamp) (s : State) (m : Mail) (r : QueueTurn)
    (x : Nat × FrameOutcome) : (r.withMail m).after tail now s x = (r.after tail now s x).withMail m := by
  unfold QueueTurn.after
  change (match r.queue.find x.1 with | none => _ | some e => _) = _
  cases r.queue.find x.1 <;> rfl

theorem after_congr {s t : State} (h1 : t.running = s.running) (h2 : t.store = s.store) (tail : List Byte)
    (now : Stamp) : QueueTurn.after tail now t = QueueTurn.after tail now s := by
  funext r x
  unfold QueueTurn.after
  rw [h1, h2]

/-- R71: what the outcomes move is told by the queue, the note, the part state and the Record Store alone. -/
theorem queueTurn_congr {s t : State} (h1 : t.running = s.running) (h2 : t.store = s.store) (h3 : t.queue = s.queue)
    (h4 : t.note = s.note) (h5 : t.mail.undelivered = s.mail.undelivered) (h6 : t.mail.sendNotices = s.mail.sendNotices)
    (h7 : t.mail.reportsDone = s.mail.reportsDone) (tail : List Byte) (now : Stamp) (outs : List (Nat × FrameOutcome)) :
    t.queueTurn tail now outs = (s.queueTurn tail now outs).withMail t.mail := by
  have start : QueueTurn.start t = (QueueTurn.start s).withMail t.mail := by
    unfold QueueTurn.start QueueTurn.withMail
    rw [h3, h4, ← h5, ← h6, ← h7]
  unfold State.queueTurn
  rw [after_congr h1 h2, start]
  exact List.foldl_hom (QueueTurn.withMail t.mail) fun r x => after_withMail tail now s t.mail r x

/-- R76: the status a turn makes is the one that a state after it spells, once a position has been taken. -/
theorem queueTurn_status {s t : State} (hf : t.fare = s.fare) (ho : t.offers = s.offers) (hr : t.msgs.rnr = s.msgs.rnr)
    (ht : t.time = s.time) (now : Stamp) (outs : List (Nat × FrameOutcome))
    (hc : (s.queueTurn (freshStatus s) now outs).taken = true → t.port.posCopy = positionTaken s) :
    s.queueTurn (statusBytes t) now outs = s.queueTurn (freshStatus s) now outs := by
  cases taken : (s.queueTurn (freshStatus s) now outs).taken with
  | false => exact turns_untaken (freshStatus s) _ now s outs _ taken
  | true =>
    have fresh : statusBytes t = freshStatus s :=
      statusBytes_congr (s := { s with port := { s.port with posCopy := positionTaken s } }) hf ho hr ht (hc taken)
    rw [fresh]

/-! ### The deliveries taken (R71, R182) -/

/-- R182: the state in which the queue takes its outcomes. -/
def State.callsTaken (s : State) : State :=
  let t := drainCallOuts s.mail.callOuts { s with mail := { s.mail with callOuts := [] } }
  { t with mail := { t.mail with queueOuts := [] } }

theorem callsTaken_mail (s : State) : s.callsTaken.mail = { s.mail with callOuts := [], queueOuts := [] } := by
  have kept := (drainCallOuts_frame s.mail.callOuts { s with mail := { s.mail with callOuts := [] } }).mail (by decide)
  unfold State.callsTaken
  dsimp only
  rw [kept]

theorem callsTaken_frame (s : State) : Frame [.mail, .emergency, .ram] nothing s s.callsTaken :=
  (((mail_frame _ s).then (drainCallOuts_frame _ _)).then (mail_frame _ _)).mono (by decide) fun _ => id

theorem callsTaken_emergency (s : State) :
    s.callsTaken.emergency = s.mail.callOuts.foldl (fun u o => withCallOutcome o u) s.emergency :=
  drainCallOuts_emergency s.mail.callOuts { s with mail := { s.mail with callOuts := [] } }

theorem takeDeliveries_eq (s : State) : takeDeliveries s = s.callsTaken.turned
    (s.callsTaken.queueTurn (freshStatus s.callsTaken) s.cycle.fleet s.mail.queueOuts) := by
  have kept := drainCallOuts_frame s.mail.callOuts { s with mail := { s.mail with callOuts := [] } }
  have outs := congrArg Mail.queueOuts (kept.mail (by decide))
  have fleet := congrArg CycleTracker.fleet ((callsTaken_frame s).cycle (by decide))
  unfold takeDeliveries
  dsimp only
  rw [outs, ← fleet]
  exact drainQueueOuts_turned _ s.callsTaken (.start s.callsTaken)

/-- R9: a position taken, or not, leaves the next taking as it was. -/
theorem positionTaken_copied {s t : State} (hw : t.port.posWritten = s.port.posWritten)
    (hc : t.port.posCopy = positionTaken s ∨ t.port.posCopy = s.port.posCopy)
    (hm : ∀ a, 0x0200 ≤ a → a < 0x0220 → Memory.get t.ram a = Memory.get s.ram a) :
    positionTaken t = positionTaken s :=
  (positionTaken_congr (s := { s with port := { s.port with posCopy := t.port.posCopy } }) hw rfl hm).trans
    (positionTaken_again s _ hc)

/-- R71, R79, R80, R182: what the deliveries leave, seen from before the beacon, of whose frame `v` is the outcome. -/
theorem takeDeliveries_turn {s v : State} (f : Frame [.free, .rx, .cycle, .mail] nothing s v)
    (h1 : v.mail.undelivered = s.mail.undelivered) (h2 : v.mail.sendNotices = s.mail.sendNotices)
    (h3 : v.mail.reportsDone = s.mail.reportsDone) :
    takeDeliveries v = v.callsTaken.turned
      ((s.queueTurn (freshStatus s) v.cycle.fleet v.mail.queueOuts).withMail
        { v.mail with callOuts := [], queueOuts := [] }) ∧ positionTaken v.callsTaken = positionTaken s := by
  have g := f.then (callsTaken_frame v)
  have position : positionTaken v.callsTaken = positionTaken s :=
    g.positionTaken (by decide) (by decide) fun _ _ _ => id
  have fresh : freshStatus v.callsTaken = freshStatus s :=
    statusBytes_congr (g.fare (by decide)) (g.offers (by decide)) (congrArg _ (g.msgs (by decide)))
      (g.time (by decide)) position
  have mail := callsTaken_mail v
  rw [takeDeliveries_eq, fresh, queueTurn_congr (g.running (by decide)) (g.store (by decide)) (g.queue (by decide))
    (g.note (by decide)) (by rw [mail, h1]) (by rw [mail, h2]) (by rw [mail, h3]), mail]
  exact ⟨rfl, position⟩

end Sys2Proof.Machine
end

section
/-! What the Link Quality Unit takes before the choice (R61, R84, R87). -/

namespace Sys2Proof.Machine

/-- Two states agree on all that the Link Quality Unit reads and moves. -/
def LinkAgrees (s t : State) : Prop :=
  t.link = s.link ∧ t.settings = s.settings ∧ t.port.attention = s.port.attention

theorem LinkAgrees.news {s t : State} (h : LinkAgrees s t) (c : Bool) (n : News) :
    LinkAgrees (newsIf c n s) (newsIf c n t) := by
  obtain ⟨link, settings, attention⟩ := h
  cases c with
  | false => exact ⟨link, settings, attention⟩
  | true => exact ⟨link, settings, congrArg (· ||| n.mask) attention⟩

theorem LinkAgrees.setLink {s t : State} (h : LinkAgrees s t) (f : LinkUnit → LinkUnit) :
    LinkAgrees { s with link := f s.link } { t with link := f t.link } := by
  obtain ⟨link, settings, attention⟩ := h
  exact ⟨congrArg f link, settings, attention⟩

theorem LinkAgrees.relinked {s t : State} (h : LinkAgrees s t) : LinkAgrees (relink s) (relink t) := by
  have ⟨link, settings, _⟩ := h
  have changed := h.setLink fun l => { l with state := deriveLink (!s.running) s.link }
  rw [relink_eq, relink_eq, running_of_settings settings, link]
  rw [link] at changed
  exact changed.news _ _

theorem LinkAgrees.logged {s t : State} (h : LinkAgrees s t) (f : LinkUnit → LinkUnit) :
    LinkAgrees (loggedChange f s) (loggedChange f t) := by
  have overflows : t.link.overflows = s.link.overflows := congrArg _ h.1
  unfold loggedChange
  rw [overflows]
  exact ((h.setLink f).news _ _).relinked

/-- R84, R87: a report is taken alike in both. -/
theorem LinkAgrees.takes {s t : State} (h : LinkAgrees s t) (r : LinkReport) :
    LinkAgrees (linkTakes r s) (linkTakes r t) := by
  cases r with
  | beaconMissed => exact h.logged _
  | syncLost => exact (h.setLink fun l => { l with searching := true, lastError := .syncLost }).relinked
  | outcome ofQueue o =>
    cases ofQueue with
    | false => exact h
    | true =>
      cases o with
      | acknowledged => exact (h.setLink LinkUnit.acknowledged).relinked
      | missed => exact h.logged _
      | missedUnjudged => exact h
      | notSent => exact h
      | abandoned => exact h

theorem LinkAgrees.drain {s t : State} (h : LinkAgrees s t) (l : List LinkReport) :
    LinkAgrees (drainLinkReports l s) (drainLinkReports l t) := by
  induction l generalizing s t with
  | nil => exact h
  | cons r l ih => exact ih (h.takes r)

/-- R61: the unit has taken none of its reports, or all of them. -/
theorem linkBeforeChoice_cases (first : Bool) (s : State) : linkBeforeChoice first s = s ∨
    linkBeforeChoice first s =
      drainLinkReports s.mail.linkReports { s with mail := { s.mail with linkReports := [] } } := by
  unfold linkBeforeChoice
  split
  next => exact .inl rfl
  next =>
    split
    next => exact .inr rfl
    next => exact .inl rfl

/-- R61, R84, R87: the unit before the choice, where `s` has the link and the news from before the beacon. -/
theorem linkBeforeChoice_spec {s w : State} (h : LinkAgrees s w) (first : Bool) :
    let x := linkBeforeChoice first w
    let told := w.mail.linkReports
    x.mail = { w.mail with linkReports := x.mail.linkReports } ∧
    ((x.mail.linkReports = told ∧ LinkAgrees s x) ∨
      (x.mail.linkReports = [] ∧ LinkAgrees (drainLinkReports told s) x)) := by
  obtain none | all := linkBeforeChoice_cases first w
  · rw [none]
    exact ⟨rfl, .inl ⟨rfl, h⟩⟩
  · have drained : LinkAgrees s { w with mail := { w.mail with linkReports := [] } } := h
    have mail := (drainLinkReports_frame w.mail.linkReports { w with mail := { w.mail with linkReports := [] } }).mail
      (by decide)
    rw [all]
    refine ⟨?_, .inr ⟨congrArg Mail.linkReports mail, drained.drain _⟩⟩
    rw [mail]

end Sys2Proof.Machine
end

section
/-! The choice of a frame for a cycle (R54 to R56, R59 to R61, R71, R182, R183). -/

namespace Sys2Proof.Machine

/-! ### The head of the queue (R71) -/

theorem headEntry_exists {l : List Entry} (h : l ≠ []) : ∃ e, headEntry l = some e := by
  cases l with
  | nil => exact absurd rfl h
  | cons e l =>
    unfold headEntry
    split
    next => exact ⟨e, rfl⟩
    next => split <;> exact ⟨_, rfl⟩

/-- R71: the head is of the lowest class held, and of its class the first admitted. -/
theorem headEntry_spec {l : List Entry} {e : Entry} (h : headEntry l = some e) :
    e ∈ l ∧ (∀ y ∈ l, e.kind.cls ≤ y.kind.cls) ∧ l.find? (fun y => y.kind.cls == e.kind.cls) = some e := by
  induction l generalizing e with
  | nil => cases h
  | cons x l ih =>
    rw [headEntry] at h
    cases tail : headEntry l with
    | none =>
      rw [tail] at h
      obtain rfl := Option.some.inj h
      have empty : l = [] := by
        by_contra held
        obtain ⟨y, some⟩ := headEntry_exists held
        exact absurd (tail.symm.trans some) nofun
      subst empty
      simp
    | some y =>
      rw [tail] at h
      obtain ⟨mem, least, first⟩ := ih tail
      dsimp only at h
      split at h
      next le =>
        obtain rfl := Option.some.inj h
        refine ⟨List.mem_cons_self, fun z hz => ?_, List.find?_cons_of_pos (beq_self_eq_true _)⟩
        obtain rfl | hz := List.mem_cons.1 hz
        · exact Nat.le_refl _
        · exact Nat.le_trans le (least z hz)
      next gt =>
        obtain rfl := Option.some.inj h
        refine ⟨List.mem_cons_of_mem _ mem, fun z hz => ?_, ?_⟩
        · obtain rfl | hz := List.mem_cons.1 hz
          · exact Nat.le_of_not_le gt
          · exact least z hz
        · rw [List.find?_cons_of_neg (by simp only [beq_iff_eq]; omega)]
          exact first

/-! ### The question (R60, R182) -/

/-- R55, R182: the generator after the question. -/
def State.retryDrawn (s : State) : Word :=
  if s.emergency.kept.state = .alerting ∧ s.emergency.pacing = .retry then advance s.cycle.lfsr else s.cycle.lfsr

/-- R182: the state after the question. -/
def State.questioned (s : State) : State :=
  { s with cycle := { s.cycle with lfsr := s.retryDrawn }, emergency := s.emergency.asked }

/-- R182: a call is offered. -/
def State.offersCall (s : State) : Bool := s.emergency.offers s.retryDrawn

theorem wantsDraw_iff (e : EmergencyUnit) : e.wantsDraw = true ↔ e.kept.state = .alerting ∧ e.pacing = .retry := by
  rw [EmergencyUnit.wantsDraw, Bool.and_eq_true, beq_iff_eq, beq_iff_eq]

theorem askCall_eq (s : State) : askCall s = (s.offersCall, s.questioned) := by
  unfold askCall State.offersCall State.questioned State.retryDrawn
  by_cases drawn : s.emergency.wantsDraw = true
  · rw [if_pos drawn, if_pos ((wantsDraw_iff _).1 drawn)]
    rfl
  · rw [if_neg drawn, if_neg (mt (wantsDraw_iff _).2 drawn)]

/-- R182: when a call is offered, by the emergency state and the pacing. -/
theorem offers_spelled (draw : Word) (e : EmergencyUnit) : e.offers draw = match e.kept.state, e.pacing with
    | .idle, _ => false
    | .alerting, .ready => true
    | .alerting, .spacing _ => false
    | .alerting, .retry => draw.getLsbD 0
    | .acknowledged, _ => e.callDue := by
  unfold EmergencyUnit.offers
  cases e.kept.state with
  | idle => rfl
  | alerting => cases e.pacing <;> rfl
  | acknowledged => rfl

/-- R60, R183: a call goes before every ordinary frame. -/
theorem chooseFrame_call {s : State} (offered : s.offersCall = true) (ok : s.supply.state = .ok) :
    chooseFrame s = chooseCall s.questioned := by
  unfold chooseFrame
  rw [askCall_eq]
  exact (if_pos offered).trans (if_pos ok)

theorem chooseFrame_refused {s : State} (offered : s.offersCall = true) (low : s.supply.state ≠ .ok) :
    chooseFrame s = chooseOrdinary (callRefused s.questioned) := by
  unfold chooseFrame
  rw [askCall_eq]
  exact (if_pos offered).trans (if_neg low)

theorem chooseFrame_silent {s : State} (silent : ¬ s.offersCall = true) :
    chooseFrame s = chooseOrdinary s.questioned := by
  unfold chooseFrame
  rw [askCall_eq]
  exact if_neg silent

/-- R60, R182: without a call to be sent the choice is that of an ordinary frame; an offer refused is NOT_SENT. -/
theorem chooseFrame_ordinary {s : State} (h : ¬ (s.offersCall = true ∧ s.supply.state = .ok)) :
    ∃ u, chooseFrame s = chooseOrdinary u ∧ u.cycle = { s.cycle with lfsr := s.retryDrawn } ∧
      u.emergency =
        (if s.offersCall = true then { s.emergency.asked with lastCall := .notSent } else s.emergency.asked) ∧
      u.supply = s.supply ∧ u.link = s.link ∧ u.queue = s.queue ∧ u.port = s.port := by
  by_cases offered : s.offersCall = true
  · refine ⟨_, chooseFrame_refused offered fun ok => h ⟨offered, ok⟩, rfl, ?_, rfl, rfl, rfl, rfl⟩
    rw [if_pos offered]
    rfl
  · refine ⟨_, chooseFrame_silent offered, rfl, ?_, rfl, rfl, rfl, rfl⟩
    rw [if_neg offered]
    rfl

/-! ### A call chosen (R60, R183) -/

/-- R199: the fields of the state that the EMERGENCY_CALL payload spells. -/
theorem callBytes_congr {s t : State} (he : t.emergency = s.emergency) (hf : t.fare = s.fare)
    (hc : t.port.posCopy = s.port.posCopy) (ht : t.time = s.time) (hs : t.supply = s.supply) :
    callBytes t = callBytes s := by
  unfold callBytes sourceByte meterByte positionRows
  rw [he, hf, hc, ht, hs]

theorem chooseCall_cycle (s : State) : (chooseCall s).cycle = { s.cycle with
    inFlight := { phase := .chosen, owner := .call (callBytes (chooseCall s)), slot := 0 }
    skip := s.cycle.skip - 1
    spacing := min 3 (s.cycle.spacing + 1) } := by
  have bytes : callBytes (chooseCall s) = callPayload (makeCall s) :=
    (callBytes_congr rfl rfl rfl rfl rfl).trans (callPayload_spelled _).symm
  have cycle := (makeCall_frame s).cycle (by decide)
  rw [bytes, ← cycle]
  rfl

theorem chooseCall_emergency (s : State) : (chooseCall s).emergency = s.emergency.callChosen := by
  change (takePosition s).emergency.callChosen = _
  rw [takePosition_spelled]

theorem chooseCall_posCopy (s : State) : (chooseCall s).port.posCopy = positionTaken s := by
  change (takePosition s).port.posCopy = _
  rw [takePosition_spelled]

/-! ### An ordinary frame chosen (R56, R59, R61) -/

theorem linkAllows_iff (l : LinkState) (spacing : Nat) : linkAllows l spacing = true ↔
    l = .good ∨ l = .weak ∨ (l = .degraded ∧ spacing = 3) := by
  cases l <;> simp [linkAllows]

theorem ordinaryAllowed_iff (s : State) : ordinaryAllowed s = true ↔
    s.supply.state = .ok ∧
    (s.link.state = .good ∨ s.link.state = .weak ∨ (s.link.state = .degraded ∧ s.cycle.spacing = 3)) ∧
    1 ≤ s.cycle.contention := by
  rw [ordinaryAllowed, Bool.and_eq_true, Bool.and_eq_true, beq_iff_eq, linkAllows_iff, decide_eq_true_eq, and_assoc]

theorem chooseOrdinary_sends {s : State} (skip : s.cycle.skip = 0) (allowed : ordinaryAllowed s = true)
    (held : s.queue.entries ≠ []) :
    ∃ e, headEntry s.queue.entries = some e ∧ chooseOrdinary s = chooseEntry e s := by
  obtain ⟨e, head⟩ := headEntry_exists held
  refine ⟨e, head, ?_⟩
  unfold chooseOrdinary
  rw [if_neg (by omega), head]
  exact if_pos allowed

theorem chooseOrdinary_rests {s : State}
    (h : ¬ (s.cycle.skip = 0 ∧ ordinaryAllowed s = true ∧ s.queue.entries ≠ [])) :
    chooseOrdinary s = spacingRises (skipFalls s) := by
  unfold chooseOrdinary
  split
  next => rfl
  next none =>
    have skip : s.cycle.skip = 0 := by omega
    have same : skipFalls s = s := by
      unfold skipFalls
      rw [skip, Nat.zero_sub, ← skip]
    rw [same]
    split
    next e head =>
      refine if_neg fun allowed => h ⟨skip, allowed, fun empty => ?_⟩
      rw [empty] at head
      cases head
    next => rfl

/-! ### The choice, by what is chosen -/

/-- R60, R183: a call chosen. -/
theorem chooseFrame_called {s : State} (offered : s.offersCall = true) (ok : s.supply.state = .ok) :
    (chooseFrame s).cycle = { s.cycle with
      inFlight := { phase := .chosen, owner := .call (callBytes (chooseFrame s)), slot := 0 }
      lfsr := s.retryDrawn
      skip := s.cycle.skip - 1
      spacing := min 3 (s.cycle.spacing + 1) } ∧
    (chooseFrame s).emergency = s.emergency.asked.callChosen ∧ (chooseFrame s).port.posCopy = positionTaken s := by
  rw [chooseFrame_call offered ok]
  exact ⟨chooseCall_cycle _, chooseCall_emergency _, chooseCall_posCopy _⟩

/-- R182: no call chosen; an offer refused is NOT_SENT. -/
theorem chooseFrame_uncalled {s : State} (h : ¬ (s.offersCall = true ∧ s.supply.state = .ok)) :
    (chooseFrame s).emergency =
      (if s.offersCall = true then { s.emergency.asked with lastCall := .notSent } else s.emergency.asked) ∧
    (chooseFrame s).port.posCopy = s.port.posCopy := by
  obtain ⟨u, ordinary, -, emergency, -, -, -, port⟩ := chooseFrame_ordinary h
  have kept := chooseOrdinary_frame u
  rw [ordinary, kept.emergency (by decide), kept.posCopy (by decide), emergency, port]
  exact ⟨rfl, rfl⟩

/-- R61: the head of the queue may be chosen. -/
def State.mayChoose (s : State) : Prop :=
  s.cycle.skip = 0 ∧ s.supply.state = .ok ∧
  (s.link.state = .good ∨ s.link.state = .weak ∨ (s.link.state = .degraded ∧ s.cycle.spacing = 3)) ∧
  1 ≤ s.cycle.contention ∧ s.queue.entries ≠ []

theorem mayChoose_iff {s u : State} (cycle : u.cycle = { s.cycle with lfsr := s.retryDrawn })
    (supply : u.supply = s.supply) (link : u.link = s.link) (queue : u.queue = s.queue) :
    (u.cycle.skip = 0 ∧ ordinaryAllowed u = true ∧ u.queue.entries ≠ []) ↔ s.mayChoose := by
  rw [ordinaryAllowed_iff, supply, link, queue, cycle, State.mayChoose, and_assoc, and_assoc]
  rfl

/-- R56, R59, R61: the head of the queue chosen for the slot it draws. -/
theorem chooseFrame_sends {s : State} (uncalled : ¬ (s.offersCall = true ∧ s.supply.state = .ok)) (may : s.mayChoose) :
    ∃ e, headEntry s.queue.entries = some e ∧ (chooseFrame s).cycle = { s.cycle with
      lfsr := advance s.retryDrawn
      spacing := 0
      inFlight := {
        phase := .chosen
        owner := .queue e.id
        slot := 1 + (advance s.retryDrawn).toNat % s.cycle.contention } } := by
  obtain ⟨u, ordinary, cycle, -, supply, link, queue, -⟩ := chooseFrame_ordinary uncalled
  obtain ⟨skip, allowed, held⟩ := (mayChoose_iff cycle supply link queue).2 may
  obtain ⟨e, head, chosen⟩ := chooseOrdinary_sends skip allowed held
  refine ⟨e, queue ▸ head, ?_⟩
  rw [ordinary, chosen, chooseEntry, draw, cycle]
  rfl

/-- R59, R61: nothing chosen. -/
theorem chooseFrame_rests {s : State} (uncalled : ¬ (s.offersCall = true ∧ s.supply.state = .ok))
    (rests : ¬ s.mayChoose) :
    (chooseFrame s).cycle = { s.cycle with
      lfsr := s.retryDrawn, skip := s.cycle.skip - 1, spacing := min 3 (s.cycle.spacing + 1) } := by
  obtain ⟨u, ordinary, cycle, -, supply, link, queue, -⟩ := chooseFrame_ordinary uncalled
  have none := chooseOrdinary_rests (mt (mayChoose_iff cycle supply link queue).1 rests)
  rw [ordinary, none, spacingRises, skipFalls, cycle]
  rfl

/-- R51, step 4: a choice moves four items of the Cycle Tracker. -/
theorem chooseFrame_cycle (s : State) : ∃ lfsr skip spacing inFlight, (chooseFrame s).cycle =
    { s.cycle with lfsr := lfsr, skip := skip, spacing := spacing, inFlight := inFlight } := by
  by_cases called : s.offersCall = true ∧ s.supply.state = .ok
  · obtain ⟨offered, ok⟩ := called
    obtain ⟨chosen, -⟩ := chooseFrame_called offered ok
    exact ⟨_, _, _, _, chosen⟩
  · by_cases may : s.mayChoose
    · obtain ⟨e, -, chosen⟩ := chooseFrame_sends called may
      exact ⟨_, _, _, _, chosen⟩
    · exact ⟨_, _, _, _, chooseFrame_rests called may⟩

theorem chooseFrame_fleet (s : State) : (chooseFrame s).cycle.fleet = s.cycle.fleet := by
  obtain ⟨_, _, _, _, moved⟩ := chooseFrame_cycle s
  rw [moved]

end Sys2Proof.Machine
end

section
/-! BEACON from its occasion to its end (R49 to R51): what stands when the choice is made, and what the choice and the
end of the event leave of it. -/

namespace Sys2Proof.Machine

theorem exec_beacon {s : State} {h : HeldFrame} {fleet cycle secs interval slots : Nat} {acks : List Nat}
    (hp : s.powered = true) (held : heldForOwner s = some h)
    (frame : h.frame = .beacon fleet cycle secs interval slots acks) : exec .beacon s =
      .next (publish (takeBeacon (Config.freeLink s.free) h cycle secs interval slots acks
        { s with free := s.free + 1 })) := by
  have waits : beaconAtTracker s = some (h, .beacon fleet cycle secs interval slots acks) := by
    unfold beaconAtTracker
    rw [held]
    dsimp only
    rw [frame]
    rfl
  change execBeacon s = _
  unfold execBeacon
  rw [waits]
  exact event_next hp rfl

/-- R71, R79: what the outcomes that wait in a mail move, taken at a Cycle Tracker's fleet time. -/
def State.outcomeTurn (s : State) (c : CycleTracker) (m : Mail) : QueueTurn :=
  s.queueTurn (freshStatus s) c.fleet m.queueOuts

/-- What stands in `x` when the choice is made, where `s` was before the beacon: `c` is the Cycle Tracker and `m` the
mail once the beacon has been recorded. -/
structure ChoiceStands (s : State) (c : CycleTracker) (m : Mail) (x : State) : Prop where
  frame : Frame [.free, .rx, .cycle, .mail, .emergency, .ram, .posCopy, .queue, .note, .link, .attention] nothing s x
  cycle : x.cycle = c
  unit : x.emergency = m.callOuts.foldl (fun u o => withCallOutcome o u) s.emergency
  queue : x.queue = (s.outcomeTurn c m).queue
  note : x.note = (s.outcomeTurn c m).note
  mail : x.mail = ((s.outcomeTurn c m).withMail
    { m with callOuts := [], queueOuts := [], linkReports := x.mail.linkReports }).mail
  copy : x.port.posCopy = if (s.outcomeTurn c m).taken = true then positionTaken s else s.port.posCopy
  link : (x.mail.linkReports = m.linkReports ∧ LinkAgrees s x) ∨
    (x.mail.linkReports = [] ∧ LinkAgrees (drainLinkReports m.linkReports s) x)

/-- R61, R71, R182: the deliveries taken, and the Link Quality Unit's or not. -/
theorem choiceStands {s v : State} (f : Frame [.free, .rx, .cycle, .mail] nothing s v)
    (h1 : v.mail.undelivered = s.mail.undelivered) (h2 : v.mail.sendNotices = s.mail.sendNotices)
    (h3 : v.mail.reportsDone = s.mail.reportsDone) (first : Bool) :
    ChoiceStands s v.cycle v.mail (linkBeforeChoice first (takeDeliveries v)) := by
  obtain ⟨delivered, position⟩ := takeDeliveries_turn f h1 h2 h3
  have taken := f.then (takeDeliveries_frame v)
  have before := linkBeforeChoice_frame first (takeDeliveries v)
  have unit : (takeDeliveries v).emergency = _ := (congrArg State.emergency delivered).trans (callsTaken_emergency v)
  have told : (takeDeliveries v).mail.linkReports = v.mail.linkReports := congrArg (·.mail.linkReports) delivered
  have agrees : LinkAgrees s (takeDeliveries v) :=
    ⟨taken.link (by decide), taken.settings (by decide), taken.attention (by decide)⟩
  obtain ⟨mail, link⟩ := linkBeforeChoice_spec agrees first
  rw [told] at link
  exact {
    frame := (taken.then before).mono (by decide) fun _ => id
    cycle := (before.cycle (by decide)).trans ((takeDeliveries_frame v).cycle (by decide))
    unit := by rw [before.emergency (by decide), unit, f.emergency (by decide)]
    queue := (before.queue (by decide)).trans (congrArg (·.queue) delivered)
    note := (before.note (by decide)).trans (congrArg (·.note) delivered)
    mail := by
      rw [mail, delivered]
      rfl
    copy := by
      rw [before.posCopy (by decide), delivered, ← position, ← f.posCopy (by decide),
        ← (callsTaken_frame v).posCopy (by decide)]
      rfl
    link := link }

section
variable {s x : State} {c : CycleTracker} {m : Mail}

theorem ChoiceStands.supply (stands : ChoiceStands s c m x) : x.supply = s.supply := stands.frame.supply (by decide)

/-- R9: the choice takes the same position that the deliveries took. -/
theorem ChoiceStands.position (stands : ChoiceStands s c m x) : positionTaken x = positionTaken s := by
  refine positionTaken_copied (stands.frame.keeps .posWritten (by decide)) ?_ fun a low high =>
    stands.frame.ram a (position_not_controller low high) id
  rw [stands.copy]
  split
  next => exact .inl rfl
  next => exact .inr rfl

/-- R9, R76, R183: the last good copy after the choice. -/
theorem ChoiceStands.chosenCopy (stands : ChoiceStands s c m x) : (chooseFrame x).port.posCopy =
    if (x.offersCall = true ∧ s.supply.state = .ok) ∨ (s.outcomeTurn c m).taken = true then positionTaken s
    else s.port.posCopy := by
  by_cases called : x.offersCall = true ∧ s.supply.state = .ok
  · obtain ⟨offered, ok⟩ := called
    obtain ⟨-, -, copy⟩ := chooseFrame_called offered (stands.supply ▸ ok)
    rw [if_pos (.inl ⟨offered, ok⟩), copy, stands.position]
  · obtain ⟨-, copy⟩ := chooseFrame_uncalled (s := x) (by rwa [stands.supply])
    rw [copy, stands.copy]
    exact if_congr (or_iff_right called).symm rfl rfl

theorem ChoiceStands.chosen_frame (stands : ChoiceStands s c m x) : Frame
    (withEnds [.rx, .cycle, .queue, .note, .mail, .posCopy, .emergency, .link, .free]) nothing s
    (publish (chooseFrame x)) :=
  (stands.frame.then (chooseFrame_frame x)).publish.mono (by decide) fun _ => id

/-- R71, R76: the turn of the queue, told with the status bytes that the end of the event spells. -/
theorem ChoiceStands.turn (stands : ChoiceStands s c m x) :
    s.queueTurn (statusBytes (publish (chooseFrame x))) (chooseFrame x).cycle.fleet m.queueOuts =
      s.outcomeTurn c m := by
  have whole := stands.chosen_frame
  rw [chooseFrame_fleet, stands.cycle]
  refine queueTurn_status (whole.fare (by decide)) (whole.offers (by decide)) (congrArg _ (whole.msgs (by decide)))
    (whole.time (by decide)) c.fleet m.queueOuts fun turned => ?_
  rw [publish_posCopy, stands.chosenCopy, if_pos (.inr turned)]

/-- R61, R84, R87: what the Link Quality Unit has taken, and its news. -/
theorem ChoiceStands.linkNews (stands : ChoiceStands s c m x) :
    (x.mail.linkReports = m.linkReports ∧ x.link = s.link ∧ gains 0 s (publish (chooseFrame x))) ∨
    (x.mail.linkReports = [] ∧ x.link = (drainLinkReports m.linkReports s).link ∧
      gains 0 (drainLinkReports m.linkReports s) (publish (chooseFrame x))) := by
  have news {u : State} (agrees : LinkAgrees u x) : x.link = u.link ∧ gains 0 u (publish (chooseFrame x)) := by
    obtain ⟨link, -, attention⟩ := agrees
    exact ⟨link, gains_publish_zero (((chooseFrame_frame x).attention (by decide)).trans attention)⟩
  exact stands.link.imp (.imp_right news) (.imp_right news)

end

/-- R50, R51: BEACON as the choice made where everything before it stands. -/
theorem exec_beacon_choice {s : State} {h : HeldFrame} {fleet cycle secs interval slots : Nat} {acks : List Nat}
    (hp : s.powered = true) (held : heldForOwner s = some h)
    (frame : h.frame = .beacon fleet cycle secs interval slots acks) :
    ∃ x, exec .beacon s = .next (publish (chooseFrame x)) ∧ releasedBy h s (publish (chooseFrame x)) ∧
      ChoiceStands s (s.recordedCycle h cycle secs interval slots acks)
        (s.mail.delivered s.cycle.inFlight.owner (s.judgedBy acks)) x := by
  let counted : State := { s with free := s.free + 1 }
  let v := counted.recorded h cycle secs interval slots acks
  let x := linkBeforeChoice (Config.freeLink s.free) (takeDeliveries v)
  have recorded : Frame [.free, .rx, .cycle, .mail] nothing s v :=
    (free_frame _ s).then (recorded_frame h cycle secs interval slots acks counted)
  have later := ((takeDeliveries_frame v).then (linkBeforeChoice_frame (Config.freeLink s.free) _)).then
    (chooseFrame_frame x)
  have cycle_eq : v.cycle = s.recordedCycle h cycle secs interval slots acks :=
    recorded_cycle h cycle secs interval slots acks counted
  have mail_eq : v.mail = s.mail.delivered s.cycle.inFlight.owner (s.judgedBy acks) :=
    recorded_mail h cycle secs interval slots acks counted
  have stands := choiceStands recorded (congrArg (·.undelivered) mail_eq) (congrArg (·.sendNotices) mail_eq)
    (congrArg (·.reportsDone) mail_eq) (Config.freeLink s.free)
  rw [cycle_eq, mail_eq] at stands
  refine ⟨x, by rw [exec_beacon hp held frame, takeBeacon_eq], ?_, stands⟩
  have released := takenByOwner_rx held
  unfold releasedBy at released ⊢
  rw [publish_rx, later.rx (by decide), ← released]
  exact recorded_rx h cycle secs interval slots acks counted

/-! ### In the words of O42 -/

theorem linkTold_spelled (owner : Owner) (o : Option FrameOutcome) : linkTold owner o = match o with
    | some .notSent => []
    | some .abandoned => []
    | some o => [.outcome owner.isQueue o]
    | none => [] := by
  unfold linkTold
  cases o with
  | none => rfl
  | some o => cases o <;> rfl

theorem queueTold_spelled (owner : Owner) (o : Option FrameOutcome) : queueTold owner o = match o, owner with
    | some o, .queue id => [(id, o)]
    | _, _ => [] := by
  cases owner <;> cases o <;> rfl

theorem callBytes_publish (s : State) : callBytes (publish s) = callBytes s :=
  callBytes_congr (publish_emergency s) (publish_fare s) (publish_posCopy s) (publish_time s) (publish_supply s)

end Sys2Proof.Machine

namespace Sys2Proof.Proofs

open Sys2Proof.Machine

/-- Settles O42: everything before the choice by `ChoiceStands`, and the choice by what is chosen: a call, the head of
the queue, or nothing. -/
theorem beacon : Obligations.Beacon := by
  intro h fleet cycle secs interval slots acks s hp sound held frame
  obtain ⟨x, hx, released, stands⟩ := exec_beacon_choice hp held frame
  have idle := recordedCycle_phase sound h cycle secs interval slots acks
  have kept := chooseFrame_frame x
  obtain ⟨_, _, _, _, moved⟩ := chooseFrame_cycle x
  refine ⟨_, hx, released, ?_⟩
  rw [publish_cycle, publish_link, publish_queue, publish_note, publish_mail, publish_emergency, publish_posCopy,
    kept.link (by decide), kept.queue (by decide), kept.note (by decide), kept.mail (by decide), callBytes_publish]
  intro outcome owner ordinary e missed run afterBackoff skip unit alerting afterRetry offered asked called linkLets
    sends told taken outs turn
  have told_eq : (s.mail.delivered s.cycle.inFlight.owner (s.judgedBy acks)).linkReports = told :=
    congrArg (s.mail.linkReports ++ ·) (linkTold_spelled owner outcome)
  have outs_eq : (s.mail.delivered s.cycle.inFlight.owner (s.judgedBy acks)).queueOuts = outs :=
    congrArg (s.mail.queueOuts ++ ·) (queueTold_spelled owner outcome)
  have unit_eq : x.emergency = unit := stands.unit
  have drawn : x.retryDrawn = afterRetry := by
    unfold State.retryDrawn
    rw [unit_eq, stands.cycle]
    rfl
  have offered_eq : x.offersCall = offered := by
    have spelled := offers_spelled x.retryDrawn x.emergency
    rw [drawn, unit_eq] at spelled
    rw [State.offersCall, drawn, unit_eq]
    exact spelled
  have asked_eq : x.emergency.asked = asked := congrArg EmergencyUnit.asked unit_eq
  have turn_eq := stands.turn
  have link := stands.linkNews
  have copy := stands.chosenCopy
  have queue := stands.queue
  have note := stands.note
  have mail := stands.mail
  rw [outs_eq] at turn_eq
  rw [told_eq] at link
  rw [offered_eq, ← turn_eq] at copy
  rw [← turn_eq] at queue note mail
  rw [stands.cycle] at moved
  refine ⟨congrArg (·.synced) moved, congrArg (·.record) moved, congrArg (·.fleet) moved, congrArg (·.missedRun) moved,
    congrArg (·.deadline) moved, congrArg (·.missRun) moved, link, congrArg (·.queueOuts) mail,
    congrArg (·.callOuts) mail, queue, note, copy, congrArg (·.undelivered) mail, congrArg (·.sendNotices) mail,
    congrArg (·.reportsDone) mail, ?_, congrArg (·.rxErrors) mail, congrArg (·.sendReports) mail,
    congrArg (·.marks) mail, congrArg (·.additions) mail, congrArg (·.gateChanges) mail,
    congrArg (·.lampChanges) mail, stands.chosen_frame⟩
  by_cases call : called
  · obtain ⟨chosen, inHand, -⟩ := chooseFrame_called (offered_eq.trans call.1) (stands.supply ▸ call.2)
    rw [stands.cycle, drawn] at chosen
    rw [asked_eq] at inHand
    rw [if_pos call]
    exact ⟨congrArg (·.inFlight) chosen, congrArg (·.lfsr) chosen, congrArg (·.spacing) chosen,
      congrArg (·.skip) chosen, inHand⟩
  have uncalled : ¬ (x.offersCall = true ∧ x.supply.state = .ok) := by
    rwa [offered_eq, stands.supply]
  have may_iff : x.mayChoose ↔ sends := by
    unfold State.mayChoose
    rw [stands.cycle, stands.supply]
    exact (and_iff_right call).symm
  obtain ⟨unsent, -⟩ := chooseFrame_uncalled uncalled
  rw [offered_eq, asked_eq] at unsent
  rw [if_neg call]
  refine ⟨unsent, ?_⟩
  by_cases may : sends
  · obtain ⟨y, head, chosen⟩ := chooseFrame_sends uncalled (may_iff.2 may)
    obtain ⟨mem, least, first⟩ := headEntry_spec head
    have ⟨_, zero, _⟩ := may
    rw [stands.cycle, drawn] at chosen
    rw [if_pos may]
    exact ⟨⟨y, mem, least, first, congrArg (·.inFlight) chosen⟩, congrArg (·.lfsr) chosen,
      congrArg (·.spacing) chosen, (congrArg (·.skip) chosen).trans zero⟩
  · have rests := chooseFrame_rests uncalled (mt may_iff.1 may)
    rw [stands.cycle, drawn] at rests
    rw [if_neg may]
    exact ⟨(congrArg (·.inFlight.phase) rests).trans idle, congrArg (·.lfsr) rests, congrArg (·.spacing) rests,
      congrArg (·.skip) rests⟩

end Sys2Proof.Proofs
end

section
/-! An outcome taken by the Transmit Queue (R75 to R80). -/

namespace Sys2Proof.Machine

theorem statusBytes_publish (s : State) : statusBytes (publish s) = statusBytes s :=
  statusBytes_congr (publish_fare s) (publish_offers s) (congrArg _ (publish_msgs s)) (publish_time s)
    (publish_posCopy s)

/-- R75, R77: the items of the states before and after that a settled queue is said of. -/
theorem settledAfter_congr {now : Stamp} {before after : TransmitQueue} {s s' t t' : State}
    (h : settledAfter now before after s t) (h1 : s'.running = s.running) (h2 : s'.store = s.store)
    (h3 : s'.note = s.note) (k1 : t'.queue = t.queue) (k2 : t'.note = t.note)
    (k3 : statusBytes t' = statusBytes t) : settledAfter now before after s' t' := by
  unfold settledAfter at h ⊢
  rw [h1, h2, h3, k1, k2, k3]
  exact h

/-- R75, R77, R79: a removal or an outcome that has changed the queue to that of `u`, seen at the end of the event
from the state `s` before it. -/
theorem settled_publish {s u : State} (before : TransmitQueue) (h1 : u.running = s.running) (h2 : u.store = s.store)
    (h3 : u.note = s.note) (h4 : u.cycle.fleet = s.cycle.fleet) (h5 : u.port.posCopy = s.port.posCopy)
    (h6 : positionTaken u = positionTaken s) :
    settledAfter s.cycle.fleet before u.queue s (publish (afterRemoval before u)) ∧
    (publish (afterRemoval before u)).port.posCopy = positionAfter u.queue s := by
  obtain ⟨settled, copy⟩ := afterRemoval_exact before u
  rw [h4] at settled
  refine ⟨settledAfter_congr settled h1.symm h2.symm h3.symm (publish_queue _) (publish_note _)
    (statusBytes_publish _), ?_⟩
  rw [publish_posCopy, copy]
  unfold positionAfter
  rw [h5, h6]

/-- R79: the outcome of an entry no longer held is ignored. -/
theorem queueOutcomeTaken_unheld {s : State} {id : Nat} {o : FrameOutcome} {rest : List (Nat × FrameOutcome)}
    (hm : s.mail.queueOuts = (id, o) :: rest) (h : s.queue.find id = none) :
    queueOutcomeTaken s = { s with mail := { s.mail with queueOuts := rest } } := by
  unfold queueOutcomeTaken queueTakesOutcome
  rw [hm]
  dsimp only
  rw [h]

/-- R79, R80: the outcome of an entry held: the entry acted on and its maker told, then what follows a removal. -/
theorem queueOutcomeTaken_held {s : State} {id : Nat} {o : FrameOutcome} {rest : List (Nat × FrameOutcome)}
    (hm : s.mail.queueOuts = (id, o) :: rest) {e : Entry} (h : s.queue.find id = some e) :
    queueOutcomeTaken s = afterRemoval s.queue { s with
      queue := withOutcome e o s.queue, mail := withTold e o { s.mail with queueOuts := rest } } := by
  unfold queueOutcomeTaken queueTakesOutcome
  rw [hm]
  dsimp only
  rw [h]
  dsimp only
  rw [entryTakesOutcome_exact]

theorem afterRemoval_frame (before : TransmitQueue) (s : State) :
    Frame [.posCopy, .queue, .note] nothing s (afterRemoval before s) := by
  obtain ⟨c, q, n, h⟩ := afterRemoval_eq before s
  rw [h]
  exact (queueCopy_frame s c q).then (note_frame n _)

end Sys2Proof.Machine

namespace Sys2Proof.Proofs

open Sys2Proof.Machine

/-- Settles O45, by whether the queue still holds the entry that the outcome names. -/
theorem queueOutcome : Obligations.QueueOutcome := by
  intro id o rest s hp hm
  have f := queueOutcomeTaken_frame s
  refine ⟨publish (queueOutcomeTaken s), event_next hp (by rw [hm]; rfl), ?_,
    gains_publish_zero (f.attention (by decide)), f.publish.mono (by decide) fun _ h => h⟩
  cases h : s.queue.find id with
  | none =>
    rw [queueOutcomeTaken_unheld hm h]
    exact ⟨⟨publish_queue _, publish_posCopy _⟩, publish_note _, publish_mail _⟩
  | some e =>
    rw [queueOutcomeTaken_held hm h]
    obtain ⟨settled, copy⟩ := settled_publish (s := s) (u := { s with
      queue := withOutcome e o s.queue
      mail := withTold e o { s.mail with queueOuts := rest } }) s.queue rfl rfl rfl rfl rfl rfl
    exact ⟨settled, copy, (publish_mail _).trans ((afterRemoval_frame _ _).mail (by decide))⟩

end Sys2Proof.Proofs
end

section
/-! The ends of the Offer Manager's timers and of an undelivered acceptance (R101, R108, R111, R112). -/

namespace Sys2Proof.Machine

/-! ### The queue at the end of an event (R76) -/

/-- What leaves the queue and the position copy alone keeps them. -/
theorem queueKept_of_frame {a : List Part} {p : Nat → Prop} {s t : State} (f : Frame a p s t)
    (ha : ∀ r ∈ [Part.queue, .posCopy], r ∉ a) : queueKept s t :=
  ⟨f.queue (ha _ (by decide)), f.posCopy (ha _ (by decide))⟩

/-- The parts that must stand from the start of an event to the state its status trigger is given in. -/
def beforeTrigger : List Part := [.queue, .settings, .cycle, .posWritten, .posCopy]

/-- Parts that neither of two frames touches. -/
theorem untouched_append {l a b : List Part} (ha : ∀ r ∈ l, r ∉ a) (hb : ∀ r ∈ l, r ∉ b) : ∀ r ∈ l, r ∉ a ++ b :=
  fun r hr hm => (List.mem_append.1 hm).elim (ha r hr) (hb r hr)

/-- R76: an event that ends in a status trigger after an effect `u` which stores nothing. -/
theorem statusPlaced_after {s u : State} {a : List Part} (hs : s.running = true) (hq : s.queueSound)
    (f : Frame a nothing s u) (ha : ∀ r ∈ beforeTrigger, r ∉ a) :
    statusPlaced s.queue s (publish (statusTrigger u)) := by
  have hu : u.queue = s.queue := f.queue (ha _ (by decide))
  have placed := statusPlaced_of_frame ((f.running (ha _ (by decide))).trans hs) (hu ▸ hq.2)
    (f.positionTaken (ha _ (by decide)) (ha _ (by decide)) fun _ _ _ h => h)
    (congrArg _ (f.cycle (ha _ (by decide)))) (publish_frame (statusTrigger u)) (by decide)
  exact hu ▸ placed

/-- R76: in CONFIG the status trigger is ignored. -/
theorem queueKept_after {s u : State} {a : List Part} (hs : s.running = false)
    (f : Frame a nothing s u) (ha : ∀ r ∈ beforeTrigger, r ∉ a) : queueKept s (publish (statusTrigger u)) := by
  rw [statusTrigger_config ((f.running (ha _ (by decide))).trans hs)]
  exact ⟨(publish_queue u).trans (f.queue (ha _ (by decide))), (publish_posCopy u).trans (f.posCopy (ha _ (by decide)))⟩

/-! ### The end of a held acceptance (R81, R112) -/

/-- R112: the request that held an acceptance completed and its note cleared, before the JOB_ACCEPT's removal. -/
def acceptanceAnswered (i : Place) (o : ReqOutcome) (s : State) : State :=
  let t := match s.offers.heldAccept with
    | some slot => completeRequest slot o i.val s
    | none => s
  { t with offers := { t.offers with heldAccept := none } }

theorem endAcceptance_eq (i : Place) (o : ReqOutcome) (s : State) :
    endAcceptance i o s = removeAccept (pick s.offers.places i).number (acceptanceAnswered i o s) := rfl

theorem acceptanceAnswered_none {s : State} (h : s.offers.heldAccept = none) (i : Place) (o : ReqOutcome) :
    acceptanceAnswered i o s = { s with offers := { s.offers with heldAccept := none } } := by
  unfold acceptanceAnswered
  rw [h]

theorem acceptanceAnswered_some {s : State} {slot : Slot} (h : s.offers.heldAccept = some slot) (i : Place)
    (o : ReqOutcome) : acceptanceAnswered i o s =
      { completeRequest slot o i.val s with offers := { s.offers with heldAccept := none } } := by
  unfold acceptanceAnswered
  rw [h]
  dsimp only
  rw [completeRequest_offers]

theorem acceptanceAnswered_offers (i : Place) (o : ReqOutcome) (s : State) :
    (acceptanceAnswered i o s).offers = { s.offers with heldAccept := none } := by
  cases h : s.offers.heldAccept with
  | none => rw [acceptanceAnswered_none h]
  | some slot => rw [acceptanceAnswered_some h]

theorem acceptanceAnswered_frame (i : Place) (o : ReqOutcome) (s : State) :
    Frame [.ram, .attention, .offers] (heldAcceptBytes s) s (acceptanceAnswered i o s) := by
  cases h : s.offers.heldAccept with
  | none =>
    rw [acceptanceAnswered_none h]
    exact (offers_frame _ s).mono (by decide) fun _ => False.elim
  | some slot =>
    rw [acceptanceAnswered_some h]
    exact ((completeRequest_frame slot o i.val s).mono (fun _ => id) fun x hx => ⟨slot, h, hx⟩).then (offers_frame _ _)

/-- R12, R112: REQ_DONE is news where the held request's slot is still at CTL. -/
theorem acceptanceAnswered_attention (i : Place) (o : ReqOutcome) (s : State) :
    (acceptanceAnswered i o s).port.attention = s.port.attention |||
      (if (s.offers.heldAccept.any fun slot => heldByCtl s.ram (requestBase slot)) = true
        then News.reqDone.mask else 0) := by
  cases h : s.offers.heldAccept with
  | none =>
    rw [acceptanceAnswered_none h]
    exact BitVec.or_zero.symm
  | some slot =>
    rw [acceptanceAnswered_some h, Option.any_some]
    cases hc : heldByCtl s.ram (requestBase slot) with
    | true =>
      rw [completeRequest_eq hc]
      rfl
    | false =>
      rw [completeRequest_other hc]
      exact BitVec.or_zero.symm

/-- R81: no JOB_ACCEPT of the offer number is held. -/
theorem removeAccept_absent {s : State} {n : Nat}
    (h : s.queue.entries.find? (fun e => e.kind == .jobAccept && e.key == n) = none) : removeAccept n s = s := by
  unfold removeAccept
  rw [h]

/-- R81: the JOB_ACCEPT of the offer number removed. -/
theorem removeAccept_present {s : State} {n : Nat} {e : Entry}
    (h : s.queue.entries.find? (fun e => e.kind == .jobAccept && e.key == n) = some e) :
    removeAccept n s = afterRemoval s.queue { s with queue := s.queue.remove e.id } := by
  unfold removeAccept
  rw [h]

/-- The bytes that the completion of a held acceptance stores lie in the request slots. -/
theorem heldAcceptBytes_inside {s : State} {x : Nat} (h : heldAcceptBytes s x) : 0x0400 ≤ x := by
  obtain ⟨slot, -, hx⟩ := h
  have := outcomeBytes_inside hx
  unfold requestBase at this
  omega

/-- The parts that must stand from the start of an event to the end of an acceptance. -/
def beforeAcceptance : List Part := .note :: .store :: .attention :: beforeTrigger

/-- R81, R110, R112: an event in which an entry leaves ACCEPTING for `p` by an effect `u` that stores nothing, and its
acceptance ends. -/
theorem acceptanceEnded_publish {i : Place} {p : OfferPlace} {s u : State} {a : List Part} (hw : s.Inv)
    (f : Frame a nothing s u) (ha : ∀ r ∈ beforeAcceptance, r ∉ a)
    (offers : u.offers = { s.offers with places := put s.offers.places i p })
    (number : p.number = (pick s.offers.places i).number) (o : ReqOutcome) :
    acceptanceEnded i p o s (publish (endAcceptance i o u)) := by
  have hand (slot : Slot) : heldByCtl u.ram (requestBase slot) = heldByCtl s.ram (requestBase slot) :=
    congrArg (· == handCtl) (f.hand (request_hand_free slot).1 id)
  have held : u.offers.heldAccept = s.offers.heldAccept := congrArg (·.heldAccept) offers
  have fleet : u.cycle.fleet = s.cycle.fleet := congrArg _ (f.cycle (ha _ (by decide)))
  have fv := acceptanceAnswered_frame i o u
  have hn : (pick u.offers.places i).number = (pick s.offers.places i).number := by
    rw [offers, pick_put_same, number]
  have g := removeAccept_frame (pick s.offers.places i).number (acceptanceAnswered i o u)
  have queue : (acceptanceAnswered i o u).queue = s.queue := (fv.queue (by decide)).trans (f.queue (ha _ (by decide)))
  rw [endAcceptance_eq, hn]
  refine ⟨?_, fun slot hslot hc => ?_, gains_publish ?_, ?_⟩
  · rw [publish_offers, g.offers (by decide), acceptanceAnswered_offers, offers]
  · have done := completeRequest_completed (f.wf hw) ((hand slot).trans hc) o i.val
    rw [acceptanceAnswered_some (held.trans hslot)] at g ⊢
    rw [fleet] at done
    exact completed_of_frame (completed_of_frame done (offers_frame _ _) fun _ _ _ => id) g.publish fun _ _ _ => id
  · rw [g.attention (by decide), acceptanceAnswered_attention, held, f.attention (ha _ (by decide))]
    simp only [hand]
  · cases hf : s.queue.entries.find? (fun e => e.kind == .jobAccept && e.key == (pick s.offers.places i).number) with
    | none =>
      rw [removeAccept_absent (queue ▸ hf)]
      exact ⟨⟨(publish_queue _).trans queue, (publish_posCopy _).trans
          ((fv.posCopy (by decide)).trans (f.posCopy (ha _ (by decide))))⟩,
        (publish_note _).trans ((fv.note (by decide)).trans (f.note (ha _ (by decide))))⟩
    | some e =>
      rw [removeAccept_present (queue ▸ hf), queue]
      exact settled_publish (s := s) (u := { acceptanceAnswered i o u with queue := s.queue.remove e.id }) s.queue
        ((fv.running (by decide)).trans (f.running (ha _ (by decide))))
        ((fv.store (by decide)).trans (f.store (ha _ (by decide))))
        ((fv.note (by decide)).trans (f.note (ha _ (by decide))))
        ((congrArg _ (fv.cycle (by decide))).trans fleet)
        ((fv.posCopy (by decide)).trans (f.posCopy (ha _ (by decide))))
        ((fv.positionTaken (by decide) (by decide) fun x _ hx h => by
            have := heldAcceptBytes_inside h
            omega).trans
          (f.positionTaken (ha _ (by decide)) (ha _ (by decide)) fun _ _ _ h => h))

/-- R111: an ACCEPTING entry closed UNANSWERED, where the event has left the Offer Manager as it was. -/
theorem unanswered_ended {s u : State} {a : List Part} (hw : s.Inv) (f : Frame a nothing s u)
    (ha : ∀ r ∈ .offers :: beforeAcceptance, r ∉ a) (i : Place) :
    acceptanceEnded i (closedAs i .unanswered s) .unanswered s (publish (unanswered i u)) := by
  have offers : u.offers = s.offers := f.offers (ha _ (by decide))
  have closed : closedAs i .unanswered u = closedAs i .unanswered s := by
    unfold closedAs
    rw [offers, f.cycle (ha _ (by decide))]
  unfold unanswered
  rw [closePlace_eq i (by decide), closed]
  refine acceptanceEnded_publish (p := closedAs i .unanswered s) hw (f.then (setPlace_frame i _ u))
    (untouched_append (fun r hr => ha r (List.mem_cons_of_mem _ hr)) (by decide)) ?_ rfl _
  unfold setPlace
  rw [offers]

/-! ### The deadline of an offer (R101, R108) -/

/-- R108: the entry closed EXPIRED and counted, before the latch is judged. -/
def expiryCounted (i : Place) (s : State) : State :=
  { s with
    offers := { s.offers with
      places := put s.offers.places i (closedAs i .expired s), expiries := expiriesAfter s.offers }
    mail := { s.mail with additions := s.mail.additions ++ [.offerExpired] } }

theorem expiryCounted_frame (i : Place) (s : State) : Frame [.offers, .mail] nothing s (expiryCounted i s) :=
  .of_keeps (fun p hp => by cases p <;> first | rfl | exact absurd (by decide) hp | exact ⟨rfl, rfl⟩) rfl

/-- R101, R108: the ZONE entries cancelled and the latch set, before the status trigger. -/
def latched (s : State) : State :=
  { cancelWhere OfferPlace.presentedZone s with
    offers := { (cancelWhere OfferPlace.presentedZone s).offers with latch := true } }

theorem setLatch_eq (s : State) : setLatch s = statusTrigger (latched s) := rfl

theorem latched_frame (s : State) : Frame [.offers] nothing s (latched s) :=
  ((cancelWhere_frame _ s).then (offers_frame _ _)).mono (by decide) fun _ => id

theorem latched_offers (s : State) :
    (latched s).offers = { s.offers with places := (latched s).offers.places, latch := true } ∧
    cancelled OfferPlace.presentedZone s (latched s) := by
  obtain ⟨ps, he, hp⟩ := cancelWhere_eq OfferPlace.presentedZone s
  unfold latched
  rw [he]
  exact ⟨rfl, hp⟩

/-- R108: an expiry sets the latch where it is clear and the counter has reached the count-out. -/
abbrev State.latches (s : State) : Prop :=
  s.offers.latch = false ∧ s.working.countOut ≠ 0 ∧ s.working.countOut ≤ expiriesAfter s.offers

theorem deadlineExpired_eq (i : Place) (s : State) : deadlineExpired i s =
    if s.latches then statusTrigger (latched (expiryCounted i s)) else expiryCounted i s := by
  have judged : (!s.offers.latch && s.working.countOut != 0 &&
      decide (s.working.countOut ≤ expiriesAfter s.offers)) = true ↔ s.latches := by
    simp [State.latches, and_assoc]
  rw [← setLatch_eq]
  exact if_congr judged rfl rfl

/-- R101, R108: the Offer Manager after an expiry: the entry EXPIRED, counted, and the ZONE entries CANCELLED where the
latch is set. -/
theorem deadlineExpired_offers (i : Place) (s : State) :
    (deadlineExpired i s).offers = { s.offers with
      places := (deadlineExpired i s).offers.places
      expiries := expiriesAfter s.offers
      latch := s.offers.latch || decide s.latches } ∧
    ∀ j : Place, pick (deadlineExpired i s).offers.places j =
      if j = i then closedAs i .expired s
      else if s.latches ∧ (pick s.offers.places j).presentedZone = true then closedAs j .cancelled s
      else pick s.offers.places j := by
  have counted (j : Place) : pick (expiryCounted i s).offers.places j =
      if j = i then closedAs i .expired s else pick s.offers.places j := pick_put _ _ _ _
  rw [deadlineExpired_eq]
  by_cases h : s.latches
  · obtain ⟨offers, closed⟩ := latched_offers (expiryCounted i s)
    rw [if_pos h, statusTrigger_offers, decide_eq_true h, Bool.or_true]
    refine ⟨offers, fun j => ?_⟩
    rw [closed j, counted j]
    by_cases hj : j = i
    · rw [if_pos hj, if_pos hj]
      rfl
    · rw [if_neg hj, if_neg hj]
      exact if_congr (and_iff_right h).symm rfl rfl
  · rw [if_neg h, decide_eq_false h, Bool.or_false]
    refine ⟨rfl, fun j => ?_⟩
    rw [counted j, if_neg fun c : s.latches ∧ _ => h c.1]

theorem deadlineExpired_mail (i : Place) (s : State) : (deadlineExpired i s).mail =
    { s.mail with additions := s.mail.additions ++ [.offerExpired] } := by
  rw [deadlineExpired_eq]
  split
  · exact ((latched_frame _).then (statusTrigger_frame _)).mail (by decide)
  · rfl

/-! ### An acceptance undelivered (R111) -/

theorem undeliveredTaken_accepting {s : State} {n : Nat} {rest : List Nat} (h : s.mail.undelivered = n :: rest)
    {j : Place} (hj : findOpen n s.offers = some j) (ha : (pick s.offers.places j).state = .accepting) :
    undeliveredTaken s = unanswered j { s with mail := { s.mail with undelivered := rest } } := by
  unfold undeliveredTaken takeUndelivered
  rw [h]
  dsimp only
  rw [hj]
  exact if_pos ha

/-- R111: where no ACCEPTING entry carries the offer number the UNDELIVERED is ignored. -/
theorem undeliveredTaken_ignored {s : State} {n : Nat} {rest : List Nat} (h : s.mail.undelivered = n :: rest)
    (ha : ∀ j, findOpen n s.offers = some j → (pick s.offers.places j).state ≠ .accepting) :
    undeliveredTaken s = { s with mail := { s.mail with undelivered := rest } } := by
  unfold undeliveredTaken takeUndelivered
  rw [h]
  dsimp only
  cases hj : findOpen n s.offers with
  | none => rfl
  | some j => exact if_neg (ha j hj)

theorem undeliveredTaken_mail {s : State} {n : Nat} {rest : List Nat} (h : s.mail.undelivered = n :: rest) :
    (undeliveredTaken s).mail = { s.mail with undelivered := rest } := by
  unfold undeliveredTaken
  rw [h]
  exact (takeUndelivered_frame n _).mail (by decide)

end Sys2Proof.Machine

namespace Sys2Proof.Proofs

open Sys2Proof.Machine

/-- Settles O50: the deadline by whether its expiry sets the latch, the award wait and the UNDELIVERED by the end of the
acceptance. -/
theorem offerExpiries : Obligations.OfferExpiries := by
  refine ⟨fun i s hp hw hs hq presented out => ?_, fun i s hp hw hq accepting out => ?_,
    fun n rest s hp hw hq hm => ?_⟩
  · have occasion : deadlineOut s.offers i = true := by simp [deadlineOut, presented, out]
    have f := deadlineExpired_frame i s
    have counted := expiryCounted_frame i s
    obtain ⟨offers, places⟩ := deadlineExpired_offers i s
    refine ⟨publish (deadlineExpired i s), event_next hp occasion, ?_⟩
    intro count latches
    rw [publish_offers, publish_mail]
    refine ⟨offers, places, deadlineExpired_mail i s, ?_, publishWith_boardsShown (f.wf hw) false,
      gains_publish_zero (f.attention (by decide)), f.publish.mono (by decide) fun _ h => h⟩
    by_cases h : latches
    · rw [if_pos h, deadlineExpired_eq, if_pos (show s.latches from h)]
      exact statusPlaced_after hs hq (counted.then (latched_frame _)) (by decide)
    · rw [if_neg h, deadlineExpired_eq, if_neg (show ¬ s.latches from h)]
      exact queueKept_of_frame counted.publish (by decide)
  · have occasion : waitOut s.offers i = true := by simp [waitOut, accepting, out]
    exact ⟨publish (unanswered i s), event_next hp occasion, unanswered_ended hw (Frame.refl s) (by decide) i,
      (unanswered_frame i s).publish.mono (by decide) fun _ h => h⟩
  · have f := undeliveredTaken_frame s
    have rested := mail_frame { s.mail with undelivered := rest } s
    refine ⟨publish (undeliveredTaken s), event_next hp (by rw [hm]; rfl), ?_, fun j hj ha => ?_, fun ha => ?_,
      f.publish.mono (by decide) fun _ h => h⟩
    · rw [publish_mail]
      exact undeliveredTaken_mail hm
    · rw [undeliveredTaken_accepting hm hj ha]
      exact unanswered_ended hw rested (by decide) j
    · rw [undeliveredTaken_ignored hm ha]
      exact ⟨publish_offers _, queueKept_of_frame rested.publish (by decide), publish_note _, gains_publish_zero rfl⟩

end Sys2Proof.Proofs
end

section
/-! The base suspension (R101, R118): CAB_SUSPEND, CAB_RESUME and the expiry of its timer. -/

namespace Sys2Proof.Machine

/-! ### A frame taken by its owner (R39) -/

/-- R39: the owner's effect leaves the routing as the taking of the frame has left it. -/
theorem releasedBy_publish {h : HeldFrame} {s u : State} {a : List Part} {p : Nat → Prop}
    (held : heldForOwner s = some h) (f : Frame a p (takenByOwner s) u) (ha : Part.rx ∉ a) :
    releasedBy h s (publish u) :=
  ((publish_rx u).trans (f.rx ha)).trans (takenByOwner_rx held)

theorem holdsPlain_of_held {h : HeldFrame} {s : State} (held : heldForOwner s = some h) :
    holdsPlain h.frame s = true := by
  unfold holdsPlain
  rw [held]
  exact beq_self_eq_true _

theorem exec_cabSuspend {h : HeldFrame} {s : State} {reason minutes : Nat} (hp : s.powered = true)
    (held : heldForOwner s = some h) (frame : h.frame = .cabSuspend reason minutes) :
    exec .cabSuspend s = .next (publish (suspendCab reason minutes (takenByOwner s))) := by
  have waits : suspendAtManager s = some (reason, minutes) := by
    unfold suspendAtManager
    rw [held]
    dsimp only
    rw [frame]
  change execCabSuspend s = _
  unfold execCabSuspend
  rw [waits]
  exact event_next hp rfl

/-! ### The suspension begun (R118) -/

/-- R118: the reason and the timer of a CAB_SUSPEND, before the gate is closed. -/
def suspensionTimed (reason minutes : Nat) (s : State) : State :=
  { s with offers := { s.offers with baseReason := reason, baseTimer := Timer.start (minutes * 60) } }

theorem suspensionTimed_frame (reason minutes : Nat) (s : State) :
    Frame [.offers] nothing s (suspensionTimed reason minutes s) := offers_frame _ s

/-- R101, R118: the offers cancelled and the BASE_SUSPEND gate closed, before the status trigger. -/
def baseGateClosed (s : State) : State :=
  { cancelWhere OfferPlace.presented s with
    offers := { (cancelWhere OfferPlace.presented s).offers with baseSuspended := true } }

theorem closeBaseGate_eq (s : State) : closeBaseGate s = statusTrigger (baseGateClosed s) := rfl

theorem baseGateClosed_frame (s : State) : Frame [.offers] nothing s (baseGateClosed s) :=
  ((cancelWhere_frame _ s).then (offers_frame _ _)).mono (by decide) fun _ => id

theorem baseGateClosed_offers (s : State) :
    (baseGateClosed s).offers = { s.offers with places := (baseGateClosed s).offers.places, baseSuspended := true } ∧
    cancelled OfferPlace.presented s (baseGateClosed s) := by
  obtain ⟨ps, he, hp⟩ := cancelWhere_eq OfferPlace.presented s
  unfold baseGateClosed
  rw [he]
  exact ⟨rfl, hp⟩

/-- R118: a CAB_SUSPEND while the suspension is in force renews its reason and its timer. -/
theorem suspendCab_renews {s : State} (h : s.offers.baseSuspended = true) (reason minutes : Nat) :
    suspendCab reason minutes s = suspensionTimed reason minutes s := if_pos h

theorem suspendCab_begins {s : State} (h : ¬ s.offers.baseSuspended = true) (reason minutes : Nat) :
    suspendCab reason minutes s = statusTrigger (baseGateClosed (suspensionTimed reason minutes s)) :=
  (if_neg h).trans (closeBaseGate_eq _)

/-! ### The suspension ended (R118) -/

/-- R118: the suspension ended, before the status trigger. -/
def suspensionEnded (s : State) : State :=
  { s with offers := { s.offers with baseSuspended := false, baseTimer := { running := false, left := 0 } } }

theorem endSuspension_eq (s : State) : endSuspension s = statusTrigger (suspensionEnded s) := rfl

theorem suspensionEnded_frame (s : State) : Frame [.offers] nothing s (suspensionEnded s) := offers_frame _ s

/-- R76, R118: an event in which the suspension ends, where what came before has left the Offer Manager as it was. -/
theorem endSuspension_publish {s u : State} {a : List Part} (hw : s.Inv) (hq : s.queueSound) (f : Frame a nothing s u)
    (ha : ∀ r ∈ .offers :: .attention :: beforeTrigger, r ∉ a) :
    (publish (endSuspension u)).offers = { s.offers with
      baseSuspended := false, baseTimer := { running := false, left := 0 } } ∧
    (if s.running = true then
        statusPlaced s.queue s (publish (endSuspension u)) ∧ (publish (endSuspension u)).boardsShown
      else queueKept s (publish (endSuspension u))) ∧
    (publish (endSuspension u)).lampShows ∧ gains 0 s (publish (endSuspension u)) := by
  have g := f.then (endSuspension_frame u)
  have fu := f.then (suspensionEnded_frame u)
  have hu : ∀ r ∈ beforeTrigger, r ∉ a ++ [.offers] :=
    untouched_append (fun r hr => ha r (List.mem_cons_of_mem _ (List.mem_cons_of_mem _ hr))) (by decide)
  refine ⟨?_, ?_, publish_lampShows _, gains_publish_zero ?_⟩
  · rw [publish_offers, endSuspension_eq, statusTrigger_offers]
    unfold suspensionEnded
    rw [f.offers (ha _ (by decide))]
  · split
    · rename_i hs
      exact ⟨statusPlaced_after hs hq fu hu, publishWith_boardsShown (g.wf hw) false⟩
    · rename_i hs
      exact queueKept_after (Bool.eq_false_iff.2 hs) fu hu
  · exact ((endSuspension_frame u).attention (by decide)).trans (f.attention (ha _ (by decide)))

end Sys2Proof.Machine

namespace Sys2Proof.Proofs

open Sys2Proof.Machine

/-- Settles O51: CAB_SUSPEND by whether a suspension is in force, and the two ends by `endSuspension_publish`. -/
theorem baseSuspension : Obligations.BaseSuspension := by
  refine ⟨fun h reason minutes s hp hq held frame => ?_, fun h s hp hw hq held frame => ?_,
    fun s hp hw hq inForce runs out => ?_⟩
  · have f := suspendCab_frame reason minutes (takenByOwner s)
    have timed := (takenByOwner_frame s).then (suspensionTimed_frame reason minutes (takenByOwner s))
    refine ⟨_, exec_cabSuspend hp held frame, releasedBy_publish held f (by decide), ?_, ?_, publish_lampShows _,
      gains_publish_zero (f.attention (by decide)),
      ((takenByOwner_frame s).then f).publish.mono (by decide) fun _ h => h⟩
    all_goals by_cases on : s.offers.baseSuspended = true
    · rw [publish_offers, suspendCab_renews (s := takenByOwner s) on]
      exact congrArg (fun b => { (suspensionTimed reason minutes s).offers with baseSuspended := b }) on
    · rw [publish_offers, suspendCab_begins (s := takenByOwner s) on, statusTrigger_offers]
      exact (baseGateClosed_offers _).1
    · rw [if_pos on, suspendCab_renews (s := takenByOwner s) on]
      exact ⟨congrArg (·.places) (publish_offers _), queueKept_of_frame timed.publish (by decide)⟩
    · have closed := timed.then (baseGateClosed_frame _)
      have table := (baseGateClosed_offers (suspensionTimed reason minutes (takenByOwner s))).2
      rw [if_neg on, suspendCab_begins (s := takenByOwner s) on]
      refine ⟨cancelled_congr table rfl rfl ?_, ?_⟩
      · rw [publish_offers, statusTrigger_offers]
      · split
        · rename_i hs
          exact statusPlaced_after hs hq closed (by decide)
        · rename_i hs
          exact queueKept_after (Bool.eq_false_iff.2 hs) closed (by decide)
  · have f := resumeCab_frame (takenByOwner s)
    refine ⟨publish (resumeCab (takenByOwner s)), event_next hp (frame ▸ holdsPlain_of_held held),
      releasedBy_publish held f (by decide), ?_, ((takenByOwner_frame s).then f).publish.mono (by decide) fun _ h => h⟩
    by_cases on : s.offers.baseSuspended = true
    · rw [if_pos on, show resumeCab (takenByOwner s) = endSuspension (takenByOwner s) from if_pos on]
      exact endSuspension_publish hw hq (takenByOwner_frame s) (by decide)
    · rw [if_neg on, show resumeCab (takenByOwner s) = takenByOwner s from if_neg on]
      exact ⟨publish_offers _, queueKept_of_frame (takenByOwner_frame s).publish (by decide), gains_publish_zero rfl⟩
  · have occasion : (s.offers.baseSuspended && s.offers.baseTimer.due) = true := by
      simp [Timer.due, inForce, runs, out]
    exact ⟨publish (endSuspension s), event_next hp occasion, endSuspension_publish hw hq (Frame.refl s) (by decide),
      (endSuspension_frame s).publish.mono (by decide) fun _ h => h⟩

end Sys2Proof.Proofs
end

section
/-! The Message Manager's own events (R162 to R172): a base message, the reminder and the completion of a held send. -/

namespace Sys2Proof.Machine

/-! ### A base message at the manager (R163) -/

/-- R163: a base message as the routing hands it over. -/
def HeldFrame.message (h : HeldFrame) (number sender : Nat) (receipt urgent : Bool) (text : List Byte) : Incoming where
  number := number
  directed := h.directed
  receipt := receipt
  urgent := urgent
  sender := sender
  text := text
  arrival := h.stamp

theorem exec_baseMessage {h : HeldFrame} {s : State} {number sender : Nat} {receipt urgent : Bool} {text : List Byte}
    (hp : s.powered = true) (held : heldForOwner s = some h)
    (frame : h.frame = .baseMessage number receipt urgent sender text) : exec .baseMessage s =
      .next (publish (takeMessage (h.message number sender receipt urgent text) (takenByOwner s))) := by
  have waits : messageAtManager s = some (h.message number sender receipt urgent text) := by
    unfold messageAtManager
    rw [held]
    dsimp only
    rw [frame]
    rfl
  change execBaseMessage s = _
  unfold execBaseMessage
  rw [waits]
  exact event_next hp rfl

/-- R163, R164: MSG_DELIVERED asked for where the message was directed. -/
def answerIfDirected (m : Incoming) (s : State) : State :=
  if m.directed then answerDelivered m.number s else s

theorem answerIfDirected_frame (m : Incoming) (s : State) :
    Frame [.posCopy, .queue, .mail] nothing s (answerIfDirected m s) :=
  (answerDelivered_frame _ s).ite (Frame.refl_of s)

theorem takeMessage_known {m : Incoming} {s : State} (h : s.msgs.knows m.number = true) :
    takeMessage m s = answerIfDirected m s := if_pos h

theorem takeMessage_fits {m : Incoming} {s : State} (h : ¬ s.msgs.knows m.number = true) {i : Slot}
    (hi : freeBox s.ram = some i) : takeMessage m s = acceptMessage i m s := by
  unfold takeMessage
  rw [if_neg h, hi]

theorem takeMessage_full {m : Incoming} {s : State} (h : ¬ s.msgs.knows m.number = true)
    (hi : freeBox s.ram = none) : takeMessage m s = refuseMessage m s := by
  unfold takeMessage
  rw [if_neg h, hi]

/-- The parts that the admission of a controller's frame reads or leaves. -/
def controllerParts : List Part := [.queue, .mail, .posCopy, .settings, .cycle]

/-- R73, R74: a controller's frame asked for between what leaves the queue and the mail alone. -/
theorem askedFor_of_frames {kind : Uplink} {tail : List Byte} {s u v t : State} {a b : List Part} {p q : Nat → Prop}
    (f : Frame a p s u) (ha : ∀ r ∈ controllerParts, r ∉ a) (k : askedFor kind tail u v) (g : Frame b q v t)
    (hb : ∀ r ∈ controllerParts, r ∉ b) : askedFor kind tail s t := by
  unfold askedFor at k ⊢
  rw [f.posCopy (ha _ (by decide)), f.running (ha _ (by decide)), f.queue (ha _ (by decide)),
    f.mail (ha _ (by decide)), f.cycle (ha _ (by decide))] at k
  rw [g.posCopy (hb _ (by decide)), g.queue (hb _ (by decide)), g.mail (hb _ (by decide))]
  exact k

/-- R163, R164: the answer of a directed message, and none of a broadcast, seen at the end of the event. -/
theorem answerIfDirected_asked {m : Incoming} {s u t : State} {a b : List Part} {p q : Nat → Prop}
    (hq : s.queueSound) (f : Frame a p s u) (ha : ∀ r ∈ controllerParts, r ∉ a)
    (g : Frame b q (answerIfDirected m u) t) (hb : ∀ r ∈ controllerParts, r ∉ b) :
    if m.directed = true then askedFor .msgDelivered (laid 1 3 [(1, 2, m.number)]) s t
    else queueKept s t ∧ t.mail = s.mail := by
  by_cases hd : m.directed = true
  · rw [if_pos hd, laid_word]
    rw [show answerIfDirected m u = answerDelivered m.number u from if_pos hd] at g
    exact askedFor_of_frames f ha (askedFor_admitController
      (queueSound_of_queue hq (f.queue (ha _ (by decide)))) (by decide) (be 2 m.number)) g hb
  · rw [if_neg hd]
    rw [show answerIfDirected m u = u from if_neg hd] at g
    exact ⟨⟨(g.queue (hb _ (by decide))).trans (f.queue (ha _ (by decide))),
        (g.posCopy (hb _ (by decide))).trans (f.posCopy (ha _ (by decide)))⟩,
      (g.mail (hb _ (by decide))).trans (f.mail (ha _ (by decide)))⟩

/-! ### A message stored (R162 to R165) -/

theorem box_not_controller {i : Slot} {x : Nat} (h : boxBase i ≤ x) (h' : x < boxBase i + 96) : ¬ controllerByte x := by
  have := i.isLt
  unfold boxBase at h h'
  unfold controllerByte
  omega

/-- R162: what stores nothing leaves the bytes of a Message Box slot alone. -/
theorem Frame.box {a : List Part} {s t : State} (f : Frame a nothing s t) (i : Slot) {o n : Nat} (h : o + n ≤ 96) :
    Memory.read t.ram (boxBase i + o) n = Memory.read s.ram (boxBase i + o) n :=
  Memory.read_congr fun k hk => f.ram _ (box_not_controller (i := i) (by omega) (by omega)) id

/-- R162, R164: the data words of a slot and then its hand. -/
theorem read_presentMessage {r : Memory} (w : Memory.wf r = true) (i : Slot) (n : Nat) (m : Incoming) :
    Memory.read (presentMessage i n m r) (boxBase i) 2 = handWord handApp ∧
    Memory.read (presentMessage i n m r) (boxBase i + 2) 70 = messageBytes n m := by
  unfold presentMessage
  refine ⟨Memory.read_write_same (Memory.wf_write w _ _) _ (handWord handApp), ?_⟩
  have data := Memory.read_write_same w (boxBase i + 2) (messageBytes n m)
  rw [messageBytes_length] at data
  conv_rhs => rw [← data]
  refine Memory.read_congr fun k _ => Memory.get_write_other _ _ _ _ ?_
  rw [handWord_length]
  omega

/-- R170: the reminder started where no slot was at APP. -/
theorem startReminder_eq (anyApp : Bool) (interval : Nat) (t : Timer) :
    startReminder (!anyApp) interval t =
      if anyApp = true then t else { running := interval != 0, left := interval } := by
  cases anyApp <;> rfl

/-- R164: a message stored, with its news. -/
def messageStored (i : Slot) (m : Incoming) (s : State) : State := setNews .message (storeMessage i m s)

theorem messageStored_frame (i : Slot) (m : Incoming) (s : State) :
    Frame [.ram, .msgs, .attention] (bytesAt (boxBase i) 96) s (messageStored i m s) :=
  (storeMessage_frame i m s).then (setNews_frame .message _)

theorem acceptMessage_eq (i : Slot) (m : Incoming) (s : State) : acceptMessage i m s =
    if m.urgent then requestChime (answerIfDirected m (messageStored i m s))
    else answerIfDirected m (messageStored i m s) := by
  unfold acceptMessage
  rfl

/-- R100, R164: the chime is asked for by an urgent message, after everything else. -/
theorem acceptMessage_chimes (i : Slot) (m : Incoming) (s : State) :
    Frame [.chime] nothing (answerIfDirected m (messageStored i m s)) (acceptMessage i m s) ∧
    (acceptMessage i m s).chime = if m.urgent then { high := true, ticks := 20 } else s.chime := by
  rw [acceptMessage_eq]
  refine ⟨(requestChime_frame _).ite (Frame.refl_of _), ?_⟩
  split
  · rfl
  · exact ((answerIfDirected_frame m _).chime (by decide)).trans ((messageStored_frame i m s).chime (by decide))

/-- R164: what follows the storing of a message leaves the slot, the manager and the news as stored. -/
theorem acceptMessage_after (i : Slot) (m : Incoming) (s : State) :
    Frame [.posCopy, .queue, .mail, .chime] nothing (messageStored i m s) (acceptMessage i m s) :=
  (answerIfDirected_frame m _).then (acceptMessage_chimes i m s).1

/-- R162 to R165: the slot, the manager and the news of a message that has been stored. -/
theorem acceptMessage_stored {m : Incoming} {s : State} (hw : s.Inv) (i : Slot) :
    Memory.read (publish (acceptMessage i m s)).ram (boxBase i) 2 = handWord handApp ∧
    Memory.read (publish (acceptMessage i m s)).ram (boxBase i + 2) 70 = messageBytes s.msgs.nextArrival m ∧
    (publish (acceptMessage i m s)).msgs = { s.msgs with
      nextArrival := if s.msgs.nextArrival < 65535 then s.msgs.nextArrival + 1 else 1
      boxes := put s.msgs.boxes i
        { held := true, number := m.number, receipt := m.receipt, urgent := m.urgent, directed := m.directed }
      recent := (if s.msgs.recent.length < 16 then s.msgs.recent else s.msgs.recent.drop 1) ++ [m.number]
      reminder := if anyBoxAtApp s.ram then s.msgs.reminder
        else { running := s.working.reminder != 0, left := s.working.reminder } } ∧
    gains News.message.mask s (publish (acceptMessage i m s)) := by
  have after := acceptMessage_after i m s
  have box {o n : Nat} := after.publish.box i (o := o) (n := n)
  obtain ⟨hand, data⟩ := read_presentMessage hw i s.msgs.nextArrival m
  refine ⟨(box (o := 0) (by decide)).trans hand, (box (by decide)).trans data, ?_,
    gains_publish (after.attention (by decide))⟩
  rw [publish_msgs, after.msgs (by decide), ← startReminder_eq]
  rfl

/-! ### A message that finds the box full (R166, R167) -/

/-- R166: RNR set, before its status trigger. -/
def rnrSet (s : State) : State := { s with msgs := { s.msgs with rnr := true } }

theorem rnrSet_frame (s : State) : Frame [.msgs] nothing s (rnrSet s) := msgs_frame _ s

theorem refuseMessage_first {m : Incoming} {s : State} (hd : m.directed = true) (hr : s.msgs.rnr = false) :
    refuseMessage m s = statusTrigger (rnrSet s) :=
  (if_pos hd).trans (if_neg (hr ▸ Bool.false_ne_true))

theorem refuseMessage_again {m : Incoming} {s : State} (hd : m.directed = true) (hr : s.msgs.rnr = true) :
    refuseMessage m s = s := (if_pos hd).trans (if_pos hr)

theorem refuseMessage_broadcast {m : Incoming} {s : State} (hd : ¬ m.directed = true) : refuseMessage m s =
    setNews .dropped { s with msgs := { s.msgs with dropped := bump 255 s.msgs.dropped } } := if_neg hd

/-- R166: a directed message that finds the box full leaves RNR set and nothing else of the manager changed. -/
theorem refuseMessage_rnr {m : Incoming} {s : State} (hd : m.directed = true) :
    (refuseMessage m s).msgs = { s.msgs with rnr := true } ∧
    Frame [.msgs, .posCopy, .queue] nothing s (refuseMessage m s) := by
  cases hr : s.msgs.rnr with
  | false =>
    rw [refuseMessage_first hd hr]
    exact ⟨(statusTrigger_frame _).msgs (by decide), (rnrSet_frame s).then (statusTrigger_frame _)⟩
  | true =>
    rw [refuseMessage_again hd hr]
    exact ⟨congrArg (fun b => { s.msgs with rnr := b }) hr, Frame.refl_of s⟩

/-- R76, R166: the status trigger of a directed message that finds the box full and RNR clear, where what came before
has left the manager as it was. -/
theorem refuseMessage_status {m : Incoming} {s u : State} {a : List Part} (hd : m.directed = true) (hq : s.queueSound)
    (f : Frame a nothing s u) (ha : ∀ r ∈ .msgs :: beforeTrigger, r ∉ a) :
    if s.msgs.rnr = false ∧ s.running = true then statusPlaced s.queue s (publish (refuseMessage m u))
    else queueKept s (publish (refuseMessage m u)) := by
  have rnr : u.msgs.rnr = s.msgs.rnr := congrArg _ (f.msgs (ha _ (by decide)))
  have set := f.then (rnrSet_frame u)
  have hset : ∀ r ∈ beforeTrigger, r ∉ a ++ [.msgs] :=
    untouched_append (fun r hr => ha r (List.mem_cons_of_mem _ hr)) (by decide)
  cases hr : s.msgs.rnr with
  | true =>
    rw [if_neg (fun c => Bool.false_ne_true c.1.symm), refuseMessage_again hd (rnr.trans hr)]
    exact ⟨(publish_queue u).trans (f.queue (ha _ (by decide))),
      (publish_posCopy u).trans (f.posCopy (ha _ (by decide)))⟩
  | false =>
    rw [refuseMessage_first hd (rnr.trans hr)]
    by_cases hs : s.running = true
    · rw [if_pos ⟨rfl, hs⟩]
      exact statusPlaced_after hs hq set hset
    · rw [if_neg fun c => hs c.2]
      exact queueKept_after (Bool.eq_false_iff.2 hs) set hset

/-! ### The completion of a held send (R172) -/

/-- R172: the notice and its held send taken off, before the request completes. -/
def sendReleased (n : SendNotice) (rest : List SendNotice) (s : State) : State :=
  { s with
    mail := { s.mail with sendNotices := rest }
    msgs := { s.msgs with sends := s.msgs.sends.erase { slot := n.slot, seq := n.seq } } }

theorem sendReleased_frame (n : SendNotice) (rest : List SendNotice) (s : State) :
    Frame [.mail, .msgs] nothing s (sendReleased n rest s) :=
  (mail_frame { s.mail with sendNotices := rest } s).then (msgs_frame _ _)

theorem sendNoticeTaken_held {n : SendNotice} {rest : List SendNotice} {s : State}
    (h : s.mail.sendNotices = n :: rest) (hm : { slot := n.slot, seq := n.seq } ∈ s.msgs.sends) :
    sendNoticeTaken s =
      completeRequest n.slot (if n.done then .done else .undelivered) n.seq (sendReleased n rest s) := by
  unfold sendNoticeTaken
  rw [h]
  exact if_pos (List.contains_iff_mem.2 hm)

/-- R172: a notice that no held send waits for is ignored. -/
theorem sendNoticeTaken_unheld {n : SendNotice} {rest : List SendNotice} {s : State}
    (h : s.mail.sendNotices = n :: rest) (hm : { slot := n.slot, seq := n.seq } ∉ s.msgs.sends) :
    sendNoticeTaken s = { s with mail := { s.mail with sendNotices := rest } } := by
  unfold sendNoticeTaken
  rw [h]
  exact if_neg fun c => hm (List.contains_iff_mem.1 c)

end Sys2Proof.Machine

namespace Sys2Proof.Proofs

open Sys2Proof.Machine

/-- Settles O52: a message by whether it is known and whether a slot is free, and a notice by whether its send is
held. -/
theorem messageEvents : Obligations.MessageEvents := by
  refine ⟨fun h number sender receipt urgent text s hp hw hq held frame => ?_, fun s hp runs out => ?_,
    fun n rest s hp hw hm => ?_⟩
  · refine ⟨_, exec_baseMessage hp held frame, releasedBy_publish held (takeMessage_frame _ _) (by decide), ?_⟩
    have f := takenByOwner_frame s
    generalize hm : h.message number sender receipt urgent text = m
    dsimp only
    by_cases known : s.msgs.knows number = true
    · have g := answerIfDirected_frame m (takenByOwner s)
      rw [if_pos known, takeMessage_known (s := takenByOwner s) (hm ▸ known)]
      refine ⟨(publish_msgs _).trans (g.msgs (by decide)), ?_, (publish_chime _).trans (g.chime (by decide)),
        gains_publish_zero (g.attention (by decide)), (f.then g).publish.mono (by decide) fun _ h => h⟩
      have asked := answerIfDirected_asked hq f (by decide) (publish_frame (answerIfDirected m _)) (by decide)
      subst hm
      exact asked
    rw [if_neg known]
    cases room : freeBox s.ram with
    | some i =>
      have stored := f.trans (messageStored_frame i m _)
      obtain ⟨chimes, chime⟩ := acceptMessage_chimes i m (takenByOwner s)
      obtain ⟨hand, data, msgs, news⟩ := acceptMessage_stored (m := m) (s := takenByOwner s) hw i
      have asked := answerIfDirected_asked hq stored (by decide) chimes.publish (by decide)
      rw [takeMessage_fits (s := takenByOwner s) (hm ▸ known) room]
      subst hm
      exact ⟨hand, data, msgs, asked, (publish_chime _).trans chime, news,
        (f.trans (acceptMessage_frame i _ _)).publish.mono (by decide) fun _ h => h.resolve_left id⟩
    | none =>
      have g := refuseMessage_frame m (takenByOwner s)
      rw [takeMessage_full (s := takenByOwner s) (hm ▸ known) room]
      refine ⟨(publish_chime _).trans (g.chime (by decide)), (f.then g).publish.mono (by decide) fun _ h => h, ?_⟩
      by_cases directed : h.directed = true
      · rw [if_pos directed]
        have hd : m.directed = true := hm ▸ directed
        obtain ⟨msgs, quiet⟩ := refuseMessage_rnr (s := takenByOwner s) hd
        exact ⟨(publish_msgs _).trans msgs, gains_publish_zero (quiet.attention (by decide)),
          refuseMessage_status hd hq f (by decide)⟩
      · rw [if_neg directed, refuseMessage_broadcast (s := takenByOwner s) (hm ▸ directed)]
        exact ⟨publish_msgs _, gains_publish rfl, publish_queue _, publish_posCopy _⟩
  · have occasion : s.msgs.reminder.due = true := by simp [Timer.due, runs, out]
    exact ⟨publish (reminderExpired s), event_next hp occasion, publish_msgs _, publish_chime _,
      publish_chimePin _, gains_publish rfl, (reminderExpired_frame s).publish.mono (by decide) fun _ h => h⟩
  · refine ⟨publish (sendNoticeTaken s), event_next hp (by rw [hm]; rfl), ?_⟩
    dsimp only
    by_cases waits : { slot := n.slot, seq := n.seq } ∈ s.msgs.sends
    · have released := sendReleased_frame n rest s
      rw [if_pos waits, sendNoticeTaken_held hm waits, publish_mail, completeRequest_mail, publish_msgs,
        completeRequest_msgs]
      refine ⟨rfl, rfl, fun hc => ⟨?_, gains_publish ?_⟩,
        (released.completing _ _ _).publish.mono (by decide) fun _ h => h⟩
      · exact completed_of_frame (completeRequest_completed (s := sendReleased n rest s) hw hc _ _) (publish_frame _)
          fun _ _ _ => id
      · rw [completeRequest_eq (s := sendReleased n rest s) hc]
        rfl
    · rw [if_neg waits, sendNoticeTaken_unheld hm waits]
      exact ⟨publish_mail _, publish_msgs _, gains_publish_zero rfl, (mail_frame _ s).publish⟩

end Sys2Proof.Proofs
end

section
/-! The Link Quality Unit's own events (R84 to R92): what it takes from the Cycle Tracker, the Radio Port and the
routing, each as the counts it then holds, the link state derived from them and the news of both. -/

namespace Sys2Proof.Machine

/-! ### The counts after an event -/

/-- R92: up by 1 to 255, and the flag set by an increment that finds 255. -/
theorem LinkUnit.logged_eq (l : LinkUnit) : l.logged = { l with
    log := if l.log < 255 then l.log + 1 else l.log
    overflowed := l.overflowed || decide (255 ≤ l.log) } := by
  unfold LinkUnit.logged
  by_cases room : l.log < 255
  · rw [if_pos room, if_pos room, decide_eq_false (Nat.not_le.2 room), Bool.or_false]
  · rw [if_neg room, if_neg room, decide_eq_true (Nat.not_lt.1 room), Bool.or_true]

/-- R84, R89: UFC at 255 while withdrawn, up by 8 while there is room, and otherwise the withdrawal. -/
theorem LinkUnit.missedUfc_eq (l : LinkUnit) : l.missedUfc = { l with
    ufc := if l.withdrawn ∨ 255 < l.ufc + 8 then 255 else l.ufc + 8
    withdrawn := l.withdrawn || decide (255 < l.ufc + 8)
    recovery := if l.withdrawn = false ∧ 255 < l.ufc + 8 then 0 else l.recovery } := by
  unfold LinkUnit.missedUfc LinkUnit.withdraw
  cases h : l.withdrawn with
  | true => simp [← h]
  | false =>
    by_cases room : l.ufc + 8 ≤ 255
    · simp [room, Nat.not_lt.2 room]
    · simp [room, Nat.not_le.1 room]

theorem LinkUnit.missed_eq (l : LinkUnit) : l.missed = { l with
    ufc := if l.withdrawn ∨ 255 < l.ufc + 8 then 255 else l.ufc + 8
    withdrawn := l.withdrawn || decide (255 < l.ufc + 8)
    recovery := if l.withdrawn = false ∧ 255 < l.ufc + 8 then 0 else l.recovery
    log := if l.log < 255 then l.log + 1 else l.log
    overflowed := l.overflowed || decide (255 ≤ l.log)
    lastError := .noAck } := by
  unfold LinkUnit.missed
  rw [LinkUnit.logged_eq, LinkUnit.missedUfc_eq]

theorem LinkUnit.downError_eq (e : LinkError) (l : LinkUnit) : l.downError e = { l with
    dfc := min 255 (l.dfc + 1)
    log := if l.log < 255 then l.log + 1 else l.log
    overflowed := l.overflowed || decide (255 ≤ l.log)
    lastError := e } := by
  unfold LinkUnit.downError
  rw [LinkUnit.logged_eq]
  rfl

/-- R86, R90: a recovery step only while withdrawn, and the recovery at the 32nd. -/
theorem LinkUnit.goodBeacon_eq (l : LinkUnit) : l.goodBeacon =
    let recovers := l.withdrawn = true ∧ l.recovery + 1 = 32
    { l with
      dfc := if recovers then 0 else l.dfc - 1
      ufc := if recovers then 0 else l.ufc
      searching := false
      recovery := if recovers then 0 else if l.withdrawn then l.recovery + 1 else l.recovery
      withdrawn := if recovers then false else l.withdrawn
      lastError := if l.withdrawn then .recoveryStep else l.lastError } := by
  unfold LinkUnit.goodBeacon LinkUnit.recoveryStep LinkUnit.recovered
  cases h : l.withdrawn with
  | false => simp
  | true => by_cases last : l.recovery + 1 = 32 <;> simp [last]

/-! ### The end of an event of the unit (R88, R91, R92) -/

/-- R88, R91, R92: the unit holds the counts of `l` with the link state they give and has given its news; beyond
the parts `a`, nothing but the unit has changed. -/
structure LinkMoved (a : List Part) (l : LinkUnit) (s t : State) : Prop where
  link  : t.link = { l with state := deriveLink (!s.running) t.link }
  news  : linkNews s t
  frame : Frame (withEnds (a ++ [.link])) nothing s t

theorem newsIf_attention (c : Bool) (n : News) (s : State) :
    (newsIf c n s).port.attention = s.port.attention ||| (if c = true then n.mask else 0) := by
  cases c with
  | false => exact BitVec.or_zero.symm
  | true => rfl

theorem relink_link (s : State) :
    (relink s).link = { s.link with state := deriveLink (!s.running) s.link } := by
  rw [relink_eq, newsIf_link]

theorem relink_attention (s : State) : (relink s).port.attention =
    s.port.attention ||| (if (relink s).link.state = s.link.state then 0 else News.link.mask) := by
  rw [relink_link, relink_eq, newsIf_attention]
  simp only [bne_iff_ne, ite_not]

/-- The link state derived from new counts, with the LOG_OVERFLOW news of the first overflow already given. -/
theorem relink_moved {a : List Part} {s u : State} (f : Frame (a ++ [.link, .attention]) nothing s u)
    (ha : Part.settings ∉ a) (state : u.link.state = s.link.state)
    (overflow : u.port.attention = s.port.attention |||
      (if s.link.overflowed = false ∧ u.link.overflowed = true then News.logOverflow.mask else 0)) :
    LinkMoved a u.link s (publish (relink u)) := by
  have running : u.running = s.running := f.running fun m => (List.mem_append.1 m).elim ha (by decide)
  have link : (publish (relink u)).link = { u.link with state := deriveLink (!s.running) u.link } := by
    rw [publish_link, relink_link, running]
  refine ⟨link.trans (by rw [link]; rfl), gains_publish ?_, (f.then (relink_frame u)).publish.mono ?_ fun _ => id⟩
  · rw [relink_attention, overflow, publish_link, relink_link, state, BitVec.or_assoc]
    exact congrArg _ (BitVec.or_comm _ _)
  · simp only [withEnds, ends, List.mem_append, List.mem_cons]
    tauto

/-- Counts replaced by `m`, without an entry in the link log. -/
theorem relink_counts {a : List Part} {s w : State} {l m : LinkUnit} (counts : l = m) (f : Frame a nothing s w)
    (ha : ∀ r ∈ [Part.settings, .attention], r ∉ a) (state : m.state = s.link.state)
    (flag : m.overflowed = s.link.overflowed) :
    LinkMoved a m s (publish (relink { w with link := l })) := by
  subst counts
  have quiet : ¬ (s.link.overflowed = false ∧ l.overflowed = true) := by simp [flag]
  refine relink_moved (u := { w with link := l })
    ((f.then (link_frame l w)).mono ?_ fun _ => id) (ha _ (by decide)) state ?_
  · simp only [List.mem_append, List.mem_cons]
    tauto
  · rw [if_neg quiet]
    exact (f.attention (ha _ (by decide))).trans BitVec.or_zero.symm

/-- R92: counts replaced by `m`, with an entry in the link log. -/
theorem loggedChange_counts {a : List Part} {s w : State} {g : LinkUnit → LinkUnit} {m : LinkUnit}
    (counts : g s.link = m) (f : Frame a nothing s w) (ha : ∀ r ∈ [Part.settings, .attention, .link], r ∉ a)
    (state : m.state = s.link.state) (flag : m.overflowed = (s.link.overflowed || decide (255 ≤ s.link.log))) :
    LinkMoved a m s (publish (loggedChange g w)) := by
  have overflows : s.link.overflows = true ↔ s.link.overflowed = false ∧ m.overflowed = true := by
    rw [flag]
    cases h : s.link.overflowed <;> simp [LinkUnit.overflows, h]
  have entered : loggedChange g w = relink (newsIf s.link.overflows .logOverflow { w with link := m }) := by
    rw [← counts, ← f.link (ha _ (by decide))]
    rfl
  have logged := (f.then (link_frame m w)).then (newsIf_frame s.link.overflows .logOverflow _)
  have attention : (newsIf s.link.overflows .logOverflow { w with link := m }).port.attention = s.port.attention |||
      (if s.link.overflowed = false ∧ m.overflowed = true then News.logOverflow.mask else 0) := by
    rw [newsIf_attention, if_congr overflows rfl rfl]
    exact congrArg (· ||| _) (f.attention (ha _ (by decide)))
  have link := newsIf_link s.link.overflows .logOverflow { w with link := m }
  rw [entered]
  generalize newsIf s.link.overflows .logOverflow { w with link := m } = u at *
  obtain rfl : u.link = m := link
  exact relink_moved (logged.mono (by simp) fun _ => id) (ha _ (by decide)) state attention

/-! ### The reports of the Cycle Tracker -/

/-- The event that takes a report. -/
def LinkReport.event : LinkReport → Instr
  | .outcome _ _ => .linkOutcome
  | .beaconMissed => .beaconMissedReport
  | .syncLost => .syncLostReport

/-- R84, R87: the oldest report is taken off and acted on. -/
theorem exec_linkReport {s : State} {r : LinkReport} {rest : List LinkReport} (hp : s.powered = true)
    (hm : s.mail.linkReports = r :: rest) :
    exec r.event s = .next (publish (linkTakes r (dropLinkReport s))) := by
  cases r with
  | outcome ofQueue o =>
    have oldest : outcomeAtLink s = some (ofQueue, o) := by unfold outcomeAtLink; rw [hm]
    change execLinkOutcome s = _
    unfold execLinkOutcome
    rw [oldest]
    exact event_next hp rfl
  | beaconMissed => exact event_next hp (by rw [hm]; rfl)
  | syncLost => exact event_next hp (by rw [hm]; rfl)

theorem dropLinkReport_frame (s : State) : Frame [.mail] nothing s (dropLinkReport s) := mail_frame _ s

theorem linkTakes_mail {s : State} {r : LinkReport} {rest : List LinkReport} (hm : s.mail.linkReports = r :: rest) :
    (publish (linkTakes r (dropLinkReport s))).mail = { s.mail with linkReports := rest } := by
  rw [publish_mail, (linkTakes_frame r _).mail (by decide)]
  unfold dropLinkReport
  rw [hm]
  rfl

/-- What leaves the unit alone and gives no news of its own. -/
theorem linkNews_still {s t : State} (link : t.link = s.link) (h : gains 0 s t) : linkNews s t := by
  unfold linkNews
  rw [link, if_pos rfl, if_neg (by simp)]
  exact h

/-- R84: an outcome that is not of the queue, or that judges nothing, moves no count. -/
theorem linkTakesOutcome_still {ofQueue : Bool} {o : FrameOutcome} (ha : ¬ (ofQueue = true ∧ o = .acknowledged))
    (hm : ¬ (ofQueue = true ∧ o = .missed)) (s : State) : linkTakesOutcome ofQueue o s = s := by
  unfold linkTakesOutcome
  split
  next q =>
    split
    · exact absurd ⟨q, rfl⟩ ha
    · exact absurd ⟨q, rfl⟩ hm
    · rfl
  next => rfl

/-! ### The receive error and the good beacon at the unit -/

theorem exec_receiveError {s : State} {e : RxError} {rest : List RxError} (hp : s.powered = true)
    (hm : s.mail.rxErrors = e :: rest) : exec .receiveError s = .next (publish (loggedChange
      (LinkUnit.downError e.linkError) { s with mail := { s.mail with rxErrors := rest } })) := by
  change execReceiveError s = _
  unfold execReceiveError
  rw [hm]
  exact event_next hp rfl

/-- R39: the unit has taken the beacon; the owner's part stays held. -/
theorem takenByLink_rx {s : State} {h : HeldFrame} (held : s.rx.held = some h) : (takenByLink s).rx =
    { s.rx with held := if h.forOwner then some { h with forLink := false } else none } := by
  unfold takenByLink
  rw [held]
  rfl

theorem beaconForLink_of {s : State} {h : HeldFrame} (held : s.rx.held = some h) (part : h.forLink = true) :
    beaconForLink s = true := by
  unfold beaconForLink
  rw [held]
  exact part

end Sys2Proof.Machine

namespace Sys2Proof.Proofs

open Sys2Proof.Machine

/-- Settles O46: each event by the counts it leaves and the one law of how the unit's events end, an outcome by
whether it is of the queue and what it judges. -/
theorem linkReports : Obligations.LinkReports := by
  refine ⟨fun ofQueue o rest s hp hm => ?_, ⟨fun e rest s hp hm => ?_, fun rest s hp hm => ?_⟩,
    fun rest s hp hm => ?_⟩
  · refine ⟨_, exec_linkReport hp hm, linkTakes_mail hm, ?_⟩
    have dropped := dropLinkReport_frame s
    by_cases acknowledged : ofQueue = true ∧ o = .acknowledged
    · obtain ⟨link, news, frame⟩ := relink_counts (l := s.link.acknowledged) rfl dropped (by decide) rfl rfl
      rw [if_pos acknowledged]
      obtain ⟨rfl, rfl⟩ := acknowledged
      exact ⟨news, frame, link⟩
    rw [if_neg acknowledged]
    by_cases missed : ofQueue = true ∧ o = .missed
    · obtain ⟨link, news, frame⟩ := loggedChange_counts (LinkUnit.missed_eq s.link) dropped (by decide) rfl rfl
      rw [if_pos missed]
      obtain ⟨rfl, rfl⟩ := missed
      exact ⟨news, frame, link⟩
    · have still : linkTakes (.outcome ofQueue o) (dropLinkReport s) = dropLinkReport s :=
        linkTakesOutcome_still acknowledged missed _
      rw [if_neg missed, still]
      exact ⟨linkNews_still (publish_link _) (gains_publish_zero rfl),
        dropped.publish.mono (by decide) fun _ => id, publish_link _⟩
  · obtain ⟨link, news, frame⟩ := loggedChange_counts (LinkUnit.downError_eq e.linkError s.link)
      (mail_frame { s.mail with rxErrors := rest } s) (by decide) rfl rfl
    refine ⟨_, exec_receiveError hp hm, ?_, ?_, news, frame⟩
    · rw [publish_mail, (loggedChange_frame _ _).mail (by decide)]
    · cases e <;> exact link
  · obtain ⟨link, news, frame⟩ := loggedChange_counts (LinkUnit.downError_eq .beaconMissed s.link)
      (dropLinkReport_frame s) (by decide) rfl rfl
    exact ⟨_, exec_linkReport hp hm, linkTakes_mail hm, link, news, frame⟩
  · obtain ⟨link, news, frame⟩ := relink_counts (l := { s.link with searching := true, lastError := .syncLost })
      rfl (dropLinkReport_frame s) (by decide) rfl rfl
    exact ⟨_, exec_linkReport hp hm, linkTakes_mail hm, link, news, frame⟩

/-- Settles O47: by the counts that a good beacon leaves (`goodBeacon_eq`). -/
theorem beaconAtLink : Obligations.BeaconAtLink := by
  intro h s hp held part
  obtain ⟨link, news, frame⟩ := relink_counts (LinkUnit.goodBeacon_eq s.link) (takenByLink_frame s)
    (by decide) rfl rfl
  refine ⟨_, event_next hp (beaconForLink_of held part), ?_, link, news, frame⟩
  rw [publish_rx, (relink_frame _).rx (by decide)]
  exact takenByLink_rx held

end Sys2Proof.Proofs
end

section
/-! RESUME_OFFERS (R109): the latch and the consecutive-expiry counter cleared by the driver. -/

namespace Sys2Proof.Machine

/-- R109: the latch and the counter cleared, before the status trigger. -/
def latchCleared (s : State) : State := { s with offers := { s.offers with latch := false, expiries := 0 } }

theorem latchCleared_frame (s : State) : Frame [.offers] nothing s (latchCleared s) := offers_frame _ s

/-- R101, R109: a latch that was set is cleared with a status trigger. -/
theorem clearLatch_set {s : State} (h : s.offers.latch = true) : clearLatch s = statusTrigger (latchCleared s) :=
  if_pos h

theorem clearLatch_clear {s : State} (h : ¬ s.offers.latch = true) : clearLatch s = latchCleared s := if_neg h

theorem clearLatch_offers (s : State) : (clearLatch s).offers = { s.offers with latch := false, expiries := 0 } := by
  by_cases h : s.offers.latch = true
  · rw [clearLatch_set h, statusTrigger_offers]
    rfl
  · rw [clearLatch_clear h]
    rfl

end Sys2Proof.Machine

namespace Sys2Proof.Proofs

open Sys2Proof.Machine

/-- Settles O32, by whether the latch was set. -/
theorem resumeOffers : Obligations.ResumeOffers := by
  intro i rest s hr hs hq
  have f := clearLatch_frame (s.taken rest)
  obtain ⟨done, frame⟩ := request_after hr f (by decide) .done 0
  refine ⟨publish (completeRequest i .done 0 (clearLatch (s.taken rest))), request_judged hr hs, done, ?_,
    boardsShown_answered hr f .done 0, ?_, frame.mono (by decide) fun _ => id⟩
  · rw [publish_offers, completeRequest_offers]
    exact clearLatch_offers _
  · have cleared := latchCleared_frame (s.taken rest)
    by_cases set : s.offers.latch = true
    · rw [if_pos set, clearLatch_set (s := s.taken rest) set]
      obtain ⟨-, placed, -⟩ := request_statusTrigger hr hs hq cleared (by decide) .done 0
      exact placed
    · rw [if_neg set, clearLatch_clear (s := s.taken rest) set]
      exact queueKept_of_frame (((taken_frame s rest).then cleared).trans (answer_frame i .done 0 _)) (by decide)

end Sys2Proof.Proofs
end

section
/-! JOB_OFFER (R102 to R107): which offers are ignored, which are answered by a JOB_DECLINE, and which enter the
table. -/

namespace Sys2Proof.Machine

theorem exec_jobOffer {h : HeldFrame} {s : State} {number zone deadline estimate : Nat} {assigned account : Bool}
    {text : List Byte} (hp : s.powered = true) (held : heldForOwner s = some h)
    (frame : h.frame = .jobOffer number zone deadline assigned account estimate text) :
    exec .jobOffer s = .next (publish (takeOffer h.directed
      (newEntry h.directed h.stamp number zone deadline assigned account estimate text) (takenByOwner s))) := by
  have waits : offerAtManager s = some (h.directed,
      newEntry h.directed h.stamp number zone deadline assigned account estimate text) := by
    unfold offerAtManager
    rw [held]
    dsimp only
    rw [frame]
  change execJobOffer s = _
  unfold execJobOffer
  rw [waits]
  exact event_next hp rfl

/-! ### The order of the checks (R102) -/

/-- R101: the flags byte is 0 where no gate is closed. -/
theorem allOpen_iff (o : OfferManager) : o.allOpen = true ↔ o.gates = 0 := by
  unfold OfferManager.allOpen OfferManager.gates
  cases o.offDutyGate <;> cases o.latch <;> cases o.baseSuspended <;> cases o.emergencyGate <;> decide

/-- R103: a ZONE offer passes where the cab is for hire in its zone, every gate open and no job taken. -/
theorem zonePasses_iff (zone : Nat) (s : State) : zonePasses zone s = true ↔
    s.fare.duty = .on ∧ s.fare.meter = .vacant ∧ zone = s.offers.zone ∧ s.offers.gates = 0 ∧
      s.offers.anyTaken = false := by
  unfold zonePasses
  simp [allOpen_iff, and_assoc]

/-- R104: a DIRECTED offer passes unless one of its three gates is closed. -/
theorem directedPasses_iff (o : OfferManager) : (!directedPasses o) = true ↔
    o.offDutyGate = true ∨ o.baseSuspended = true ∨ o.emergencyGate = true := by
  unfold directedPasses
  simp [or_assoc]

/-- R102: the checks in their order. -/
theorem takeOffer_eq (d : Bool) (p : OfferPlace) (s : State) : takeOffer d p s =
    if (findOpen p.number s.offers).isSome = true ∨ jobStarted p.number s = true ∨
        (d = false ∧ p.assigned = true) then s
    else if d = false ∧ ¬ (s.fare.duty = .on ∧ s.fare.meter = .vacant ∧ p.zone = s.offers.zone ∧
        s.offers.gates = 0 ∧ s.offers.anyTaken = false) then s
    else if d = true ∧ (s.offers.offDutyGate = true ∨ s.offers.baseSuspended = true ∨
        s.offers.emergencyGate = true) then
      answerDecline p.number reasonUnavailable s
    else if d = true ∧ p.assigned = true ∧ (s.fare.meter ≠ .vacant ∨ s.offers.anyTaken = true) then
      answerDecline p.number reasonBusy s
    else placeOffer d p s := by
  simp only [← zonePasses_iff, ← directedPasses_iff]
  unfold takeOffer judgeOffer
  by_cases h1 : (findOpen p.number s.offers).isSome = true
  · rw [if_pos h1, if_pos (.inl h1)]
  by_cases h2 : jobStarted p.number s = true
  · rw [if_neg h1, if_pos h2, if_pos (.inr (.inl h2))]
  rw [if_neg h1, if_neg h2]
  cases d with
  | false => cases p.assigned <;> cases zonePasses p.zone s <;> simp [h1, h2]
  | true => simp [h1, h2]

/-! ### The answers (R104, R105, R106) -/

/-- R73, R104 to R106, R113: a JOB_DECLINE asked for between what leaves the queue and the mail alone. -/
theorem answerDecline_asked {s u t : State} {a b : List Part} {p q : Nat → Prop} {number reason : Nat}
    (hq : s.queueSound) (f : Frame a p s u) (ha : ∀ r ∈ controllerParts, r ∉ a)
    (g : Frame b q (answerDecline number reason u) t) (hb : ∀ r ∈ controllerParts, r ∉ b) :
    askedFor .jobDecline (laid 1 4 [(1, 2, number), (3, 1, reason)]) s t := by
  have sound : u.queueSound := queueSound_of_queue hq (f.queue (ha _ (by decide)))
  rw [laid_word_byte]
  exact askedFor_of_frames f ha (askedFor_admitController sound (by decide) (declineTail number reason)) g hb

/-! ### The places (R97, R105 to R107) -/

/-- A place replaced twice holds what was put there last. -/
theorem put_put {α : Type} {n : Nat} (v : Vector α n) (i : Fin n) (x y : α) : put (put v i x) i y = put v i y :=
  Vector.set_set x i.isLt

/-- R97, R105, R107: an entry put into its place, with the chime and, where it is AWARDED, the addition. -/
theorem enterOffer_eq (i : Place) (p : OfferPlace) (s : State) : enterOffer i p s =
    { s with
      offers := { s.offers with places := put s.offers.places i p }
      chime := { high := true, ticks := 20 }
      mail := { s.mail with additions :=
        s.mail.additions ++ (if p.state = .awarded then [.offerAccepted] else []) } } := by
  unfold enterOffer
  dsimp only
  split
  · rfl
  · rw [List.append_nil]
    rfl

/-- R106: the entry that makes way leaves nothing of itself in its place. -/
theorem enterOffer_displacing (i : Place) (p : OfferPlace) (s : State) :
    enterOffer i p (countDrop (closePlace i .dropped s)) = enterOffer i p (countDrop s) := by
  rw [closePlace_eq i (by decide), enterOffer_eq, enterOffer_eq]
  unfold countDrop setPlace setNews
  dsimp only
  rw [put_put]

theorem enterOffer_offers (i : Place) (p : OfferPlace) (s : State) :
    (enterOffer i p s).offers = { s.offers with places := put s.offers.places i p } := by
  rw [enterOffer_eq]

theorem placeOffer_free {s : State} {j : Place} (h : freePlace s.offers = some j) (d : Bool) (p : OfferPlace) :
    placeOffer d p s = enterOffer j p s := by
  unfold placeOffer
  rw [h]

section
variable {s : State} (full : freePlace s.offers = none) {d : Bool} (p : OfferPlace)
include full

/-- R106: a ZONE offer that finds the table full is dropped. -/
theorem placeOffer_dropped (hd : ¬ d = true) : placeOffer d p s = countDrop s := by
  unfold placeOffer
  rw [full]
  exact if_neg hd

/-- R106: a DIRECTED offer takes the place of the ZONE entry with the least deadline. -/
theorem placeOffer_displacing (hd : d = true) {j : Place} (h : displacedPlace s.offers = some j) :
    placeOffer d p s = enterOffer j p (countDrop s) := by
  rw [← enterOffer_displacing]
  unfold placeOffer
  rw [full, h]
  exact if_pos hd

/-- R106: a DIRECTED offer that displaces no entry is declined. -/
theorem placeOffer_declined (hd : d = true) (h : displacedPlace s.offers = none) : placeOffer d p s =
    answerDecline p.number (if p.assigned then reasonBusy else reasonUnavailable) (countDrop s) := by
  unfold placeOffer
  rw [full, h]
  exact if_pos hd

end

/-- R97, R100, R107, R151: an event in which an entry is put into its place, after an effect that has left the queue and
the mail alone; `c` says whether it enters AWARDED. -/
theorem enterOffer_publish {s u : State} {a : List Part} (f : Frame a nothing s u)
    (ha : ∀ r ∈ [Part.mail, .queue, .posCopy], r ∉ a) (j : Place) {p : OfferPlace} {c : Bool}
    (hc : p.state = .awarded ↔ c = true) :
    pick (publish (enterOffer j p u)).offers.places j = p ∧
    (publish (enterOffer j p u)).chime = { high := true, ticks := 20 } ∧
    (publish (enterOffer j p u)).pins.chime = true ∧
    (publish (enterOffer j p u)).mail = { s.mail with additions :=
      s.mail.additions ++ (if c then [.offerAccepted] else []) } ∧
    queueKept s (publish (enterOffer j p u)) := by
  rw [publish_offers, publish_chime, publish_chimePin, publish_mail, ← f.mail (ha _ (by decide)), enterOffer_eq,
    if_congr hc rfl rfl]
  exact ⟨pick_put_same _ _ _, rfl, rfl, rfl, (publish_queue _).trans (f.queue (ha _ (by decide))),
    (publish_posCopy _).trans (f.posCopy (ha _ (by decide)))⟩

/-- R105, R107: an offer enters AWARDED where it is directed and assigned, else PRESENTED. -/
theorem newEntry_awarded (directed : Bool) (stamp : Stamp) (number zone deadline : Nat) (assigned account : Bool)
    (estimate : Nat) (text : List Byte) :
    (newEntry directed stamp number zone deadline assigned account estimate text).state = .awarded ↔
      (directed && assigned) = true := by
  unfold newEntry
  cases directed <;> cases assigned <;> simp

end Sys2Proof.Machine

namespace Sys2Proof.Proofs

open Sys2Proof.Machine

/-- Settles O48: the checks in their order, and then the place: a free one, that of an entry that makes way, or none. -/
theorem jobOffer : Obligations.JobOffer := by
  intro h number zone deadline estimate assigned account text s hp hq held frame
  have taken := takenByOwner_frame s
  have dropped := taken.then (countDrop_frame (takenByOwner s))
  obtain ⟨u, hu⟩ : ∃ u, u = takeOffer h.directed
    (newEntry h.directed h.stamp number zone deadline assigned account estimate text) (takenByOwner s) := ⟨_, rfl⟩
  have f := hu ▸ takeOffer_frame h.directed
    (newEntry h.directed h.stamp number zone deadline assigned account estimate text) (takenByOwner s)
  refine ⟨publish u, hu ▸ exec_jobOffer hp held frame, releasedBy_publish held f (by decide), ?_⟩
  intro entry ignored answeredWith entered busy
  refine ⟨?_, (taken.then f).publish.mono (by decide) fun _ => id⟩
  have idle (e : u = takenByOwner s) : ignored := by
    subst e
    exact ⟨publish_offers _, queueKept_of_frame taken.publish (by decide), publish_mail _, publish_chime _,
      gains_publish_zero rfl⟩
  have declines (reason : Nat) {v : State} {a : List Part} (g : Frame a nothing s v)
      (ha : ∀ r ∈ .chime :: controllerParts, r ∉ a) (e : u = answerDecline number reason v) :
      answeredWith reason ∧ u.offers = v.offers ∧ u.port.attention = v.port.attention := by
    subst e
    have k := answerDecline_frame number reason v
    exact ⟨⟨answerDecline_asked hq g (fun r hr => ha r (List.mem_cons_of_mem _ hr)) (publish_frame _) (by decide),
        (publish_chime _).trans ((k.chime (by decide)).trans (g.chime (ha _ (by decide))))⟩,
      k.offers (by decide), k.attention (by decide)⟩
  have enters (j : Place) {v : State} {a : List Part} (g : Frame a nothing s v)
      (ha : ∀ r ∈ [Part.mail, .queue, .posCopy], r ∉ a) (e : u = enterOffer j entry v) : entered j ∧
      u.offers = { v.offers with places := put v.offers.places j entry } ∧ u.port.attention = v.port.attention := by
    subst e
    exact ⟨enterOffer_publish g ha j (newEntry_awarded _ _ _ _ _ _ _ _ _), enterOffer_offers j entry v,
      (enterOffer_frame j entry v).attention (by decide)⟩
  rw [takeOffer_eq] at hu
  rw [publish_offers]
  split
  next ignores => exact idle (hu.trans (if_pos ignores))
  next ignores =>
  replace hu := hu.trans (if_neg ignores)
  split
  next unfit => exact idle (hu.trans (if_pos unfit))
  next unfit =>
  replace hu := hu.trans (if_neg unfit)
  split
  next gated =>
    obtain ⟨asked, offers, news⟩ := declines _ taken (by decide) (hu.trans (if_pos gated))
    exact ⟨asked, offers, gains_publish_zero news⟩
  next gated =>
  replace hu := hu.trans (if_neg gated)
  split
  next isBusy =>
    obtain ⟨asked, offers, news⟩ := declines _ taken (by decide) (hu.trans (if_pos isBusy))
    exact ⟨asked, offers, gains_publish_zero news⟩
  next isBusy =>
  replace hu := hu.trans (if_neg isBusy)
  cases room : freePlace s.offers with
  | some j =>
    obtain ⟨enter, offers, news⟩ := enters j taken (by decide)
      (hu.trans (placeOffer_free (s := takenByOwner s) room _ _))
    exact ⟨enter, offers, gains_publish_zero news⟩
  | none =>
    by_cases directed : h.directed = true
    · cases displaced : displacedPlace s.offers with
      | some j =>
        obtain ⟨enter, offers, news⟩ := enters j dropped (by decide)
          (hu.trans (placeOffer_displacing (s := takenByOwner s) room _ directed displaced))
        refine ⟨by rw [offers]; rfl, gains_publish news, ?_⟩
        rw [if_pos directed, offers]
        exact ⟨enter, rfl⟩
      | none =>
        obtain ⟨asked, offers, news⟩ := declines _ dropped (by decide)
          (hu.trans (placeOffer_declined (s := takenByOwner s) room _ directed displaced))
        refine ⟨by rw [offers]; rfl, gains_publish news, ?_⟩
        rw [if_pos directed, offers]
        exact ⟨asked, rfl⟩
    · replace hu := hu.trans (placeOffer_dropped (s := takenByOwner s) room _ directed)
      refine ⟨by rw [hu]; rfl, hu ▸ gains_publish rfl, ?_⟩
      rw [if_neg directed, hu]
      exact ⟨rfl, queueKept_of_frame dropped.publish (by decide), publish_mail _, publish_chime _⟩

end Sys2Proof.Proofs
end

section
/-! JOB_AWARD and JOB_WITHDRAW (R112 to R115). -/

namespace Sys2Proof.Machine

theorem exec_jobAward {h : HeldFrame} {s : State} {number cab : Nat} (hp : s.powered = true)
    (held : heldForOwner s = some h) (frame : h.frame = .jobAward number cab) :
    exec .jobAward s = .next (publish (takeAward number cab (takenByOwner s))) := by
  have waits : awardAtManager s = some (number, cab) := by
    unfold awardAtManager
    rw [held]
    dsimp only
    rw [frame]
  change execJobAward s = _
  unfold execJobAward
  rw [waits]
  exact event_next hp rfl

theorem exec_jobWithdraw {h : HeldFrame} {s : State} {number : Nat} (hp : s.powered = true)
    (held : heldForOwner s = some h) (frame : h.frame = .jobWithdraw number) :
    exec .jobWithdraw s = .next (publish (takeWithdraw number (takenByOwner s))) := by
  have waits : withdrawAtManager s = some number := by
    unfold withdrawAtManager
    rw [held]
    dsimp only
    rw [frame]
  change execJobWithdraw s = _
  unfold execJobWithdraw
  rw [waits]
  exact event_next hp rfl

theorem takeAward_here {cab : Nat} {s : State} (h : cab = s.working.cab) (n : Nat) :
    takeAward n cab s = awardHere n s := if_pos h

theorem takeAward_elsewhere {cab : Nat} {s : State} (h : ¬ cab = s.working.cab) (n : Nat) :
    takeAward n cab s = awardElsewhere n s := if_neg h

/-! ### No open offer of the number -/

/-- R113: too late, unless the job has started. -/
theorem awardHere_absent {n : Nat} {s : State} (h : findOpen n s.offers = none) :
    awardHere n s = if jobStarted n s then s else answerDecline n reasonTooLate s := by
  unfold awardHere
  rw [h]

theorem awardElsewhere_absent {n : Nat} {s : State} (h : findOpen n s.offers = none) : awardElsewhere n s = s := by
  unfold awardElsewhere
  rw [h]

theorem takeWithdraw_absent {n : Nat} {s : State} (h : findOpen n s.offers = none) : takeWithdraw n s = s := by
  unfold takeWithdraw
  rw [h]

/-! ### By the state of the entry -/

section
variable {n : Nat} {s : State} {j : Place} (hj : findOpen n s.offers = some j)
include hj

theorem awardHere_accepting (h : (pick s.offers.places j).state = .accepting) :
    awardHere n s = endAcceptance j .awarded (awardPlace j s) := by
  unfold awardHere
  rw [hj]
  dsimp only
  rw [h]

/-- R113: an offer PRESENTED is awarded, unless another job is taken or the meter is in use. -/
theorem awardHere_presented (h : (pick s.offers.places j).state = .presented) : awardHere n s =
    if s.offers.anyTaken = true ∨ s.fare.meter ≠ .vacant then closePlace j .cancelled (answerDecline n reasonBusy s)
    else awardPlace j s := by
  unfold awardHere
  rw [hj]
  dsimp only
  rw [h]
  exact if_congr (by simp) rfl rfl

theorem awardHere_awarded (h : (pick s.offers.places j).state = .awarded) : awardHere n s = s := by
  unfold awardHere
  rw [hj]
  dsimp only
  rw [h]

theorem awardElsewhere_accepting (h : (pick s.offers.places j).state = .accepting) :
    awardElsewhere n s = endAcceptance j .lost (closePlace j .lost s) := by
  unfold awardElsewhere
  rw [hj]
  dsimp only
  rw [h]

theorem awardElsewhere_presented (h : (pick s.offers.places j).state = .presented) :
    awardElsewhere n s = closePlace j .lost s := by
  unfold awardElsewhere
  rw [hj]
  dsimp only
  rw [h]

theorem awardElsewhere_awarded (h : (pick s.offers.places j).state = .awarded) : awardElsewhere n s = s := by
  unfold awardElsewhere
  rw [hj]
  dsimp only
  rw [h]

theorem takeWithdraw_open : takeWithdraw n s =
    if (pick s.offers.places j).state = .accepting then endAcceptance j .withdrawn (closePlace j .withdrawn s)
    else closePlace j .withdrawn s := by
  unfold takeWithdraw
  rw [hj]

end

/-! ### How these events end (R97, R112) -/

/-- R97: an event that has changed no part of the Offer Manager's, the queue's or the Fare Meter's. -/
theorem unmoved_publish {s u : State} {a : List Part} (f : Frame a nothing s u)
    (ha : ∀ r ∈ [Part.offers, .queue, .posCopy, .note, .mail, .attention], r ∉ a) :
    (publish u).offers = s.offers ∧ queueKept s (publish u) ∧ (publish u).note = s.note ∧
    (publish u).mail = s.mail ∧ gains 0 s (publish u) :=
  ⟨(publish_offers u).trans (f.offers (ha _ (by decide))),
    ⟨(publish_queue u).trans (f.queue (ha _ (by decide))), (publish_posCopy u).trans (f.posCopy (ha _ (by decide)))⟩,
    (publish_note u).trans (f.note (ha _ (by decide))), (publish_mail u).trans (f.mail (ha _ (by decide))),
    gains_publish_zero (f.attention (ha _ (by decide)))⟩

/-- R97, R98: the Offer Manager with an entry closed, where what came before has left it and the fleet time as they
were. -/
theorem closePlace_placeSet {s u : State} {a : List Part} {p : Nat → Prop} (f : Frame a p s u)
    (ha : ∀ r ∈ [Part.offers, .cycle], r ∉ a) (j : Place) {st : PlaceState} (h : st ≠ .expired) :
    placeSet j (closedAs j st s) s (publish (closePlace j st u)) := by
  have offers : u.offers = s.offers := f.offers (ha _ (by decide))
  unfold placeSet closedAs
  rw [publish_offers, closePlace_eq j h, ← offers, ← f.cycle (ha _ (by decide))]
  rfl

/-- R97, R98, R114, R115: an event in which an entry is closed and nothing else is done. -/
theorem closePlace_publish {s u : State} {a : List Part} (f : Frame a nothing s u)
    (ha : ∀ r ∈ [Part.offers, .cycle, .queue, .posCopy, .note, .mail, .attention], r ∉ a) (j : Place)
    {st : PlaceState} (h : st ≠ .expired) :
    placeSet j (closedAs j st s) s (publish (closePlace j st u)) ∧ queueKept s (publish (closePlace j st u)) ∧
    (publish (closePlace j st u)).note = s.note ∧ (publish (closePlace j st u)).mail = s.mail ∧
    gains 0 s (publish (closePlace j st u)) := by
  have k := closePlace_frame' j h u
  exact ⟨closePlace_placeSet f (fun r hr => ha r (by revert r; decide)) j h,
    ⟨(publish_queue _).trans ((k.queue (by decide)).trans (f.queue (ha _ (by decide)))),
      (publish_posCopy _).trans ((k.posCopy (by decide)).trans (f.posCopy (ha _ (by decide))))⟩,
    (publish_note _).trans ((k.note (by decide)).trans (f.note (ha _ (by decide)))),
    (publish_mail _).trans ((k.mail (by decide)).trans (f.mail (ha _ (by decide)))),
    gains_publish_zero ((k.attention (by decide)).trans (f.attention (ha _ (by decide))))⟩

/-- R113: an award answered by a JOB_DECLINE, which leaves the note of the report as it was. -/
theorem awardDeclined {s t : State} {b : List Part} {q : Nat → Prop} {number reason : Nat} (hq : s.queueSound)
    (g : Frame b q (answerDecline number reason (takenByOwner s)) t) (hb : ∀ r ∈ .note :: controllerParts, r ∉ b) :
    askedFor .jobDecline (laid 1 4 [(1, 2, number), (3, 1, reason)]) s t ∧ t.note = s.note :=
  ⟨answerDecline_asked hq (takenByOwner_frame s) (by decide) g fun r hr => hb r (List.mem_cons_of_mem _ hr),
    (g.note (hb _ (by decide))).trans ((answerDecline_frame number reason (takenByOwner s)).note (by decide))⟩

/-- R111 to R115: an ACCEPTING entry closed and its acceptance ended, where what came before has left the Offer Manager
as it was. -/
theorem closeAccepting_ended {s u : State} {a : List Part} (hw : s.Inv) (f : Frame a nothing s u)
    (ha : ∀ r ∈ .offers :: beforeAcceptance, r ∉ a) (j : Place) {st : PlaceState} (h : st ≠ .expired) (o : ReqOutcome) :
    acceptanceEnded j (closedAs j st s) o s (publish (endAcceptance j o (closePlace j st u))) := by
  have offers : u.offers = s.offers := f.offers (ha _ (by decide))
  have closed : closedAs j st u = closedAs j st s := by
    unfold closedAs
    rw [offers, f.cycle (ha _ (by decide))]
  rw [closePlace_eq j h, closed]
  refine acceptanceEnded_publish (p := closedAs j st s) hw (f.then (setPlace_frame j _ u))
    (untouched_append (fun r hr => ha r (List.mem_cons_of_mem _ hr)) (by decide)) ?_ rfl _
  unfold setPlace
  rw [offers]

end Sys2Proof.Machine

namespace Sys2Proof.Proofs

open Sys2Proof.Machine

/-- Settles O49: an award by whose it is and by the state of the entry it finds, a withdrawal by whether the entry is
ACCEPTING. -/
theorem jobAwardAndWithdraw : Obligations.JobAwardAndWithdraw := by
  refine ⟨fun h number cab s hp hw hq held frame => ?_, fun h number s hp hw hq held frame => ?_⟩
  · have taken := takenByOwner_frame s
    have f := takeAward_frame number cab (takenByOwner s)
    obtain ⟨u, hu⟩ : ∃ u, u = takeAward number cab (takenByOwner s) := ⟨_, rfl⟩
    rw [← hu] at f
    refine ⟨publish u, hu ▸ exec_jobAward hp held frame, releasedBy_publish held f (by decide),
      (taken.trans f).publish.mono (by decide) fun _ h => h.resolve_left id, ?_⟩
    intro unchanged declined here
    have idle (e : u = takenByOwner s) : unchanged := by
      subst e
      exact unmoved_publish taken (by decide)
    by_cases own : here
    · replace hu := hu.trans (takeAward_here (s := takenByOwner s) own number)
      cases hj : findOpen number s.offers with
      | none =>
        replace hu := hu.trans (awardHere_absent (s := takenByOwner s) hj)
        cases started : jobStarted number s with
        | true =>
          rw [if_neg fun c => Bool.false_ne_true c.2.symm]
          exact idle (hu.trans (if_pos started))
        | false =>
          obtain rfl := hu.trans (if_neg (Bool.eq_false_iff.1 started))
          have g := answerDecline_frame number reasonTooLate (takenByOwner s)
          rw [if_pos ⟨own, rfl⟩]
          exact ⟨awardDeclined hq (publish_frame _) (by decide), (publish_offers _).trans (g.offers (by decide)),
            gains_publish_zero (g.attention (by decide))⟩
      | some j =>
        refine ⟨fun st => ?_, fun st => ?_, fun st => idle (hu.trans (awardHere_awarded hj st))⟩
        · obtain rfl := hu.trans (awardHere_accepting (s := takenByOwner s) hj st)
          have award := awardPlace_frame j (takenByOwner s)
          rw [if_pos own]
          exact ⟨(publish_mail _).trans ((endAcceptance_frame j .awarded _).mail (by decide)),
            acceptanceEnded_publish hw (taken.then award) (by decide) rfl rfl .awarded⟩
        · replace hu := hu.trans (awardHere_presented (s := takenByOwner s) hj st)
          rw [if_pos own]
          split
          next busy =>
            obtain rfl := hu.trans (if_pos busy)
            have g := answerDecline_frame number reasonBusy (takenByOwner s)
            have k := closePlace_frame' j (st := .cancelled) (by decide)
              (answerDecline number reasonBusy (takenByOwner s))
            exact ⟨awardDeclined hq k.publish (by decide),
              closePlace_placeSet (taken.then g) (by decide) j (by decide),
              gains_publish_zero ((g.then k).attention (by decide))⟩
          next free =>
            obtain rfl := hu.trans (if_neg free)
            have award := awardPlace_frame j (takenByOwner s)
            exact ⟨publish_offers _, publish_mail _, queueKept_of_frame (taken.then award).publish (by decide),
              publish_note _, gains_publish_zero (award.attention (by decide))⟩
    · replace hu := hu.trans (takeAward_elsewhere (s := takenByOwner s) own number)
      cases hj : findOpen number s.offers with
      | none =>
        rw [if_neg fun c => own c.1]
        exact idle (hu.trans (awardElsewhere_absent hj))
      | some j =>
        refine ⟨fun st => ?_, fun st => ?_, fun st => idle (hu.trans (awardElsewhere_awarded hj st))⟩
        · obtain rfl := hu.trans (awardElsewhere_accepting (s := takenByOwner s) hj st)
          rw [if_neg own]
          exact ⟨(publish_mail _).trans ((closeAccepting_frame j (by decide) _ _).mail (by decide)),
            closeAccepting_ended hw taken (by decide) j (by decide) _⟩
        · obtain rfl := hu.trans (awardElsewhere_presented (s := takenByOwner s) hj st)
          rw [if_neg own]
          exact closePlace_publish taken (by decide) j (by decide)
  · have taken := takenByOwner_frame s
    have f := takeWithdraw_frame number (takenByOwner s)
    refine ⟨_, exec_jobWithdraw hp held frame, releasedBy_publish held f (by decide),
      (taken.trans f).publish.mono (by decide) fun _ h => h.resolve_left id, ?_⟩
    cases hj : findOpen number s.offers with
    | none =>
      rw [takeWithdraw_absent (s := takenByOwner s) hj]
      exact unmoved_publish taken (by decide)
    | some j =>
      refine ⟨(publish_mail _).trans (f.mail (by decide)), ?_⟩
      have withdrawal := takeWithdraw_open (s := takenByOwner s) hj
      by_cases accepting : (pick s.offers.places j).state = .accepting
      · rw [if_pos accepting, withdrawal.trans (if_pos accepting)]
        exact closeAccepting_ended hw taken (by decide) j (by decide) _
      · rw [if_neg accepting, withdrawal.trans (if_neg accepting)]
        obtain ⟨closed, queue, note, -, news⟩ := closePlace_publish taken (by decide) j (st := .withdrawn) (by decide)
        exact ⟨closed, queue, note, news⟩

end Sys2Proof.Proofs
end

section
/-! Marks and additions at the Fare Meter (R139, R151), and a change of the emergency state at one neighbour after
another (R101, R186, R187). -/

namespace Sys2Proof.Machine

/-! ### Marks (R139) -/

theorem setMark_vacant {m : Mark} {s : State} (h : s.fare.meter = .vacant) : setMark m s = s := if_pos h

theorem setMark_open {m : Mark} {s : State} (h : ¬ s.fare.meter = .vacant) : setMark m s =
    rewriteMeter { s with fare := { s.fare with trip :=
      { s.fare.trip with marks := s.fare.trip.marks.add m } } } := if_neg h

/-- R8, R139: a mark set on an open trip rewrites the Meter Live Block. -/
theorem setMark_ram {m : Mark} {s : State} (h : ¬ s.fare.meter = .vacant) :
    (setMark m s).ram = rewriteBlock meterBase (setMark m s).meterFields s.ram := by
  rw [setMark_open h]
  rfl

/-- R8: an event that has rewritten the Meter Live Block outright counts there once. -/
theorem countUp_meter {s u : State} (hw : s.Inv) (h : u.ram = rewriteBlock meterBase u.meterFields s.ram) :
    countUp meterBase s (publish u) :=
  countUp_publish hw h (fun _ _ _ => rfl) (.inr (.inr (.inl ⟨rfl, rfl⟩)))

theorem markTaken_eq {m : Mark} {rest : List Mark} {s : State} (h : s.mail.marks = m :: rest) :
    markTaken s = setMark m { s with mail := { s.mail with marks := rest } } := by
  unfold markTaken
  rw [h]

/-! ### Additions (R151) -/

theorem additionTaken_eq {a : Addition} {rest : List Addition} {s : State} (h : s.mail.additions = a :: rest) :
    additionTaken s = addToShift a { s with mail := { s.mail with additions := rest } } := by
  unfold additionTaken
  rw [h]

/-- R151: the totals are counted while ON_DUTY. -/
theorem addToShift_eq (a : Addition) (s : State) : addToShift a s = { s with fare := { s.fare with
    totals := if s.fare.duty = .on then s.fare.totals.addCount a else s.fare.totals } } := by
  unfold addToShift
  split <;> rfl

theorem Duty.eq_off {d : Duty} (h : ¬ d = .on) : d = .off := by
  cases d with
  | off => rfl
  | on => exact absurd rfl h

/-! ### The neighbour whose event comes next (R186) -/

theorem mem_waiting {m : Mail} {n : Neighbour} : n ∈ m.waiting ↔ m.waitsAt n = true := by
  unfold Mail.waiting
  rw [List.mem_filter]
  exact and_iff_right (by cases n <;> decide)

theorem offerManager_waits (m : Mail) : .offerManager ∈ m.waiting ↔ m.gateChanges ≠ [] := by
  rw [mem_waiting]
  simp [Mail.waitsAt]

theorem fareMeter_waits (m : Mail) :
    .fareMeter ∈ m.waiting ↔ Mark.emergency ∈ m.marks ∨ Addition.emergency ∈ m.additions := by
  rw [mem_waiting]
  simp [Mail.waitsAt]

theorem lamp_waits (m : Mail) : .lamp ∈ m.waiting ↔ m.lampChanges ≠ [] := by
  rw [mem_waiting]
  simp [Mail.waitsAt]

/-- R186: one that waits is picked. -/
theorem nextNeighbour_mem {k : Nat} {l : List Neighbour} {n : Neighbour} (h : nextNeighbour k l = some n) : n ∈ l := by
  match l with
  | [] => cases h
  | [x] =>
    obtain rfl := Option.some.inj h
    exact List.mem_singleton_self _
  | x :: y :: rest =>
    obtain rfl := Option.some.inj h
    have room : k % ((y :: rest).length + 1) < (x :: y :: rest).length := Nat.mod_lt _ (Nat.succ_pos _)
    rw [List.getD_eq_getElem _ _ room]
    exact List.getElem_mem room

/-- R186: any that waits may be picked. -/
theorem exists_nextNeighbour {l : List Neighbour} {n : Neighbour} (h : n ∈ l) : ∃ k, nextNeighbour k l = some n := by
  match l with
  | [] => cases h
  | [x] =>
    obtain rfl := List.mem_singleton.1 h
    exact ⟨0, rfl⟩
  | x :: y :: rest =>
    obtain ⟨k, hk, rfl⟩ := List.mem_iff_getElem.1 h
    refine ⟨k, congrArg some ?_⟩
    rw [show k % ((y :: rest).length + 1) = k from Nat.mod_eq_of_lt hk]
    exact List.getD_eq_getElem _ _ hk

theorem nextNeighbour_iff {l : List Neighbour} {n : Neighbour} : (∃ k, nextNeighbour k l = some n) ↔ n ∈ l :=
  ⟨fun ⟨_, h⟩ => nextNeighbour_mem h, exists_nextNeighbour⟩

/-- R186: where one waits, one is picked. -/
theorem nextNeighbour_some {l : List Neighbour} (h : l ≠ []) (k : Nat) : ∃ n, nextNeighbour k l = some n := by
  match l with
  | [] => exact absurd rfl h
  | [x] => exact ⟨x, rfl⟩
  | x :: y :: rest => exact ⟨_, rfl⟩

/-- R186: the free order used once. -/
def State.orderUsed (s : State) : State := { s with free := s.free + 1 }

theorem State.orderUsed_frame (s : State) : Frame [.free] nothing s s.orderUsed := free_frame _ s

theorem changeTaken_eq {s : State} {n : Neighbour}
    (h : nextNeighbour (Config.freeNeighbour s.free) s.mail.waiting = some n) :
    changeTaken s = takesChange n s.orderUsed := by
  unfold changeTaken
  rw [h]
  rfl

/-! ### The Offer Manager's part (R101) -/

/-- R101: the EMERGENCY gate closes with the PRESENTED offers cancelled, where what came before has left the Offer
Manager as it was. -/
theorem closeEmergencyGate_offers {s u : State} {a : List Part} {p : Nat → Prop} (f : Frame a p s u)
    (ha : ∀ r ∈ [Part.offers, .cycle], r ∉ a) :
    (closeEmergencyGate u).offers =
      { s.offers with places := (closeEmergencyGate u).offers.places, emergencyGate := true } ∧
    cancelled OfferPlace.presented s (closeEmergencyGate u) := by
  have offers : u.offers = s.offers := f.offers (ha _ (by decide))
  have fleet : u.cycle = s.cycle := f.cycle (ha _ (by decide))
  obtain ⟨ps, closed, table⟩ := cancelWhere_eq OfferPlace.presented u
  rw [offers, fleet] at table
  unfold closeEmergencyGate
  rw [closed, offers]
  exact ⟨rfl, table⟩

/-- R186: the Offer Manager's part as the oldest change that waits there says. -/
theorem gateTakesChange_eq {s : State} {leaving : Bool} {rest : List Bool}
    (h : s.mail.gateChanges = leaving :: rest) : gateTakesChange s =
      if leaving then closeEmergencyGate { s with mail := { s.mail with gateChanges := rest } }
      else openEmergencyGate { s with mail := { s.mail with gateChanges := rest } } := by
  unfold gateTakesChange
  rw [h]

/-- R101, R186: the Offer Manager after its part of a change. -/
theorem gateTakesChange_offers {s : State} {leaving : Bool} {rest : List Bool}
    (h : s.mail.gateChanges = leaving :: rest) :
    (gateTakesChange s).offers =
      { s.offers with places := (gateTakesChange s).offers.places, emergencyGate := leaving } ∧
    (if leaving = true then cancelled OfferPlace.presented s (gateTakesChange s)
      else (gateTakesChange s).offers.places = s.offers.places) := by
  have e := gateTakesChange_eq h
  by_cases closes : leaving = true
  · rw [if_pos closes, e.trans (if_pos closes), closes]
    exact closeEmergencyGate_offers (mail_frame _ s) (by decide)
  · rw [if_neg closes, e.trans (if_neg closes), Bool.eq_false_iff.2 closes]
    exact ⟨rfl, rfl⟩

theorem gateTakesChange_mail {s : State} {leaving : Bool} {rest : List Bool}
    (h : s.mail.gateChanges = leaving :: rest) : (gateTakesChange s).mail = { s.mail with gateChanges := rest } := by
  rw [gateTakesChange_eq h]
  split
  · exact (closeEmergencyGate_frame _).mail (by decide)
  · rfl

/-! ### The Fare Meter's part (R139, R151) -/

/-- R139, R186: the mark of the emergency set where it still waits. -/
def emergencyMarked (s : State) : State :=
  if Mark.emergency ∈ s.mail.marks then
    setMark .emergency { s with mail := { s.mail with marks := s.mail.marks.erase .emergency } }
  else s

/-- R151, R186: the emergency counted where the addition still waits. -/
def emergencyCounted (s : State) : State :=
  if Addition.emergency ∈ s.mail.additions then
    addToShift .emergency { s with mail := { s.mail with additions := s.mail.additions.erase .emergency } }
  else s

theorem fareTakesEmergency_eq (s : State) : fareTakesEmergency s = emergencyCounted (emergencyMarked s) := by
  unfold fareTakesEmergency emergencyCounted emergencyMarked
  simp only [List.contains_iff_mem]

/-- An emergency in force marks the open trip. -/
abbrev State.marksEmergency (s : State) : Prop := Mark.emergency ∈ s.mail.marks ∧ s.fare.meter ≠ .vacant

theorem emergencyMarked_mail (s : State) :
    (emergencyMarked s).mail = { s.mail with marks := s.mail.marks.erase .emergency } := by
  unfold emergencyMarked
  split
  · exact (setMark_frame _ _).mail (by decide)
  next absent => rw [List.erase_of_not_mem absent]

theorem setMark_fare (m : Mark) (s : State) : (setMark m s).fare = { s.fare with
    trip := if s.fare.meter = .vacant then s.fare.trip
      else { s.fare.trip with marks := s.fare.trip.marks.add m } } := by
  by_cases vacant : s.fare.meter = .vacant
  · rw [setMark_vacant vacant, if_pos vacant]
  · rw [setMark_open vacant, if_neg vacant]
    rfl

theorem emergencyMarked_fare (s : State) : (emergencyMarked s).fare = { s.fare with
    trip := if s.marksEmergency then { s.fare.trip with marks := { s.fare.trip.marks with emergency := true } }
      else s.fare.trip } := by
  unfold emergencyMarked
  by_cases waits : Mark.emergency ∈ s.mail.marks
  · rw [if_pos waits, setMark_fare]
    by_cases vacant : s.fare.meter = .vacant
    · rw [if_pos vacant, if_neg fun c => c.2 vacant]
    · rw [if_neg vacant, if_pos ⟨waits, vacant⟩]
      rfl
  · rw [if_neg waits, if_neg fun c => waits c.1]

/-- R8, R139: the Meter Live Block is rewritten where the mark is set. -/
theorem emergencyMarked_ram {s : State} (h : s.marksEmergency) :
    (emergencyMarked s).ram = rewriteBlock meterBase (emergencyMarked s).meterFields s.ram := by
  obtain ⟨waits, used⟩ := h
  unfold emergencyMarked
  rw [if_pos waits]
  exact setMark_ram used

theorem emergencyCounted_eq (s : State) : emergencyCounted s = { s with
    mail := { s.mail with additions := s.mail.additions.erase .emergency }
    fare := { s.fare with
      totals := if Addition.emergency ∈ s.mail.additions ∧ s.fare.duty = .on then
          { s.fare.totals with emergencies := s.fare.totals.emergencies.add 255 1 }
        else s.fare.totals } } := by
  unfold emergencyCounted
  by_cases waits : Addition.emergency ∈ s.mail.additions
  · rw [if_pos waits, addToShift_eq, if_congr (and_iff_right waits) rfl rfl]
    rfl
  · rw [if_neg waits, if_neg fun c => waits c.1, List.erase_of_not_mem waits]

theorem fareTakesEmergency_mail (s : State) : (fareTakesEmergency s).mail = { s.mail with
    marks := s.mail.marks.erase .emergency, additions := s.mail.additions.erase .emergency } := by
  rw [fareTakesEmergency_eq, emergencyCounted_eq, emergencyMarked_mail]

theorem fareTakesEmergency_fare (s : State) : (fareTakesEmergency s).fare = { s.fare with
    trip := if s.marksEmergency then { s.fare.trip with marks := { s.fare.trip.marks with emergency := true } }
      else s.fare.trip
    totals := if Addition.emergency ∈ s.mail.additions ∧ s.fare.duty = .on then
        { s.fare.totals with emergencies := s.fare.totals.emergencies.add 255 1 }
      else s.fare.totals } := by
  rw [fareTakesEmergency_eq, emergencyCounted_eq, emergencyMarked_mail, emergencyMarked_fare]

/-- R8, R139: the Meter Live Block shows no total, so the count leaves it as the mark has rewritten it. -/
theorem fareTakesEmergency_ram {s : State} (h : s.marksEmergency) :
    (fareTakesEmergency s).ram = rewriteBlock meterBase (fareTakesEmergency s).meterFields s.ram := by
  rw [fareTakesEmergency_eq, emergencyCounted_eq]
  exact emergencyMarked_ram h

end Sys2Proof.Machine

namespace Sys2Proof.Proofs

open Sys2Proof.Machine

/-- Settles O55: a mark by whether a trip is open, an addition by the duty, and a change of the emergency state by the
neighbour that is picked. -/
theorem handedToNeighbours : Obligations.HandedToNeighbours := by
  refine ⟨fun m rest s hp hw hm => ?_, fun a rest s hp hm => ?_, fun s hp hw waits => ?_, fun m n => ?_⟩
  · have f := markTaken_frame s
    refine ⟨publish (markTaken s), event_next hp (by rw [hm]; rfl), ?_,
      gains_publish_zero (f.attention (by decide)), ?_, f.publish.mono (by decide) fun _ => id⟩
    · rw [publish_mail, markTaken_eq hm]
      exact (setMark_frame _ _).mail (by decide)
    · rw [publish_fare, markTaken_eq hm, setMark_fare]
      by_cases vacant : s.fare.meter = .vacant
      · rw [if_pos vacant, if_pos vacant]
      · rw [if_neg vacant, if_neg vacant]
        exact ⟨rfl, countUp_meter hw (setMark_ram vacant),
          publishWith_blocksShown (markTaken_eq hm ▸ f.wf hw) false⟩
  · have f := additionTaken_frame s
    refine ⟨publish (additionTaken s), event_next hp (by rw [hm]; rfl), ?_,
      gains_publish_zero (f.attention (by decide)), ?_, f.publish.mono (by decide) fun _ => id⟩
    · rw [publish_mail, additionTaken_eq hm, addToShift_eq]
    · rw [publish_fare, additionTaken_eq hm, addToShift_eq]
      dsimp only
      by_cases duty : s.fare.duty = .on
      · rw [if_pos duty, if_neg (by rw [duty]; decide)]
        cases a <;> rfl
      · rw [if_neg duty, if_pos (Duty.eq_off duty)]
  · have waiting : s.mail.waiting ≠ [] := by
      obtain gate | mark | addition | lamp := waits
      · exact List.ne_nil_of_mem ((offerManager_waits s.mail).2 gate)
      · exact List.ne_nil_of_mem ((fareMeter_waits s.mail).2 (.inl mark))
      · exact List.ne_nil_of_mem ((fareMeter_waits s.mail).2 (.inr addition))
      · exact List.ne_nil_of_mem ((lamp_waits s.mail).2 lamp)
    obtain ⟨n, picked⟩ := nextNeighbour_some waiting (Config.freeNeighbour s.free)
    have chosen := nextNeighbour_mem picked
    have advanced := s.orderUsed_frame
    have f := advanced.then (takesChange_frame n _)
    refine ⟨n, publish (takesChange n s.orderUsed), ?_, gains_publish_zero (f.attention (by decide)), picked, ?_⟩
    · rw [← changeTaken_eq picked]
      exact event_next hp (by simpa using waiting)
    cases n with
    | offerManager =>
      obtain ⟨leaving, rest, hm⟩ := List.exists_cons_of_ne_nil ((offerManager_waits s.mail).1 chosen)
      have g := gateTakesChange_frame s.orderUsed
      obtain ⟨offers, table⟩ := gateTakesChange_offers (s := s.orderUsed) hm
      refine ⟨leaving, rest, hm, (publish_mail _).trans (gateTakesChange_mail (s := s.orderUsed) hm),
        ?_, ?_, (advanced.then g).publish.mono (by decide) fun _ => id⟩
      · rw [publish_offers]
        exact offers
      · split
        next closes =>
          rw [if_pos closes] at table
          exact cancelled_congr table rfl rfl (congrArg (·.places) (publish_offers _))
        next opens =>
          rw [if_neg opens] at table
          exact (congrArg (·.places) (publish_offers _)).trans table
    | fareMeter =>
      have g := advanced.then (fareTakesEmergency_frame s.orderUsed)
      exact ⟨(fareMeter_waits s.mail).1 chosen,
        (publish_mail _).trans (fareTakesEmergency_mail s.orderUsed),
        ⟨(publish_fare _).trans (fareTakesEmergency_fare s.orderUsed),
          fun marked => countUp_meter hw (fareTakesEmergency_ram (s := s.orderUsed) marked)⟩,
        publishWith_blocksShown (g.wf hw) false, g.publish.mono (by decide) fun _ => id⟩
    | lamp =>
      obtain ⟨leaving, rest, hm⟩ := List.exists_cons_of_ne_nil ((lamp_waits s.mail).1 chosen)
      have g := advanced.then (lampTakesChange_frame s.orderUsed)
      refine ⟨leaving, rest, hm, ?_, publish_lampTaken _, publish_lampShows _, g.publish.mono (by decide) fun _ => id⟩
      rw [publish_mail, show rest = s.mail.lampChanges.tail by rw [hm]; rfl]
      rfl
  · rw [nextNeighbour_iff]
    cases n with
    | offerManager => exact offerManager_waits m
    | fareMeter => exact fareMeter_waits m
    | lamp => exact lamp_waits m

end Sys2Proof.Proofs
end

section
/-! The requests of the fare computation: SELECT_TARIFF and ADD_EXTRA (R129, R136, R137). -/

namespace Sys2Proof.Machine

/-! ### How these requests end -/

/-- R12: a request answered after a change of the Fare Meter alone. -/
theorem request_fare {code : Nat} {i : Slot} {rest : List Slot} {s : State} (hr : Ready code i rest s) (f : FareMeter)
    (o : ReqOutcome) (d : Nat) :
    answered i rest o d 0 s (publish (completeRequest i o d { s.taken rest with fare := f })) ∧
    (publish (completeRequest i o d { s.taken rest with fare := f })).fare = f ∧
    Frame (withEnds [.order, .fare]) (outcomeBytes i) s
      (publish (completeRequest i o d { s.taken rest with fare := f })) := by
  obtain ⟨done, frame⟩ := request_after hr (fare_frame f (s.taken rest)) (by decide) o d
  exact ⟨done, (publish_fare _).trans (completeRequest_fare _ _ _ _), frame⟩

/-! ### SELECT_TARIFF (R136) -/

section
variable {i : Slot} {s : State}

theorem selectTariff_refused (h : tariffEnabled s.working (param1 s.ram i) = false) :
    selectTariff i s = completeRequest i .refusedRange 0 s := if_pos (by rw [h]; rfl)

/-- R136: an enabled tariff is chosen while VACANT, and switched in while a segment is free. -/
theorem selectTariff_enabled (h : tariffEnabled s.working (param1 s.ram i) = true) : selectTariff i s =
    if s.fare.meter = .vacant then
      completeRequest i .done 0 { s with fare := { s.fare with chosen := param1 s.ram i } }
    else if 4 ≤ s.fare.trip.segments.length then completeRequest i .limit 4 s
    else completeRequest i .done (s.fare.trip.segments.length + 1) { s with fare := { s.fare with
      trip := s.fare.trip.switchTariff (param1 s.ram i) (s.working.tariff (param1 s.ram i)) s.cycle.fleet } } :=
  if_neg (by rw [h]; decide)

/-! ### ADD_EXTRA (R137) -/

theorem addExtra_vacant (vacant : s.fare.meter = .vacant) : addExtra i s = completeRequest i .refusedState 0 s :=
  if_pos vacant

/-- R137: the ranges of the code and the amount. -/
theorem extraRefused_iff (code amount : Nat) : (!within 1 15 code || !within 1 9999 amount) = true ↔
    ¬ (1 ≤ code ∧ code ≤ 15 ∧ 1 ≤ amount ∧ amount ≤ 9999) := by
  simp only [within, Bool.or_eq_true, Bool.not_eq_true', ← Bool.not_eq_true, Bool.and_eq_true, decide_eq_true_eq]
  tauto

/-- R137: the checks of an extra while a trip is open. -/
theorem addExtra_open (used : ¬ s.fare.meter = .vacant) : addExtra i s =
    if ¬ (1 ≤ param1 s.ram i ∧ param1 s.ram i ≤ 15 ∧ 1 ≤ paramAmount s.ram i ∧ paramAmount s.ram i ≤ 9999) then
      completeRequest i .refusedRange 0 s
    else if 8 ≤ s.fare.trip.extras.length then completeRequest i .limit 8 s
    else completeRequest i .done (s.fare.trip.extras.length + 1) { s with fare := { s.fare with
      trip := s.fare.trip.addExtra (param1 s.ram i) (paramAmount s.ram i) } } :=
  (if_neg used).trans (if_congr (extraRefused_iff _ _) rfl rfl)

end

end Sys2Proof.Machine

namespace Sys2Proof.Proofs

open Sys2Proof.Machine

/-- Settles O28, by R136's checks in their order. -/
theorem selectTariff : Obligations.SelectTariff := by
  intro i rest s hr hs
  refine ⟨_, request_judged hr hs, ?_⟩
  dsimp only
  by_cases enabled : tariffEnabled s.working (param1 s.ram i) = true
  case neg =>
    rw [if_pos fun c => enabled ((tariffEnabled_iff _ _).2 c),
      selectTariff_refused (s := s.taken rest) (Bool.eq_false_iff.2 enabled)]
    exact request_plain hr _ _
  rw [if_neg (not_not.2 ((tariffEnabled_iff _ _).1 enabled))]
  have judged := selectTariff_enabled (s := s.taken rest) enabled
  by_cases vacant : s.fare.meter = .vacant
  · rw [if_pos vacant, judged.trans (if_pos vacant)]
    exact request_fare hr _ _ _
  rw [if_neg vacant]
  replace judged := judged.trans (if_neg vacant)
  by_cases full : 4 ≤ s.fare.trip.segments.length
  · rw [if_pos full, judged.trans (if_pos full)]
    exact request_plain hr _ _
  · rw [if_neg full, judged.trans (if_neg full)]
    exact request_fare hr _ _ _

/-- Settles O29, by R137's checks in their order. -/
theorem addExtra : Obligations.AddExtra := by
  intro i rest s hr hs
  refine ⟨_, request_judged hr hs, ?_⟩
  dsimp only
  by_cases vacant : s.fare.meter = .vacant
  · rw [if_pos vacant, addExtra_vacant (s := s.taken rest) vacant]
    exact request_plain hr _ _
  have judged := addExtra_open (i := i) (s := s.taken rest) vacant
  rw [if_neg vacant]
  by_cases outside : ¬ (1 ≤ param1 s.ram i ∧ param1 s.ram i ≤ 15 ∧
      1 ≤ paramAmount s.ram i ∧ paramAmount s.ram i ≤ 9999)
  · rw [if_pos outside, judged.trans (if_pos outside)]
    exact request_plain hr _ _
  rw [if_neg outside]
  replace judged := judged.trans (if_neg outside)
  by_cases full : 8 ≤ s.fare.trip.extras.length
  · rw [if_pos full, judged.trans (if_pos full)]
    exact request_plain hr _ _
  · rw [if_neg full, judged.trans (if_neg full)]
    exact request_fare hr _ _ _

end Sys2Proof.Proofs
end

section
/-! The running trip: a meter tick, a distance pulse and the start of a limiter window (R123 to R134, R140, R152,
R153). -/

namespace Sys2Proof.Machine

/-! ### Modes and thresholds (R21, R124) -/

theorem Tariff.double_iff (p : Tariff) : p.double = true ↔ p.mode = 1 := beq_iff_eq

theorem Tariff.not_double (p : Tariff) : (!p.double) = decide (p.mode ≠ 1) :=
  Bool.eq_iff_iff.2 (by simp [Tariff.double])

theorem Trip.timeThreshold_eq (t : Trip) :
    t.timeThreshold = 10 * (if t.timeRunning then t.par.tariff.ut else t.par.tariff.t0) := by
  unfold Trip.timeThreshold
  split <;> exact Nat.mul_comm _ _

theorem Trip.distThreshold_eq (t : Trip) :
    t.distThreshold = (if t.distRunning then t.par.tariff.ud else t.par.tariff.d0) * t.par.k := by
  unfold Trip.distThreshold
  split <;> rfl

/-! ### Steps (R127, R128, R130, R131)

A running phase that completes its step charges an increment; an initial one ends, and in SINGLE mode the other ends
with it. -/

theorem Trip.timeStep_exact (t : Trip) : t.timeStep =
    if t.timeRunning then Trip.charge { t with atime := 0, adist := if t.par.tariff.mode = 1 then t.adist else 0 }
    else { t with
      atime := 0, adist := if t.par.tariff.mode = 1 then t.adist else 0
      timeRunning := true, distRunning := t.distRunning || decide (t.par.tariff.mode ≠ 1) } := by
  rw [Trip.timeStep, if_congr (Tariff.double_iff _) rfl rfl, Trip.leaveByTime, Tariff.not_double]

theorem Trip.distanceStep_exact (t : Trip) : t.distanceStep =
    if t.distRunning then Trip.charge { t with
      adist := t.adist - t.distThreshold, atime := if t.par.tariff.mode = 1 then t.atime else 0 }
    else { t with
      adist := t.adist - t.distThreshold, atime := if t.par.tariff.mode = 1 then t.atime else 0
      distRunning := true, timeRunning := t.timeRunning || decide (t.par.tariff.mode ≠ 1) } := by
  rw [Trip.distanceStep, if_congr (Tariff.double_iff _) rfl rfl, Trip.leaveByDistance, Tariff.not_double]

/-- R128, R131: a tick while HIRED, by the threshold in force. -/
theorem Trip.tick_exact (t : Trip) : t.tick =
    if t.atime + 1 ≠ 10 * (if t.timeRunning then t.par.tariff.ut else t.par.tariff.t0) then
      { t with atime := t.atime + 1, ticks := bump max32 t.ticks }
    else Trip.timeStep { t with atime := t.atime + 1, ticks := bump max32 t.ticks } := by
  rw [← Trip.timeThreshold_eq, ite_not]
  rfl

/-- R127, R130: an unclamped pulse while HIRED, by the threshold in force. -/
theorem Trip.pulse_exact (t : Trip) : t.pulse =
    if t.adist + 1000 < (if t.distRunning then t.par.tariff.ud else t.par.tariff.d0) * t.par.k then
      { t with adist := t.adist + 1000, pulses := bump max32 t.pulses }
    else Trip.distanceStep { t with adist := t.adist + 1000, pulses := bump max32 t.pulses } := by
  rw [← Trip.distThreshold_eq, ← if_congr Nat.not_le rfl rfl, ite_not]
  rfl

theorem Trip.distanceStep_par (t : Trip) : t.distanceStep.par = t.par := by
  rw [Trip.distanceStep_exact]
  split <;> rfl

/-- R123: a pulse leaves the trip parameters alone. -/
theorem Trip.pulse_par (t : Trip) : t.pulse.par = t.par := by
  unfold Trip.pulse
  dsimp only
  split
  · exact Trip.distanceStep_par _
  · rfl

/-! ### A meter tick at the Fare Meter -/

theorem meterTick_due (s : State) : (meterTick s).due = { s.due with meterTicks := s.due.meterTicks - 1 } := by
  unfold meterTick
  dsimp only
  split <;> rfl

/-- R141: a meter tick counts while HIRED alone. -/
theorem meterTick_fare (s : State) : (meterTick s).fare = { s.fare with
    trip := if s.fare.meter ≠ .hired then s.fare.trip else s.fare.trip.tick } := by
  unfold meterTick
  by_cases hired : s.fare.meter = .hired
  · rw [if_pos hired, if_neg (not_not.2 hired)]
  · rw [if_neg hired, if_pos hired]

theorem exec_meterTick {s : State} (hp : s.powered = true) (due : 0 < s.due.meterTicks) :
    exec .meterTick s = .next (publishWith true (meterTick s)) :=
  congrArg Host.Outcome.next (if_pos (by rw [hp, decide_eq_true due]; rfl))

/-- R140, R153: at a meter tick the Meter Live and the Shift Totals Block show every field. -/
theorem publishWith_runningShown {s : State} (h : s.Inv) :
    shownFields meterBase 62 (publishWith true s).ram = (publishWith true s).meterFields ∧
    shownFields shiftBase 44 (publishWith true s).ram = (publishWith true s).shiftFields := by
  have below : ∀ c n, c + 2 + n ≤ 0x0800 → shownFields c n (publishWith true s).ram =
      shownFields c n (refreshBlocks true s s.ram) := fun c n hc =>
    shown_congr fun a _ ha => get_publishWith_below true s a (by omega)
  obtain ⟨-, -, meter, shift, -⟩ := shown_refreshBlocks h true s
  rw [meterFields_publishWith, shiftFields_publishWith, below _ _ (by decide), below _ _ (by decide)]
  exact ⟨meter, shift⟩

/-! ### A pulse at the Fare Meter (R134, R152) -/

/-- R152: a metre is completed where the remainder reaches the K in force. -/
theorem shiftPulse_exact {s : State} {k : Nat} (inForce : kInForce s.fare s.settings.working = k) :
    shiftPulse s = { s with
      fare := { s.fare with
        totals := if k ≤ s.limiter.remainder + 1000 then s.fare.totals.addMetre else s.fare.totals }
      limiter := { s.limiter with
        remainder := if k ≤ s.limiter.remainder + 1000 then s.limiter.remainder + 1000 - k
          else s.limiter.remainder + 1000 } } := by
  subst inForce
  unfold shiftPulse
  by_cases metre : kInForce s.fare s.settings.working ≤ s.limiter.remainder + 1000
  · simp only [if_pos metre]
  · simp only [if_neg metre]

/-- R127, R130: a pulse counts on the trip while HIRED alone. -/
def FareMeter.pulsed (f : FareMeter) : FareMeter :=
  { f with trip := if f.meter ≠ .hired then f.trip else f.trip.pulse }

theorem FareMeter.pulsed_par (f : FareMeter) : f.pulsed.trip.par = f.trip.par := by
  unfold FareMeter.pulsed
  split
  · rfl
  · exact f.trip.pulse_par

theorem countedPulse_pulsed (s : State) : countedPulse s = shiftPulse { s with fare := s.fare.pulsed } := by
  unfold countedPulse FareMeter.pulsed
  by_cases hired : s.fare.meter = .hired
  · rw [if_pos hired, if_neg (not_not.2 hired)]
  · rw [if_neg hired, if_pos hired]

/-- R134: a clamped pulse counts on an open trip and marks it. -/
theorem clampedPulse_fare (s : State) : (clampedPulse s).fare = { s.fare with
    trip := if s.fare.meter = .vacant then s.fare.trip else { s.fare.trip with
      clamped := bump max32 s.fare.trip.clamped, marks := { s.fare.trip.marks with clamped := true } } } := by
  unfold clampedPulse
  split <;> rfl

theorem clampedPulse_limiter (s : State) : (clampedPulse s).limiter = s.limiter := by
  unfold clampedPulse
  split <;> rfl

/-- R133: the pulse counted in its window. -/
def State.pulseTaken (s : State) : State :=
  { s with limiter := { s.limiter with window := s.limiter.window + 1 } }

theorem distancePulse_offDuty {s : State} (off : s.fare.duty = .off) : distancePulse s = s.pulseTaken := if_pos off

/-- R134, R152: an unclamped pulse ON_DUTY counts on the trip and toward the shift's distance. -/
theorem distancePulse_counted {s : State} (on : ¬ s.fare.duty = .off)
    (unclamped : s.limiter.window + 1 ≤ s.limiter.limit) :
    distancePulse s = shiftPulse { s.pulseTaken with fare := s.fare.pulsed } :=
  (if_neg on).trans ((if_pos unclamped).trans (countedPulse_pulsed s.pulseTaken))

theorem distancePulse_clamped {s : State} (on : ¬ s.fare.duty = .off)
    (clamped : ¬ s.limiter.window + 1 ≤ s.limiter.limit) : distancePulse s = clampedPulse s.pulseTaken :=
  (if_neg on).trans (if_neg clamped)

/-- R152: the K in force is the same before and after the pulse has counted on the trip. -/
theorem kInForce_pulsed (f : FareMeter) (w : Option Settings) : kInForce f.pulsed w = kInForce f w := by
  unfold kInForce
  rw [f.pulsed_par]
  rfl

/-! ### The limit (R133) -/

/-- R133: the limit is the quotient by 3600, rounded up. -/
theorem limitFor_ceil (k vmax : Nat) :
    k * vmax ≤ 3600 * limitFor k vmax ∧ 3600 * limitFor k vmax < k * vmax + 3600 := by
  unfold limitFor
  omega

end Sys2Proof.Machine

namespace Sys2Proof.Proofs

open Sys2Proof.Machine

/-- Settles O57: below the threshold the tick counts, at it the time step is completed by the phase. -/
theorem meterTick : Obligations.MeterTick := by
  intro s hp hw due
  have f := meterTick_frame s
  obtain ⟨meter, shift⟩ := publishWith_runningShown (f.wf hw)
  refine ⟨_, exec_meterTick hp due, (publishWith_due _ _).trans (meterTick_due s), ?_, meter, shift,
    gains_publishWith true ((f.attention (by decide)).trans BitVec.or_zero.symm), f.publishWith true⟩
  rw [publishWith_fare, meterTick_fare, Trip.tick_exact, Trip.timeStep_exact]
  rfl

/-- Settles O58: a pulse by the duty and the limit, and on an unclamped one the trip by its threshold. -/
theorem distancePulseAndWindow : Obligations.DistancePulseAndWindow := by
  refine ⟨fun s hp hs => ?_, fun s hs => event_not (.inr hs), fun s hp due => ?_⟩
  · have f := distancePulse_frame s
    refine ⟨publish (distancePulse s), event_next hp hs, ?_, gains_publish_zero (f.attention (by decide)), f.publish⟩
    rw [publish_fare, publish_limiter]
    dsimp only
    by_cases counts : s.fare.duty = .on ∧ s.limiter.window + 1 ≤ s.limiter.limit
    · have ⟨on, unclamped⟩ := counts
      have notOff : ¬ s.fare.duty = .off := by simp [on]
      rw [if_neg notOff, if_pos unclamped, if_congr (and_iff_right counts) rfl rfl,
        if_congr (and_iff_right counts) rfl rfl, if_pos counts, distancePulse_counted notOff unclamped,
        shiftPulse_exact (kInForce_pulsed s.fare s.settings.working), FareMeter.pulsed, Trip.pulse_exact,
        Trip.distanceStep_exact]
      dsimp only
      rw [Trip.distThreshold_eq]
      exact ⟨rfl, rfl⟩
    have noMetre (k : Nat) : ¬ ((s.fare.duty = .on ∧ s.limiter.window + 1 ≤ s.limiter.limit) ∧
      k ≤ s.limiter.remainder + 1000) := fun metre => counts metre.1
    rw [if_neg (noMetre _), if_neg (noMetre _), if_neg counts]
    by_cases off : s.fare.duty = .off
    · rw [if_pos off, distancePulse_offDuty off]
      exact ⟨rfl, rfl⟩
    · have clamped : ¬ s.limiter.window + 1 ≤ s.limiter.limit := fun unclamped =>
        counts ⟨not_not.1 (mt Duty.eq_off off), unclamped⟩
      rw [if_neg off, if_neg clamped, distancePulse_clamped off clamped, clampedPulse_fare, clampedPulse_limiter]
      exact ⟨rfl, rfl⟩
  · have f := (due_frame { s.due with windows := s.due.windows - 1 } s).then (startWindow_frame _)
    refine ⟨_, event_next hp (decide_eq_true due), publish_due _, ?_, ?_, ?_,
      gains_publish_zero (f.attention (by decide)), f.publish⟩ <;> rw [publish_limiter]
    · rfl
    · rfl
    · exact limitFor_ceil _ _

end Sys2Proof.Proofs
end

section
/-! The requests that stop and resume the meter: METER_STOP and METER_RESUME (R146, R148). -/

namespace Sys2Proof.Machine

/-- R148: a request that takes the meter from `src` to `dst` and is refused in any other meter state. -/
def moveMeter (src dst : MeterState) (i : Slot) (s : State) : State :=
  if s.fare.meter = src then
    completeRequest i .done 0 (meterChanged { s with fare := { s.fare with meter := dst } })
  else completeRequest i .refusedState 0 s

theorem meterStop_eq : meterStop = moveMeter .hired .stopped := rfl

theorem meterResume_eq : meterResume = moveMeter .stopped .hired := rfl

section
variable {code : Nat} {i : Slot} {rest : List Slot} {s : State} {src dst : MeterState}

theorem moveMeter_elsewhere (h : ¬ s.fare.meter = src) : moveMeter src dst i s = completeRequest i .refusedState 0 s :=
  if_neg h

theorem moveMeter_moves (h : s.fare.meter = src) : moveMeter src dst i s =
    completeRequest i .done 0 (meterChanged { s with fare := { s.fare with meter := dst } }) := if_pos h

/-- R12, R76, R146: a request answered after a change of the Fare Meter alone, with the effects of a change of meter
state. -/
theorem request_meterChanged (hr : Ready code i rest s) (hs : s.running = true) (hq : s.queueSound) (m : FareMeter)
    (o : ReqOutcome) (d : Nat) :
    let t := publish (completeRequest i o d (meterChanged { s.taken rest with fare := m }))
    answered i rest o d News.meter.mask s t ∧ t.fare = m ∧ statusPlaced s.queue s t ∧ t.lampShows ∧ t.blocksShown ∧
    Frame (withEnds [.order, .fare, .posCopy, .queue]) (outcomeBytes i) s t := by
  intro t
  have f := fare_frame m (s.taken rest)
  have g := f.then (meterChanged_frame _)
  obtain ⟨done, placed, frame⟩ := request_triggered hr hs f (by decide) (fun _ _ _ => id) (resolvable_taken hq rest)
    (setNews_frame .meter _) (by decide)
    (congrArg (· ||| News.meter.mask) (statusTrigger_attention { s.taken rest with fare := m })) o d
  have fare : t.fare = m := by
    rw [publish_fare, completeRequest_fare, meterChanged, setNews_fare, statusTrigger_fare]
  have blocks : t.blocksShown := publishWith_blocksShown ((g.trans (completeRequest_frame i o d _)).wf hr.wf) false
  exact ⟨done, fare, placed, publish_lampShows _, blocks, frame.mono (by decide) fun x hx => hx.elim id False.elim⟩

/-- R146, R148: how a request that moves the meter ends, by the meter state it finds. -/
theorem request_moveMeter (hr : Ready code i rest s) (hs : s.running = true) (hq : s.queueSound) :
    let t := publish (moveMeter src dst i (s.taken rest))
    if s.fare.meter = src then
      answered i rest .done 0 News.meter.mask s t ∧ t.fare = { s.fare with meter := dst } ∧
      statusPlaced s.queue s t ∧ t.lampShows ∧ t.blocksShown ∧
      Frame (withEnds [.order, .fare, .posCopy, .queue]) (outcomeBytes i) s t
    else
      answered i rest .refusedState 0 0 s t ∧ Frame (withEnds [.order]) (outcomeBytes i) s t := by
  dsimp only
  by_cases from_src : s.fare.meter = src
  · rw [if_pos from_src, moveMeter_moves (s := s.taken rest) from_src]
    exact request_meterChanged hr hs hq _ _ _
  · rw [if_neg from_src, moveMeter_elsewhere (s := s.taken rest) from_src]
    exact request_plain hr _ _

end

end Sys2Proof.Machine

namespace Sys2Proof.Proofs

open Sys2Proof.Machine

/-- Settles O26: both requests are one move of the meter, with the source and the target exchanged. -/
theorem meterStopAndResume : Obligations.MeterStopAndResume := by
  refine ⟨fun i rest s hr hs hq => ?stop, fun i rest s hr hs hq => ?resume⟩
  case stop =>
    refine ⟨_, request_judged hr hs, ?_⟩
    rw [meterStop_eq]
    exact request_moveMeter hr hs hq
  case resume =>
    refine ⟨_, request_judged hr hs, ?_⟩
    rw [meterResume_eq]
    exact request_moveMeter hr hs hq

end Sys2Proof.Proofs
end

section
/-! The Emergency Unit's own events (R176 to R185): the base's two frames, the samples of the switch, the outcome of a
call and the expiry of the tracking timer. -/

namespace Sys2Proof.Machine

/-! ### A change of the unit -/

theorem emergency_frame (e : EmergencyUnit) (s : State) : Frame [.emergency] nothing s { s with emergency := e } :=
  .of_keeps (fun p hp => by cases p <;> first | rfl | exact absurd (by decide) hp | exact ⟨rfl, rfl⟩) rfl

/-- R8: an event that has rewritten the Emergency Block outright counts there once. -/
theorem countUp_emergency {s u : State} (hw : s.Inv) (h : u.ram = rewriteBlock emergencyBase u.emergencyFields s.ram) :
    countUp emergencyBase s (publish u) :=
  countUp_publish hw h (fun _ _ _ => rfl) (.inr (.inr (.inr ⟨rfl, rfl⟩)))

/-! ### EMERGENCY_ACK and EMERGENCY_CLEAR (R180, R181) -/

theorem exec_emergencyAck {h : HeldFrame} {s : State} (hp : s.powered = true) (held : heldForOwner s = some h)
    (frame : h.frame = .emergencyAck) :
    exec .emergencyAck s = .next (publish (takeAck h.stamp (takenByOwner s))) := by
  change execEmergencyAck s = _
  unfold execEmergencyAck
  rw [held]
  exact event_next hp (frame ▸ holdsPlain_of_held held)

theorem exec_emergencyClear {h : HeldFrame} {s : State} (hp : s.powered = true) (held : heldForOwner s = some h)
    (frame : h.frame = .emergencyClear) :
    exec .emergencyClear s = .next (publish (takeClear (takenByOwner s))) :=
  event_next hp (frame ▸ holdsPlain_of_held held)

theorem takeAck_alerting {s : State} (h : s.emergency.kept.state = .alerting) (arrival : Stamp) :
    takeAck arrival s = setNews .emergency (rewriteEmergency
      { s with emergency := s.emergency.acknowledged arrival s.working.tracking }) := if_pos h

theorem takeAck_ignored {s : State} (h : ¬ s.emergency.kept.state = .alerting) (arrival : Stamp) :
    takeAck arrival s = s := if_neg h

theorem takeClear_idle {s : State} (h : s.emergency.kept.state = .idle) : takeClear s = s := if_pos h

theorem takeClear_inForce {s : State} (h : ¬ s.emergency.kept.state = .idle) : takeClear s =
    handChange false (requestChime (setNews .emergency
      (rewriteEmergency { s with emergency := s.emergency.cleared }))) := if_neg h

/-! ### The samples of EMG_N (R176, R177) -/

section
variable (period : Nat) {e : EmergencyUnit}

/-- R176: the sample that completes the debounce period is the low one at its end. -/
theorem EmergencyUnit.sampled_completes (low : Bool) : (e.sampled period low).1 = (low && edgeNext e) := by
  unfold EmergencyUnit.sampled edgeNext
  cases e.debounce with
  | released => cases low <;> rfl
  | held => cases low <;> rfl
  | timing n =>
    cases low with
    | false => rfl
    | true => by_cases last : n ≤ 1 <;> simp [last]

theorem EmergencyUnit.sampled_high : (e.sampled period false).2 = { e with debounce := .released } := by
  unfold EmergencyUnit.sampled
  cases e.debounce <;> rfl

/-- R177: the low sample that leaves RELEASED fixes the period. -/
theorem EmergencyUnit.sampled_released (h : e.debounce = .released) :
    (e.sampled period true).2 = { e with period := period, debounce := .timing (period - 1) } := by
  unfold EmergencyUnit.sampled
  rw [h]

theorem EmergencyUnit.sampled_held (h : e.debounce = .held) : (e.sampled period true).2 = e := by
  unfold EmergencyUnit.sampled
  rw [h]

theorem EmergencyUnit.sampled_timing {n : Nat} (h : e.debounce = .timing n) :
    (e.sampled period true).2 = { e with debounce := if n ≤ 1 then .held else .timing (n - 1) } := by
  unfold EmergencyUnit.sampled
  rw [h]
  by_cases last : n ≤ 1 <;> simp [last]

end

theorem edgeNext_timing {e : EmergencyUnit} {n : Nat} (h : e.debounce = .timing n) :
    edgeNext e = true ↔ n ≤ 1 := by
  unfold edgeNext
  rw [h]
  exact decide_eq_true_iff

/-- R176: a sample counted and judged by the debouncer, before the trigger it may complete. -/
def State.inputSampled (low : Bool) (s : State) : State :=
  { s with
    emergency := (s.emergency.sampled s.working.debounce low).2
    due := { s.due with inputSamples := s.due.inputSamples - 1 } }

theorem State.inputSampled_frame (low : Bool) (s : State) : Frame [.emergency, .due] nothing s (s.inputSampled low) :=
  (emergency_frame (s.emergency.sampled s.working.debounce low).2 s).then
    (due_frame { s.due with inputSamples := s.due.inputSamples - 1 } _)

theorem inputSample_eq (low : Bool) (s : State) : inputSample low s =
    if (low && edgeNext s.emergency) = true then trigger .switch (s.inputSampled low) else s.inputSampled low := by
  rw [← EmergencyUnit.sampled_completes s.working.debounce]
  rfl

/-- R176: the completing sample counted, the debouncer HELD. -/
def State.debounced (s : State) : State :=
  { s with
    emergency := { s.emergency with debounce := .held }
    due := { s.due with inputSamples := s.due.inputSamples - 1 } }

/-- R176: the low sample that completes the period is a trigger of the switch. -/
theorem inputSample_last {s : State} {n : Nat} (timing : s.emergency.debounce = .timing n) (last : n ≤ 1) :
    inputSample true s = trigger .switch s.debounced := by
  rw [inputSample_eq, if_pos ((Bool.true_and _).trans ((edgeNext_timing timing).2 last)), State.inputSampled,
    EmergencyUnit.sampled_timing _ timing, if_pos last]
  rfl

/-! ### The outcome of a call and the tracking timer (R184, R185) -/

theorem exec_callOutcome {o : FrameOutcome} {rest : List FrameOutcome} {s : State} (hp : s.powered = true)
    (hm : s.mail.callOuts = o :: rest) : exec .callOutcome s =
      .next (publish (takesCallOutcome o { s with mail := { s.mail with callOuts := rest } })) := by
  have taken : callOutcomeTaken s = takesCallOutcome o { s with mail := { s.mail with callOuts := rest } } := by
    unfold callOutcomeTaken
    rw [hm]
  rw [← taken]
  exact event_next hp (by rw [hm]; rfl)

/-- R184: the unit after the outcome of a call in hand. -/
theorem withCallOutcome_inHand {u : EmergencyUnit} (h : u.callInHand = true) (o : FrameOutcome) :
    withCallOutcome o u = { u with
      callInHand := false
      lastCall := o.callResult
      pacing := if u.kept.state = .alerting then pacingAfter o u.pacing else u.pacing
      callDue := u.callDue || (u.kept.state == .acknowledged && (o == .notSent || o == .abandoned)) } := by
  unfold withCallOutcome
  rw [if_neg (Bool.not_eq_false _ ▸ h), ite_not]
  rfl

theorem withCallOutcome_ignored {u : EmergencyUnit} (h : ¬ u.callInHand = true) (o : FrameOutcome) :
    withCallOutcome o u = u := if_pos (Bool.eq_false_iff.2 h)

/-- R8, R184: the outcome of a call in hand rewrites the Emergency Block. -/
theorem takesCallOutcome_ram {s : State} (h : s.emergency.callInHand = true) (o : FrameOutcome) :
    (takesCallOutcome o s).ram = rewriteBlock emergencyBase (takesCallOutcome o s).emergencyFields s.ram := by
  unfold takesCallOutcome
  rw [if_pos h]
  rfl

end Sys2Proof.Machine

namespace Sys2Proof.Proofs

open Sys2Proof.Machine

/-- Settles O53: each frame by the emergency state that its owner finds. -/
theorem emergencyAckAndClear : Obligations.EmergencyAckAndClear := by
  refine ⟨fun h s hp held frame => ?ack, fun h s hp held frame => ?clear⟩
  case ack =>
    have f := takeAck_frame h.stamp (takenByOwner s)
    refine ⟨_, exec_emergencyAck hp held frame, releasedBy_publish held f (by decide), ?_,
      ((takenByOwner_frame s).then f).publish.mono (by decide) fun _ => id⟩
    by_cases alerting : s.emergency.kept.state = .alerting
    · rw [if_pos alerting, takeAck_alerting (s := takenByOwner s) alerting]
      exact ⟨publish_emergency _, gains_publish rfl⟩
    · rw [if_neg alerting, takeAck_ignored (s := takenByOwner s) alerting]
      exact ⟨publish_emergency _, gains_publish_zero rfl⟩
  case clear =>
    have f := takeClear_frame (takenByOwner s)
    refine ⟨_, exec_emergencyClear hp held frame, releasedBy_publish held f (by decide), ?_,
      ((takenByOwner_frame s).then f).publish.mono (by decide) fun _ => id⟩
    by_cases idle : s.emergency.kept.state = .idle
    · rw [if_pos idle, takeClear_idle (s := takenByOwner s) idle]
      exact ⟨publish_emergency _, publish_chime _, publish_mail _, gains_publish_zero rfl⟩
    · rw [if_neg idle, takeClear_inForce (s := takenByOwner s) idle]
      exact ⟨publish_emergency _, publish_chime _, publish_mail _, gains_publish rfl⟩

/-- Settles O54: a sample by the debouncer's state and the level, and the completing one by whether an emergency is
in force. -/
theorem emergencyInput : Obligations.EmergencyInput := by
  refine ⟨fun low s hp waits incomplete => ?sample, fun n s hp hw waits timing last => ?edge⟩
  case sample =>
    have still : inputSample low s = s.inputSampled low := by
      rw [inputSample_eq, if_neg (by rwa [Bool.and_eq_true])]
    refine ⟨publish (inputSample low s), event_next hp (decide_eq_true waits), ?_⟩
    rw [still]
    refine ⟨(publish_emergency _).trans ?_, publish_due _, gains_publish_zero rfl,
      (s.inputSampled_frame low).publish⟩
    cases low with
    | false =>
      refine (EmergencyUnit.sampled_high _).trans ?_
      cases s.emergency.debounce <;> rfl
    | true =>
      cases debounce : s.emergency.debounce with
      | released => exact EmergencyUnit.sampled_released _ debounce
      | held => exact EmergencyUnit.sampled_held _ debounce
      | timing n =>
        have more : ¬ n ≤ 1 := fun last => incomplete ⟨rfl, (edgeNext_timing debounce).2 last⟩
        exact (EmergencyUnit.sampled_timing _ debounce).trans (by rw [if_neg more])
  case edge =>
    have edge : edgeNext s.emergency = true := (edgeNext_timing timing).2 last
    have f := inputSample_frame true s
    rw [inputSample_last timing last] at f
    refine ⟨publish (trigger .switch s.debounced), ?_, ?_, ?_⟩
    · rw [← inputSample_last timing last]
      exact event_next hp (by rw [decide_eq_true waits, edge]; rfl)
    · rw [← inputSample_last timing last]
      exact event_next hp (decide_eq_true waits)
    have frame := f.publish.mono (b := withEnds [.emergency, .due, .mail]) (by decide) fun _ => id
    have counts := countUp_emergency (s := s.debounced) hw (trigger_ram .switch _)
    by_cases idle : s.emergency.kept.state = .idle
    · rw [trigger_idle (s := s.debounced) idle] at counts frame ⊢
      rw [if_pos idle]
      exact ⟨congrArg (·.debounce) (publish_emergency _), congrArg (·.period) (publish_emergency _), publish_due _,
        ⟨⟨(publish_emergency _).trans (by rw [publish_emergency]; rfl), publish_mail _, counts⟩, gains_publish rfl⟩,
        frame⟩
    · rw [trigger_inForce (s := s.debounced) idle] at counts frame ⊢
      rw [if_neg idle]
      exact ⟨congrArg (·.debounce) (publish_emergency _), congrArg (·.period) (publish_emergency _), publish_due _,
        ⟨publish_emergency _, publish_mail _, counts, gains_publish_zero rfl⟩, frame⟩

/-- Settles O56: an outcome by whether a call is in hand (`takesCallOutcome_emergency`). -/
theorem callOutcomeAndTracking : Obligations.CallOutcomeAndTracking := by
  refine ⟨fun o rest s hp hw hm => ?outcome, fun s hp acknowledged runs out => ?tracking⟩
  case outcome =>
    have f := (mail_frame { s.mail with callOuts := rest } s).then (takesCallOutcome_frame o _)
    refine ⟨_, exec_callOutcome hp hm, (publish_mail _).trans ((takesCallOutcome_frame o _).mail (by decide)), ?_,
      gains_publish_zero (f.attention (by decide)), f.publish.mono (by decide) fun _ => id⟩
    rw [publish_emergency, takesCallOutcome_emergency]
    by_cases inHand : s.emergency.callInHand = true
    · rw [if_pos inHand]
      exact ⟨withCallOutcome_inHand inHand o, countUp_emergency hw (takesCallOutcome_ram
        (s := { s with mail := { s.mail with callOuts := rest } }) inHand o), publishWith_blocksShown (f.wf hw) false⟩
    · rw [if_neg inHand]
      exact withCallOutcome_ignored inHand o
  case tracking =>
    exact ⟨_, event_next hp (by simp [acknowledged, Timer.due, runs, out]), publish_emergency _,
      gains_publish_zero rfl, (trackingExpired_frame s).publish⟩

end Sys2Proof.Proofs
end

section
/-! The losses of the two supplies (R193, R194): what each leaves, both orders of the two, and the part without its
logic supply. -/

namespace Sys2Proof.Machine

/-! ### What each loss touches -/

theorem losePower_frame (s : State) : Frame [.powered, .pins, .free, .retained] nothing s (losePower s) :=
  .of_keeps (fun p hp => by cases p <;> simp_all [Part.same, losePower]) rfl

theorem loseBackup_frame (s : State) : Frame [.retained] nothing s (loseBackup s) :=
  .of_keeps (fun p hp => by cases p <;> simp_all [Part.same, loseBackup]) rfl

/-! ### Both supplies lost (R194) -/

/-- R194: without logic supply the loss of VBAK discards the retained contents. -/
theorem loseBackup_unpowered {s : State} (h : s.powered = false) :
    (loseBackup s).retained = { s.retained with vbakAbsent := true }.lost := by
  unfold loseBackup
  rw [h]
  rfl

/-- R193, R194: and so does the loss of the logic supply where VBAK is absent. -/
theorem losePower_vbakAbsent {s : State} (h : s.retained.vbakAbsent = true) :
    (losePower s).retained = s.retained.lost :=
  if_pos h

/-- R194: the latch is set where VBAK goes first. -/
theorem losePower_loseBackup_latch {s : State} (h : s.powered = true) :
    (losePower (loseBackup s)).retained.latch = true := by
  rw [loseBackup_powered h, losePower_vbakAbsent rfl]
  rfl

/-- R194: and where the logic supply goes first. -/
theorem loseBackup_losePower_latch (s : State) : (loseBackup (losePower s)).retained.latch = true := by
  rw [loseBackup_unpowered rfl]
  rfl

/-- R195: a latch that is set gives NONE at power-on. -/
theorem powerUp_result_none {s : State} (h : s.retained.latch = true) (vsup : Nat) :
    (powerUp vsup s).retained.result = .none := by
  change judgeRetained s.retained = .none
  rw [judgeRetained_eq, if_pos h]

/-! ### Without logic supply (R193) -/

theorem exec_logicSupplyLoss_powered {s : State} (h : s.powered = true) :
    exec .logicSupplyLoss s = .next (losePower s) := by
  rw [exec_logicSupplyLoss, if_pos h]

/-- R193: only a power-on and the loss of VBAK act on a part without logic supply. -/
theorem exec_unpowered {c : Instr} {s : State} (h : s.powered = false) (h1 : ∀ v, c ≠ .powerOn v)
    (h2 : c ≠ .backupSupplyLoss) : exec c s = .next s := by
  by_cases hc : c = .logicSupplyLoss
  · rw [hc, exec_logicSupplyLoss, h]
    rfl
  · rw [exec_effect h1 hc h2, h]
    rfl

end Sys2Proof.Machine

namespace Sys2Proof.Proofs

open Sys2Proof.Machine

/-- Settles O9: each loss by its own function, the two orders by the latch that both set, and the unpowered part by
the occasion that no other command has. -/
theorem supplyLosses : Obligations.SupplyLosses := by
  refine ⟨fun s hp => ?logic, fun s => ?backup, fun vsup s hp => ?orders, fun c s hp h1 h2 => exec_unpowered hp h1 h2⟩
  case logic =>
    exact ⟨_, exec_logicSupplyLoss_powered hp, rfl, rfl, losePower_frame s, rfl⟩
  case backup =>
    exact ⟨_, exec_backupSupplyLoss s, rfl, loseBackup_frame s, rfl⟩
  case orders =>
    have stillPowered : (loseBackup s).powered = true := hp
    exact ⟨_, _, _, _, _, _, exec_backupSupplyLoss s, exec_logicSupplyLoss_powered stillPowered, exec_powerOn vsup _,
      exec_logicSupplyLoss_powered hp, exec_backupSupplyLoss _, exec_powerOn vsup _,
      powerUp_result_none (losePower_loseBackup_latch hp) vsup, powerUp_result_none (loseBackup_losePower_latch s) vsup⟩

end Sys2Proof.Proofs
end

section
/-! How a step takes its command (log entries 1 and 2): the front of the queue, the idling on an empty one, and that
every command answers a next state and leaves the queue of waiting commands alone. -/

namespace Sys2Proof.Machine

/-! ### The step by the queue -/

theorem step_front (c : Instr) (rest : List Instr) (s : State) :
    step { s with pending := c :: rest } = exec c { s with pending := rest } := rfl

theorem step_idle {s : State} (h : s.pending = []) : step s = .next s := by
  unfold step
  rw [h]

/-! ### What a command answers, and what that leaves of the queue -/

/-- Log entry 1: the answer where the occasion is absent is a next state as well (`exec_effect`). -/
theorem exec_isNext (c : Instr) (s : State) : ∃ t, exec c s = .next t := by
  cases c with
  | powerOn v => exact ⟨_, exec_powerOn v s⟩
  | logicSupplyLoss => exact ⟨_, exec_logicSupplyLoss s⟩
  | backupSupplyLoss => exact ⟨_, exec_backupSupplyLoss s⟩
  | _ => exact ⟨_, exec_effect (by nofun) (by nofun) (by nofun) s⟩

theorem Frame.pending {a : List Part} {p : Nat → Prop} {s t : State} (f : Frame a p s t)
    (h : Part.pending ∉ a) : t.pending = s.pending := f.keeps .pending h

theorem effect_pending (c : Instr) (s : State) : (effect c s).pending = s.pending :=
  effect_keeps (p := .pending) c s (by decide)

/-- R19: the commands that wait are not of the part, so that a power-on does not reset them either. -/
theorem powerUp_pending (vsup : Nat) (s : State) : (powerUp vsup s).pending = s.pending := rfl

/-- The queue of waiting commands is the step's alone. -/
theorem exec_pending {c : Instr} {s t : State} (h : exec c s = .next t) : t.pending = s.pending := by
  obtain ⟨v, -, rfl⟩ | ⟨-, -, rfl⟩ | ⟨-, rfl⟩ | rfl | ⟨full, rfl⟩ := exec_answers h
  · exact powerUp_pending v s
  · exact (losePower_frame s).pending (by decide)
  · exact (loseBackup_frame s).pending (by decide)
  · rfl
  · exact (publishWith_pending full _).trans (effect_pending c s)

end Sys2Proof.Machine

namespace Sys2Proof.Proofs

open Sys2Proof.Machine

/-- Settles O2: every command answers (`exec_isNext`), and no answer touches the queue (`exec_pending`). -/
theorem everyCommandAnswers : Obligations.EveryCommandAnswers := by
  intro c s
  obtain ⟨t, answers⟩ := exec_isNext c s
  exact ⟨t, answers, exec_pending answers⟩

/-- Settles O1: both clauses are `step` by the queue it finds. -/
theorem stepRunsFrontCommand : Obligations.StepRunsFrontCommand :=
  ⟨step_front, fun _ => step_idle⟩

end Sys2Proof.Proofs
end
